-- ==== Sys2Proof/Word.lean ====
section
/-! DEFINITION. The words, numbers and small name sets every later file uses (spec 00, section 1.6). -/

namespace Sys2Proof

/-- A byte of a frame or of a table entry (R179). -/
abbrev Byte := BitVec 8

/-- A 16-bit word: check words, chain words, capture CRC, event tags. -/
abbrev Word := BitVec 16

/-- A tick of the monotonic count, and an epoch value: 48 bits, both wrap (R1, R165). -/
abbrev Tick := BitVec 48

/-- A crossing instant in subticks, 56 bits (R48). -/
abbrev Instant := BitVec 56

/-- A 24-bit two's-complement sample code. -/
abbrev Code := BitVec 24

/-- Supply points 0 to 3. -/
abbrev Point := Fin 4

/-- Acquisition modules AM0 to AM3. -/
abbrev Module := Fin 4

/-- Channel slots 0 to 5 of a module. -/
abbrev Slot := Fin 6

/-- Logical channels 0 to 23. -/
abbrev Channel := Fin 24

/-- What caused a reset (R130, R160). -/
inductive ResetCause where
  | powerOn
  | resetPin
  deriving DecidableEq, Repr

/-- The two levels read on SFI (section 10.5). -/
inductive SupplyLevel where
  | good
  | failing
  deriving DecidableEq, Repr

/-- The two attention lines ATN0 and ATN1. -/
inductive LineId where
  | line0
  | line1
  deriving DecidableEq, Repr

/-- The ten attention classes, in the order of the table of section 11.1. -/
inductive AttnClass where
  | eventOnset
  | eventEnd
  | captureDone
  | intervalClosed
  | assessmentClosed
  | moduleState
  | leadState
  | queueHigh
  | supply
  | replyReady
  deriving DecidableEq, Repr

/-- The orders of one strobe expiry that the spec leaves open, as the sender of the command gives them
(log entry 3). `pointOrder` is the order in which the points take the closing set (R118, R131), `moduleOrder` that
in which several modules' records of one deadline are offered. The next four say after how many of the points, 0 to
4, something else of the same moment happens: `fieldAt`, the placing of the command field of the new strobe (R32);
`periodAt` and `secondAt`, the two due markings of the new count value (R30), each on its own; and `framesAt`, the
formation of capture frames on the writing of the set (R118, R121), which 5 puts after an entry to HOLDUP that falls
due at this moment (R126). `timeoutsAt` is the place of the module commands that this closing times out (R19, R131):
after so many of the points, before the frames that are formed there or after them as `timeoutsFirst` says; at 5 they
end before the misses of the deadline are counted with `timeoutsFirst`, and are left to their own rows without it.
`line0First` and `line1First` let a pulse or gap of that line that ends as the new tick begins end before the classes
that the expiry raises, which otherwise find the line as it was (R176). -/
structure Interleaving where
  pointOrder : Fin 24
  moduleOrder : Fin 24
  fieldAt : Fin 5
  periodAt : Fin 5
  secondAt : Fin 5
  framesAt : Fin 6
  timeoutsAt : Fin 6
  timeoutsFirst : Bool
  line0First : Bool
  line1First : Bool
  deriving DecidableEq, Repr

/-- A value brought to the nearer end of its range ("clamped", section 1.6). -/
def clampNat (lo hi x : Nat) : Nat :=
  if x < lo then lo else if hi < x then hi else x

/-- A signed value brought to the nearer end of its range. -/
def clampInt (lo hi x : Int) : Int :=
  if x < lo then lo else if hi < x then hi else x

/-- `a / b` rounded half up (section 1.6). -/
def divRound (a b : Nat) : Nat :=
  (2 * a + b) / (2 * b)

/-- The largest multiple of `len` that is not above `e` (R49, R98). -/
def multipleBelow (len e : Nat) : Nat :=
  e - e % len

/-- A counter that stops at `top`. -/
def satSucc (top n : Nat) : Nat :=
  if n < top then n + 1 else top

/-- Bit `n` of a set held as a mask (R179). -/
def inMask {w : Nat} (m : BitVec w) (n : Nat) : Bool :=
  m.getLsbD n

/-- Element `n` of a list and the list without it. -/
def pickAt {α : Type} : List α → Nat → Option (α × List α)
  | [], _ => none
  | x :: xs, 0 => some (x, xs)
  | x :: xs, n + 1 =>
    match pickAt xs n with
    | none => none
    | some (y, ys) => some (y, x :: ys)

/-- The four numbers 0 to 3 in the order that a number below 24 names (its factorial digits). -/
def orderOf (k : Fin 24) : List (Fin 4) :=
  match pickAt [0, 1, 2, 3] (k.val / 6) with
  | none => [0, 1, 2, 3]
  | some (a, r) =>
    match pickAt r (k.val % 6 / 2) with
    | none => [0, 1, 2, 3]
    | some (b, r2) =>
      match pickAt r2 (k.val % 2) with
      | none => [0, 1, 2, 3]
      | some (c, r3) => a :: b :: c :: r3

/-- The points, the modules, in order of number. -/
def allFour : List (Fin 4) := [0, 1, 2, 3]

/-- The logical channels in order of number. -/
def allChannels : List Channel := List.finRange 24

/-- The slots of a module in order of number. -/
def allSlots : List Slot := List.finRange 6

/-- One element of a vector changed by a function. -/
def updAt {α : Type} {n : Nat} (v : Vector α n) (i : Fin n) (f : α → α) : Vector α n :=
  v.set i.val (f v[i.val])

/-- Every element of a vector changed by a function of its place (it reduces in the kernel). -/
def mapAll {α β : Type} {n : Nat} (v : Vector α n) (f : Fin n → α → β) : Vector β n :=
  Vector.ofFn (fun i => f i v[i.val])

end Sys2Proof
end

