-- ==== Sys2Proof/Config.lean ====
section
/-! DEFINITION. The fixed sizes of the device, and the one free value of the model. -/

namespace Sys2Proof.Config

/-- Places of the record queue (R132). -/
def recordQueueSize : Nat := 96

/-- Class B records are admitted below this occupancy (R132). -/
def classBLimit : Nat := 88

/-- Class C records are admitted below this occupancy (R132); reaching it raises QUEUE_HIGH (R135). -/
def classCLimit : Nat := 64

/-- Places of the Capture Queue (R139). -/
def captureQueueSize : Nat := 48

/-- Sample sets the History Buffer holds (R115). -/
def historySize : Nat := 2048

/-- Sets of a full capture frame (R121). -/
def frameSets : Nat := 64

/-- Shortest and longest half-window of the two modes (R42, R43). -/
def trackMin : Nat := 96
def trackMax : Nat := 160
def freeMin : Nat := 32
def freeMax : Nat := 128

/-- More held samples than this over two half-windows make a window value UNAVAILABLE (R58). -/
def heldLimit : Nat := 16

/-- Good frames in a row that make a module LOCKED (R12). -/
def lockRun : Nat := 4

/-- Ticks after its send tick in which a module command may be answered (R18). -/
def answerTicks : Nat := 64

/-- Values a pre-event current ring holds (R90). -/
def ringSize : Nat := 8

/-- Ticks of a nominal cycle (section 1.6). -/
def cycleTicks : Nat := 256

/-- The largest magnitude result (section 1.6). -/
def maxResult : Nat := 16777215

/-- The largest origin ratio (R69). -/
def maxRatio : Nat := 65535

/-- FREE VALUE (log entry 13). The content of a 4-byte count field of a record for a count that four bytes
cannot hold: the spec gives the field four bytes and states no content for a longer count. -/
opaque countField : Nat → BitVec 32

end Sys2Proof.Config
end

