-- ==== Sys2Proof/Syntax.lean ====
section
/-! DEFINITION. The commands of the block: one constructor for each row of spec/opcode_table.json. -/

namespace Sys2Proof

/-- A command (spec/95_what_each_step_holds.md: one whole, indivisible step). The rows from `unknownKind` to
`moduleCommand` are control frames taken with good length and check word; `exchangeEnd` carries the bytes of
a frame still to be judged (log entry 5). -/
inductive Instr where
  /-- RESET (R160): power-on or RESETN, from its cause to its end. -/
  | reset (cause : ResetCause)
  /-- INIT_COMPLETE (R161). -/
  | initComplete
  /-- STROBE_TIMER_EXPIRY (R1), with SFI as sampled at this expiry (R167) and the orders left open (log entry 3). -/
  | strobeTimerExpiry (sfi : SupplyLevel) (order : Interleaving)
  /-- LEAD_CHECK_PERIOD_DUE (R30). -/
  | leadCheckPeriodDue
  /-- WHOLE_SECOND_DUE (R30). -/
  | wholeSecondDue
  /-- MODULE_COMMAND_TIMEOUT (R19) of one module. -/
  | moduleCommandTimeout (m : Module)
  /-- SAMPLE_FRAME (R5): the bytes that arrived on MLRI; `leadFirst`: a lead record goes before a reply record
  of the same frame (log entry 3). -/
  | sampleFrame (bytes : List Byte) (leadFirst : Bool)
  /-- CAPTURE_FRAME_FORM (R121): one frame. -/
  | captureFrameForm
  /-- PULSE_EXPIRY (R176) of one line. -/
  | pulseExpiry (line : LineId)
  /-- GAP_EXPIRY (R176) of one line. -/
  | gapExpiry (line : LineId)
  /-- SUPPLY_FAILURE (R168). -/
  | supplyFailure
  /-- SUPPLY_RETURN_HOLDUP (R170). -/
  | supplyReturnHoldup
  /-- HOLDUP_TIMER_EXPIRY (R171); the order in which the replies of ended module commands are offered. -/
  | holdupTimerExpiry (moduleOrder : Fin 24)
  /-- SUPPLY_RETURN_STANDBY (R173). -/
  | supplyReturnStandby
  /-- EXCHANGE_BEGIN (R142): SPSEL asserted. -/
  | exchangeBegin
  /-- EXCHANGE_END (R145): SPSEL released after these whole bytes were clocked both ways; the order of modules
  is used when they are a SETUP write. -/
  | exchangeEnd (bytes : List Byte) (moduleOrder : Fin 24)
  /-- UNKNOWN_KIND (R149). -/
  | unknownKind (kind tag : Byte)
  /-- NOP (R151). -/
  | nop (tag : Byte)
  /-- ACK (R151), with its class mask. -/
  | ack (tag : Byte) (classes : Word)
  /-- TABLE-WRITE of SETUP (R155); the order in which several modules' records are offered. -/
  | tableWriteSetup (tag index : Byte) (entry : List Byte) (moduleOrder : Fin 24)
  /-- TABLE-WRITE of CHANNEL MAP (R21). -/
  | tableWriteChannelMap (tag index : Byte) (entry : List Byte)
  /-- TABLE-WRITE of LIMITS (R71). -/
  | tableWriteLimits (tag index : Byte) (entry : List Byte)
  /-- TABLE-WRITE of ROUTING (R157). -/
  | tableWriteRouting (tag index : Byte) (entry : List Byte)
  /-- TABLE-WRITE naming no table or a read-only one (R152). -/
  | tableWriteReadOnly (tag table index : Byte)
  /-- TABLE-READ (R153). -/
  | tableRead (tag table first count : Byte)
  /-- START (R163). -/
  | start (tag : Byte)
  /-- STOP (R164). -/
  | stop (tag : Byte)
  /-- TIME-SET (R166). -/
  | timeSet (tag : Byte) (epoch : Tick)
  /-- TRIGGER (R119). -/
  | trigger (tag point : Byte)
  /-- CLOSE-ASSESSMENT (R113). -/
  | closeAssessment (tag point : Byte)
  /-- MODULE-COMMAND (R17). -/
  | moduleCommand (tag module : Byte) (word : BitVec 32)
  deriving DecidableEq, Repr

end Sys2Proof
end

