-- ==== Sys2Proof/Decode.lean ====
section
/-! DEFINITION. The commands that words spell: none, since no row of spec/opcode_table.json gives bits. -/

namespace Sys2Proof

/-- Every row of the opcode table has an empty list of fields and no fixed bits, so no word spells a command
(log entry 25). -/
def decodeTableWord (_nbits _w : Nat) : Option Instr :=
  none

end Sys2Proof
end

