-- ==== Sys2Proof/Machine/Tables.lean ====
section
/-! DEFINITION. The tables of the device (chapter 9) and the name sets their entries use (section 12.6). -/

namespace Sys2Proof.Machine

/-- Nominal frequency of SETUP, 50 or 60 Hz (R154). -/
inductive Nominal where
  | hz50
  | hz60
  deriving DecidableEq, Repr

/-- Restart policy of SETUP (R154). -/
inductive RestartPolicy where
  | stayStopped
  | resume
  deriving DecidableEq, Repr

/-- Kind of a logical channel (R20). -/
inductive ChannelKind where
  | voltage
  | current
  deriving DecidableEq, Repr

/-- Route of an attention class (R157). -/
inductive Route where
  | none
  | line0
  | line1
  deriving DecidableEq, Repr

/-- Mode of an attention line (R157). -/
inductive LineMode where
  | levelHigh
  | levelLow
  | pulseHigh
  | pulseLow
  deriving DecidableEq, Repr

/-- Pulse width of an attention line in nominal cycles (R157). -/
inductive PulseWidth where
  | w1
  | w4
  | w16
  | w64
  deriving DecidableEq, Repr

/-- State of an acquisition module (section 1.5). -/
inductive ModuleState where
  | disabled
  | seeking
  | locked
  | lost
  deriving DecidableEq, Repr

/-- Lead state of a logical channel (section 2.5). -/
inductive LeadState where
  | notChecked
  | connected
  | suspect
  | opened
  deriving DecidableEq, Repr

/-- States a low tracker shows in POINT STATUS (R158). -/
inductive LowState where
  | quiet
  | dip
  | interrupt
  deriving DecidableEq, Repr

/-- States a high tracker shows in POINT STATUS (R158). -/
inductive HighState where
  | quiet
  | swell
  deriving DecidableEq, Repr

/-- Modes a Boundary Unit shows in POINT STATUS (R158). -/
inductive BoundaryMode where
  | free
  | track
  deriving DecidableEq, Repr

/-- The SETUP entry (R154): numeric fields as numbers, the two sets as masks (R179). -/
structure Setup where
  nominal : Nominal
  intervalLength : Nat
  assessmentLength : Nat
  blockPoints : BitVec 4
  leadPeriod : Nat
  missLimit : Nat
  moduleEnable : BitVec 4
  holdupLimit : Nat
  debounce : Nat
  restart : RestartPolicy
  preTrigger : Nat
  postTrigger : Nat
  highMark : Nat
  lowMark : Nat
  originRise : Nat
  originMinimum : Nat
  deriving DecidableEq, Repr

/-- The defaults reset loads (R154). -/
def Setup.default : Setup where
  nominal := .hz50
  intervalLength := 600
  assessmentLength := 1008
  blockPoints := 0
  leadPeriod := 300
  missLimit := 8
  moduleEnable := 0
  holdupLimit := 250
  debounce := 32
  restart := .stayStopped
  preTrigger := 512
  postTrigger := 2048
  highMark := 40
  lowMark := 16
  originRise := 64
  originMinimum := 500

/-- Strobe rate in ticks per second (section 1.6). -/
def Nominal.rate : Nominal → Nat
  | .hz50 => 12800
  | .hz60 => 15360

/-- Full block length in half-windows (R100). -/
def Nominal.blockLength : Nominal → Nat
  | .hz50 => 20
  | .hz60 => 24

/-- Interval length in ticks, L_I (section 6.2). -/
def Setup.intervalTicks (u : Setup) : Nat :=
  u.intervalLength * u.nominal.rate

/-- Length of a frequency period in ticks (section 3.5). -/
def Setup.periodTicks (u : Setup) : Nat :=
  10 * u.nominal.rate

/-- Lead check period in ticks (R30). -/
def Setup.leadTicks (u : Setup) : Nat :=
  u.leadPeriod * u.nominal.rate

/-- Length of the hold-up timer in ticks (R168). -/
def Setup.holdupTicks (u : Setup) : Nat :=
  u.holdupLimit * Config.cycleTicks

/-- Whether module `m` is in the module-enable set. -/
def Setup.enables (u : Setup) (m : Module) : Bool :=
  inMask u.moduleEnable m.val

/-- An entry of the channel map (R20). A disabled entry holds whatever its bytes carried (R21). -/
structure MapEntry where
  enabled : Bool
  leadCheck : Bool
  module : Nat
  slot : Nat
  kind : ChannelKind
  point : Nat
  phase : Nat
  offset : BitVec 16
  gain : Nat
  delay : Nat
  level : Code
  band : Nat
  deriving DecidableEq, Repr

/-- The zeroed entry that INIT leaves (R20). -/
def MapEntry.cleared : MapEntry where
  enabled := false
  leadCheck := false
  module := 0
  slot := 0
  kind := .voltage
  point := 0
  phase := 0
  offset := 0
  gain := 0
  delay := 0
  level := 0
  band := 0

/-- An entry of the LIMITS table (R70). -/
structure LimitsEntry where
  declared : Nat
  dip : Nat
  swell : Nat
  interruption : Nat
  hysteresis : Nat
  lowerBand : Nat
  upperBand : Nat
  freqLower : Nat
  freqUpper : Nat
  crossing : Nat
  deriving DecidableEq, Repr

/-- The zeroed entry that INIT leaves (R70). -/
def LimitsEntry.cleared : LimitsEntry where
  declared := 0
  dip := 0
  swell := 0
  interruption := 0
  hysteresis := 0
  lowerBand := 0
  upperBand := 0
  freqLower := 0
  freqUpper := 0
  crossing := 0

/-- The eight derived thresholds of a point, in centivolts (R67). -/
structure Thresholds where
  dipStart : Nat
  dipEnd : Nat
  intStart : Nat
  intEnd : Nat
  swellStart : Nat
  swellEnd : Nat
  lowerBand : Nat
  upperBand : Nat
  deriving DecidableEq, Repr

/-- All eight levels 0, as after the clearing of the tables (R67). -/
def Thresholds.zero : Thresholds where
  dipStart := 0
  dipEnd := 0
  intStart := 0
  intEnd := 0
  swellStart := 0
  swellEnd := 0
  lowerBand := 0
  upperBand := 0

/-- Mode and pulse width of one attention line (R157). -/
structure LineConfig where
  mode : LineMode
  width : PulseWidth
  deriving DecidableEq, Repr

/-- The ROUTING entry (R157): a route for each class in class order, and the two lines. -/
structure Routing where
  routes : Vector Route 10
  config0 : LineConfig
  config1 : LineConfig
  deriving DecidableEq, Repr

/-- The zeroed entry that INIT leaves: every class NONE, both lines LEVEL_HIGH, width 1 cycle (R157). -/
def Routing.cleared : Routing where
  routes := Vector.replicate 10 .none
  config0 := { mode := .levelHigh, width := .w1 }
  config1 := { mode := .levelHigh, width := .w1 }

/-- The place of a class in the order of section 11.1, which is its bit in a class mask (R179). -/
def classIndex : AttnClass → Fin 10
  | .eventOnset => 0
  | .eventEnd => 1
  | .captureDone => 2
  | .intervalClosed => 3
  | .assessmentClosed => 4
  | .moduleState => 5
  | .leadState => 6
  | .queueHigh => 7
  | .supply => 8
  | .replyReady => 9

/-- The route that ROUTING gives a class. -/
def Routing.route (r : Routing) (c : AttnClass) : Route :=
  r.routes[(classIndex c).val]

/-- The configuration of a line. -/
def Routing.config (r : Routing) : LineId → LineConfig
  | .line0 => r.config0
  | .line1 => r.config1

/-- Pulse width in ticks, W (section 11.3). -/
def PulseWidth.ticks : PulseWidth → Nat
  | .w1 => 256
  | .w4 => 1024
  | .w16 => 4096
  | .w64 => 16384

/-- Whether a mode is a pulse mode. -/
def LineMode.isPulse : LineMode → Bool
  | .levelHigh => false
  | .levelLow => false
  | .pulseHigh => true
  | .pulseLow => true

/-- The active level of a mode, `true` for high (section 11.2). -/
def LineMode.activeHigh : LineMode → Bool
  | .levelHigh => true
  | .levelLow => false
  | .pulseHigh => true
  | .pulseLow => false

/-- The route value that names a line. -/
def lineRoute : LineId → Route
  | .line0 => .line0
  | .line1 => .line1

/-- An entry of MODULE STATUS as a read returns it (R16). -/
structure ModuleStatus where
  state : ModuleState
  missCount : Nat
  goodRun : Nat
  checkFailures : Nat
  staleFrames : Nat
  outstanding : Bool
  deriving DecidableEq, Repr

/-- One listed channel of a POINT STATUS entry (R158). -/
structure PointChannel where
  channel : Nat
  kind : ChannelKind
  phase : Nat
  lead : LeadState
  due : Bool
  deriving DecidableEq, Repr

/-- An entry of POINT STATUS as a read returns it (R158). -/
structure PointStatus where
  measured : Bool
  configured : Bool
  pendingLimits : Bool
  low : LowState
  high : HighState
  lowTag : Option Word
  highTag : Option Word
  mode : BoundaryMode
  halfCount : Nat
  reference : Option Nat
  channels : List PointChannel
  deriving DecidableEq, Repr

/-- An entry of any of the six tables. -/
inductive TableEntry where
  | setup (e : Setup)
  | channelMap (e : MapEntry)
  | limits (e : LimitsEntry)
  | routing (e : Routing)
  | moduleStatus (e : ModuleStatus)
  | pointStatus (e : PointStatus)
  deriving DecidableEq, Repr

end Sys2Proof.Machine
end

