-- ==== Sys2Proof/Machine/Records.lean ====
section
/-! DEFINITION. The records, capture frames, link frames and control frames that cross the pins (chapters 8, 9, 12). -/

namespace Sys2Proof.Machine

/-- Class of an event (R95). -/
inductive EventClass where
  | dip
  | interruption
  | swell
  deriving DecidableEq, Repr

/-- How an event ended (R95). -/
inductive EndCause where
  | normal
  | stop
  | recorderSupply
  deriving DecidableEq, Repr

/-- The answer an onset got from the Capture Engine (R85). -/
inductive CaptureStatus where
  | taken
  | shared
  | notTakenBusy
  | notTakenShed
  | notTakenSupply
  deriving DecidableEq, Repr

/-- Origin of a low-side event (R92). -/
inductive Origin where
  | upstream
  | downstream
  | undetermined
  | notAssessed
  deriving DecidableEq, Repr

/-- How a capture ended (R127). -/
inductive EndReason where
  | complete
  | truncatedShed
  | truncatedSupply
  | truncatedStop
  deriving DecidableEq, Repr

/-- Device states (R159). -/
inductive DeviceState where
  | init
  | stopped
  | running
  | holdup
  | standby
  deriving DecidableEq, Repr

/-- Result codes of replies (section 9.2). -/
inductive ReplyResult where
  | done
  | refusedState
  | notConfigured
  | invalidEntry
  | badIndex
  | busy
  | noAnswer
  | moduleNotLocked
  | unknownKind
  deriving DecidableEq, Repr

/-- Admission classes (R129). -/
inductive AdmissionClass where
  | a
  | b
  | c
  deriving DecidableEq, Repr

/-- Status kinds with the fields of each (R136). -/
inductive StatusKind where
  | reset (cause : ResetCause)
  | started (points : BitVec 4)
  | stopped
  | moduleLocked (m : Module)
  | moduleLost (m : Module)
  | leadOpen (channel : Channel) (point phase : Nat)
  | leadRestored (channel : Channel) (point phase : Nat)
  | limitsInstalled (point : Point)
  | timeStepped (old new : Tick)
  | holdupEntered (prior : DeviceState)
  | supplyRestored (duration : Tick) (returned : DeviceState)
  | standbyEntered
  deriving DecidableEq, Repr

/-- Flags an event gathers (R95). -/
structure EventFlags where
  freeSeen : Bool
  clippedSeen : Bool
  heldSeen : Bool
  timeStepped : Bool
  deriving DecidableEq, Repr

/-- The fields of an event record (R95). -/
structure EventRecord where
  tag : Word
  eventClass : EventClass
  point : Point
  startEpoch : Tick
  epochUnset : Bool
  duration : Tick
  extreme : Nat
  extremePhase : Nat
  phases : BitVec 4
  windows : Nat
  blindWindows : Nat
  flags : EventFlags
  endCause : EndCause
  captureStatus : CaptureStatus
  captureTag : Option Word
  origin : Origin
  ratio : Option Nat
  deriving DecidableEq, Repr

/-- The fields of a capture closure record (R127). -/
structure ClosureRecord where
  tag : Word
  point : Point
  triggerEpoch : Tick
  preCount : Nat
  delivered : Nat
  reason : EndReason
  crc : Word
  deriving DecidableEq, Repr

/-- One channel of an interval record (R104). -/
structure IntervalChannel where
  channel : Channel
  value : Option Nat
  least : Option Nat
  greatest : Option Nat
  held : Nat
  clipped : Nat
  opened : Nat
  deriving DecidableEq, Repr

/-- The frequency part of an interval record (R104). -/
structure IntervalFrequency where
  valid : Nat
  mean : Option Nat
  least : Option Nat
  greatest : Option Nat
  outOfBand : Nat
  deriving DecidableEq, Repr

/-- The flags of an interval record (R104). -/
structure IntervalFlags where
  disturbed : Bool
  short : Bool
  timeStepped : Bool
  stopped : Bool
  epochUnset : Bool
  deriving DecidableEq, Repr

/-- The fields of an interval record (R104). -/
structure IntervalRecord where
  point : Point
  startEpoch : Tick
  length : Tick
  flags : IntervalFlags
  halfWindows : Nat
  blindHalfWindows : Nat
  channels : List IntervalChannel
  frequency : IntervalFrequency
  deriving DecidableEq, Repr

/-- Counts of one voltage phase in an assessment (R109). -/
structure PhaseCounts where
  evaluated : Nat
  below : Nat
  above : Nat
  deriving DecidableEq, Repr

/-- The flags of a summary record (R112). -/
structure SummaryFlags where
  early : Bool
  stopped : Bool
  timeStepped : Bool
  epochUnset : Bool
  deriving DecidableEq, Repr

/-- The fields of a summary record (R112): a phase without a voltage channel is absent. -/
structure SummaryRecord where
  point : Point
  startEpoch : Tick
  closedIntervals : Nat
  flags : SummaryFlags
  phase1 : Option PhaseCounts
  phase2 : Option PhaseCounts
  phase3 : Option PhaseCounts
  freqEvaluated : Nat
  freqOutside : Nat
  dips : Nat
  interruptions : Nat
  swells : Nat
  deriving DecidableEq, Repr

/-- One channel of a block record (R101). -/
structure BlockChannel where
  channel : Channel
  value : Option Nat
  deriving DecidableEq, Repr

/-- The fields of a block record (R101). -/
structure BlockRecord where
  point : Point
  startEpoch : Tick
  halfWindows : Nat
  disturbed : Bool
  short : Bool
  blind : Bool
  channels : List BlockChannel
  deriving DecidableEq, Repr

/-- The fields of a reply after its result byte (R137, section 12.4). -/
inductive ReplyTail where
  | empty
  | tableWrite (table index : Byte) (entry : Option TableEntry)
  | tableRead (table first count : Byte) (entries : List TableEntry)
  | moduleCommand (module : Byte) (word : Option (BitVec 32))
  | trigger (captureTag : Option Word)
  deriving DecidableEq, Repr

/-- The fields of a reply record (R137). -/
structure ReplyRecord where
  kind : Byte
  tag : Byte
  result : ReplyResult
  tail : ReplyTail
  deriving DecidableEq, Repr

/-- What a source offers to the Record Builder: the fields of one of the seven record kinds (R129). -/
inductive RecordBody where
  | event (e : EventRecord)
  | closure (c : ClosureRecord)
  | status (kind : StatusKind) (epoch : Tick) (epochUnset : Bool)
  | interval (i : IntervalRecord)
  | summary (r : SummaryRecord)
  | reply (r : ReplyRecord)
  | block (b : BlockRecord)
  deriving DecidableEq, Repr

/-- An admitted record as it stands in the record queue (R131 to R134). -/
structure QueuedRecord where
  seq : BitVec 32
  withheld : Nat
  body : RecordBody
  chain : Word
  deriving DecidableEq, Repr

/-- A capture frame (R122): for each set in tick order, the codes of the listed channels in list order. -/
structure CaptureFrame where
  tag : Word
  point : Point
  index : Nat
  channels : List Channel
  firstTick : Tick
  heldPresent : Bool
  clippedPresent : Bool
  codes : List (List Code)
  deriving DecidableEq, Repr

/-- The command field of a strobe frame (section 1.2). -/
inductive CommandField where
  | none
  | check (module slot : Nat)
  | forward (m : Module) (echo : Byte) (word : BitVec 32)
  deriving DecidableEq, Repr

/-- The strobe frame of a tick (R2), and whether it was transmitted on MLSO. -/
structure StrobeFrame where
  tag : Byte
  field : CommandField
  transmitted : Bool
  deriving DecidableEq, Repr

/-- A sample frame as its 30 bytes spell it (section 12.2). -/
structure SampleFrame where
  module : Nat
  tag : Byte
  overrange : Byte
  markerValid : Bool
  markerSlot : Nat
  replyPresent : Bool
  echo : Byte
  reply : BitVec 32
  samples : Vector Code 6
  deriving DecidableEq, Repr

/-- A taken control frame (sections 9.2, 12.3). `badLength` is a known kind whose length is not that kind's. -/
inductive ControlFrame where
  | nop (tag : Byte)
  | ack (tag : Byte) (classes : Word)
  | tableWrite (tag table index : Byte) (entry : List Byte)
  | tableRead (tag table first count : Byte)
  | start (tag : Byte)
  | stop (tag : Byte)
  | timeSet (tag : Byte) (epoch : Tick)
  | trigger (tag point : Byte)
  | closeAssessment (tag point : Byte)
  | moduleCommand (tag module : Byte) (word : BitVec 32)
  | unknown (kind tag : Byte)
  | badLength (kind tag : Byte)
  deriving DecidableEq, Repr

/-- Which outbound frame an exchange carries (R142). -/
inductive FrameKind where
  | idle
  | record
  | capture
  deriving DecidableEq, Repr

/-- The outbound header of an exchange (R146). -/
structure OutHeader where
  kind : FrameKind
  length : Nat
  overrun : Bool
  discarded : Bool
  epochUnset : Bool
  recordOccupancy : Nat
  captureOccupancy : Nat
  pendingClasses : BitVec 10
  deriving DecidableEq, Repr

/-- Admission class of a record (R129). -/
def RecordBody.admission : RecordBody → AdmissionClass
  | .event _ => .a
  | .closure _ => .a
  | .status (.reset _) _ _ => .a
  | .status (.holdupEntered _) _ _ => .a
  | .status .standbyEntered _ _ => .a
  | .status (.started _) _ _ => .b
  | .status .stopped _ _ => .b
  | .status (.moduleLocked _) _ _ => .b
  | .status (.moduleLost _) _ _ => .b
  | .status (.leadOpen _ _ _) _ _ => .b
  | .status (.leadRestored _ _ _) _ _ => .b
  | .status (.limitsInstalled _) _ _ => .b
  | .status (.timeStepped _ _) _ _ => .b
  | .status (.supplyRestored _ _) _ _ => .b
  | .interval _ => .b
  | .summary _ => .b
  | .reply _ => .b
  | .block _ => .c

/-- A record is admitted at an occupancy below this (R132). -/
def AdmissionClass.limit : AdmissionClass → Nat
  | .a => Config.recordQueueSize
  | .b => Config.classBLimit
  | .c => Config.classCLimit

end Sys2Proof.Machine
end

