-- ==== Sys2Proof/Machine/Flags.lean ====
section
/-! DEFINITION. The flag bytes and the codes of the enumerated fields (R179, sections 12.3, 12.4, 12.6). -/

namespace Sys2Proof.Machine

/-- A flag byte from its bits, bit 0 first; unused bits are 0 (R179). -/
def flagByte (bits : List Bool) : Byte :=
  BitVec.ofNat 8 (bits.foldr (fun b acc => (if b then 1 else 0) + 2 * acc) 0)

/-- Port flags: OVERRUN, DISCARDED, EPOCH_UNSET in bits 0 to 2 (section 12.3). -/
def OutHeader.flagsByte (h : OutHeader) : Byte :=
  flagByte [h.overrun, h.discarded, h.epochUnset]

/-- EVENT flags (section 12.4). -/
def EventRecord.flagsByte (e : EventRecord) : Byte :=
  flagByte [e.epochUnset, e.flags.freeSeen, e.flags.clippedSeen, e.flags.heldSeen, e.flags.timeStepped]

/-- INTERVAL flags (section 12.4). -/
def IntervalFlags.byte (f : IntervalFlags) : Byte :=
  flagByte [f.disturbed, f.short, f.timeStepped, f.stopped, f.epochUnset]

/-- BLOCK flags (section 12.4). -/
def BlockRecord.flagsByte (b : BlockRecord) : Byte :=
  flagByte [b.disturbed, b.short, b.blind]

/-- SUMMARY flags (section 12.4). -/
def SummaryFlags.byte (f : SummaryFlags) : Byte :=
  flagByte [f.early, f.stopped, f.timeStepped, f.epochUnset]

/-- Flags of a capture frame: held present, clipped present (section 12.5). -/
def CaptureFrame.flagsByte (f : CaptureFrame) : Byte :=
  flagByte [f.heldPresent, f.clippedPresent]

/-- Flags of a CHANNEL MAP entry: enabled, lead check enable (section 12.6). -/
def MapEntry.flagsByte (e : MapEntry) : Byte :=
  flagByte [e.enabled, e.leadCheck]

/-- Flags of a POINT STATUS entry: measured, configured, pending limits (section 12.6). -/
def PointStatus.flagsByte (e : PointStatus) : Byte :=
  flagByte [e.measured, e.configured, e.pendingLimits]

/-- Codes from 00h in the order section 12.6 lists. -/
def EventClass.code : EventClass → Byte
  | .dip => 0
  | .interruption => 1
  | .swell => 2

def EndCause.code : EndCause → Byte
  | .normal => 0
  | .stop => 1
  | .recorderSupply => 2

def CaptureStatus.code : CaptureStatus → Byte
  | .taken => 0
  | .shared => 1
  | .notTakenBusy => 2
  | .notTakenShed => 3
  | .notTakenSupply => 4

def Origin.code : Origin → Byte
  | .upstream => 0
  | .downstream => 1
  | .undetermined => 2
  | .notAssessed => 3

def EndReason.code : EndReason → Byte
  | .complete => 0
  | .truncatedShed => 1
  | .truncatedSupply => 2
  | .truncatedStop => 3

def DeviceState.code : DeviceState → Byte
  | .init => 0
  | .stopped => 1
  | .running => 2
  | .holdup => 3
  | .standby => 4

def ReplyResult.code : ReplyResult → Byte
  | .done => 0
  | .refusedState => 1
  | .notConfigured => 2
  | .invalidEntry => 3
  | .badIndex => 4
  | .busy => 5
  | .noAnswer => 6
  | .moduleNotLocked => 7
  | .unknownKind => 8

def resetCauseCode : ResetCause → Byte
  | .powerOn => 0
  | .resetPin => 1

def StatusKind.code : StatusKind → Byte
  | .reset _ => 0
  | .started _ => 1
  | .stopped => 2
  | .moduleLocked _ => 3
  | .moduleLost _ => 4
  | .leadOpen _ _ _ => 5
  | .leadRestored _ _ _ => 6
  | .limitsInstalled _ => 7
  | .timeStepped _ _ => 8
  | .holdupEntered _ => 9
  | .supplyRestored _ _ => 10
  | .standbyEntered => 11

def RecordBody.code : RecordBody → Byte
  | .event _ => 0
  | .closure _ => 1
  | .status _ _ _ => 2
  | .interval _ => 3
  | .summary _ => 4
  | .reply _ => 5
  | .block _ => 6

def FrameKind.code : FrameKind → Byte
  | .idle => 0
  | .record => 1
  | .capture => 2

def ModuleState.code : ModuleState → Byte
  | .disabled => 0
  | .seeking => 1
  | .locked => 2
  | .lost => 3

def LeadState.code : LeadState → Byte
  | .notChecked => 0
  | .connected => 1
  | .suspect => 2
  | .opened => 3

def ChannelKind.code : ChannelKind → Byte
  | .voltage => 0
  | .current => 1

def BoundaryMode.code : BoundaryMode → Byte
  | .free => 0
  | .track => 1

def LowState.code : LowState → Byte
  | .quiet => 0
  | .dip => 1
  | .interrupt => 2

def HighState.code : HighState → Byte
  | .quiet => 0
  | .swell => 1

def Route.code : Route → Byte
  | .none => 0
  | .line0 => 1
  | .line1 => 2

def LineMode.code : LineMode → Byte
  | .levelHigh => 0
  | .levelLow => 1
  | .pulseHigh => 2
  | .pulseLow => 3

def PulseWidth.code : PulseWidth → Byte
  | .w1 => 0
  | .w4 => 1
  | .w16 => 2
  | .w64 => 3

/-- Restart policy: 01h is RESUME; STAY_STOPPED is sent as 00h, since section 12.6 reads any other value so and names
none to send (log entry 33, DESIGN CHOICE). -/
def RestartPolicy.code : RestartPolicy → Byte
  | .stayStopped => 0
  | .resume => 1

/-- Control frame kinds (R180). -/
def kindNop : Byte := 0x00
def kindAck : Byte := 0x01
def kindTableWrite : Byte := 0x02
def kindTableRead : Byte := 0x03
def kindStart : Byte := 0x04
def kindStop : Byte := 0x05
def kindTimeSet : Byte := 0x06
def kindTrigger : Byte := 0x07
def kindCloseAssessment : Byte := 0x08
def kindModuleCommand : Byte := 0x09

/-- Table codes (section 12.6). -/
def tableSetup : Byte := 0x00
def tableChannelMap : Byte := 0x01
def tableLimits : Byte := 0x02
def tableRouting : Byte := 0x03
def tableModuleStatus : Byte := 0x04
def tablePointStatus : Byte := 0x05

end Sys2Proof.Machine
end

