-- ==== Sys2Proof/Machine/Layout.lean ====
section
/-! DEFINITION. How frames, records and table entries are spelled in bytes, the check word, and the CRC-16
of the chain word and of captures (section 1.6, R123, R134, R179, chapter 12). -/

namespace Sys2Proof.Machine

/-- A number in `len` bytes, most significant byte first (R179). -/
def beBytes : Nat → Nat → List Byte
  | 0, _ => []
  | len + 1, n => BitVec.ofNat 8 (n / 256 ^ len) :: beBytes len n

/-- An absent value: all ones across the field (R179). -/
def absentBytes (len : Nat) : List Byte :=
  List.replicate len 0xFF

/-- A value that may be absent (R179). -/
def optBytes (len : Nat) : Option Nat → List Byte
  | none => absentBytes len
  | some n => beBytes len n

/-- A 16-bit tag that may be absent, in its 3-byte field. -/
def optTagBytes (t : Option Word) : List Byte :=
  optBytes 3 (t.map BitVec.toNat)

/-- A 4-byte count of an event record; a count that four bytes cannot hold leaves a free value (log entry 13). -/
def wideCount (n : Nat) : List Byte :=
  if n < 2 ^ 32 then beBytes 4 n else beBytes 4 (Config.countField n).toNat

/-- One step of the CRC register with generator x^16 + x^12 + x^5 + 1, most significant bit first (R123, R134). -/
def crcBit (r : Word) : Word :=
  if r.msb then (r <<< 1) ^^^ 0x1021 else r <<< 1

/-- The CRC register run over one byte. -/
def crcByte (r : Word) (b : Byte) : Word :=
  crcBit (crcBit (crcBit (crcBit (crcBit (crcBit (crcBit (crcBit (r ^^^ (b.setWidth 16 <<< 8)))))))))

/-- The CRC register run over bytes in the order they are sent. -/
def crc16 (r : Word) (bytes : List Byte) : Word :=
  bytes.foldl crcByte r

/-- Ones'-complement addition of 16-bit words. -/
def onesAdd (a b : Nat) : Nat :=
  if a + b < 65536 then a + b else a + b - 65535

/-- Ones'-complement sum of the 16-bit words of a frame; an odd last byte is taken with a zero byte (section 1.6). -/
def wordSum : List Byte → Nat
  | [] => 0
  | [b] => b.toNat * 256
  | a :: b :: rest => onesAdd (a.toNat * 256 + b.toNat) (wordSum rest)

/-- The frame is intact when the sum over every word, check word included, is FFFFh (section 1.6). -/
def intact (bytes : List Byte) : Bool :=
  wordSum bytes == 65535

/-- A frame with its pad, where the count is odd, and its check word (section 1.6, R179). -/
def sealFrame (bytes : List Byte) : List Byte :=
  let padded := if bytes.length % 2 = 1 then bytes ++ [0] else bytes
  padded ++ beBytes 2 (65535 - wordSum padded)

/-- SETUP entry (section 12.6). -/
def Setup.bytes (e : Setup) : List Byte :=
  beBytes 1 (match e.nominal with | .hz50 => 50 | .hz60 => 60)
    ++ beBytes 2 e.intervalLength ++ beBytes 2 e.assessmentLength ++ [e.blockPoints.setWidth 8]
    ++ beBytes 2 e.leadPeriod ++ beBytes 1 e.missLimit ++ [e.moduleEnable.setWidth 8]
    ++ beBytes 2 e.holdupLimit ++ beBytes 1 e.debounce ++ [e.restart.code]
    ++ beBytes 2 e.preTrigger ++ beBytes 2 e.postTrigger ++ beBytes 1 e.highMark ++ beBytes 1 e.lowMark
    ++ beBytes 2 e.originRise ++ beBytes 3 e.originMinimum

/-- CHANNEL MAP entry (section 12.6). -/
def MapEntry.bytes (e : MapEntry) : List Byte :=
  [e.flagsByte] ++ beBytes 1 e.module ++ beBytes 1 e.slot ++ [e.kind.code] ++ beBytes 1 e.point
    ++ beBytes 1 e.phase ++ beBytes 2 e.offset.toNat ++ beBytes 3 e.gain ++ beBytes 1 e.delay
    ++ beBytes 3 e.level.toNat ++ beBytes 3 e.band

/-- LIMITS entry (section 12.6). -/
def LimitsEntry.bytes (e : LimitsEntry) : List Byte :=
  beBytes 3 e.declared ++ beBytes 2 e.dip ++ beBytes 2 e.swell ++ beBytes 2 e.interruption
    ++ beBytes 2 e.hysteresis ++ beBytes 2 e.lowerBand ++ beBytes 2 e.upperBand
    ++ beBytes 3 e.freqLower ++ beBytes 3 e.freqUpper ++ beBytes 3 e.crossing

/-- ROUTING entry (section 12.6). -/
def Routing.bytes (e : Routing) : List Byte :=
  e.routes.toList.map Route.code
    ++ [e.config0.mode.code, e.config0.width.code, e.config1.mode.code, e.config1.width.code]

/-- MODULE STATUS entry (section 12.6). The flag stands in bit 0 of its byte (log entry 33, DESIGN CHOICE). -/
def ModuleStatus.bytes (e : ModuleStatus) : List Byte :=
  [e.state.code] ++ beBytes 1 e.missCount ++ beBytes 1 e.goodRun ++ beBytes 2 e.checkFailures
    ++ beBytes 2 e.staleFrames ++ [flagByte [e.outstanding]]

/-- A listed channel of a POINT STATUS entry: lead state in bits 0 and 1, due mark in bit 7 (section 12.6). -/
def PointChannel.bytes (e : PointChannel) : List Byte :=
  beBytes 1 e.channel ++ [e.kind.code] ++ beBytes 1 e.phase
    ++ [e.lead.code ||| (if e.due then 0x80 else 0)]

/-- POINT STATUS entry: 13 bytes and 4 for each listed channel (section 12.6). A reference phase of none, for which the
section gives no code, is sent as FFh (log entry 33). -/
def PointStatus.bytes (e : PointStatus) : List Byte :=
  [e.flagsByte, e.low.code, e.high.code] ++ optTagBytes e.lowTag ++ optTagBytes e.highTag
    ++ [e.mode.code] ++ beBytes 1 e.halfCount ++ optBytes 1 e.reference
    ++ beBytes 1 e.channels.length ++ e.channels.flatMap PointChannel.bytes

/-- An entry of any table. -/
def TableEntry.bytes : TableEntry → List Byte
  | .setup e => e.bytes
  | .channelMap e => e.bytes
  | .limits e => e.bytes
  | .routing e => e.bytes
  | .moduleStatus e => e.bytes
  | .pointStatus e => e.bytes

/-- Entry size that a refused TABLE-WRITE's all-ones entry takes, 0 where no entry follows (section 12.4). -/
def writeEntrySize (table : Byte) : Nat :=
  if table = tableSetup then 25
  else if table = tableChannelMap then 18
  else if table = tableLimits then 24
  else if table = tableRouting then 14
  else 0

/-- Fields of a status kind (section 12.4). -/
def StatusKind.bytes : StatusKind → List Byte
  | .reset cause => [resetCauseCode cause]
  | .started points => [points.setWidth 8]
  | .stopped => []
  | .moduleLocked m => beBytes 1 m.val
  | .moduleLost m => beBytes 1 m.val
  | .leadOpen c p ph => beBytes 1 c.val ++ beBytes 1 p ++ beBytes 1 ph
  | .leadRestored c p ph => beBytes 1 c.val ++ beBytes 1 p ++ beBytes 1 ph
  | .limitsInstalled p => beBytes 1 p.val
  | .timeStepped old new => beBytes 6 old.toNat ++ beBytes 6 new.toNat
  | .holdupEntered prior => [prior.code]
  | .supplyRestored d st => beBytes 6 d.toNat ++ [st.code]
  | .standbyEntered => []

/-- EVENT fields (section 12.4). -/
def EventRecord.bytes (e : EventRecord) : List Byte :=
  beBytes 2 e.tag.toNat ++ [e.eventClass.code] ++ beBytes 1 e.point.val ++ beBytes 6 e.startEpoch.toNat
    ++ [e.flagsByte] ++ beBytes 6 e.duration.toNat ++ beBytes 4 e.extreme ++ beBytes 1 e.extremePhase
    ++ [e.phases.setWidth 8] ++ wideCount e.windows ++ wideCount e.blindWindows ++ [e.endCause.code]
    ++ [e.captureStatus.code] ++ optTagBytes e.captureTag ++ [e.origin.code] ++ optBytes 3 e.ratio

/-- CAPTURE_CLOSURE fields (section 12.4). -/
def ClosureRecord.bytes (c : ClosureRecord) : List Byte :=
  beBytes 2 c.tag.toNat ++ beBytes 1 c.point.val ++ beBytes 6 c.triggerEpoch.toNat ++ beBytes 2 c.preCount
    ++ beBytes 2 c.delivered ++ [c.reason.code] ++ beBytes 2 c.crc.toNat

/-- One channel of an INTERVAL record, 25 bytes (section 12.4). -/
def IntervalChannel.bytes (c : IntervalChannel) : List Byte :=
  beBytes 1 c.channel.val ++ optBytes 4 c.value ++ optBytes 4 c.least ++ optBytes 4 c.greatest
    ++ beBytes 4 c.held ++ beBytes 4 c.clipped ++ beBytes 4 c.opened

/-- The frequency part of an INTERVAL record, 16 bytes (section 12.4). -/
def IntervalFrequency.bytes (f : IntervalFrequency) : List Byte :=
  beBytes 2 f.valid ++ optBytes 4 f.mean ++ optBytes 4 f.least ++ optBytes 4 f.greatest ++ beBytes 2 f.outOfBand

/-- INTERVAL fields (section 12.4). -/
def IntervalRecord.bytes (i : IntervalRecord) : List Byte :=
  beBytes 1 i.point.val ++ beBytes 6 i.startEpoch.toNat ++ beBytes 4 i.length.toNat ++ [i.flags.byte]
    ++ beBytes 4 i.halfWindows ++ beBytes 4 i.blindHalfWindows ++ beBytes 1 i.channels.length
    ++ i.channels.flatMap IntervalChannel.bytes ++ i.frequency.bytes

/-- The three counts of a phase, FFFFh each for a phase without a voltage channel (section 12.4). -/
def phaseBytes : Option PhaseCounts → List Byte
  | none => absentBytes 6
  | some c => beBytes 2 c.evaluated ++ beBytes 2 c.below ++ beBytes 2 c.above

/-- SUMMARY fields (section 12.4). -/
def SummaryRecord.bytes (r : SummaryRecord) : List Byte :=
  beBytes 1 r.point.val ++ beBytes 6 r.startEpoch.toNat ++ beBytes 2 r.closedIntervals ++ [r.flags.byte]
    ++ phaseBytes r.phase1 ++ phaseBytes r.phase2 ++ phaseBytes r.phase3
    ++ beBytes 4 r.freqEvaluated ++ beBytes 4 r.freqOutside
    ++ beBytes 2 r.dips ++ beBytes 2 r.interruptions ++ beBytes 2 r.swells

/-- BLOCK fields (section 12.4). -/
def BlockRecord.bytes (b : BlockRecord) : List Byte :=
  beBytes 1 b.point.val ++ beBytes 6 b.startEpoch.toNat ++ beBytes 1 b.halfWindows ++ [b.flagsByte]
    ++ beBytes 1 b.channels.length
    ++ b.channels.flatMap (fun c => beBytes 1 c.channel.val ++ optBytes 4 c.value)

/-- Fields of a reply after its result byte (section 12.4). -/
def ReplyTail.bytes : ReplyTail → List Byte
  | .empty => []
  | .tableWrite table index (some entry) => [table, index] ++ entry.bytes
  | .tableWrite table index none => [table, index] ++ absentBytes (writeEntrySize table)
  | .tableRead table first count entries => [table, first, count] ++ entries.flatMap TableEntry.bytes
  | .moduleCommand m word => [m] ++ optBytes 4 (word.map BitVec.toNat)
  | .trigger tag => optTagBytes tag

/-- Fields of the kind of a record (section 12.4). -/
def RecordBody.fieldBytes : RecordBody → List Byte
  | .event e => e.bytes
  | .closure c => c.bytes
  | .status kind epoch unset => [kind.code] ++ beBytes 6 epoch.toNat ++ [flagByte [unset]] ++ kind.bytes
  | .interval i => i.bytes
  | .summary r => r.bytes
  | .reply r => [r.kind, r.tag, r.result.code] ++ r.tail.bytes
  | .block b => b.bytes

/-- The body of a record: kind, sequence number, withheld count, fields of the kind (R129, section 12.4). -/
def recordBytes (seq : BitVec 32) (withheld : Nat) (body : RecordBody) : List Byte :=
  [body.code] ++ beBytes 4 seq.toNat ++ beBytes 1 withheld ++ body.fieldBytes

/-- A record as sent: its body and its chain word (R129). -/
def QueuedRecord.bytes (r : QueuedRecord) : List Byte :=
  recordBytes r.seq r.withheld r.body ++ beBytes 2 r.chain.toNat

/-- The channel list of a capture frame: six places, FFh in each unused one (section 12.5). -/
def channelListBytes (cs : List Channel) : List Byte :=
  let listed := cs.map (fun c => BitVec.ofNat 8 c.val)
  listed ++ List.replicate (6 - listed.length) 0xFF

/-- The body of a capture frame, over which the capture CRC runs (R123, section 12.5). -/
def CaptureFrame.bytes (f : CaptureFrame) : List Byte :=
  beBytes 2 f.tag.toNat ++ beBytes 1 f.point.val ++ beBytes 2 f.index ++ beBytes 1 f.codes.length
    ++ beBytes 1 f.channels.length ++ channelListBytes f.channels ++ beBytes 6 f.firstTick.toNat
    ++ [f.flagsByte] ++ f.codes.flatMap (fun cs => cs.flatMap (fun c => beBytes 3 c.toNat))

/-- The outbound header, 8 bytes (section 12.3). -/
def OutHeader.bytes (h : OutHeader) : List Byte :=
  [h.kind.code] ++ beBytes 2 h.length ++ [h.flagsByte] ++ beBytes 1 h.recordOccupancy
    ++ beBytes 1 h.captureOccupancy ++ beBytes 2 h.pendingClasses.toNat

/-- Byte count of an outbound frame with a body of `n` bytes: header, body, pad and check word (section 12.3). -/
def outboundLength (n : Nat) : Nat :=
  8 + n + n % 2 + 2

/-- A strobe frame, 10 bytes with its check word (section 12.2). -/
def StrobeFrame.bytes (f : StrobeFrame) : List Byte :=
  sealFrame (match f.field with
    | .none => [f.tag, 0, 0, 0, 0, 0, 0, 0]
    | .check m slot => [f.tag, 1] ++ beBytes 1 m ++ beBytes 1 slot ++ [0, 0, 0, 0]
    | .forward m echo word => [f.tag, 2] ++ beBytes 1 m.val ++ [echo] ++ beBytes 4 word.toNat)

end Sys2Proof.Machine
end

