-- ==== Sys2Proof/Machine/State.lean ====
section
/-! DEFINITION. Everything the spec gives the device to hold, and the device right after reset. -/

namespace Sys2Proof.Machine

/-- No command makes the block stop with a fault: no rule of the spec stops the device (INVENTORY.md, Faults). -/
inductive Fault where
  deriving DecidableEq, Repr

/-- Why a command has no meaning. Safe: a refused command changes nothing and no claim speaks of it. -/
inductive Refusal where
  /-- Raised by `exec` alone, for a row that has no meaning yet: no row is left so. Safe. -/
  | notModelled (mnemonic : String)
  deriving DecidableEq, Repr

/-- One slot of a sample set: a code and three marks (section 1.4). -/
structure SlotValue where
  code : Code
  held : Bool
  clipped : Bool
  unavailable : Bool
  deriving DecidableEq, Repr

/-- Code 0 and no mark. -/
def SlotValue.blank : SlotValue where
  code := 0
  held := false
  clipped := false
  unavailable := false

/-- Code 0, unavailable: a slot of a missing or disabled module (R8). -/
def SlotValue.missing : SlotValue where
  code := 0
  held := false
  clipped := false
  unavailable := true

/-- A sample set: four modules of six slots (section 1.4). -/
abbrev SampleSet := Vector (Vector SlotValue 6) 4

/-- Echo tag and send tick of a sent module command (R4). -/
structure SentCommand where
  echo : Byte
  tick : Tick
  deriving DecidableEq, Repr

/-- An outstanding module command (section 1.7). One that is not yet sent is the module's entry of the forward
waiting list. -/
structure ModuleCommand where
  tag : Byte
  word : BitVec 32
  sent : Option SentCommand
  deriving DecidableEq, Repr

/-- State record of a module (section 1.5), its echo counter (R4) and its part of the Set Assembler (section 1.4). -/
structure ModuleRecord where
  state : ModuleState
  missCount : Nat
  goodRun : Nat
  checkFailures : Nat
  staleFrames : Nat
  echo : Byte
  command : Option ModuleCommand
  taken : Bool
  slots : Vector SlotValue 6
  last : Vector Code 6
  clippedBefore : Vector Bool 6
  deriving DecidableEq, Repr

/-- A module after reset (R160). -/
def ModuleRecord.reset : ModuleRecord where
  state := .disabled
  missCount := 0
  goodRun := 0
  checkFailures := 0
  staleFrames := 0
  echo := 0
  command := none
  taken := false
  slots := Vector.replicate 6 .blank
  last := Vector.replicate 6 0
  clippedBefore := Vector.replicate 6 false

/-- A half-window tally (section 4.1). -/
structure Tally where
  q : Nat
  n : Nat
  held : Nat
  clipped : Nat
  unavailable : Nat
  deriving DecidableEq, Repr

def Tally.zero : Tally where
  q := 0
  n := 0
  held := 0
  clipped := 0
  unavailable := 0

/-- A logical channel: its map entry (R20), lead state and due mark (R29), tallies (R55), and ring (R90, oldest first). -/
structure ChannelRecord where
  entry : MapEntry
  lead : LeadState
  due : Bool
  current : Tally
  previous : Tally
  ring : List Nat
  deriving DecidableEq, Repr

/-- A logical channel after reset and the clearing of its map entry. -/
def ChannelRecord.reset : ChannelRecord where
  entry := .cleared
  lead := .notChecked
  due := false
  current := .zero
  previous := .zero
  ring := []

/-- Polarity of a zero crossing (R38). -/
inductive Polarity where
  | positive
  | negative
  deriving DecidableEq, Repr

/-- The other polarity. -/
def Polarity.opposite : Polarity → Polarity
  | .positive => .negative
  | .negative => .positive

/-- Mode of a Boundary Unit; TRACK expects a polarity (section 3.2). -/
inductive CutMode where
  | free
  | track (expected : Polarity)
  deriving DecidableEq, Repr

/-- Boundary Unit of a point (section 3.2). `before` is the corrected code of the reference channel in the set
delivered before; absent when the next set has no predecessor (R39). -/
structure Boundary where
  mode : CutMode
  count : Nat
  armedPositive : Bool
  armedNegative : Bool
  before : Option Int
  deriving DecidableEq, Repr

/-- After reset and on START: FREE, c = 0, both sides armed, no predecessor (R40). -/
def Boundary.fresh : Boundary where
  mode := .free
  count := 0
  armedPositive := true
  armedNegative := true
  before := none

/-- Frequency period in progress (R49); `span` holds the first and the last instant once there is one. -/
structure Period where
  first : Tick
  crossings : Nat
  span : Option (Instant × Instant)
  valid : Bool
  deriving DecidableEq, Repr

/-- What the low tracker noted of one current channel at the onset (R91): the pre-event reference, absent when
the ring held fewer than eight values, and the onset value, absent when UNAVAILABLE. -/
structure OriginNote where
  channel : Channel
  reference : Option Nat
  onset : Option Nat
  deriving DecidableEq, Repr

/-- Origin work of a low-side event (R91, R92). -/
inductive OriginWork where
  | gathering (notes : List OriginNote)
  | decided (origin : Origin) (ratio : Option Nat)
  deriving DecidableEq, Repr

/-- An open event record (R78). -/
structure OpenEvent where
  tag : Word
  eventClass : EventClass
  startTick : Tick
  startEpoch : Tick
  epochUnset : Bool
  extreme : Nat
  extremePhase : Nat
  phases : BitVec 4
  windows : Nat
  blindWindows : Nat
  flags : EventFlags
  captureStatus : CaptureStatus
  captureTag : Option Word
  work : OriginWork
  deriving DecidableEq, Repr

/-- Low tracker: an open event record exactly when not QUIET (R78). -/
inductive LowTracker where
  | quiet
  | dip (e : OpenEvent)
  | interrupt (e : OpenEvent)
  deriving DecidableEq, Repr

/-- High tracker: an open event record exactly when not QUIET (R78). -/
inductive HighTracker where
  | quiet
  | swell (e : OpenEvent)
  deriving DecidableEq, Repr

/-- Check in flight of a point (section 2.5). One that is not sent is the point's check request (section 1.2). -/
structure CheckInFlight where
  channel : Channel
  module : Nat
  slot : Nat
  target : Tick
  sent : Bool
  deriving DecidableEq, Repr

/-- Block sum and block count of a channel (R65). -/
structure BlockSum where
  q : Nat
  n : Nat
  deriving DecidableEq, Repr

/-- Block in progress (R96). -/
structure Block where
  count : Nat
  start : Option Tick
  sums : Vector BlockSum 24
  disturbed : Bool
  blind : Bool
  deriving DecidableEq, Repr

/-- A new block in progress with a half-window count of 0. -/
def Block.fresh : Block where
  count := 0
  start := none
  sums := Vector.replicate 24 { q := 0, n := 0 }
  disturbed := false
  blind := false

/-- Accumulators of one channel in an interval (R66, R102). -/
structure IntervalSum where
  sum : Nat
  count : Nat
  least : Option Nat
  greatest : Option Nat
  held : Nat
  clipped : Nat
  opened : Nat
  deriving DecidableEq, Repr

def IntervalSum.zero : IntervalSum where
  sum := 0
  count := 0
  least := none
  greatest := none
  held := 0
  clipped := 0
  opened := 0

/-- Frequency accumulators of an interval (R103). -/
structure FrequencySum where
  valid : Nat
  sum : Nat
  least : Option Nat
  greatest : Option Nat
  outOfBand : Nat
  deriving DecidableEq, Repr

def FrequencySum.zero : FrequencySum where
  valid := 0
  sum := 0
  least := none
  greatest := none
  outOfBand := 0

/-- Interval in progress (R96). -/
structure Interval where
  base : Nat
  coverageStart : Tick
  coverageEpoch : Tick
  halfWindows : Nat
  blindHalfWindows : Nat
  disturbed : Bool
  timeStepped : Bool
  epochUnset : Bool
  sums : Vector IntervalSum 24
  frequency : FrequencySum
  deriving DecidableEq, Repr

/-- Assessment in progress (R109). -/
structure Assessment where
  startEpoch : Tick
  closedIntervals : Nat
  stepped : Bool
  unset : Bool
  phases : Vector PhaseCounts 3
  freqEvaluated : Nat
  freqOutside : Nat
  dips : Nat
  interruptions : Nat
  swells : Nat
  deriving DecidableEq, Repr

/-- A supply point: limits (R70 to R73), measured mark (R26), reference (R27), Boundary Unit, frequency period,
pair flag and previous free mark (R55), trackers, check in flight, and the Aggregator's three spans (R96). -/
structure PointRecord where
  limits : LimitsEntry
  thresholds : Thresholds
  pendingLimits : Option LimitsEntry
  measured : Bool
  reference : Option Nat
  boundary : Boundary
  period : Option Period
  pairFlag : Bool
  previousFree : Bool
  low : LowTracker
  high : HighTracker
  check : Option CheckInFlight
  block : Option Block
  interval : Option Interval
  assessment : Option Assessment
  deriving DecidableEq, Repr

/-- A point after reset and the clearing of its limits entry (R160). -/
def PointRecord.reset : PointRecord where
  limits := .cleared
  thresholds := .zero
  pendingLimits := none
  measured := false
  reference := none
  boundary := .fresh
  period := none
  pairFlag := false
  previousFree := false
  low := .quiet
  high := .quiet
  check := none
  block := none
  interval := none
  assessment := none

/-- A slot as the History Buffer stores it (R115). -/
structure StoredSlot where
  code : Code
  held : Bool
  clipped : Bool
  deriving DecidableEq, Repr

/-- A stored sample set. -/
abbrev StoredSet := Vector (Vector StoredSlot 6) 4

/-- History Buffer (R115): the head, absent when empty, and the stored sets, newest first; the fill is their number. -/
structure History where
  head : Option Tick
  sets : List StoredSet
  deriving DecidableEq, Repr

def History.empty : History where
  head := none
  sets := []

/-- The running capture (section 7.2). -/
structure RunningCapture where
  tag : Word
  point : Point
  channels : List Channel
  triggerTick : Tick
  triggerEpoch : Tick
  startTick : Tick
  preCount : Nat
  plannedEnd : Tick
  readPosition : Tick
  frameIndex : Nat
  delivered : Nat
  crc : Word
  deriving DecidableEq, Repr

/-- Record Builder and record queue, oldest record first (section 8.2). -/
structure RecordBuilder where
  seq : BitVec 32
  chain : Word
  withheld : Nat
  queue : List QueuedRecord
  deriving DecidableEq, Repr

/-- Shedding state of the Capture Queue (R140). -/
inductive Shedding where
  | opened
  | shed
  deriving DecidableEq, Repr

/-- The exchange under way (section 8.8): which frame was chosen and the header composed when SPSEL was asserted
(R142, R145). The bytes that move are an operand of EXCHANGE_END (log entry 30). -/
structure Exchange where
  choice : FrameKind
  header : OutHeader
  deriving DecidableEq, Repr

/-- Station port: its two flags (R147) and the held frame slot (R150). -/
structure Port where
  overrun : Bool
  discarded : Bool
  held : Option ControlFrame
  deriving DecidableEq, Repr

/-- Prior state of Measurement Control (R159). -/
inductive PriorState where
  | stopped
  | running
  deriving DecidableEq, Repr

/-- Measurement Control (chapter 10). -/
structure Control where
  device : DeviceState
  offset : Tick
  epochUnset : Bool
  prior : Option PriorState
  timerRunning : Bool
  holdupStart : Tick
  level : SupplyLevel
  runCount : Nat
  deriving DecidableEq, Repr

/-- Pulse state of a line without its follow-up mark; a pulse and a gap know the tick they began at (section 11.3). -/
inductive PulsePhase where
  | idle
  | pulse (since : Tick)
  | gap (since : Tick)
  deriving DecidableEq, Repr

/-- Pulse state of a line with its follow-up mark (section 11.3). -/
structure PulseState where
  phase : PulsePhase
  followUp : Bool
  deriving DecidableEq, Repr

def PulseState.idle : PulseState where
  phase := .idle
  followUp := false

/-- Attention Unit (chapter 11): pending set as a class mask (R179), and the pulse state of each line. -/
structure Attention where
  pendingSet : BitVec 10
  line0 : PulseState
  line1 : PulseState
  deriving DecidableEq, Repr

/-- The two due markings of the present count value that are not yet taken (R30, log entry 34). -/
structure DueNow where
  period : Bool
  second : Bool
  deriving DecidableEq, Repr

/-- The device, and the queue of commands that wait. -/
structure State where
  count : Tick
  timerNominal : Nominal
  setup : Setup
  routing : Routing
  strobe : StrobeFrame
  modules : Vector ModuleRecord 4
  channels : Vector ChannelRecord 24
  points : Vector PointRecord 4
  eventTag : Word
  history : History
  capture : Option RunningCapture
  builder : RecordBuilder
  captureQueue : List CaptureFrame
  shedding : Shedding
  exchange : Option Exchange
  port : Port
  control : Control
  attention : Attention
  dueNow : DueNow
  pending : List Instr
  deriving DecidableEq, Repr

/-- The RESET record: sequence number 0, withheld count 0, the first link of a new chain (R130, R136). -/
def resetRecord (cause : ResetCause) : QueuedRecord :=
  let body := RecordBody.status (.reset cause) 0 true
  { seq := 0, withheld := 0, body := body, chain := crc16 0xFFFF (recordBytes 0 0 body) }

/-- The device when a reset of this cause ends (R160), with the strobe frame of tick 0 issued (R2) and the
RESET record created (R130). CHANNEL MAP, LIMITS and ROUTING stand cleared here (log entry 9). -/
def State.afterReset (cause : ResetCause) : State where
  count := 0
  timerNominal := .hz50
  setup := .default
  routing := .cleared
  strobe := { tag := 0, field := .none, transmitted := true }
  modules := Vector.replicate 4 .reset
  channels := Vector.replicate 24 .reset
  points := Vector.replicate 4 .reset
  eventTag := 0
  history := .empty
  capture := none
  builder :=
    { seq := 1, chain := (resetRecord cause).chain, withheld := 0, queue := [resetRecord cause] }
  captureQueue := []
  shedding := .opened
  exchange := none
  port := { overrun := false, discarded := false, held := none }
  control :=
    { device := .init, offset := 0, epochUnset := true, prior := none, timerRunning := false,
      holdupStart := 0, level := .good, runCount := 0 }
  attention := { pendingSet := 0, line0 := .idle, line1 := .idle }
  dueNow := { period := false, second := false }
  pending := []

/-- The device right after power-on reset (R160). -/
def State.reset : State :=
  State.afterReset .powerOn

end Sys2Proof.Machine
end

