-- ==== Sys2Proof/Machine/Operands.lean ====
section
/-! DEFINITION. What the bytes of incoming frames and entries say: sample frames (section 12.2), control frames
(R148, R180), and the entries of the writable tables with their clamps (R21, R71, R155, R157, section 12.6). -/

namespace Sys2Proof.Machine

/-- Byte `i` of a frame; a byte that is not there reads 0 (no frame of the spec's sizes reaches that). -/
def byteAt (bytes : List Byte) (i : Nat) : Byte :=
  bytes.getD i 0

/-- A field of `len` bytes that begins at byte `i`, most significant byte first (R179). -/
def fieldAt (bytes : List Byte) (i : Nat) : Nat → Nat
  | 0 => 0
  | len + 1 => (byteAt bytes i).toNat * 256 ^ len + fieldAt bytes (i + 1) len

/-- A sample frame from its 30 bytes (section 12.2). -/
def parseSampleFrame (bytes : List Byte) : SampleFrame where
  module := fieldAt bytes 0 1
  tag := byteAt bytes 1
  overrange := byteAt bytes 2
  markerValid := (byteAt bytes 3).getLsbD 7
  markerSlot := (byteAt bytes 3).toNat % 8
  replyPresent := (byteAt bytes 4).getLsbD 0
  echo := byteAt bytes 5
  reply := BitVec.ofNat 32 (fieldAt bytes 6 4)
  samples := Vector.ofFn (fun i : Fin 6 => BitVec.ofNat 24 (fieldAt bytes (10 + 3 * i.val) 3))

/-- The check word of a sample frame is intact; a frame that is not 30 bytes long has none to be intact (log entry 14). -/
def sampleFrameIntact (bytes : List Byte) : Bool :=
  bytes.length == 30 && intact bytes

/-- The module of this number, when it names one of the four. -/
def moduleOfNat (n : Nat) : Option Module :=
  if h : n < 4 then some ⟨n, h⟩ else none

/-- The point of this number, when it names one of the four. -/
def pointOfNat (n : Nat) : Option Point :=
  if h : n < 4 then some ⟨n, h⟩ else none

/-- The logical channel of this number, when it names one of the 24. -/
def channelOfNat (n : Nat) : Option Channel :=
  if h : n < 24 then some ⟨n, h⟩ else none

/-- The slot of this number, when it names one of the six. -/
def slotOfNat (n : Nat) : Option Slot :=
  if h : n < 6 then some ⟨n, h⟩ else none

/-- Fixed length of each known kind of control frame (R180). -/
def kindLength (kind : Byte) : Option Nat :=
  if kind = kindNop then some 6
  else if kind = kindAck then some 8
  else if kind = kindTableWrite then some 34
  else if kind = kindTableRead then some 10
  else if kind = kindStart then some 6
  else if kind = kindStop then some 6
  else if kind = kindTimeSet then some 12
  else if kind = kindTrigger then some 8
  else if kind = kindCloseAssessment then some 8
  else if kind = kindModuleCommand then some 12
  else none

/-- The fields of a known kind of its fixed length (R180). -/
def parseKnownFrame (kind tag : Byte) (bytes : List Byte) : ControlFrame :=
  if kind = kindNop then .nop tag
  else if kind = kindAck then .ack tag (BitVec.ofNat 16 (fieldAt bytes 4 2))
  else if kind = kindTableWrite then
    .tableWrite tag (byteAt bytes 4) (byteAt bytes 5) ((bytes.drop 6).take 26)
  else if kind = kindTableRead then
    .tableRead tag (byteAt bytes 4) (byteAt bytes 5) (byteAt bytes 6)
  else if kind = kindStart then .start tag
  else if kind = kindStop then .stop tag
  else if kind = kindTimeSet then .timeSet tag (BitVec.ofNat 48 (fieldAt bytes 4 6))
  else if kind = kindTrigger then .trigger tag (byteAt bytes 4)
  else if kind = kindCloseAssessment then .closeAssessment tag (byteAt bytes 4)
  else .moduleCommand tag (byteAt bytes 4) (BitVec.ofNat 32 (fieldAt bytes 5 4))

/-- A taken frame: its kind and length are checked first (R149). -/
def parseTakenFrame (bytes : List Byte) (length : Nat) : ControlFrame :=
  match kindLength (byteAt bytes 0) with
  | none => .unknown (byteAt bytes 0) (byteAt bytes 1)
  | some fixed =>
    if length = fixed then parseKnownFrame (byteAt bytes 0) (byteAt bytes 1) bytes
    else .badLength (byteAt bytes 0) (byteAt bytes 1)

/-- The length field of a control frame. -/
def controlLength (bytes : List Byte) : Nat :=
  fieldAt bytes 2 2

/-- The judgement of the bytes collected in an exchange: `none` when the frame is discarded, incomplete or
failed (R148, R180). -/
def judgeControlFrame (bytes : List Byte) : Option ControlFrame :=
  let len := controlLength bytes
  if bytes.length < 4 then none
  else if len % 2 = 1 ∨ len < 6 ∨ 34 < len then none
  else if bytes.length < len then none
  else if intact (bytes.take len) then some (parseTakenFrame (bytes.take len) len)
  else none

/-- A SETUP entry from its bytes, every field brought into its range (R155). The low watermark is clamped after
the high one; members of sets that name nothing are dropped. -/
def parseSetup (b : List Byte) : Setup :=
  { nominal := if fieldAt b 0 1 ≤ 55 then .hz50 else .hz60
    intervalLength := clampNat 1 7200 (fieldAt b 1 2)
    assessmentLength := clampNat 1 4032 (fieldAt b 3 2)
    blockPoints := BitVec.ofNat 4 (fieldAt b 5 1)
    leadPeriod := clampNat 10 3600 (fieldAt b 6 2)
    missLimit := clampNat 1 64 (fieldAt b 8 1)
    moduleEnable := BitVec.ofNat 4 (fieldAt b 9 1)
    holdupLimit := clampNat 1 1000 (fieldAt b 10 2)
    debounce := clampNat 1 255 (fieldAt b 12 1)
    restart := if byteAt b 13 = 1 then .resume else .stayStopped
    preTrigger := clampNat 0 1024 (fieldAt b 14 2)
    postTrigger := clampNat 256 8192 (fieldAt b 16 2)
    highMark := clampNat 1 48 (fieldAt b 18 1)
    lowMark := clampNat 0 (clampNat 1 48 (fieldAt b 18 1) - 1) (fieldAt b 19 1)
    originRise := clampNat 1 1024 (fieldAt b 20 2)
    originMinimum := clampNat 0 16777215 (fieldAt b 22 3) }

/-- Kind of a channel from its code; another code is refused (R21). -/
def kindOfCode (b : Byte) : Option ChannelKind :=
  if b = 0 then some .voltage else if b = 1 then some .current else none

/-- A CHANNEL MAP entry from its bytes with its kind already read; the check band is clamped before any test (R21). -/
def parseMapEntry (kind : ChannelKind) (b : List Byte) : MapEntry where
  enabled := (byteAt b 0).getLsbD 0
  leadCheck := (byteAt b 0).getLsbD 1
  module := fieldAt b 1 1
  slot := fieldAt b 2 1
  kind := kind
  point := fieldAt b 4 1
  phase := fieldAt b 5 1
  offset := BitVec.ofNat 16 (fieldAt b 6 2)
  gain := fieldAt b 8 3
  delay := fieldAt b 11 1
  level := BitVec.ofNat 24 (fieldAt b 12 3)
  band := clampNat 0 8388607 (fieldAt b 15 3)

/-- Range test of an enabled map entry (R21). -/
def MapEntry.inRange (e : MapEntry) : Bool :=
  !e.enabled || (decide (e.module ≤ 3) && decide (e.slot ≤ 5) && decide (e.point ≤ 3)
    && decide (1 ≤ e.phase) && decide (e.phase ≤ 3))

/-- Two enabled entries share a source (R22). -/
def MapEntry.sharesSource (e f : MapEntry) : Bool :=
  e.enabled && f.enabled && e.module == f.module && e.slot == f.slot

/-- Two enabled entries share a role (R22). -/
def MapEntry.sharesRole (e f : MapEntry) : Bool :=
  e.enabled && f.enabled && e.point == f.point && e.kind == f.kind && e.phase == f.phase

/-- A LIMITS entry from its bytes, the hysteresis and H clamped (R71). -/
def parseLimits (b : List Byte) : LimitsEntry where
  declared := fieldAt b 0 3
  dip := fieldAt b 3 2
  swell := fieldAt b 5 2
  interruption := fieldAt b 7 2
  hysteresis := clampNat 0 100 (fieldAt b 9 2)
  lowerBand := fieldAt b 11 2
  upperBand := fieldAt b 13 2
  freqLower := fieldAt b 15 3
  freqUpper := fieldAt b 18 3
  crossing := clampNat 0 1048576 (fieldAt b 21 3)

/-- Every field lies in its range of R70; nothing is tested when U_decl is 0 (R71). -/
def LimitsEntry.valid (e : LimitsEntry) : Bool :=
  decide (e.declared = 0) ||
    (decide (10000 ≤ e.declared) && decide (e.declared ≤ 100000)
      && decide (100 ≤ e.dip) && decide (e.dip ≤ 990)
      && decide (1010 ≤ e.swell) && decide (e.swell ≤ 2000)
      && decide (10 ≤ e.interruption) && decide (e.interruption < e.dip)
      && decide (e.hysteresis ≤ 100)
      && decide (e.lowerBand ≤ 999)
      && decide (1001 ≤ e.upperBand) && decide (e.upperBand ≤ 2000)
      && decide (e.freqLower < e.freqUpper) && decide (e.freqUpper ≤ 16777215)
      && decide (e.crossing ≤ 1048576))

/-- Codes of a ROUTING entry (section 12.6); a code beyond the list is refused (R157). -/
def routeOfCode (b : Byte) : Option Route :=
  if b = 0 then some .none else if b = 1 then some .line0 else if b = 2 then some .line1 else none

def modeOfCode (b : Byte) : Option LineMode :=
  if b = 0 then some .levelHigh else if b = 1 then some .levelLow
  else if b = 2 then some .pulseHigh else if b = 3 then some .pulseLow else none

def widthOfCode (b : Byte) : Option PulseWidth :=
  if b = 0 then some .w1 else if b = 1 then some .w4
  else if b = 2 then some .w16 else if b = 3 then some .w64 else none

/-- Mode and width of a line whose two bytes begin at byte `i`. -/
def parseLine (b : List Byte) (i : Nat) : Option LineConfig :=
  match modeOfCode (byteAt b i), widthOfCode (byteAt b (i + 1)) with
  | some m, some w => some { mode := m, width := w }
  | _, _ => none

/-- A ROUTING entry from its bytes, when every code is one of R157's. -/
def parseRouting (b : List Byte) : Option Routing :=
  let codes := (List.range 10).map (fun i => routeOfCode (byteAt b i))
  if codes.all Option.isSome then
    match parseLine b 10, parseLine b 12 with
    | some c0, some c1 =>
      some { routes := Vector.ofFn (fun i : Fin 10 => (routeOfCode (byteAt b i.val)).getD .none),
             config0 := c0, config1 := c1 }
    | _, _ => none
  else none

end Sys2Proof.Machine
end

