-- ==== Sys2Proof/Machine/Ops.lean ====
section
/-! DEFINITION. The operations that every block shares: reading and changing one module, channel or point, the
epoch (R165), raising an attention class (R174 to R176), offering a record (R131 to R135), status records (R136),
replies (R137), and the chain of conditions that name the device's condition. -/

namespace Sys2Proof.Machine

/-! ### Parts of the state -/

/-- Module `m`. -/
def State.module (s : State) (m : Module) : ModuleRecord :=
  s.modules[m.val]

/-- Logical channel `c`. -/
def State.channel (s : State) (c : Channel) : ChannelRecord :=
  s.channels[c.val]

/-- Supply point `p`. -/
def State.point (s : State) (p : Point) : PointRecord :=
  s.points[p.val]

/-- Module `m` changed. -/
def State.modModule (s : State) (m : Module) (f : ModuleRecord → ModuleRecord) : State :=
  { s with modules := updAt s.modules m f }

/-- Logical channel `c` changed. -/
def State.modChannel (s : State) (c : Channel) (f : ChannelRecord → ChannelRecord) : State :=
  { s with channels := updAt s.channels c f }

/-- Supply point `p` changed. -/
def State.modPoint (s : State) (p : Point) (f : PointRecord → PointRecord) : State :=
  { s with points := updAt s.points p f }

/-- Every module changed. -/
def State.mapModules (s : State) (f : Module → ModuleRecord → ModuleRecord) : State :=
  { s with modules := mapAll s.modules f }

/-- Every logical channel changed. -/
def State.mapChannels (s : State) (f : Channel → ChannelRecord → ChannelRecord) : State :=
  { s with channels := mapAll s.channels f }

/-- Every supply point changed. -/
def State.mapPoints (s : State) (f : Point → PointRecord → PointRecord) : State :=
  { s with points := mapAll s.points f }

/-! ### Time (chapter 10) -/

/-- Epoch value of a tick under the offset in force (R165). -/
def State.epochOf (s : State) (t : Tick) : Tick :=
  t + s.control.offset

/-- Epoch value of the current tick. -/
def State.epochNow (s : State) : Tick :=
  s.epochOf s.count

/-- Ticks from one tick to a later one, on the monotonic count, modulo 2^48. -/
def ticksFrom (start stop : Tick) : Nat :=
  (stop - start).toNat

/-- The device measures: RUNNING, or HOLDUP entered from RUNNING (R159). -/
def State.measuring (s : State) : Bool :=
  s.control.device == .running || (s.control.device == .holdup && s.control.prior == some .running)

/-! ### Attention (chapter 11) -/

/-- Whether ROUTING routes a class to a line. -/
def Routing.routesTo (r : Routing) (c : AttnClass) (l : LineId) : Bool :=
  r.route c == lineRoute l

/-- A pulse request on a line: it begins a pulse when the line is IDLE, else sets the follow-up mark (R176). -/
def requestPulse (now : Tick) (p : PulseState) : PulseState :=
  match p.phase with
  | .idle => { p with phase := .pulse now }
  | .pulse _ => { p with followUp := true }
  | .gap _ => { p with followUp := true }

/-- What a new joining of a class does to a line: a pulse request, if the line is in a pulse mode and the class
is routed to it (R176). -/
def joinLine (r : Routing) (now : Tick) (c : AttnClass) (l : LineId) (p : PulseState) : PulseState :=
  if r.routesTo c l && (r.config l).mode.isPulse then requestPulse now p else p

/-- The mask that holds one class. -/
def classMask (c : AttnClass) : BitVec 10 :=
  BitVec.ofNat 10 (2 ^ (classIndex c).val)

/-- Whether a class is pending. -/
def Attention.isPending (a : Attention) (c : AttnClass) : Bool :=
  inMask a.pendingSet (classIndex c).val

/-- A raised class joins the pending set; only a new joining requests pulses (R174, R176). -/
def Attention.raise (a : Attention) (r : Routing) (now : Tick) (c : AttnClass) : Attention :=
  if a.isPending c then a
  else
    { pendingSet := a.pendingSet ||| classMask c
      line0 := joinLine r now c .line0 a.line0
      line1 := joinLine r now c .line1 a.line1 }

/-- A class is raised (R174). -/
def State.raise (s : State) (c : AttnClass) : State :=
  { s with attention := s.attention.raise s.routing s.count c }

/-- Pulse state of a line. -/
def Attention.line (a : Attention) : LineId → PulseState
  | .line0 => a.line0
  | .line1 => a.line1

/-- A line's pulse state changed. -/
def Attention.setLine (a : Attention) (l : LineId) (p : PulseState) : Attention :=
  match l with
  | .line0 => { a with line0 := p }
  | .line1 => { a with line1 := p }

/-- The ten classes in class order. -/
def allClasses : List AttnClass :=
  [.eventOnset, .eventEnd, .captureDone, .intervalClosed, .assessmentClosed, .moduleState, .leadState,
    .queueHigh, .supply, .replyReady]

/-- Whether a line is at its active level: in a level mode while a class routed to it is pending (R175), in a
pulse mode while a pulse lasts (R176). -/
def State.lineActive (s : State) (l : LineId) : Bool :=
  if (s.routing.config l).mode.isPulse then
    match (s.attention.line l).phase with
    | .idle => false
    | .pulse _ => true
    | .gap _ => false
  else allClasses.any (fun c => s.attention.isPending c && s.routing.routesTo c l)

/-- Level of ATN0 or ATN1, `true` for high: low from reset until INIT completes, then by the line's mode
(section 11.2, R175, R176, R178). -/
def State.lineHigh (s : State) (l : LineId) : Bool :=
  s.control.device != .init && (s.lineActive l == (s.routing.config l).mode.activeHigh)

/-! ### Records (chapter 8) -/

/-- Whether a record of this class is admitted at the present occupancy (R132). -/
def RecordBuilder.admits (b : RecordBuilder) (body : RecordBody) : Bool :=
  decide (b.queue.length < body.admission.limit)

/-- The record as it is admitted: numbered, with the withheld count, and chained (R131, R133, R134). -/
def RecordBuilder.link (b : RecordBuilder) (body : RecordBody) : QueuedRecord where
  seq := b.seq
  withheld := b.withheld
  body := body
  chain := crc16 b.chain (recordBytes b.seq b.withheld body)

/-- An offer taken whole: the record takes a sequence number, and is admitted or refused (R131 to R134). -/
def RecordBuilder.offer (b : RecordBuilder) (body : RecordBody) : RecordBuilder :=
  if b.admits body then
    { seq := b.seq + 1
      chain := (b.link body).chain
      withheld := 0
      queue := b.queue ++ [b.link body] }
  else
    { b with seq := b.seq + 1, withheld := satSucc 255 b.withheld }

/-- Whether an offer raises the occupancy from 63 to 64 (R135). -/
def RecordBuilder.reachesHigh (b : RecordBuilder) (body : RecordBody) : Bool :=
  b.admits body && b.queue.length + 1 == Config.classCLimit

/-- A source offers a record (R131); an admission from 63 to 64 raises QUEUE_HIGH (R135). -/
def State.offer (s : State) (body : RecordBody) : State :=
  let s1 := { s with builder := s.builder.offer body }
  if s.builder.reachesHigh body then s1.raise .queueHigh else s1

/-- A status record, with the epoch value of the current tick and the epoch-unset flag (R136). -/
def State.offerStatus (s : State) (kind : StatusKind) : State :=
  s.offer (.status kind s.epochNow s.control.epochUnset)

/-- A reply record is offered and raises REPLY_READY (R137). -/
def State.offerReply (s : State) (kind tag : Byte) (result : ReplyResult) (tail : ReplyTail) : State :=
  (s.offer (.reply { kind := kind, tag := tag, result := result, tail := tail })).raise .replyReady

/-! ### The channel map (chapter 2) -/

/-- Whether a channel is an enabled entry of a point. -/
def State.channelIn (s : State) (p : Point) (c : Channel) : Bool :=
  (s.channel c).entry.enabled && (s.channel c).entry.point == p.val

/-- The channels of a point, in logical channel order. -/
def State.channelsOf (s : State) (p : Point) : List Channel :=
  allChannels.filter (fun c => s.channelIn p c)

/-- The current channels of a point, in logical channel order. -/
def State.currentsOf (s : State) (p : Point) : List Channel :=
  (s.channelsOf p).filter (fun c => (s.channel c).entry.kind == .current)

/-- The voltage channel of a phase of a point, when the map has one. -/
def State.voltageOf (s : State) (p : Point) (phase : Nat) : Option Channel :=
  (s.channelsOf p).find? (fun c => (s.channel c).entry.kind == .voltage && (s.channel c).entry.phase == phase)

/-- A checked channel: an enabled VOLTAGE entry with lead check enable set (R29). -/
def MapEntry.checked (e : MapEntry) : Bool :=
  e.enabled && e.kind == .voltage && e.leadCheck

/-- A checked channel of a measured point (R29). -/
def State.checkedMeasured (s : State) (e : MapEntry) : Bool :=
  e.checked &&
    match pointOfNat e.point with
    | none => false
    | some p => (s.point p).measured

/-- A point has a voltage channel whose source module is in the module-enable set (R25). -/
def State.hasVoltage (s : State) (p : Point) : Bool :=
  (s.channelsOf p).any (fun c =>
    (s.channel c).entry.kind == .voltage && inMask s.setup.moduleEnable (s.channel c).entry.module)

/-- The test of R25 for a point with a given limits entry. -/
def State.configuredWith (s : State) (p : Point) (l : LimitsEntry) : Bool :=
  l.declared != 0 && s.hasVoltage p

/-- The state a low tracker shows (R158). -/
def LowTracker.state : LowTracker → LowState
  | .quiet => .quiet
  | .dip _ => .dip
  | .interrupt _ => .interrupt

/-- The open event of a low tracker (R78). -/
def LowTracker.event : LowTracker → Option OpenEvent
  | .quiet => none
  | .dip e => some e
  | .interrupt e => some e

/-- The low tracker is QUIET. -/
def LowTracker.isQuiet : LowTracker → Bool
  | .quiet => true
  | .dip _ => false
  | .interrupt _ => false

/-- The open event of a low tracker changed. -/
def LowTracker.mapEvent (f : OpenEvent → OpenEvent) : LowTracker → LowTracker
  | .quiet => .quiet
  | .dip e => .dip (f e)
  | .interrupt e => .interrupt (f e)

/-- The state a high tracker shows (R158). -/
def HighTracker.state : HighTracker → HighState
  | .quiet => .quiet
  | .swell _ => .swell

/-- The open event of a high tracker (R78). -/
def HighTracker.event : HighTracker → Option OpenEvent
  | .quiet => none
  | .swell e => some e

/-- The high tracker is QUIET. -/
def HighTracker.isQuiet : HighTracker → Bool
  | .quiet => true
  | .swell _ => false

/-- The open event of a high tracker changed. -/
def HighTracker.mapEvent (f : OpenEvent → OpenEvent) : HighTracker → HighTracker
  | .quiet => .quiet
  | .swell e => .swell (f e)

end Sys2Proof.Machine
end

