-- ==== Sys2Proof/Machine/Arithmetic.lean ====
section
/-! DEFINITION. Window arithmetic (chapter 4): tallies, window values, root and scaling, thresholds, the origin
ratio, and the corrected code of a channel sample (R23). -/

namespace Sys2Proof.Machine

/-- The corrected code x': the slot's code minus the offset, clamped to the 24-bit code range (R23). -/
def correctedCode (code : Code) (offset : BitVec 16) : Int :=
  clampInt (-8388608) 8388607 (code.toInt - offset.toInt)

/-- A channel sample added to a tally by its marks (R56). -/
def Tally.add (t : Tally) (x : Int) (v : SlotValue) : Tally :=
  if v.unavailable then { t with unavailable := t.unavailable + 1 }
  else
    { q := t.q + x.natAbs * x.natAbs
      n := t.n + 1
      held := t.held + (if v.held then 1 else 0)
      clipped := t.clipped + (if v.clipped then 1 else 0)
      unavailable := t.unavailable }

/-- One binary digit of the integer square root at place `b`: kept when the square still does not exceed `m`. -/
def rootStep (m r b : Nat) : Nat :=
  if (r + 2 ^ b) * (r + 2 ^ b) ≤ m then r + 2 ^ b else r

/-- The digits of the root below place `b`, from the highest down. -/
def rootDigits (m : Nat) : Nat → Nat → Nat
  | 0, r => r
  | b + 1, r => rootDigits m b (rootStep m r b)

/-- The integer square root: the largest integer whose square does not exceed `m` (R61). -/
def intRoot (m : Nat) : Nat :=
  rootDigits m (m.log2 / 2 + 1) 0

/-- A root turned into a result by the gain, rounded half up and saturated (R62). -/
def scaleRoot (r gain : Nat) : Nat :=
  min Config.maxResult ((r * gain + 524288) / 1048576)

/-- The result of a sum of squares over a count: floor of the mean square, its root, scaled (R60 to R62). -/
def scaledMean (q n gain : Nat) : Nat :=
  scaleRoot (intRoot (q / n)) gain

/-- Quality of a window value (R58). -/
inductive Quality where
  | good
  | held
  | unavailable
  deriving DecidableEq, Repr

/-- A window value with its quality and flags (R58, R59, R63). -/
structure WindowValue where
  channel : Channel
  kind : ChannelKind
  phase : Nat
  value : Option Nat
  quality : Quality
  clipped : Bool
  opened : Bool
  free : Bool
  deriving DecidableEq, Repr

/-- Quality from the two tallies (R58). -/
def windowQuality (before now : Tally) : Quality :=
  if 0 < before.unavailable ∨ 0 < now.unavailable then .unavailable
  else if Config.heldLimit < before.held + now.held then .unavailable
  else if 0 < before.held + now.held then .held
  else .good

/-- The window value of a channel at the closing of a half-window (R58 to R62). -/
def windowValue (c : Channel) (r : ChannelRecord) (free : Bool) : WindowValue :=
  let quality := windowQuality r.previous r.current
  { channel := c
    kind := r.entry.kind
    phase := r.entry.phase
    value :=
      match quality with
      | .unavailable => none
      | .good => some (scaledMean (r.previous.q + r.current.q) (r.previous.n + r.current.n) r.entry.gain)
      | .held => some (scaledMean (r.previous.q + r.current.q) (r.previous.n + r.current.n) r.entry.gain)
    quality := quality
    clipped := decide (0 < r.previous.clipped) || decide (0 < r.current.clipped)
    opened := r.lead == .opened
    free := free }

/-- A threshold: U_decl times a permille figure, divided by 1000 and rounded half up (R67). -/
def permille (declared figure : Nat) : Nat :=
  divRound (declared * figure) 1000

/-- The derived thresholds of a limits entry (R67). -/
def deriveThresholds (l : LimitsEntry) : Thresholds where
  dipStart := permille l.declared l.dip
  dipEnd := permille l.declared (l.dip + l.hysteresis)
  intStart := permille l.declared l.interruption
  intEnd := permille l.declared (l.interruption + l.hysteresis)
  swellStart := permille l.declared l.swell
  swellEnd := permille l.declared (l.swell - l.hysteresis)
  lowerBand := permille l.declared l.lowerBand
  upperBand := permille l.declared l.upperBand

/-- The pre-event reference: the floor of the mean of a ring of eight values; absent with fewer (R68). -/
def ringReference (ring : List Nat) : Option Nat :=
  if Config.ringSize ≤ ring.length then some (ring.sum / Config.ringSize) else none

/-- The origin ratio of a current channel (R69). -/
def originRatio (onset reference : Nat) : Nat :=
  if 0 < reference then min Config.maxRatio (onset * 256 / reference)
  else if 0 < onset then Config.maxRatio
  else 256

/-- The crossing offset in subticks after the tick of the set before (R47): `before` is below 0, `x` is not. -/
def crossingOffset (before x : Int) : Nat :=
  256 * before.natAbs / (x - before).toNat

/-- The crossing instant of a positive crossing found in the set of tick `k` (R48). -/
def crossingInstant (k : Tick) (before x : Int) : Instant :=
  (k - 1).setWidth 56 <<< 8 + BitVec.ofNat 56 (crossingOffset before x)

/-- The frequency value of a valid period, in millihertz, rounded half up (R51). -/
def frequencyValue (rate crossings : Nat) (first last : Instant) : Nat :=
  divRound ((crossings - 1) * rate * 256 * 1000) (last - first).toNat

/-- The base of an epoch value: the largest multiple of the interval length not above it (R98). -/
def intervalBase (u : Setup) (epoch : Tick) : Nat :=
  multipleBelow u.intervalTicks epoch.toNat

end Sys2Proof.Machine
end

