-- ==== Sys2Proof/Machine/Capture.lean ====
section
/-! DEFINITION. The History Buffer and the Capture Engine (chapter 7), and the shedding of the Capture Queue (R140). -/

namespace Sys2Proof.Machine

/-! ### History Buffer -/

/-- A slot as it is stored: an unavailable slot with code 0 and without a mark (R115, log entry 10). -/
def storeSlot (v : SlotValue) : StoredSlot :=
  if v.unavailable then { code := 0, held := false, clipped := false }
  else { code := v.code, held := v.held, clipped := v.clipped }

/-- A sample set as it is stored (R115). -/
def storeSet (set : SampleSet) : StoredSet :=
  mapAll set (fun _ slots => mapAll slots (fun _ v => storeSlot v))

/-- A set written as the new head, the oldest overwritten at a fill of 2048 (R115). -/
def History.write (h : History) (t : Tick) (set : SampleSet) : History where
  head := some t
  sets := (storeSet set :: h.sets).take Config.historySize

/-- The fill: the number of sets held (R115). -/
def History.fill (h : History) : Nat :=
  h.sets.length

/-- Tick of the oldest stored set, when there is one (R115). -/
def History.oldest (h : History) : Option Tick :=
  match h.head with
  | none => none
  | some t => if h.sets = [] then none else some (t - BitVec.ofNat 48 (h.fill - 1))

/-- How many sets lie between the set of tick `t` and the head, when the set of tick `t` is stored. -/
def History.depth (h : History) (t : Tick) : Option Nat :=
  match h.head with
  | none => none
  | some head => if ticksFrom t head < h.fill then some (ticksFrom t head) else none

/-- The lag: stored sets from a read position up to the head, 0 when it lies beyond the head (section 7.2). -/
def History.lag (h : History) (read : Tick) : Nat :=
  match h.depth read with
  | none => 0
  | some d => d + 1

/-- The `n` stored sets from tick `t` on, in tick order. -/
def History.stretch (h : History) (t : Tick) (n : Nat) : List StoredSet :=
  ((h.sets.take (h.lag t)).reverse).take n

/-- A set that closes in RUNNING or HOLDUP is written (R115). -/
def State.writeHistory (s : State) (t : Tick) (set : SampleSet) : State :=
  if s.measuring then { s with history := s.history.write t set } else s

/-! ### What a capture starts with, and the answer to an onset -/

/-- The actual pre count: P, or less when the buffer reaches back less far; 0 with an empty buffer (R120). -/
def actualPre (h : History) (pre : Nat) (trigger : Tick) : Nat :=
  match h.oldest with
  | none => 0
  | some old => min pre (ticksFrom old trigger)

/-- The running capture that a trigger starts (R120). -/
def newCapture (s : State) (tag : Word) (p : Point) (trigger : Tick) : RunningCapture :=
  let pre := actualPre s.history s.setup.preTrigger trigger
  let start := trigger - BitVec.ofNat 48 pre
  { tag := tag
    point := p
    channels := s.channelsOf p
    triggerTick := trigger
    triggerEpoch := s.epochOf trigger
    startTick := start
    preCount := pre
    plannedEnd := trigger + BitVec.ofNat 48 s.setup.postTrigger
    readPosition := start
    frameIndex := 0
    delivered := 0
    crc := 0xFFFF }

/-- The Capture Engine's answer to an onset (R85, R118). -/
def State.captureAnswer (s : State) : CaptureStatus :=
  if s.control.device = .holdup then .notTakenSupply
  else if s.capture.isSome then .notTakenBusy
  else if s.shedding = .shed then .notTakenShed
  else .taken

/-- The capture tag of an event: its own tag when the capture was TAKEN (R85). -/
def captureTagOf (status : CaptureStatus) (tag : Word) : Option Word :=
  if status = .taken then some tag else none

/-! ### Ending a capture -/

/-- The closure record of a capture (R127). -/
def closureOf (c : RunningCapture) (reason : EndReason) : ClosureRecord where
  tag := c.tag
  point := c.point
  triggerEpoch := c.triggerEpoch
  preCount := c.preCount
  delivered := c.delivered
  reason := reason
  crc := c.crc

/-- A running capture ends: its closure record is offered, CAPTURE_DONE is raised, the engine is IDLE (R127). -/
def State.endCapture (s : State) (reason : EndReason) : State :=
  match s.capture with
  | none => s
  | some c => { (s.offer (.closure (closureOf c reason))).raise .captureDone with capture := none }

/-! ### Forming frames -/

/-- The stored slot that a channel's source names (R122). -/
def storedSample (set : StoredSet) (e : MapEntry) : StoredSlot :=
  match moduleOfNat e.module, slotOfNat e.slot with
  | some m, some k => (set[m.val])[k.val]
  | _, _ => { code := 0, held := false, clipped := false }

/-- Sets from the read position to the planned end. -/
def RunningCapture.remaining (c : RunningCapture) : Nat :=
  ticksFrom c.readPosition c.plannedEnd + 1

/-- Sets the next frame holds: 64, or those left to the planned end (R121). -/
def RunningCapture.nextCount (c : RunningCapture) : Nat :=
  min Config.frameSets c.remaining

/-- "Sets ready": 64 sets from the read position are stored, or the set of the planned end is (R121). -/
def setsReady (h : History) (c : RunningCapture) : Bool :=
  decide (Config.frameSets ≤ h.lag c.readPosition) || (h.depth c.plannedEnd).isSome

/-- The two conditions of R121 hold for a running capture. -/
def State.frameReady (s : State) (c : RunningCapture) : Bool :=
  setsReady s.history c && decide (s.captureQueue.length < Config.captureQueueSize)

/-- The frame that the engine forms next (R122). -/
def nextFrame (s : State) (c : RunningCapture) : CaptureFrame :=
  let sets := s.history.stretch c.readPosition c.nextCount
  let slots := sets.map (fun set => c.channels.map (fun ch => storedSample set (s.channel ch).entry))
  { tag := c.tag
    point := c.point
    index := c.frameIndex
    channels := c.channels
    firstTick := c.readPosition
    heldPresent := slots.any (fun row => row.any StoredSlot.held)
    clippedPresent := slots.any (fun row => row.any StoredSlot.clipped)
    codes := slots.map (fun row => row.map StoredSlot.code) }

/-- The running capture after a frame: read position, sets delivered, frame index, CRC (R121, R123). -/
def RunningCapture.advance (c : RunningCapture) (f : CaptureFrame) : RunningCapture :=
  { c with
    readPosition := c.readPosition + BitVec.ofNat 48 c.nextCount
    delivered := c.delivered + c.nextCount
    frameIndex := c.frameIndex + 1
    crc := crc16 c.crc f.bytes }

/-- A frame joins the Capture Queue (R139); bringing it to the high watermark sets SHED and truncates a capture
that is still running (R125, R140). -/
def State.shedIfFull (s : State) : State :=
  if s.shedding = .opened ∧ s.captureQueue.length = s.setup.highMark then
    { s with shedding := .shed }.endCapture .truncatedShed
  else s

/-- One frame is formed: it joins the queue, the capture advances, and it ends COMPLETE when the frame's last
set is the planned end (R121, R124), before the watermark is looked at (R124, R125). -/
def State.formFrame (s : State) (c : RunningCapture) : State :=
  let f := nextFrame s c
  let s1 := { s with captureQueue := s.captureQueue ++ [f], capture := some (c.advance f) }
  let s2 := if c.remaining ≤ Config.frameSets then s1.endCapture .complete else s1
  s2.shedIfFull

/-- One frame is formed if the engine is RUNNING and the conditions of R121 hold. -/
def State.formOne (s : State) : State :=
  match s.capture with
  | none => s
  | some c => if s.frameReady c then s.formFrame c else s

/-- Frames are formed one after another for as long as the conditions hold (R121); each takes a place of the
queue, so no more than its 48 places are ever filled. -/
def State.formFrames (s : State) : Nat → State
  | 0 => s
  | fuel + 1 => s.formOne.formFrames fuel

/-- What each of the three occasions of R121 does: all the frames that its conditions allow. -/
def State.formAll (s : State) : State :=
  s.formFrames Config.captureQueueSize

/-! ### Starting a capture -/

/-- A capture starts, and forms frames at once as far as R121 allows: the first occasion (R120, R121). -/
def State.startCapture (s : State) (tag : Word) (p : Point) (trigger : Tick) : State :=
  { s with capture := some (newCapture s tag p trigger) }.formAll

/-- An onset asks for a capture: the capture starts when the answer is TAKEN (R118). -/
def State.requestCapture (s : State) (tag : Word) (p : Point) (trigger : Tick) : State :=
  if s.captureAnswer = .taken then s.startCapture tag p trigger else s

end Sys2Proof.Machine
end

