-- ==== Sys2Proof/Machine/Trackers.lean ====
section
/-! DEFINITION. The disturbance trackers, event records, origin, and pending limits (chapter 5). -/

namespace Sys2Proof.Machine

/-- A window result of a point (R63): the values of its channels in logical channel order, the closing tick,
and whether it carries FREE. -/
structure WindowResult where
  values : List WindowValue
  tick : Tick
  free : Bool
  deriving DecidableEq, Repr

/-! ### Usable phases (section 5.2) -/

/-- A usable phase: a voltage value of quality GOOD or HELD without OPEN (R76). -/
def WindowValue.usable (w : WindowValue) : Bool :=
  w.kind == .voltage && w.quality != .unavailable && !w.opened

/-- Phase and value of a usable phase. -/
def WindowValue.phaseValue (w : WindowValue) : Option (Nat × Nat) :=
  if w.usable then w.value.map (fun v => (w.phase, v)) else none

/-- The usable phases of a result with their values (R76). -/
def WindowResult.usable (r : WindowResult) : List (Nat × Nat) :=
  r.values.filterMap WindowValue.phaseValue

/-- No phase is usable (R77). -/
def WindowResult.blind (r : WindowResult) : Bool :=
  r.usable.isEmpty

/-- Of two phases, the one with the smaller value, the lower-numbered when equal (R76). -/
def lowerOf (x y : Nat × Nat) : Nat × Nat :=
  if x.2 < y.2 ∨ (x.2 = y.2 ∧ x.1 < y.1) then x else y

/-- Of two phases, the one with the larger value, the lower-numbered when equal (R76). -/
def higherOf (x y : Nat × Nat) : Nat × Nat :=
  if y.2 < x.2 ∨ (x.2 = y.2 ∧ x.1 < y.1) then x else y

/-- vmin and the vmin phase over at least one usable phase (R76). -/
def lowestFrom (x : Nat × Nat) (rest : List (Nat × Nat)) : Nat × Nat :=
  rest.foldl lowerOf x

/-- vmax and the vmax phase over at least one usable phase (R76). -/
def highestFrom (x : Nat × Nat) (rest : List (Nat × Nat)) : Nat × Nat :=
  rest.foldl higherOf x

/-- The set of the phases whose value meets a test (R81, R82, R83, R84), as a mask. -/
def phaseSet (us : List (Nat × Nat)) (test : Nat → Bool) : BitVec 4 :=
  us.foldl (fun m u => if test u.2 then m ||| BitVec.ofNat 4 (2 ^ u.1) else m) 0

/-- FREE_SEEN, CLIPPED_SEEN and HELD_SEEN as one result sets them (R80). -/
def WindowResult.seen (r : WindowResult) : EventFlags where
  freeSeen := r.free
  clippedSeen := r.values.any (fun w => w.usable && w.clipped)
  heldSeen := r.values.any (fun w => w.usable && w.quality == .held)
  timeStepped := false

/-- A flag once set stays set (R82). -/
def EventFlags.join (f g : EventFlags) : EventFlags where
  freeSeen := f.freeSeen || g.freeSeen
  clippedSeen := f.clippedSeen || g.clippedSeen
  heldSeen := f.heldSeen || g.heldSeen
  timeStepped := f.timeStepped || g.timeStepped

/-- The value of a channel in a result, absent when UNAVAILABLE. -/
def WindowResult.valueOf (r : WindowResult) (c : Channel) : Option Nat :=
  match r.values.find? (fun w => w.channel == c) with
  | none => none
  | some w => w.value

/-! ### Origin (section 5.8) -/

/-- What is noted of each current channel at the onset: the reference from the ring as it stands before the
result, and the onset value (R91). -/
def State.originNotes (s : State) (p : Point) (r : WindowResult) : List OriginNote :=
  (s.currentsOf p).map (fun c =>
    { channel := c, reference := ringReference (s.channel c).ring, onset := r.valueOf c })

/-- I_onset of a note: the larger of the onset value and the next one, or the onset value alone when a forced
end left no next result; absent when a value used was UNAVAILABLE (R91, R92). -/
def OriginNote.current (n : OriginNote) (next : Option WindowResult) : Option Nat :=
  match n.onset, next with
  | none, _ => none
  | some a, none => some a
  | some a, some r =>
    match r.valueOf n.channel with
    | none => none
    | some b => some (max a b)

/-- Reference and I_onset of every channel, when none of them is absent (R92). -/
def originCells (notes : List OriginNote) (next : Option WindowResult) : Option (List (Nat × Nat)) :=
  notes.foldr (fun n acc =>
    match n.reference, n.current next, acc with
    | some r, some i, some cells => some ((r, i) :: cells)
    | _, _, _ => none) (some [])

/-- Whether a channel marks a downstream rise (R92). -/
def marksRise (u : Setup) (cell : Nat × Nat) : Bool :=
  decide (256 + u.originRise ≤ originRatio cell.2 cell.1) && decide (u.originMinimum ≤ cell.2)

/-- The origin and the origin ratio (R92). -/
def decideOrigin (u : Setup) (notes : List OriginNote) (next : Option WindowResult) : Origin × Option Nat :=
  if notes = [] then (.notAssessed, none)
  else
    match originCells notes next with
    | none => (.undetermined, none)
    | some cells =>
      let ratio := (cells.map (fun cell => originRatio cell.2 cell.1)).foldl max 0
      if cells.any (marksRise u) then (.downstream, some ratio) else (.upstream, some ratio)

/-- The origin of an event, decided now if it is not yet (R92, R93). -/
def OpenEvent.judge (e : OpenEvent) (u : Setup) (next : Option WindowResult) : Origin × Option Nat :=
  match e.work with
  | .gathering notes => decideOrigin u notes next
  | .decided origin ratio => (origin, ratio)

/-- The result after the onset, blind or not, completes the origin work (R91, R92). -/
def OpenEvent.settle (e : OpenEvent) (u : Setup) (r : WindowResult) : OpenEvent :=
  let j := e.judge u (some r)
  { e with work := .decided j.1 j.2 }

/-! ### Closing events -/

/-- The event record of an event that ends (R86, R95). -/
def eventRecord (p : Point) (e : OpenEvent) (endTick : Tick) (cause : EndCause) (j : Origin × Option Nat) : EventRecord where
  tag := e.tag
  eventClass := e.eventClass
  point := p
  startEpoch := e.startEpoch
  epochUnset := e.epochUnset
  duration := endTick - e.startTick
  extreme := e.extreme
  extremePhase := e.extremePhase
  phases := e.phases
  windows := e.windows
  blindWindows := e.blindWindows
  flags := e.flags
  endCause := cause
  captureStatus := e.captureStatus
  captureTag := e.captureTag
  origin := j.1
  ratio := j.2

/-- An event counted in an assessment by the class its record carries (R111). -/
def Assessment.countEvent (a : Assessment) (k : EventClass) : Assessment :=
  match k with
  | .dip => { a with dips := satSucc 65535 a.dips }
  | .interruption => { a with interruptions := satSucc 65535 a.interruptions }
  | .swell => { a with swells := satSucc 65535 a.swells }

/-- An event's record is offered, EVENT_END is raised, and the event is counted (R86, R111). -/
def State.closeEvent (s : State) (p : Point) (e : OpenEvent) (endTick : Tick) (cause : EndCause) : State :=
  let s1 := (s.offer (.event (eventRecord p e endTick cause (e.judge s.setup none)))).raise .eventEnd
  s1.modPoint p (fun pt => { pt with assessment := pt.assessment.map (fun a => a.countEvent e.eventClass) })

/-- An event, if there is one, is closed at the current tick (R87, R88). -/
def State.closeIfOpen (s : State) (p : Point) (e : Option OpenEvent) (cause : EndCause) : State :=
  match e with
  | none => s
  | some e => s.closeEvent p e s.count cause

/-- Both trackers of a point are force-closed, the low one first (R87, R88). -/
def State.forceClosePoint (s : State) (cause : EndCause) (p : Point) : State :=
  let s1 := s.closeIfOpen p (s.point p).low.event cause
  (s1.closeIfOpen p (s1.point p).high.event cause).modPoint p (fun pt => { pt with low := .quiet, high := .quiet })

/-- Every open event of every point is closed, in order of point number (R87, R88). -/
def State.forceCloseEvents (s : State) (cause : EndCause) : State :=
  allFour.foldl (fun s p => s.forceClosePoint cause p) s

/-! ### Opening events -/

/-- A new open event record (R80, R85). -/
def newEvent (s : State) (tag : Word) (k : EventClass) (r : WindowResult) (extreme : Nat × Nat)
    (phases : BitVec 4) (status : CaptureStatus) (captureTag : Option Word) (work : OriginWork) : OpenEvent where
  tag := tag
  eventClass := k
  startTick := r.tick
  startEpoch := s.epochOf r.tick
  epochUnset := s.control.epochUnset
  extreme := extreme.2
  extremePhase := extreme.1
  phases := phases
  windows := 1
  blindWindows := 0
  flags := r.seen
  captureStatus := status
  captureTag := captureTag
  work := work

/-- The low-side event that opens at a result (R79, R80, R81, R91). -/
def lowOnset (s : State) (p : Point) (r : WindowResult) (k : EventClass) (vmin : Nat × Nat) : OpenEvent :=
  let tag := s.eventTag + 1
  newEvent s tag k r vmin (phaseSet r.usable (fun v => decide (v < (s.point p).thresholds.dipStart)))
    s.captureAnswer (captureTagOf s.captureAnswer tag) (.gathering (s.originNotes p r))

/-- An onset of the low tracker: tag, capture request, open event, EVENT_ONSET (R79, R80, R85). -/
def State.openLow (s : State) (p : Point) (r : WindowResult) (k : EventClass) (vmin : Nat × Nat) : State :=
  let e := lowOnset s p r k vmin
  let s1 := { s with eventTag := e.tag }.requestCapture e.tag p r.tick
  let tracker := match k with
    | .interruption => LowTracker.interrupt e
    | .dip => LowTracker.dip e
    | .swell => LowTracker.dip e
  (s1.modPoint p (fun pt => { pt with low := tracker })).raise .eventOnset

/-- The status a swell takes when the low tracker opened an event at the same result (R85). -/
def sharedStatus (status : CaptureStatus) : CaptureStatus :=
  if status = .taken then .shared else status

/-- The capture tag such a swell takes: that of the low event, absent when no capture was taken (R85). -/
def OpenEvent.sharedTag (low : OpenEvent) : Option Word :=
  if low.captureStatus = .taken then low.captureTag else none

/-- An onset of the high tracker. With a low event opened at the same result it asks for no capture (R85). -/
def State.openHigh (s : State) (p : Point) (r : WindowResult) (vmax : Nat × Nat)
    (lowOpened : Option OpenEvent) : State :=
  let tag := s.eventTag + 1
  let phases := phaseSet r.usable (fun v => decide ((s.point p).thresholds.swellStart < v))
  let s0 := { s with eventTag := tag }
  match lowOpened with
  | some low =>
    let e := newEvent s tag .swell r vmax phases (sharedStatus low.captureStatus) low.sharedTag
      (.decided .notAssessed none)
    (s0.modPoint p (fun pt => { pt with high := .swell e })).raise .eventOnset
  | none =>
    let e := newEvent s tag .swell r vmax phases s.captureAnswer (captureTagOf s.captureAnswer tag)
      (.decided .notAssessed none)
    ((s0.requestCapture tag p r.tick).modPoint p (fun pt => { pt with high := .swell e })).raise .eventOnset

/-! ### The low tracker (section 5.4) -/

/-- What the low tracker does at a result that is not blind: the rows of R81. -/
inductive LowMove where
  | stay
  | openDip
  | openInterruption
  | deepen
  | close
  | relax
  deriving DecidableEq, Repr

/-- The first row of R81 that applies. -/
def lowMove (th : Thresholds) (st : LowState) (vmin vmax : Nat) : LowMove :=
  match st with
  | .quiet =>
    if vmin < th.dipStart ∧ vmax < th.intStart then .openInterruption
    else if vmin < th.dipStart then .openDip
    else .stay
  | .dip =>
    if vmax < th.intStart then .deepen
    else if th.dipEnd ≤ vmin then .close
    else .stay
  | .interrupt =>
    if th.dipEnd ≤ vmin then .close
    else if th.intEnd ≤ vmax then .relax
    else .stay

/-- The updates of R82 to an open low-side event at a result that is not blind. -/
def OpenEvent.growLow (e : OpenEvent) (th : Thresholds) (r : WindowResult) (vmin : Nat × Nat) : OpenEvent :=
  { e with
    windows := e.windows + 1
    extreme := if vmin.2 < e.extreme then vmin.2 else e.extreme
    extremePhase := if vmin.2 < e.extreme then vmin.1 else e.extremePhase
    phases := e.phases ||| phaseSet r.usable (fun v => decide (v < th.dipStart))
    flags := e.flags.join r.seen }

/-- A blind window adds to the blind window count alone (R77). -/
def OpenEvent.growBlind (e : OpenEvent) : OpenEvent :=
  { e with blindWindows := e.blindWindows + 1 }

/-- Where the low tracker goes with its open event at a row of R81. -/
def LowTracker.move (t : LowTracker) (m : LowMove) (e : OpenEvent) : LowTracker :=
  match m with
  | .deepen => .interrupt { e with eventClass := .interruption }
  | .relax => .dip e
  | .close => .quiet
  | .stay => t.mapEvent (fun _ => e)
  | .openDip => t.mapEvent (fun _ => e)
  | .openInterruption => t.mapEvent (fun _ => e)

/-- The low tracker of a point with an open event takes a result that is not blind (R81, R82, R86, R91). -/
def State.lowContinue (s : State) (p : Point) (r : WindowResult) (e : OpenEvent) (vmin vmax : Nat × Nat) : State :=
  let th := (s.point p).thresholds
  let grown := (e.growLow th r vmin).settle s.setup r
  let m := lowMove th (s.point p).low.state vmin.2 vmax.2
  let s1 := if m = .close then s.closeEvent p grown r.tick .normal else s
  s1.modPoint p (fun pt => { pt with low := pt.low.move m grown })

/-- The low tracker takes a window result (R77, R81). -/
def State.lowStep (s : State) (p : Point) (r : WindowResult) : State :=
  match r.usable with
  | [] =>
    s.modPoint p (fun pt => { pt with low := pt.low.mapEvent (fun e => e.growBlind.settle s.setup r) })
  | u :: us =>
    let vmin := lowestFrom u us
    let vmax := highestFrom u us
    match (s.point p).low.event with
    | some e => s.lowContinue p r e vmin vmax
    | none =>
      match lowMove (s.point p).thresholds .quiet vmin.2 vmax.2 with
      | .openInterruption => s.openLow p r .interruption vmin
      | .openDip => s.openLow p r .dip vmin
      | .stay => s
      | .deepen => s
      | .close => s
      | .relax => s

/-! ### The high tracker (section 5.5) -/

/-- The updates of R84 to an open swell at a result that is not blind. -/
def OpenEvent.growHigh (e : OpenEvent) (th : Thresholds) (r : WindowResult) (vmax : Nat × Nat) : OpenEvent :=
  { e with
    windows := e.windows + 1
    extreme := if e.extreme < vmax.2 then vmax.2 else e.extreme
    extremePhase := if e.extreme < vmax.2 then vmax.1 else e.extremePhase
    phases := e.phases ||| phaseSet r.usable (fun v => decide (th.swellStart < v))
    flags := e.flags.join r.seen }

/-- The high tracker takes a window result (R77, R83, R84). -/
def State.highStep (s : State) (p : Point) (r : WindowResult) (lowOpened : Option OpenEvent) : State :=
  let th := (s.point p).thresholds
  match r.usable with
  | [] => s.modPoint p (fun pt => { pt with high := pt.high.mapEvent OpenEvent.growBlind })
  | u :: us =>
    let vmax := highestFrom u us
    match (s.point p).high with
    | .quiet => if th.swellStart < vmax.2 then s.openHigh p r vmax lowOpened else s
    | .swell e =>
      let grown := e.growHigh th r vmax
      if vmax.2 ≤ th.swellEnd then
        (s.closeEvent p grown r.tick .normal).modPoint p (fun pt => { pt with high := .quiet })
      else s.modPoint p (fun pt => { pt with high := .swell grown })

/-! ### After both trackers (section 5, opening) -/

/-- Both trackers of a point are QUIET. -/
def State.bothQuiet (s : State) (p : Point) : Bool :=
  (s.point p).low.isQuiet && (s.point p).high.isQuiet

/-- A limits entry installed for a point, with its derived thresholds (R67, R72). -/
def PointRecord.install (pt : PointRecord) (l : LimitsEntry) : PointRecord :=
  { pt with limits := l, thresholds := deriveThresholds l, pendingLimits := none }

/-- Pending limits are installed at a result that leaves both trackers QUIET (R74). -/
def State.installPending (s : State) (p : Point) : State :=
  if s.bothQuiet p then
    match (s.point p).pendingLimits with
    | none => s
    | some l => (s.modPoint p (fun pt => pt.install l)).offerStatus (.limitsInstalled p)
  else s

/-- A value joins a ring; the oldest of eight leaves (R90). -/
def pushRing (ring : List Nat) (v : Nat) : List Nat :=
  (ring ++ [v]).drop (ring.length + 1 - Config.ringSize)

/-- The current values of a result join their rings (R90). -/
def State.joinRings (s : State) (p : Point) (r : WindowResult) : State :=
  s.mapChannels (fun c ch =>
    if ch.entry.enabled && ch.entry.point == p.val && ch.entry.kind == .current then
      match r.valueOf c with
      | none => ch
      | some v => { ch with ring := pushRing ch.ring v }
    else ch)

/-- An unsent check request of a point is withdrawn; its channel stays due (R32). -/
def PointRecord.withdraw (pt : PointRecord) : PointRecord :=
  match pt.check with
  | none => pt
  | some k => if k.sent then pt else { pt with check := none }

/-- A window result taken by both trackers of its point and what follows (R32, R74, R81, R83, R90). R74 puts the
installation of pending limits after the trackers, and no rule places it against the Aggregator's taking of the same
half-window: it comes first (log entry 38, DESIGN CHOICE). -/
def State.takeResult (s : State) (p : Point) (r : WindowResult) : State :=
  let wasQuiet := (s.point p).low.isQuiet
  let s1 := s.lowStep p r
  let lowOpened := if wasQuiet then (s1.point p).low.event else none
  let s2 := s1.highStep p r lowOpened
  let isQuiet := (s2.point p).low.isQuiet
  let s3 := if wasQuiet && !isQuiet then s2.modPoint p PointRecord.withdraw else s2
  let s4 := s3.installPending p
  if wasQuiet && isQuiet then s4.joinRings p r else s4

end Sys2Proof.Machine
end

