-- ==== Sys2Proof/Machine/Aggregator.lean ====
section
/-! DEFINITION. The Aggregator (chapter 6): blocks, intervals and assessments of a point. -/

namespace Sys2Proof.Machine

/-! ### Values and records -/

/-- The block mean square of a channel, absent with a block count of 0 (R65). -/
def BlockSum.mean (b : BlockSum) : Option Nat :=
  if 0 < b.n then some (b.q / b.n) else none

/-- The interval mean square of a channel, absent with an interval count of 0 (R66). -/
def IntervalSum.mean (a : IntervalSum) : Option Nat :=
  if 0 < a.count then some (a.sum / a.count) else none

/-- A mean square turned into a result by a channel's gain (R61, R62). -/
def State.resultOf (s : State) (c : Channel) (mean : Nat) : Nat :=
  scaleRoot (intRoot mean) (s.channel c).entry.gain

/-- The block record of a block (R101). -/
def blockRecord (s : State) (p : Point) (b : Block) : BlockRecord where
  point := p
  startEpoch := b.start.getD 0
  halfWindows := b.count
  disturbed := b.disturbed
  short := decide (b.count < s.setup.nominal.blockLength)
  blind := b.blind
  channels := (s.channelsOf p).map (fun c =>
    { channel := c, value := (b.sums[c.val]).mean.map (s.resultOf c) })

/-- One channel of an interval record (R104). -/
def intervalChannel (s : State) (iv : Interval) (c : Channel) : IntervalChannel where
  channel := c
  value := (iv.sums[c.val]).mean.map (s.resultOf c)
  least := (iv.sums[c.val]).least
  greatest := (iv.sums[c.val]).greatest
  held := (iv.sums[c.val]).held
  clipped := (iv.sums[c.val]).clipped
  opened := (iv.sums[c.val]).opened

/-- The frequency part of an interval record (R104). -/
def FrequencySum.report (f : FrequencySum) : IntervalFrequency where
  valid := f.valid
  mean := if 0 < f.valid then some (divRound f.sum f.valid) else none
  least := f.least
  greatest := f.greatest
  outOfBand := f.outOfBand

/-- The interval record of an interval that ends at a tick (R104). -/
def intervalRecord (s : State) (p : Point) (iv : Interval) (endTick : Tick) (stopped : Bool) : IntervalRecord where
  point := p
  startEpoch := iv.coverageEpoch
  length := endTick - iv.coverageStart
  flags :=
    { disturbed := iv.disturbed
      short := decide ((endTick - iv.coverageStart).toNat < s.setup.intervalTicks)
      timeStepped := iv.timeStepped
      stopped := stopped
      epochUnset := iv.epochUnset }
  halfWindows := iv.halfWindows
  blindHalfWindows := iv.blindHalfWindows
  channels := (s.channelsOf p).map (intervalChannel s iv)
  frequency := iv.frequency.report

/-! ### Assessment (section 6.6) -/

def PhaseCounts.zero : PhaseCounts where
  evaluated := 0
  below := 0
  above := 0

/-- A new assessment: all counts 0, both marks clear (R109). -/
def Assessment.fresh (startEpoch : Tick) : Assessment where
  startEpoch := startEpoch
  closedIntervals := 0
  stepped := false
  unset := false
  phases := Vector.replicate 3 .zero
  freqEvaluated := 0
  freqOutside := 0
  dips := 0
  interruptions := 0
  swells := 0

/-- An interval that can be judged: not disturbed, not short, at most half of its half-windows blind (R110). -/
def IntervalRecord.evaluable (r : IntervalRecord) : Bool :=
  !r.flags.disturbed && !r.flags.short && decide (2 * r.blindHalfWindows ≤ r.halfWindows)

/-- A phase judged against the bands by its interval value; a value equal to a level is within the band (R110). -/
def PhaseCounts.judge (c : PhaseCounts) (th : Thresholds) (value : Nat) : PhaseCounts where
  evaluated := c.evaluated + 1
  below := if value < th.lowerBand then c.below + 1 else c.below
  above := if th.upperBand < value then c.above + 1 else c.above

/-- The value an interval record carries for a channel. -/
def IntervalRecord.valueOf (r : IntervalRecord) (c : Channel) : Option Nat :=
  match r.channels.find? (fun x => x.channel == c) with
  | none => none
  | some x => x.value

/-- The interval value of a voltage phase, when the phase has a channel and the value is present. -/
def State.phaseValue (s : State) (p : Point) (r : IntervalRecord) (phase : Nat) : Option Nat :=
  match s.voltageOf p phase with
  | none => none
  | some c => r.valueOf c

/-- The counts of a phase after an interval (R110). -/
def PhaseCounts.take (c : PhaseCounts) (th : Thresholds) (evaluable : Bool) (value : Option Nat) : PhaseCounts :=
  match value with
  | none => c
  | some v => if evaluable then c.judge th v else c

/-- An assessment takes a closed interval (R110). -/
def Assessment.takeInterval (a : Assessment) (s : State) (p : Point) (r : IntervalRecord) : Assessment :=
  { a with
    closedIntervals := a.closedIntervals + 1
    stepped := a.stepped || r.flags.timeStepped
    unset := a.unset || r.flags.epochUnset
    phases := mapAll a.phases (fun i c =>
      c.take (s.point p).thresholds r.evaluable (s.phaseValue p r (i.val + 1))) }

/-- The counts a summary carries for a phase: absent for a phase without a voltage channel (R112). -/
def State.summaryPhase (s : State) (p : Point) (phase : Nat) (c : PhaseCounts) : Option PhaseCounts :=
  (s.voltageOf p phase).map (fun _ => c)

/-- The summary record of an assessment (R112). -/
def summaryRecord (s : State) (p : Point) (a : Assessment) (early stopped : Bool) : SummaryRecord where
  point := p
  startEpoch := a.startEpoch
  closedIntervals := a.closedIntervals
  flags := { early := early, stopped := stopped, timeStepped := a.stepped, epochUnset := a.unset }
  phase1 := s.summaryPhase p 1 a.phases[0]
  phase2 := s.summaryPhase p 2 a.phases[1]
  phase3 := s.summaryPhase p 3 a.phases[2]
  freqEvaluated := a.freqEvaluated
  freqOutside := a.freqOutside
  dips := a.dips
  interruptions := a.interruptions
  swells := a.swells

/-- An assessment ends with its summary record, and ASSESSMENT_CLOSED is raised (R112); `next` takes its place. -/
def State.endAssessment (s : State) (p : Point) (early stopped : Bool) (next : Option Assessment) : State :=
  match (s.point p).assessment with
  | none => s
  | some a =>
    ((s.offer (.summary (summaryRecord s p a early stopped))).raise .assessmentClosed).modPoint p
      (fun pt => { pt with assessment := next })

/-- The assessment has reached its length (R104, R112). -/
def State.assessmentFull (s : State) (p : Point) : Bool :=
  match (s.point p).assessment with
  | none => false
  | some a => decide (s.setup.assessmentLength ≤ a.closedIntervals)

/-! ### Closing a block and an interval -/

/-- A closed block acts on the interval in progress: mean squares and disturbed mark (R66, R101). -/
def Interval.takeBlock (iv : Interval) (b : Block) : Interval :=
  { iv with
    disturbed := iv.disturbed || b.disturbed
    sums := mapAll iv.sums (fun c a =>
      match (b.sums[c.val]).mean with
      | none => a
      | some ms => { a with sum := a.sum + ms, count := a.count + 1 }) }

/-- A block closes (R101): its record, when one is created, and its mean squares; a new block takes its place. -/
def State.closeBlock (s : State) (p : Point) (b : Block) : State :=
  let creates := s.control.device == .running && inMask s.setup.blockPoints p.val
  let s1 := if creates then s.offer (.block (blockRecord s p b)) else s
  s1.modPoint p (fun pt =>
    { pt with block := some .fresh, interval := pt.interval.map (fun iv => iv.takeBlock b) })

/-- The block in progress is closed short, unless its half-window count is 0: then it is discarded (R99). -/
def State.closeBlockShort (s : State) (p : Point) : State :=
  match (s.point p).block with
  | none => s
  | some b =>
    if b.count = 0 then s.modPoint p (fun pt => { pt with block := some .fresh }) else s.closeBlock p b

/-- An interval closes (R104): assessment, record, INTERVAL_CLOSED, and the summary when the assessment has
reached its length. At STOP the summary is left to R105. -/
def State.closeInterval (s : State) (p : Point) (endTick : Tick) (stopped : Bool) : State :=
  match (s.point p).interval with
  | none => s
  | some iv =>
    let r := intervalRecord s p iv endTick stopped
    let s1 := s.modPoint p (fun pt =>
      { pt with interval := none, assessment := pt.assessment.map (fun a => a.takeInterval s p r) })
    let s2 := (s1.offer (.interval r)).raise .intervalClosed
    if !stopped && s2.assessmentFull p then
      s2.endAssessment p false false (some (.fresh (s2.epochOf endTick)))
    else s2

/-! ### Opening -/

/-- An interval opened at a tick (R98): its base is that of the tick's epoch value. -/
def State.newInterval (s : State) (t : Tick) : Interval where
  base := intervalBase s.setup (s.epochOf t)
  coverageStart := t
  coverageEpoch := s.epochOf t
  halfWindows := 0
  blindHalfWindows := 0
  disturbed := false
  timeStepped := false
  epochUnset := s.control.epochUnset
  sums := Vector.replicate 24 .zero
  frequency := .zero

/-- A new block and a new interval, opened at a tick (R98). -/
def State.openSpans (s : State) (t : Tick) (p : Point) : State :=
  s.modPoint p (fun pt => { pt with block := some .fresh, interval := some (s.newInterval t) })

/-! ### Taking a half-window -/

/-- What the Aggregator receives at a closing, beside the tallies of the point's channels (R97). -/
structure ClosedHalf where
  tick : Tick
  count : Nat
  result : Option WindowResult
  disturbed : Bool
  deriving DecidableEq, Repr

/-- A half-window without a window result is not blind (R97). -/
def ClosedHalf.blind (h : ClosedHalf) : Bool :=
  match h.result with
  | none => false
  | some r => r.blind

/-- A tally joins a block sum; one with unavailable samples adds nothing (R65). -/
def BlockSum.add (b : BlockSum) (t : Tally) : BlockSum :=
  if t.unavailable = 0 then { q := b.q + t.q, n := b.n + t.n } else b

/-- A half-window joins the block in progress (R100). `tallies` are those of the half-window, none for a channel
that is not of the point. -/
def Block.join (b : Block) (start : Tick) (tallies : Vector (Option Tally) 24) (h : ClosedHalf) : Block where
  count := b.count + 1
  start := if b.count = 0 then some start else b.start
  sums := mapAll b.sums (fun c x =>
    match tallies[c.val] with
    | none => x
    | some t => x.add t)
  disturbed := b.disturbed || h.disturbed
  blind := b.blind || h.blind

/-- The lesser and the greater of a value and one that may be absent. -/
def lesserOf (least : Option Nat) (v : Nat) : Option Nat :=
  match least with
  | none => some v
  | some x => some (if v < x then v else x)

def greaterOf (greatest : Option Nat) (v : Nat) : Option Nat :=
  match greatest with
  | none => some v
  | some x => some (if x < v then v else x)

/-- A window value acts on its channel's accumulators (R102). -/
def IntervalSum.add (a : IntervalSum) (w : WindowValue) : IntervalSum :=
  { a with
    held := if w.quality = .held then a.held + 1 else a.held
    clipped := if w.clipped then a.clipped + 1 else a.clipped
    opened := if w.opened then a.opened + 1 else a.opened
    least :=
      match w.value with
      | none => a.least
      | some v => if w.opened then a.least else lesserOf a.least v
    greatest :=
      match w.value with
      | none => a.greatest
      | some v => if w.opened then a.greatest else greaterOf a.greatest v }

/-- The window value of a channel in a result that may be absent. -/
def ClosedHalf.windowOf (h : ClosedHalf) (c : Channel) : Option WindowValue :=
  match h.result with
  | none => none
  | some r => r.values.find? (fun w => w.channel == c)

/-- A half-window joins the interval in progress (R102). -/
def Interval.join (iv : Interval) (h : ClosedHalf) : Interval :=
  { iv with
    halfWindows := iv.halfWindows + 1
    blindHalfWindows := if h.blind then iv.blindHalfWindows + 1 else iv.blindHalfWindows
    disturbed := iv.disturbed || h.disturbed
    sums := mapAll iv.sums (fun c a =>
      match h.windowOf c with
      | none => a
      | some w => a.add w) }

/-- The tallies just closed of a point's channels: after the rotation of R57 they are the previous ones. -/
def State.closedTallies (s : State) (p : Point) : Vector (Option Tally) 24 :=
  mapAll s.channels (fun _ ch =>
    if ch.entry.enabled && ch.entry.point == p.val then some ch.previous else none)

/-- A half-window joins the block in progress, which closes at the full block length (R100). -/
def State.joinBlock (s : State) (p : Point) (h : ClosedHalf) : State :=
  match (s.point p).block with
  | none => s
  | some b =>
    let start := s.epochOf (h.tick - BitVec.ofNat 48 h.count + 1)
    let joined := b.join start (s.closedTallies p) h
    if joined.count = s.setup.nominal.blockLength then s.closeBlock p joined
    else s.modPoint p (fun pt => { pt with block := some joined })

/-- A half-window in a new base closes the block short and the interval, and opens new ones (R99). -/
def State.changeBase (s : State) (p : Point) (base : Nat) : State :=
  let boundary := BitVec.ofNat 48 base - s.control.offset
  ((s.closeBlockShort p).closeInterval p boundary false).openSpans boundary p

/-- The half-window's base differs from that of the interval in progress (R99). -/
def State.baseMoves (s : State) (p : Point) (base : Nat) : Bool :=
  match (s.point p).interval with
  | none => false
  | some iv => iv.base != base

/-- The Aggregator takes a closed half-window (R97, R99, R100, R102). -/
def State.takeHalf (s : State) (p : Point) (h : ClosedHalf) : State :=
  let base := intervalBase s.setup (s.epochOf h.tick)
  let s1 := if s.baseMoves p base then s.changeBase p base else s
  (s1.joinBlock p h).modPoint p (fun pt => { pt with interval := pt.interval.map (fun iv => iv.join h) })

/-! ### Frequency values -/

/-- A valid value joins the frequency accumulators of an interval (R103). -/
def FrequencySum.add (f : FrequencySum) (v : Nat) (out : Bool) : FrequencySum where
  valid := f.valid + 1
  sum := f.sum + v
  least := lesserOf f.least v
  greatest := greaterOf f.greatest v
  outOfBand := if out then f.outOfBand + 1 else f.outOfBand

/-- A valid value is counted in an assessment (R111). -/
def Assessment.addFrequency (a : Assessment) (out : Bool) : Assessment :=
  { a with
    freqEvaluated := a.freqEvaluated + 1
    freqOutside := if out then a.freqOutside + 1 else a.freqOutside }

/-- A value lies outside the frequency band of the limits in force (R103). -/
def LimitsEntry.outOfBand (l : LimitsEntry) (v : Nat) : Bool :=
  decide (v < l.freqLower) || decide (l.freqUpper < v)

/-- A valid frequency value is counted in the interval and the assessment in progress (R103, R111). -/
def PointRecord.countFrequency (pt : PointRecord) (v : Nat) : PointRecord :=
  { pt with
    interval := pt.interval.map (fun iv =>
      { iv with frequency := iv.frequency.add v (pt.limits.outOfBand v) })
    assessment := pt.assessment.map (fun a => a.addFrequency (pt.limits.outOfBand v)) }

/-! ### Forced closings (section 6.5) -/

/-- The measured points in order of point number. -/
def State.measuredPoints (s : State) : List Point :=
  allFour.filter (fun p => (s.point p).measured)

/-- STOP closes a point's block, interval and assessment (R105); it is taken while the device state is still RUNNING. -/
def State.stopSpans (s : State) (p : Point) : State :=
  (((s.closeBlockShort p).closeInterval p s.count true).endAssessment p false true none).modPoint p
    (fun pt => { pt with block := none, interval := none, assessment := none })

/-- Entry to STANDBY closes a point's block without a record and its interval; the assessment is kept (R106). When that
interval brings it to the assessment length it ends with its summary by R104 and R112, and the new assessment is the
one kept (log entry 32, DESIGN CHOICE). -/
def State.standbySpans (s : State) (p : Point) : State :=
  ((s.closeBlockShort p).closeInterval p s.count false).modPoint p
    (fun pt => { pt with block := none, interval := none })

/-- A TIME-SET closes a point's block and interval as stepped and reopens them on the new epoch (R107). -/
def State.stepSpans (s : State) (p : Point) : State :=
  let s1 := (s.closeBlockShort p).modPoint p (fun pt =>
    { pt with interval := pt.interval.map (fun iv => { iv with timeStepped := true }) })
  (s1.closeInterval p s.count false).openSpans s.count p

/-- CLOSE-ASSESSMENT ends a point's assessment with a summary flagged EARLY and begins a new one (R113). -/
def State.closeEarly (s : State) (p : Point) : State :=
  s.endAssessment p true false (some (.fresh s.epochNow))

end Sys2Proof.Machine
end

