-- ==== Sys2Proof/Machine/LeadCheck.lean ====
section
/-! DEFINITION. The Lead Check Unit (section 2.5): due marks, scheduling, verdicts, withdrawals and voids. -/

namespace Sys2Proof.Machine

/-- The module of this number is LOCKED. -/
def State.moduleLocked (s : State) (n : Nat) : Bool :=
  match moduleOfNat n with
  | none => false
  | some m => (s.module m).state == .locked

/-- Lead states that a whole second makes due again (R30). -/
def LeadState.rechecked : LeadState → Bool
  | .notChecked => false
  | .connected => false
  | .suspect => true
  | .opened => true

/-- Checked channels of measured points become due: all of them at a period, those in SUSPECT or OPEN at a whole
second (R30). Nothing becomes due while the device does not measure. -/
def State.markDue (s : State) (period second : Bool) : State :=
  if s.measuring then
    s.mapChannels (fun _ ch =>
      if s.checkedMeasured ch.entry && (period || (second && ch.lead.rechecked)) then { ch with due := true }
      else ch)
  else s

/-- The channel a check of a point would take: the lowest of its due channels whose module is LOCKED (R31). -/
def State.dueChannel (s : State) (p : Point) : Option Channel :=
  (s.channelsOf p).find? (fun c => (s.channel c).due && s.moduleLocked (s.channel c).entry.module)

/-- The check request for a channel at a positive crossing in set `k`. A delay of 0 or 1 aims before the next
strobe to be issued and is retargeted to tick k + 2 (R3, R31). -/
def checkRequest (e : MapEntry) (c : Channel) (k : Tick) : CheckInFlight where
  channel := c
  module := e.module
  slot := e.slot
  target := k + BitVec.ofNat 48 (max 2 e.delay)
  sent := false

/-- A positive crossing notice of set `k` (R31). -/
def State.scheduleCheck (s : State) (p : Point) (k : Tick) : State :=
  if s.measuring && (s.point p).check.isNone && (s.point p).low.isQuiet then
    match s.dueChannel p with
    | none => s
    | some c => s.modPoint p (fun pt => { pt with check := some (checkRequest (s.channel c).entry c k) })
  else s

/-- A check code lies within the check band of the check level (R34). -/
def MapEntry.suspects (e : MapEntry) (code : Code) : Bool :=
  decide ((code.toInt - e.level.toInt).natAbs ≤ e.band)

/-- The lead state after a verdict (R34). -/
def LeadState.judged (l : LeadState) (suspect : Bool) : LeadState :=
  match suspect, l with
  | true, .notChecked => .suspect
  | true, .connected => .suspect
  | true, .suspect => .opened
  | true, .opened => .opened
  | false, _ => .connected

/-- The status record of a change to OPEN or from OPEN to CONNECTED (R34, R35). -/
def leadRecord (c : Channel) (e : MapEntry) (before after : LeadState) : Option StatusKind :=
  if before != .opened && after == .opened then some (.leadOpen c e.point e.phase)
  else if before == .opened && after == .connected then some (.leadRestored c e.point e.phase)
  else none

/-- The check in flight of a point ends (R29). -/
def State.dropCheck (s : State) (p : Point) : State :=
  s.modPoint p (fun pt => { pt with check := none })

/-- A verdict on the check code of a point's check: lead state, due mark, and the record of R35. -/
def State.judgeCheck (s : State) (p : Point) (code : Code) : State :=
  match (s.point p).check with
  | none => s
  | some k =>
    let ch := s.channel k.channel
    let after := ch.lead.judged (ch.entry.suspects code)
    let s1 := (s.modChannel k.channel (fun ch => { ch with lead := after, due := false })).dropCheck p
    match leadRecord k.channel ch.entry ch.lead after with
    | none => s1
    | some kind => (s1.offerStatus kind).raise .leadState

/-- The point's check was sent to a module. -/
def PointRecord.sentTo (pt : PointRecord) (m : Module) : Bool :=
  match pt.check with
  | none => false
  | some k => k.sent && k.module == m.val

/-- The point whose check the strobe of the current tick carried to a module. -/
def State.checkedBy (s : State) (m : Module) : Option Point :=
  allFour.find? (fun p => (s.point p).sentTo m)

/-- A sent check is void (R33, R36): the channel stays due. -/
def PointRecord.voidSent (pt : PointRecord) : PointRecord :=
  match pt.check with
  | none => pt
  | some k => if k.sent then { pt with check := none } else pt

/-- Every check still sent when its tick ends is void (R7, R33). -/
def State.voidSentChecks (s : State) : State :=
  s.mapPoints (fun _ pt => pt.voidSent)

/-- STOP and entry to STANDBY withdraw every request and void every sent check (R32). -/
def State.endChecks (s : State) : State :=
  s.mapPoints (fun _ pt => { pt with check := none })

/-- STOP clears every due mark (R32). -/
def State.clearDue (s : State) : State :=
  s.mapChannels (fun _ ch => { ch with due := false })

end Sys2Proof.Machine
end

