-- ==== Sys2Proof/Machine/HalfWindow.lean ====
section
/-! DEFINITION. Half-windows and frequency (chapter 3), the Square-Sum Unit's closings (R57), the reference choice
(R27, R28), and the delivery of a set to a point. -/

namespace Sys2Proof.Machine

/-! ### The reference phase (section 2.4) -/

/-- The slot of a sample set that an entry names. -/
def sampleOf (set : SampleSet) (e : MapEntry) : SlotValue :=
  match moduleOfNat e.module, slotOfNat e.slot with
  | some m, some k => (set[m.val])[k.val]
  | _, _ => .missing

/-- A phase qualifies as reference: its voltage channel is enabled, its slot is not unavailable in the set, and
its lead is not OPEN (R27). -/
def State.qualifies (s : State) (p : Point) (set : SampleSet) (phase : Nat) : Bool :=
  match s.voltageOf p phase with
  | none => false
  | some c => !(sampleOf set (s.channel c).entry).unavailable && (s.channel c).lead != .opened

/-- The reference of a point for a set: the lowest qualifying phase (R27). -/
def State.chooseReference (s : State) (p : Point) (set : SampleSet) : Option Nat :=
  [1, 2, 3].find? (fun phase => s.qualifies p set phase)

/-- The offset-corrected code of the reference channel in a set (R23, R27). -/
def State.referenceCode (s : State) (p : Point) (set : SampleSet) : Option Int :=
  match (s.point p).reference with
  | none => none
  | some phase =>
    (s.voltageOf p phase).map (fun c =>
      correctedCode (sampleOf set (s.channel c).entry).code (s.channel c).entry.offset)

/-! ### The Boundary Unit (sections 3.1, 3.2) -/

/-- A closing of the Boundary Unit (R45): the count, the free mark, the crossing that closed the half-window, and
whether that was in TRACK. -/
structure Closing where
  count : Nat
  free : Bool
  crossing : Option Polarity
  tracked : Bool
  deriving DecidableEq, Repr

/-- The crossing a set holds, by the arming marks as they stand before the set (R38). -/
def Boundary.crossingAt (b : Boundary) (x : Option Int) : Option Polarity :=
  match b.before, x with
  | some y, some z =>
    if b.armedPositive && decide (y < 0) && decide (0 ≤ z) then some .positive
    else if b.armedNegative && decide (0 ≤ y) && decide (z < 0) then some .negative
    else none
  | _, _ => none

/-- The side a crossing fell on is disarmed (R38). -/
def Boundary.disarm (b : Boundary) (crossing : Option Polarity) : Boundary :=
  match crossing with
  | none => b
  | some .positive => { b with armedPositive := false }
  | some .negative => { b with armedNegative := false }

/-- The code of a set updates the arming marks, with hysteresis `h` (R38). -/
def Boundary.arm (b : Boundary) (h : Nat) (x : Option Int) : Boundary :=
  match x with
  | none => b
  | some z =>
    { b with
      armedPositive := b.armedPositive || decide (z ≤ -(h : Int))
      armedNegative := b.armedNegative || decide ((h : Int) ≤ z) }

/-- A reference change puts the unit into FREE without a predecessor and arms both sides (R39, R44); so does the
first set of a run, which finds no code before it. -/
def Boundary.prepare (b : Boundary) (changed : Bool) : Boundary :=
  if changed then { b with mode := .free, armedPositive := true, armedNegative := true, before := none }
  else if b.before.isNone then { b with armedPositive := true, armedNegative := true }
  else b

/-- A half-window closes: the count returns to 0 (R41). -/
def Boundary.closed (b : Boundary) (mode : CutMode) : Boundary :=
  { b with mode := mode, count := 0 }

/-- The decision of R42 to R44 on a set, with the count already incremented. -/
def Boundary.decide (b : Boundary) (changed : Bool) (crossing : Option Polarity) : Boundary × Option Closing :=
  if changed then
    if Config.freeMax ≤ b.count then
      (b.closed .free, some { count := b.count, free := true, crossing := none, tracked := false })
    else (b, none)
  else
    match b.mode with
    | .track expected =>
      if crossing = some expected ∧ Config.trackMin ≤ b.count then
        (b.closed (.track expected.opposite),
          some { count := b.count, free := false, crossing := crossing, tracked := true })
      else if Config.trackMax ≤ b.count then
        (b.closed .free, some { count := b.count, free := true, crossing := none, tracked := false })
      else (b, none)
    | .free =>
      match crossing with
      | some polarity =>
        if Config.freeMin ≤ b.count then
          (b.closed (.track polarity.opposite),
            some { count := b.count, free := true, crossing := crossing, tracked := false })
        else if Config.freeMax ≤ b.count then
          (b.closed .free, some { count := b.count, free := true, crossing := none, tracked := false })
        else (b, none)
      | none =>
        if Config.freeMax ≤ b.count then
          (b.closed .free, some { count := b.count, free := true, crossing := none, tracked := false })
        else (b, none)

/-- A set delivered to the Boundary Unit: crossing test, arming, count and decision (R38, R39, R41 to R44). -/
def Boundary.step (b : Boundary) (h : Nat) (changed : Bool) (x : Option Int) : Boundary × Option Closing :=
  let ready := b.prepare changed
  let crossing := ready.crossingAt x
  let armed := (ready.disarm crossing).arm h x
  ({ armed with count := armed.count + 1, before := x }).decide changed crossing

/-! ### The Frequency Unit (section 3.5) -/

/-- First epoch value of the period that holds an epoch value (R49). -/
def State.periodFirst (s : State) (t : Tick) : Tick :=
  BitVec.ofNat 48 (multipleBelow s.setup.periodTicks (s.epochOf t).toNat)

/-- A new period in progress (R49). -/
def Period.fresh (first : Tick) : Period where
  first := first
  crossings := 0
  span := none
  valid := true

/-- The value of an ended period, when it is valid (R51). -/
def Period.value (q : Period) (rate : Nat) : Option Nat :=
  match q.span with
  | none => none
  | some (first, last) =>
    if q.valid && decide (2 ≤ q.crossings) then some (frequencyValue rate q.crossings first last) else none

/-- A set begins a period, and ends the one in progress when it lies in another (R49, R51); a valid value goes to
the Aggregator (R52). -/
def State.advancePeriod (s : State) (p : Point) (t : Tick) : State :=
  let first := s.periodFirst t
  match (s.point p).period with
  | none => s.modPoint p (fun pt => { pt with period := some (.fresh first) })
  | some q =>
    if q.first = first then s
    else
      s.modPoint p (fun pt =>
        let counted :=
          match q.value s.setup.nominal.rate with
          | none => pt
          | some v => pt.countFrequency v
        { counted with period := some (.fresh first) })

/-- An instant is recorded (R50). -/
def Period.record (q : Period) (instant : Instant) : Period :=
  { q with
    crossings := q.crossings + 1
    span :=
      match q.span with
      | none => some (instant, instant)
      | some (first, _) => some (first, instant) }

/-- The instant that a closing records: that of a positive crossing that closed in TRACK (R45, R48, R50). -/
def closingInstant (t : Tick) (before x : Option Int) (closing : Option Closing) : Option Instant :=
  match closing, before, x with
  | some k, some y, some z =>
    if k.tracked && k.crossing == some .positive then some (crossingInstant t y z) else none
  | _, _, _ => none

/-- A closing marked free. -/
def closedFree (closing : Option Closing) : Bool :=
  match closing with
  | none => false
  | some k => k.free

/-- What a set does to the period in progress after the Boundary Unit has decided (R50). -/
def Period.act (q : Period) (instant : Option Instant) (free changed : Bool) : Period :=
  let recorded :=
    match instant with
    | none => q
    | some i => q.record i
  if free || changed then { recorded with valid := false } else recorded

/-! ### The Square-Sum Unit (sections 4.1, 4.4) -/

/-- The samples of a set are added to the current tallies of a point's channels (R23, R56). -/
def State.addSamples (s : State) (p : Point) (set : SampleSet) : State :=
  s.mapChannels (fun _ ch =>
    if ch.entry.enabled && ch.entry.point == p.val then
      let v := sampleOf set ch.entry
      { ch with current := ch.current.add (correctedCode v.code ch.entry.offset) v }
    else ch)

/-- The tallies of a point's channels are rotated (R57). -/
def State.rotateTallies (s : State) (p : Point) : State :=
  s.mapChannels (fun _ ch =>
    if ch.entry.enabled && ch.entry.point == p.val then { ch with previous := ch.current, current := .zero }
    else ch)

/-- The window result of a closing, when the pair flag is set (R57, R59, R63). -/
def State.windowResult (s : State) (p : Point) (t : Tick) (free : Bool) : Option WindowResult :=
  if (s.point p).pairFlag then
    let mark := free || (s.point p).previousFree
    some { values := (s.channelsOf p).map (fun c => windowValue c (s.channel c) mark), tick := t, free := mark }
  else none

/-- A close notice taken by the Square-Sum Unit (R57). -/
def State.rotate (s : State) (p : Point) (free : Bool) : State :=
  (s.rotateTallies p).modPoint p (fun pt => { pt with previousFree := free, pairFlag := true })

/-- Both trackers of a point take a window result, when there is one (R63). -/
def State.takeIfResult (s : State) (p : Point) (result : Option WindowResult) : State :=
  match result with
  | none => s
  | some r => s.takeResult p r

/-- A half-window closes: window values, trackers, Aggregator, and the lead check at a positive crossing
(R31, R45, R57, R63, R94, R97). Limits that the window result installs are in force when the Aggregator takes the
half-window, so an interval that it closes is judged by the new bands (R74, R110, log entry 38, DESIGN CHOICE). -/
def State.closeHalf (s : State) (p : Point) (t : Tick) (k : Closing) : State :=
  let result := s.windowResult p t k.free
  let s1 := (s.rotate p k.free).takeIfResult p result
  let disturbed := result.isSome && !s1.bothQuiet p
  let s2 := s1.takeHalf p { tick := t, count := k.count, result := result, disturbed := disturbed }
  if k.crossing = some .positive then s2.scheduleCheck p t else s2

/-! ### Delivery -/

/-- The set of tick `t` is delivered to a measured point (R23); `changed`: with a reference change notice (R28). -/
def State.deliver (s : State) (t : Tick) (set : SampleSet) (p : Point) (changed : Bool) : State :=
  let s1 := (s.advancePeriod p t).addSamples p set
  let x := s1.referenceCode p set
  let before := ((s1.point p).boundary.prepare changed).before
  let cut := (s1.point p).boundary.step (s1.point p).limits.crossing changed x
  let instant := closingInstant t before x cut.2
  let s2 := s1.modPoint p (fun pt =>
    { pt with boundary := cut.1, period := pt.period.map (fun q => q.act instant (closedFree cut.2) changed) })
  match cut.2 with
  | none => s2
  | some k => s2.closeHalf p t k

end Sys2Proof.Machine
end

