-- ==== Sys2Proof/Machine/Link.lean ====
section
/-! DEFINITION. The module link (chapter 1): the command field and its arbiter, sample frames, the Set Assembler,
module states, and forwarded module commands. -/

namespace Sys2Proof.Machine

/-! ### Module commands (section 1.7) -/

/-- An outstanding command ends with its reply record (R18, R19). -/
def State.endCommand (s : State) (m : Module) (result : ReplyResult) (word : Option (BitVec 32)) : State :=
  match (s.module m).command with
  | none => s
  | some k =>
    (s.modModule m (fun r => { r with command := none })).offerReply kindModuleCommand k.tag result
      (.moduleCommand (BitVec.ofNat 8 m.val) word)

/-- A command sent so long ago that its last answering tick has closed (R18, R19). -/
def State.commandOverdue (s : State) (m : Module) : Bool :=
  match (s.module m).command with
  | none => false
  | some k =>
    match k.sent with
    | none => false
    | some e => decide (Config.answerTicks < ticksFrom e.tick s.count)

/-- The timeout of a module command, when it is due (R19). It falls due at the closing of set s + 64, whose expiry takes
it among its own records or leaves it to its row, as an operand says (log entries 3 and 35). -/
def State.timeoutCommand (s : State) (m : Module) : State :=
  if s.commandOverdue m then s.endCommand m .noAnswer none else s

/-- The timeouts of all modules that are due, in an order of the modules. -/
def State.timeoutAll (s : State) (order : List Module) : State :=
  order.foldl State.timeoutCommand s

/-- A good frame's reply matches the command sent to its module (R18). -/
def ModuleRecord.answeredBy (r : ModuleRecord) (f : SampleFrame) (now : Tick) : Bool :=
  match r.command with
  | none => false
  | some k =>
    match k.sent with
    | none => false
    | some e => f.replyPresent && e.echo == f.echo && decide (ticksFrom e.tick now ≤ Config.answerTicks)

/-- The reply of a good frame is examined (R18). -/
def State.takeReply (s : State) (m : Module) (f : SampleFrame) : State :=
  if (s.module m).answeredBy f s.count then s.endCommand m .done (some f.reply) else s

/-! ### Module states (section 1.5) -/

/-- A module becomes LOST: good run 0, its record and MODULE_STATE, and the end of its command (R13, R15, R19). -/
def State.loseModule (s : State) (m : Module) : State :=
  let s1 := s.modModule m (fun r => { r with state := .lost, goodRun := 0 })
  ((s1.offerStatus (.moduleLost m)).raise .moduleState).endCommand m .noAnswer none

/-- A module has a miss (R13). -/
def State.missModule (s : State) (m : Module) : State :=
  match (s.module m).state with
  | .disabled => s
  | .seeking => s.modModule m (fun r => { r with goodRun := 0 })
  | .lost => s.modModule m (fun r => { r with goodRun := 0 })
  | .locked =>
    let s1 := s.modModule m (fun r => { r with goodRun := 0, missCount := r.missCount + 1 })
    if s.setup.missLimit ≤ (s.module m).missCount + 1 then s1.loseModule m else s1

/-- The deadline of a tick: every enabled module without a good frame has a miss (R6, R13). -/
def State.countMisses (s : State) (order : List Module) : State :=
  order.foldl (fun s m => if s.setup.enables m && !(s.module m).taken then s.missModule m else s) s

/-- A good frame counted in its module's state record (R12). -/
def ModuleRecord.countGood (r : ModuleRecord) : ModuleRecord :=
  match r.state with
  | .disabled => r
  | .locked => { r with goodRun := satSucc 255 r.goodRun, missCount := 0 }
  | .seeking =>
    if Config.lockRun ≤ r.goodRun + 1 then
      { r with goodRun := satSucc 255 r.goodRun, state := .locked, missCount := 0 }
    else { r with goodRun := satSucc 255 r.goodRun }
  | .lost =>
    if Config.lockRun ≤ r.goodRun + 1 then
      { r with goodRun := satSucc 255 r.goodRun, state := .locked, missCount := 0 }
    else { r with goodRun := satSucc 255 r.goodRun }

/-- A SETUP write acts on a module by the module-enable set and the miss limit before and after it (R11). -/
def State.reenableModule (old : Setup) (s : State) (m : Module) : State :=
  if s.setup.enables m && !old.enables m then
    s.modModule m (fun r =>
      { r with state := .seeking, goodRun := 0, missCount := 0, checkFailures := 0, staleFrames := 0 })
  else if !s.setup.enables m && old.enables m then
    (s.modModule m (fun r => { r with state := .disabled })).endCommand m .noAnswer none
  else if (s.module m).state = .locked ∧ s.setup.missLimit ≤ (s.module m).missCount then s.loseModule m
  else s

/-- Entry to STANDBY puts an enabled module into SEEKING (R14). -/
def ModuleRecord.seek (r : ModuleRecord) : ModuleRecord :=
  { r with state := .seeking, goodRun := 0, missCount := 0 }

/-- Entry to STANDBY: every enabled module seeks, and the outstanding commands end NO_ANSWER (R14, R19). -/
def State.seekModules (s : State) (order : List Module) : State :=
  let s1 := s.mapModules (fun m r => if s.setup.enables m then r.seek else r)
  order.foldl (fun s m => s.endCommand m .noAnswer none) s1

/-! ### The command field (section 1.2) -/

/-- A point's request is aimed at a tick and not yet sent. -/
def PointRecord.aims (pt : PointRecord) (t : Tick) : Bool :=
  match pt.check with
  | none => false
  | some k => !k.sent && k.target == t

/-- The check of a point is sent. -/
def PointRecord.sendCheck (pt : PointRecord) : PointRecord :=
  { pt with check := pt.check.map (fun k => { k with sent := true }) }

/-- A request is retargeted to the next tick (R3). -/
def PointRecord.retarget (pt : PointRecord) : PointRecord :=
  { pt with check := pt.check.map (fun k => { k with target := k.target + 1 }) }

/-- The check that goes in the field of tick `t` is sent, and the others aimed at it are retargeted (R3). -/
def State.arbitrateChecks (s : State) (p : Point) (t : Tick) : State :=
  s.mapPoints (fun q pt => if q = p then pt.sendCheck else if pt.aims t then pt.retarget else pt)

/-- The module is an entry of the forward waiting list: a command outstanding and not yet sent. -/
def ModuleRecord.waiting (r : ModuleRecord) : Bool :=
  match r.command with
  | none => false
  | some k => k.sent.isNone

/-- A waiting command is sent at tick `t`: echo tag, send tick, and the echo counter (R4). -/
def ModuleRecord.forward (r : ModuleRecord) (t : Tick) : ModuleRecord :=
  { r with
    echo := r.echo + 1
    command := r.command.map (fun k => { k with sent := some { echo := r.echo, tick := t } }) }

/-- The command field of a check that is sent. -/
def PointRecord.checkField (pt : PointRecord) : CommandField :=
  match pt.check with
  | none => .none
  | some k => .check k.module k.slot

/-- The command field of a command that is forwarded. -/
def ModuleRecord.forwardField (r : ModuleRecord) (m : Module) : CommandField :=
  match r.command with
  | none => .none
  | some k => .forward m r.echo k.word

/-- The tick tag: the low 8 bits of the monotonic count (R2). -/
def tagOf (t : Tick) : Byte :=
  t.setWidth 8

/-- The strobe frame of the current tick with a given command field, not transmitted in STANDBY (R2). -/
def State.formStrobe (s : State) (field : CommandField) : StrobeFrame where
  tag := tagOf s.count
  field := field
  transmitted := s.control.device != .standby

/-- The strobe of the current tick is issued with the command field of R3 and R4; in STANDBY the field is NONE. -/
def State.issueStrobe (s : State) : State :=
  if s.control.device = .standby then { s with strobe := s.formStrobe .none }
  else
    match allFour.find? (fun p => (s.point p).aims s.count) with
    | some p => { (s.arbitrateChecks p s.count) with strobe := s.formStrobe (s.point p).checkField }
    | none =>
      match allFour.find? (fun m => (s.module m).waiting) with
      | some m =>
        { (s.modModule m (fun r => r.forward s.count)) with
          strobe := s.formStrobe ((s.module m).forwardField m) }
      | none => { s with strobe := s.formStrobe .none }

/-! ### Sample frames (sections 1.3, 1.4) -/

/-- The slot of a good frame is named by a valid check-slot marker (R7). -/
def SampleFrame.marks (f : SampleFrame) (k : Slot) : Bool :=
  f.markerValid && f.markerSlot == k.val

/-- A slot of a good frame as it enters the set (R8, R9); `locked`: the module's state before the frame counts. -/
def frameSlot (r : ModuleRecord) (f : SampleFrame) (locked : Bool) (k : Slot) : SlotValue :=
  if f.marks k then
    if locked then
      { code := r.last[k.val], held := true, clipped := r.clippedBefore[k.val], unavailable := false }
    else .missing
  else
    { code := f.samples[k.val], held := false, clipped := inMask f.overrange k.val, unavailable := !locked }

/-- A good frame's samples go to the Set Assembler (R8, R9), and its state record counts it (R12). -/
def ModuleRecord.takeFrame (r : ModuleRecord) (f : SampleFrame) : ModuleRecord :=
  { r.countGood with
    taken := true
    slots := Vector.ofFn (frameSlot r f (r.state == .locked))
    last := mapAll r.last (fun k old => if f.marks k then old else f.samples[k.val]) }

/-- The sample of a slot that a check named; slots are 0 to 5. -/
def SampleFrame.sampleAt (f : SampleFrame) (slot : Nat) : Code :=
  match slotOfNat slot with
  | none => 0
  | some k => f.samples[k.val]

/-- A good frame answers the check sent to its module: a verdict when the module was LOCKED and the marker names
the slot, else the check is void (R7, R33). -/
def State.answerCheck (s : State) (m : Module) (f : SampleFrame) (locked : Bool) : State :=
  match s.checkedBy m with
  | none => s
  | some p =>
    match (s.point p).check with
    | none => s
    | some k =>
      if locked && f.markerValid && f.markerSlot == k.slot then s.judgeCheck p (f.sampleAt k.slot)
      else s.dropCheck p

/-- A module that entered LOCKED: its record, and MODULE_STATE (R15). -/
def State.reportLocked (s : State) (m : Module) : State :=
  (s.offerStatus (.moduleLocked m)).raise .moduleState

/-- A good frame is taken (R5): state record, set, check sample and reply. `leadFirst`: the check's record goes
before the reply record (log entry 3). -/
def State.takeGoodFrame (s : State) (m : Module) (f : SampleFrame) (leadFirst : Bool) : State :=
  let locked := (s.module m).state == .locked
  let s1 := s.modModule m (fun r => r.takeFrame f)
  let s2 := if !locked && (s1.module m).state == .locked then s1.reportLocked m else s1
  if leadFirst then (s2.answerCheck m f locked).takeReply m f
  else (s2.takeReply m f).answerCheck m f locked

/-- The module a frame carries the number of, when it is enabled. -/
def State.frameModule (s : State) (bytes : List Byte) : Option Module :=
  match bytes with
  | [] => none
  | b :: _ =>
    match moduleOfNat b.toNat with
    | none => none
    | some m => if s.setup.enables m then some m else none

/-- A sample frame is judged by the tests of R5 in order. -/
def State.judgeSampleFrame (s : State) (bytes : List Byte) (leadFirst : Bool) : State :=
  match s.frameModule bytes with
  | none => s
  | some m =>
    let f := parseSampleFrame bytes
    if !sampleFrameIntact bytes then
      s.modModule m (fun r => { r with checkFailures := satSucc 65535 r.checkFailures })
    else if f.tag ≠ tagOf s.count then
      s.modModule m (fun r => { r with staleFrames := satSucc 65535 r.staleFrames })
    else if (s.module m).taken then s
    else s.takeGoodFrame m f leadFirst

/-! ### Closing the set (sections 1.4, R10) -/

/-- A slot of a module without a good frame: held from the last values while LOCKED, else code 0 unavailable (R8). -/
def missSlot (r : ModuleRecord) (k : Slot) : SlotValue :=
  if r.state = .locked then
    { code := r.last[k.val], held := true, clipped := r.clippedBefore[k.val], unavailable := false }
  else .missing

/-- A module's contribution to the set that closes (R8): fixed by its good frame, or now (log entry 19). -/
def ModuleRecord.contribution (r : ModuleRecord) : Vector SlotValue 6 :=
  if r.taken then r.slots else Vector.ofFn (missSlot r)

/-- The sample set that closes (R10). -/
def State.closingSet (s : State) : SampleSet :=
  mapAll s.modules (fun _ r => r.contribution)

/-- The Set Assembler turns to the next tick: the clipped marks of the set just closed are kept (R8, R9). -/
def State.nextSet (s : State) (set : SampleSet) : State :=
  s.mapModules (fun m r =>
    { r with taken := false, clippedBefore := mapAll set[m.val] (fun _ v => v.clipped) })

/-! ### Meanings -/

/-- SAMPLE_FRAME (R5 to R9, R12, R15, R18, R33 to R35). -/
def execSampleFrame (bytes : List Byte) (leadFirst : Bool) (s : State) : Host.Outcome State Fault Refusal :=
  .next (s.judgeSampleFrame bytes leadFirst)

/-- MODULE_COMMAND_TIMEOUT (R19). -/
def execModuleCommandTimeout (m : Module) (s : State) : Host.Outcome State Fault Refusal :=
  .next (s.timeoutCommand m)

end Sys2Proof.Machine
end

