-- ==== Sys2Proof/Machine/Lines.lean ====
section
/-! DEFINITION. The attention lines' expiries and ROUTING writes (chapter 11), the due markings of R30, and the frame
formation of R121, with the meanings of their rows. A row whose event is not due has no effect (log entry 1). -/

namespace Sys2Proof.Machine

/-! ### Pulses and gaps (section 11.3) -/

/-- Pulse width of a line in ticks, W (R176). -/
def State.lineWidth (s : State) (l : LineId) : Nat :=
  (s.routing.config l).width.ticks

/-- The W ticks of a pulse have run. -/
def PulseState.pulseOver (p : PulseState) (w : Nat) (now : Tick) : Bool :=
  match p.phase with
  | .idle => false
  | .pulse since => decide (w ≤ ticksFrom since now)
  | .gap _ => false

/-- The W ticks of a gap have run. -/
def PulseState.gapOver (p : PulseState) (w : Nat) (now : Tick) : Bool :=
  match p.phase with
  | .idle => false
  | .pulse _ => false
  | .gap since => decide (w ≤ ticksFrom since now)

/-- A pulse ends: the line is in GAP (R176). -/
def PulseState.endPulse (p : PulseState) (now : Tick) : PulseState :=
  { p with phase := .gap now }

/-- A gap ends: a follow-up pulse begins when the mark is set, else the line is IDLE (R176). -/
def PulseState.endGap (p : PulseState) (now : Tick) : PulseState :=
  if p.followUp then { phase := .pulse now, followUp := false } else { phase := .idle, followUp := false }

/-- A line's pulse ends when its W ticks have run (R176). -/
def State.expirePulse (s : State) (l : LineId) : State :=
  if (s.attention.line l).pulseOver (s.lineWidth l) s.count then
    { s with attention := s.attention.setLine l ((s.attention.line l).endPulse s.count) }
  else s

/-- A line's gap ends when its W ticks have run (R176). -/
def State.expireGap (s : State) (l : LineId) : State :=
  if (s.attention.line l).gapOver (s.lineWidth l) s.count then
    { s with attention := s.attention.setLine l ((s.attention.line l).endGap s.count) }
  else s

/-- What has run its W ticks on a line ends: its pulse or its gap (R176). -/
def State.expireLine (s : State) (l : LineId) : State :=
  (s.expirePulse l).expireGap l

/-- A line after a ROUTING write: its pulse state goes on when mode and width are unchanged, else IDLE (R177). -/
def rerouteLine (old new : LineConfig) (p : PulseState) : PulseState :=
  if old = new then p else .idle

/-- A ROUTING entry is stored and acts on the lines (R177). -/
def State.storeRouting (s : State) (r : Routing) : State :=
  { s with
    routing := r
    attention :=
      { s.attention with
        line0 := rerouteLine s.routing.config0 r.config0 s.attention.line0
        line1 := rerouteLine s.routing.config1 r.config1 s.attention.line1 } }

/-- An ACK removes the classes it lists from the pending set (R151). -/
def State.acknowledge (s : State) (classes : Word) : State :=
  { s with attention :=
      { s.attention with pendingSet := s.attention.pendingSet &&& ~~~(classes.setWidth 10) } }

/-! ### Due markings (R30) -/

/-- The period marking of the present count value, when it is still to be taken. The expiry that brings the value
takes it (log entry 34). -/
def State.takePeriodDue (s : State) : State :=
  if s.dueNow.period then
    { (s.markDue true false) with dueNow := { s.dueNow with period := false } }
  else s

/-- The whole-second marking of the present count value, when it is still to be taken. The expiry that brings the
value takes it (log entry 34). -/
def State.takeSecondDue (s : State) : State :=
  if s.dueNow.second then
    { (s.markDue false true) with dueNow := { s.dueNow with second := false } }
  else s

/-! ### Meanings -/

/-- PULSE_EXPIRY (R176). -/
def execPulseExpiry (l : LineId) (s : State) : Host.Outcome State Fault Refusal :=
  .next (s.expirePulse l)

/-- GAP_EXPIRY (R176). -/
def execGapExpiry (l : LineId) (s : State) : Host.Outcome State Fault Refusal :=
  .next (s.expireGap l)

/-- LEAD_CHECK_PERIOD_DUE (R30), when the expiry has not taken the marking (log entry 34). -/
def execLeadCheckPeriodDue (s : State) : Host.Outcome State Fault Refusal :=
  .next s.takePeriodDue

/-- WHOLE_SECOND_DUE (R30), when the expiry has not taken the marking (log entry 34). -/
def execWholeSecondDue (s : State) : Host.Outcome State Fault Refusal :=
  .next s.takeSecondDue

/-- CAPTURE_FRAME_FORM (R121 to R125, R140): one frame is formed, when the conditions hold. The occasions of R121
form theirs in the steps they belong to (log entry 21). -/
def execCaptureFrameForm (s : State) : Host.Outcome State Fault Refusal :=
  .next s.formOne

end Sys2Proof.Machine
end

