-- ==== Sys2Proof/Machine/Control.lean ====
section
/-! DEFINITION. Measurement Control (chapter 10): reset, START, STOP, TIME-SET, and supply loss, with the meanings
of the reset and supply rows. -/

namespace Sys2Proof.Machine

/-! ### Work in progress -/

/-- A point's half-window and frequency period in progress are discarded (R46, R53, R64). -/
def PointRecord.discardWork (pt : PointRecord) : PointRecord :=
  { pt with boundary := .fresh, period := none, pairFlag := false, previousFree := false }

/-- A channel's tallies are zeroed (R55, R64). -/
def ChannelRecord.zeroTallies (ch : ChannelRecord) : ChannelRecord :=
  { ch with current := .zero, previous := .zero }

/-- The Boundary, Square-Sum and Frequency Units discard their work in progress (R46, R53, R64). -/
def State.discardWork (s : State) : State :=
  (s.mapPoints (fun _ pt => pt.discardWork)).mapChannels (fun _ ch => ch.zeroTallies)

/-- Every ring is emptied (R90). -/
def State.emptyRings (s : State) : State :=
  s.mapChannels (fun _ ch => { ch with ring := [] })

/-- The History Buffer is emptied (R116). -/
def State.emptyHistory (s : State) : State :=
  { s with history := .empty }

/-! ### START (R162, R163) -/

/-- The limits entry of a point with its pending limits counted as installed (R162). -/
def PointRecord.limitsToCome (pt : PointRecord) : LimitsEntry :=
  pt.pendingLimits.getD pt.limits

/-- At least one point would be configured (R162). -/
def State.someConfigured (s : State) : Bool :=
  allFour.any (fun p => s.configuredWith p (s.point p).limitsToCome)

/-- Every enabled entry names a point with a declared voltage (R162). -/
def State.allDeclared (s : State) : Bool :=
  allChannels.all (fun c =>
    !(s.channel c).entry.enabled ||
      match pointOfNat (s.channel c).entry.point with
      | none => false
      | some p => (s.point p).limitsToCome.declared != 0)

/-- Pending limits are installed at START (R163). -/
def PointRecord.installAtStart (pt : PointRecord) : PointRecord :=
  match pt.pendingLimits with
  | none => pt
  | some l => pt.install l

/-- A point as START leaves it (R26, R163): `measured` is R25's test. -/
def PointRecord.begin (pt : PointRecord) (measured : Bool) : PointRecord :=
  { pt.discardWork with measured := measured, low := .quiet, high := .quiet }

/-- A channel as START leaves it (R29, R55, R90, R163). -/
def ChannelRecord.begin (ch : ChannelRecord) (due : Bool) : ChannelRecord :=
  { ch.zeroTallies with ring := [], lead := .notChecked, due := due }

/-- The set of measured points as a mask (R179). -/
def State.measuredMask (s : State) : BitVec 4 :=
  allFour.foldl (fun m p => if (s.point p).measured then m ||| BitVec.ofNat 4 (2 ^ p.val) else m) 0

/-- A measured point is given its block, interval and assessment (R96, R98). -/
def State.openRun (s : State) (p : Point) : State :=
  (s.openSpans s.count p).modPoint p (fun pt => { pt with assessment := some (.fresh s.epochNow) })

/-- An accepted START, before its records (R163). -/
def State.beginRun (s : State) : State :=
  let s1 := s.mapPoints (fun _ pt => pt.installAtStart)
  let s2 := s1.mapPoints (fun p pt => pt.begin (s1.configuredWith p pt.limits))
  let s3 := s2.mapChannels (fun _ ch => ch.begin (s2.checkedMeasured ch.entry))
  let s4 := { s3.emptyHistory with control := { s.control with device := .running } }
  s4.measuredPoints.foldl State.openRun s4

/-- A START control frame (R162, R163). -/
def State.actStart (s : State) (tag : Byte) : State :=
  if s.control.device ≠ .stopped then s.offerReply kindStart tag .refusedState .empty
  else if !s.someConfigured then s.offerReply kindStart tag .notConfigured .empty
  else if !s.allDeclared then s.offerReply kindStart tag .notConfigured .empty
  else
    let run := s.beginRun
    (run.offerStatus (.started run.measuredMask)).offerReply kindStart tag .done .empty

/-! ### STOP (R164) -/

/-- What STOP does besides its records: requests, due marks, work in progress (R32, R46, R53, R64). -/
def State.quiesce (s : State) : State :=
  { (s.endChecks.clearDue.discardWork) with dueNow := { period := false, second := false } }

/-- The records of an accepted STOP up to the closed spans (R87, R105, R126). -/
def State.closeRun (s : State) : State :=
  let s1 := (s.forceCloseEvents .stop).endCapture .truncatedStop
  s1.measuredPoints.foldl State.stopSpans s1

/-- A STOP control frame (R164). -/
def State.actStop (s : State) (tag : Byte) : State :=
  if s.control.device ≠ .running then s.offerReply kindStop tag .refusedState .empty
  else
    let s1 := s.closeRun.quiesce
    let s2 := { s1 with control := { s1.control with device := .stopped } }
    (s2.offerStatus .stopped).offerReply kindStop tag .done .empty

/-! ### TIME-SET (R166) -/

/-- The epoch offset is stepped and the epoch-unset flag cleared (R166). -/
def State.stepEpoch (s : State) (epoch : Tick) : State :=
  { s with control := { s.control with offset := epoch - s.count, epochUnset := false } }

/-- The open events of a point are marked TIME_STEPPED (R89). -/
def OpenEvent.markStepped (e : OpenEvent) : OpenEvent :=
  { e with flags := { e.flags with timeStepped := true } }

/-- What a step does to every point in RUNNING before its spans are closed: open events are marked, and the
periods in progress end without a value (R54, R89). -/
def PointRecord.stepTime (pt : PointRecord) : PointRecord :=
  { pt with
    low := pt.low.mapEvent OpenEvent.markStepped
    high := pt.high.mapEvent OpenEvent.markStepped
    period := none }

/-- A step taken in RUNNING acts on events, periods and spans (R54, R89, R107). -/
def State.stepRun (s : State) : State :=
  let s1 := s.mapPoints (fun _ pt => pt.stepTime)
  s1.measuredPoints.foldl State.stepSpans s1

/-- A TIME-SET control frame (R166). -/
def State.actTimeSet (s : State) (tag : Byte) (epoch : Tick) : State :=
  if s.control.device = .stopped ∨ s.control.device = .running then
    let s1 := (s.stepEpoch epoch).offerStatus (.timeStepped s.epochNow epoch)
    let s2 := if s.control.device = .running then s1.stepRun else s1
    s2.offerReply kindTimeSet tag .done .empty
  else s.offerReply kindTimeSet tag .refusedState .empty

/-! ### Supply loss (section 10.5) -/

/-- The device state that a prior state names. -/
def PriorState.device : PriorState → DeviceState
  | .stopped => .stopped
  | .running => .running

/-- The device state to return to; after an entry to HOLDUP there always is a prior state (log entry 24). -/
def Control.returnState (c : Control) : DeviceState :=
  match c.prior with
  | none => .stopped
  | some q => q.device

/-- The prior state that an entry to HOLDUP sets: the state left (R168). -/
def priorOf (d : DeviceState) : PriorState :=
  if d = .running then .running else .stopped

/-- HOLDUP is entered (R168): its record, the truncated capture, SUPPLY. -/
def State.enterHoldup (s : State) : State :=
  let prior := priorOf s.control.device
  let s1 := { s with control :=
      { s.control with device := .holdup, prior := some prior, timerRunning := true, holdupStart := s.count } }
  ((s1.offerStatus (.holdupEntered prior.device)).endCapture .truncatedSupply).raise .supply

/-- A debounced supply failure is to be taken: the level is failing in STOPPED or RUNNING (R167). -/
def State.supplyFailed (s : State) : Bool :=
  s.control.level == .failing && (s.control.device == .stopped || s.control.device == .running)

/-- SUPPLY_FAILURE when it is due. -/
def State.takeFailure (s : State) : State :=
  if s.supplyFailed then s.enterHoldup else s

/-- The hold-up duration so far (R170, R173). -/
def State.holdupDuration (s : State) : Tick :=
  s.count - s.control.holdupStart

/-- The supply returns to a device state: timer stopped, prior state cleared, SUPPLY_RESTORED, SUPPLY (R170, R173). -/
def State.restoreSupply (s : State) (d : DeviceState) : State :=
  let s1 := { s with control := { s.control with device := d, prior := none, timerRunning := false } }
  (s1.offerStatus (.supplyRestored s.holdupDuration d)).raise .supply

/-- SUPPLY_RETURN_HOLDUP when it is due: the level is good in HOLDUP (R170). -/
def State.takeReturnHoldup (s : State) : State :=
  if s.control.level == .good && s.control.device == .holdup then s.restoreSupply s.control.returnState else s

/-- The hold-up timer has run its length (R169). -/
def State.holdupOver (s : State) : Bool :=
  s.control.device == .holdup && s.control.timerRunning
    && decide (s.setup.holdupTicks ≤ ticksFrom s.control.holdupStart s.count)

/-- Events and spans are closed at entry to STANDBY from RUNNING (R88, R106). -/
def State.closeForStandby (s : State) : State :=
  let s1 := s.forceCloseEvents .recorderSupply
  s1.measuredPoints.foldl State.standbySpans s1

/-- STANDBY is entered (R171); `order` is that in which the replies of ended module commands are offered. -/
def State.enterStandby (s : State) (order : List Module) : State :=
  let s1 := { s with control := { s.control with device := .standby, timerRunning := false } }
  let s2 := if s.control.prior = some .running then s1.closeForStandby else s1
  let s3 := (s2.offerStatus .standbyEntered).raise .supply
  (s3.seekModules order).endChecks.discardWork.emptyRings.emptyHistory

/-- HOLDUP_TIMER_EXPIRY when it is due. It is due from the tick that R169 names, whose beginning also closes the set
before: the entry to STANDBY always comes after that closing and its window results (log entry 36, DESIGN CHOICE). -/
def State.takeHoldupExpiry (s : State) (order : List Module) : State :=
  if s.holdupOver then s.enterStandby order else s

/-- The return from STANDBY goes to RUNNING: prior state RUNNING under RESUME (R173). -/
def State.resumes (s : State) : Bool :=
  s.control.prior == some .running && s.setup.restart == .resume

/-- The supply returns in STANDBY (R173): measured points get new spans in RUNNING, or the kept assessments end. -/
def State.leaveStandby (s : State) : State :=
  if s.resumes then
    let s1 := s.restoreSupply .running
    s1.measuredPoints.foldl (fun s2 p => s2.openSpans s2.count p) s1
  else
    allFour.foldl (fun s2 p => s2.endAssessment p false true none) (s.restoreSupply .stopped)

/-- SUPPLY_RETURN_STANDBY when it is due: the level is good in STANDBY. The strobe of the return tick was issued before
it, still in STANDBY, and is not transmitted (log entry 29, DESIGN CHOICE). -/
def State.takeReturnStandby (s : State) : State :=
  if s.control.level == .good && s.control.device == .standby then s.leaveStandby else s

/-! ### Reset (R160) -/

/-- A reset of this cause, from its cause to its end. CHANNEL MAP, LIMITS and ROUTING keep what they held until
INIT clears them (log entry 9); commands that wait are the outside's and stay. -/
def State.resetBy (s : State) (cause : ResetCause) : State :=
  { State.afterReset cause with
    routing := s.routing
    channels := mapAll s.channels (fun _ ch => { ChannelRecord.reset with entry := ch.entry })
    points := mapAll s.points (fun _ pt =>
      { PointRecord.reset with limits := pt.limits, thresholds := pt.thresholds })
    pending := s.pending }

/-! ### Meanings -/

/-- RESET (R130, R160, R178). -/
def execReset (cause : ResetCause) (s : State) : Host.Outcome State Fault Refusal :=
  .next (s.resetBy cause)

/-- SUPPLY_FAILURE (R126, R168). -/
def execSupplyFailure (s : State) : Host.Outcome State Fault Refusal :=
  .next s.takeFailure

/-- SUPPLY_RETURN_HOLDUP (R170). -/
def execSupplyReturnHoldup (s : State) : Host.Outcome State Fault Refusal :=
  .next s.takeReturnHoldup

/-- HOLDUP_TIMER_EXPIRY (R88, R106, R169, R171). -/
def execHoldupTimerExpiry (moduleOrder : Fin 24) (s : State) : Host.Outcome State Fault Refusal :=
  .next (s.takeHoldupExpiry (orderOf moduleOrder))

/-- SUPPLY_RETURN_STANDBY (R106, R173). -/
def execSupplyReturnStandby (s : State) : Host.Outcome State Fault Refusal :=
  .next s.takeReturnStandby

end Sys2Proof.Machine
end

