-- ==== Sys2Proof/Machine/Frames.lean ====
section
/-! DEFINITION. What each kind of control frame does when it is executed (chapter 9 and the kinds' own rules). -/

namespace Sys2Proof.Machine

/-! ### Table writes -/

/-- The reply of a TABLE-WRITE (R152): the entry as stored for DONE, else absent. -/
def State.replyWrite (s : State) (tag table index : Byte) (result : ReplyResult) (entry : Option TableEntry) : State :=
  s.offerReply kindTableWrite tag result (.tableWrite table index entry)

/-- The shedding state is judged again against new watermarks (R141). -/
def rejudge (u : Setup) (occupancy : Nat) (sh : Shedding) : Shedding :=
  match sh with
  | .opened => if u.highMark ≤ occupancy then .shed else .opened
  | .shed => if occupancy ≤ u.lowMark then .opened else .shed

/-- A SETUP entry is stored and acts on its neighbours (R11, R141, R156). -/
def State.storeSetup (s : State) (u : Setup) (order : List Module) : State :=
  let s1 := order.foldl (State.reenableModule s.setup) { s with setup := u }
  { s1 with shedding := rejudge u s1.captureQueue.length s1.shedding }

/-- A TABLE-WRITE of SETUP (R155, R156). -/
def State.writeSetup (s : State) (tag index : Byte) (entry : List Byte) (order : List Module) : State :=
  if s.control.device ≠ .stopped then s.replyWrite tag tableSetup index .refusedState none
  else if index ≠ 0 then s.replyWrite tag tableSetup index .badIndex none
  else
    let u := parseSetup entry
    (s.storeSetup u order).replyWrite tag tableSetup index .done (some (.setup u))

/-- The channel map with an entry put in place (R22). -/
def State.mapWith (s : State) (c : Channel) (e : MapEntry) : Vector MapEntry 24 :=
  mapAll s.channels (fun i ch => if i = c then e else ch.entry)

/-- No two enabled entries share a source, and no two share a role (R22). -/
def mapPasses (entries : Vector MapEntry 24) : Bool :=
  allChannels.all (fun i => allChannels.all (fun j =>
    i == j || !((entries[i.val]).sharesSource entries[j.val] || (entries[i.val]).sharesRole entries[j.val])))

/-- A CHANNEL MAP entry is stored: lead state NOT_CHECKED, due mark clear (R22). -/
def State.storeMapEntry (s : State) (c : Channel) (e : MapEntry) : State :=
  s.modChannel c (fun ch => { ch with entry := e, lead := .notChecked, due := false })

/-- A TABLE-WRITE of CHANNEL MAP, judged in the order of R21. -/
def State.writeMap (s : State) (tag index : Byte) (entry : List Byte) : State :=
  if s.control.device ≠ .stopped then s.replyWrite tag tableChannelMap index .refusedState none
  else
    match channelOfNat index.toNat with
    | none => s.replyWrite tag tableChannelMap index .badIndex none
    | some c =>
      match kindOfCode (byteAt entry 3) with
      | none => s.replyWrite tag tableChannelMap index .invalidEntry none
      | some kind =>
        let e := parseMapEntry kind entry
        if !e.inRange then s.replyWrite tag tableChannelMap index .invalidEntry none
        else if !mapPasses (s.mapWith c e) then s.replyWrite tag tableChannelMap index .invalidEntry none
        else (s.storeMapEntry c e).replyWrite tag tableChannelMap index .done (some (.channelMap e))

/-- A LIMITS entry is installed in STOPPED and made pending in RUNNING (R72, R73). -/
def State.storeLimits (s : State) (p : Point) (l : LimitsEntry) : State :=
  if s.control.device = .running then s.modPoint p (fun pt => { pt with pendingLimits := some l })
  else s.modPoint p (fun pt => pt.install l)

/-- A TABLE-WRITE of LIMITS, judged in the order of R71. -/
def State.writeLimits (s : State) (tag index : Byte) (entry : List Byte) : State :=
  if s.control.device ≠ .stopped ∧ s.control.device ≠ .running then
    s.replyWrite tag tableLimits index .refusedState none
  else
    match pointOfNat index.toNat with
    | none => s.replyWrite tag tableLimits index .badIndex none
    | some p =>
      let l := parseLimits entry
      if !l.valid then s.replyWrite tag tableLimits index .invalidEntry none
      else if s.control.device = .running ∧ (s.point p).measured = true ∧ l.declared = 0 then
        s.replyWrite tag tableLimits index .invalidEntry none
      else (s.storeLimits p l).replyWrite tag tableLimits index .done (some (.limits l))

/-- A TABLE-WRITE of ROUTING, served in every state after INIT (R157). -/
def State.writeRouting (s : State) (tag index : Byte) (entry : List Byte) : State :=
  if index ≠ 0 then s.replyWrite tag tableRouting index .badIndex none
  else
    match parseRouting entry with
    | none => s.replyWrite tag tableRouting index .invalidEntry none
    | some r => (s.storeRouting r).replyWrite tag tableRouting index .done (some (.routing r))

/-- A TABLE-WRITE that the common tests of R152 refuse. -/
def State.writeRefused (s : State) (tag table index : Byte) : State :=
  if table = tableModuleStatus ∨ table = tablePointStatus then s.replyWrite tag table index .invalidEntry none
  else s.replyWrite tag table index .badIndex none

/-- A TABLE-WRITE control frame (R152). -/
def State.actTableWrite (s : State) (tag table index : Byte) (entry : List Byte) (order : List Module) : State :=
  if table = tableSetup then s.writeSetup tag index entry order
  else if table = tableChannelMap then s.writeMap tag index entry
  else if table = tableLimits then s.writeLimits tag index entry
  else if table = tableRouting then s.writeRouting tag index entry
  else s.writeRefused tag table index

/-! ### Table reads (R153) -/

/-- An entry of MODULE STATUS (R16). -/
def ModuleRecord.status (r : ModuleRecord) : ModuleStatus where
  state := r.state
  missCount := r.missCount
  goodRun := r.goodRun
  checkFailures := r.checkFailures
  staleFrames := r.staleFrames
  outstanding := r.command.isSome

/-- The mode that POINT STATUS shows (R158). -/
def CutMode.shown : CutMode → BoundaryMode
  | .free => .free
  | .track _ => .track

/-- A listed channel of a POINT STATUS entry (R158). -/
def State.listedChannel (s : State) (c : Channel) : PointChannel where
  channel := c.val
  kind := (s.channel c).entry.kind
  phase := (s.channel c).entry.phase
  lead := (s.channel c).lead
  due := (s.channel c).due

/-- An entry of POINT STATUS (R158). -/
def State.pointStatus (s : State) (p : Point) : PointStatus where
  measured := (s.point p).measured
  configured := s.configuredWith p (s.point p).limits
  pendingLimits := (s.point p).pendingLimits.isSome
  low := (s.point p).low.state
  high := (s.point p).high.state
  lowTag := (s.point p).low.event.map OpenEvent.tag
  highTag := (s.point p).high.event.map OpenEvent.tag
  mode := (s.point p).boundary.mode.shown
  halfCount := (s.point p).boundary.count
  reference := (s.point p).reference
  channels := (s.channelsOf p).map s.listedChannel

/-- The number of entries of the table that a code names (section 9.3). -/
def tableSize (table : Byte) : Option Nat :=
  if table = tableSetup then some 1
  else if table = tableChannelMap then some 24
  else if table = tableLimits then some 4
  else if table = tableRouting then some 1
  else if table = tableModuleStatus then some 4
  else if table = tablePointStatus then some 4
  else none

/-- The entry of a table at an index, as a read returns it (R16, R75, R158, section 9.3). -/
def State.entryAt (s : State) (table : Byte) (index : Nat) : Option TableEntry :=
  if table = tableSetup then some (.setup s.setup)
  else if table = tableChannelMap then (channelOfNat index).map (fun c => .channelMap (s.channel c).entry)
  else if table = tableLimits then (pointOfNat index).map (fun p => .limits (s.point p).limits)
  else if table = tableRouting then some (.routing s.routing)
  else if table = tableModuleStatus then (moduleOfNat index).map (fun m => .moduleStatus (s.module m).status)
  else (pointOfNat index).map (fun p => .pointStatus (s.pointStatus p))

/-- The entries that a read returns, in index order. -/
def State.entriesFrom (s : State) (table : Byte) (first count : Nat) : List TableEntry :=
  (List.range count).filterMap (fun k => s.entryAt table (first + k))

/-- The two tests of R153. -/
def readPasses (table : Byte) (first count : Nat) : Bool :=
  match tableSize table with
  | none => false
  | some size => decide (1 ≤ count) && decide (count ≤ 24) && decide (first + count ≤ size)

/-- A TABLE-READ control frame (R153). -/
def State.actTableRead (s : State) (tag table first count : Byte) : State :=
  if readPasses table first.toNat count.toNat then
    s.offerReply kindTableRead tag .done
      (.tableRead table first count (s.entriesFrom table first.toNat count.toNat))
  else s.offerReply kindTableRead tag .badIndex (.tableRead table first count [])

/-! ### TRIGGER, CLOSE-ASSESSMENT, MODULE-COMMAND -/

/-- The result of a TRIGGER, tested in the order of R119. -/
def State.judgeTrigger (s : State) (point : Byte) : ReplyResult :=
  if s.control.device ≠ .running then .refusedState
  else
    match pointOfNat point.toNat with
    | none => .badIndex
    | some p =>
      if !(s.point p).measured then .notConfigured
      else if s.capture.isSome then .busy
      else if s.shedding = .shed then .busy
      else .done

/-- A TRIGGER control frame (R79, R119, R120). -/
def State.actTrigger (s : State) (tag point : Byte) : State :=
  let result := s.judgeTrigger point
  match pointOfNat point.toNat with
  | none => s.offerReply kindTrigger tag result (.trigger none)
  | some p =>
    if result = .done then
      let captureTag := s.eventTag + 1
      ({ s with eventTag := captureTag }.startCapture captureTag p s.count).offerReply kindTrigger tag .done
        (.trigger (some captureTag))
    else s.offerReply kindTrigger tag result (.trigger none)

/-- The point code that stands for ALL (R180). -/
def pointAll : Byte := 0xFF

/-- The measured points that a CLOSE-ASSESSMENT names; `none` when its code names nothing (R113, R180). -/
def State.pointsNamed (s : State) (point : Byte) : Option (List Point) :=
  if point = pointAll then some s.measuredPoints
  else
    match pointOfNat point.toNat with
    | none => none
    | some p => some (if (s.point p).measured then [p] else [])

/-- A CLOSE-ASSESSMENT control frame, tested in the order of R113. -/
def State.actCloseAssessment (s : State) (tag point : Byte) : State :=
  if !s.measuring then s.offerReply kindCloseAssessment tag .refusedState .empty
  else
    match s.pointsNamed point with
    | none => s.offerReply kindCloseAssessment tag .badIndex .empty
    | some [] => s.offerReply kindCloseAssessment tag .notConfigured .empty
    | some (p :: ps) =>
      ((p :: ps).foldl State.closeEarly s).offerReply kindCloseAssessment tag .done .empty

/-- The refusal of a MODULE-COMMAND, in the order of R17; `none` when the command is accepted. -/
def State.refuseCommand (s : State) (m : Option Module) : Option ReplyResult :=
  if s.control.device = .holdup ∨ s.control.device = .standby then some .refusedState
  else
    match m with
    | none => some .badIndex
    | some m =>
      if (s.module m).state ≠ .locked then some .moduleNotLocked
      else if (s.module m).command.isSome then some .busy
      else none

/-- A MODULE-COMMAND control frame (R17): refused with its reply, or outstanding and waiting. -/
def State.actModuleCommand (s : State) (tag module : Byte) (word : BitVec 32) : State :=
  match s.refuseCommand (moduleOfNat module.toNat), moduleOfNat module.toNat with
  | some result, _ => s.offerReply kindModuleCommand tag result (.moduleCommand module none)
  | none, none => s
  | none, some m =>
    s.modModule m (fun r => { r with command := some { tag := tag, word := word, sent := none } })

/-! ### Execution (R149, R150) -/

/-- A control frame is executed (R149). `order` is that of the records of several modules. A NOP or ACK of a length
that is not its own is answered INVALID_ENTRY like any other kind, although R149 lets the two kinds make no reply
(log entry 31, DESIGN CHOICE). -/
def State.executeFrame (s : State) (f : ControlFrame) (order : List Module) : State :=
  match f with
  | .nop _ => s
  | .ack _ classes => s.acknowledge classes
  | .tableWrite tag table index entry => s.actTableWrite tag table index entry order
  | .tableRead tag table first count => s.actTableRead tag table first count
  | .start tag => s.actStart tag
  | .stop tag => s.actStop tag
  | .timeSet tag epoch => s.actTimeSet tag epoch
  | .trigger tag point => s.actTrigger tag point
  | .closeAssessment tag point => s.actCloseAssessment tag point
  | .moduleCommand tag module word => s.actModuleCommand tag module word
  | .unknown kind tag => s.offerReply kind tag .unknownKind .empty
  | .badLength kind tag => s.offerReply kind tag .invalidEntry .empty

/-- The held frame slot in INIT: filled when empty, else the frame is dropped with OVERRUN (R150). -/
def Port.hold (q : Port) (f : ControlFrame) : Port :=
  match q.held with
  | none => { q with held := some f }
  | some _ => { q with overrun := true }

/-- A frame is of kind NOP. R150 handles a frame in INIT by its kind and gives a NOP no effect there, so one of a
wrong length counts (log entry 31, DESIGN CHOICE). -/
def ControlFrame.isNop : ControlFrame → Bool
  | .nop _ => true
  | .ack _ _ => false
  | .tableWrite _ _ _ _ => false
  | .tableRead _ _ _ _ => false
  | .start _ => false
  | .stop _ => false
  | .timeSet _ _ => false
  | .trigger _ _ => false
  | .closeAssessment _ _ => false
  | .moduleCommand _ _ _ => false
  | .unknown _ _ => false
  | .badLength kind _ => kind == kindNop

/-- A taken control frame: executed at once, or in INIT held or dropped, a NOP apart (R149, R150). -/
def State.takeFrame (s : State) (f : ControlFrame) (order : List Module) : State :=
  if s.control.device = .init then
    if f.isNop then s else { s with port := s.port.hold f }
  else s.executeFrame f order

/-! ### Meanings -/

/-- UNKNOWN_KIND (R149). A kind that R180 lists is of a length that is not its own, else it would have its own
row: INVALID_ENTRY. -/
def execUnknownKind (kind tag : Byte) (s : State) : Host.Outcome State Fault Refusal :=
  .next (s.takeFrame (if (kindLength kind).isSome then .badLength kind tag else .unknown kind tag) allFour)

/-- NOP (R151). -/
def execNop (tag : Byte) (s : State) : Host.Outcome State Fault Refusal :=
  .next (s.takeFrame (.nop tag) allFour)

/-- ACK (R151, R174). -/
def execAck (tag : Byte) (classes : Word) (s : State) : Host.Outcome State Fault Refusal :=
  .next (s.takeFrame (.ack tag classes) allFour)

/-- TABLE_WRITE_SETUP (R155, R156). -/
def execTableWriteSetup (tag index : Byte) (entry : List Byte) (moduleOrder : Fin 24) (s : State) :
    Host.Outcome State Fault Refusal :=
  .next (s.takeFrame (.tableWrite tag tableSetup index entry) (orderOf moduleOrder))

/-- TABLE_WRITE_CHANNEL_MAP (R21, R22). -/
def execTableWriteChannelMap (tag index : Byte) (entry : List Byte) (s : State) : Host.Outcome State Fault Refusal :=
  .next (s.takeFrame (.tableWrite tag tableChannelMap index entry) allFour)

/-- TABLE_WRITE_LIMITS (R71 to R73). -/
def execTableWriteLimits (tag index : Byte) (entry : List Byte) (s : State) : Host.Outcome State Fault Refusal :=
  .next (s.takeFrame (.tableWrite tag tableLimits index entry) allFour)

/-- TABLE_WRITE_ROUTING (R157, R177). -/
def execTableWriteRouting (tag index : Byte) (entry : List Byte) (s : State) : Host.Outcome State Fault Refusal :=
  .next (s.takeFrame (.tableWrite tag tableRouting index entry) allFour)

/-- The table code names one of the four tables that a write may name (section 9.3). -/
def namesWritable (table : Byte) : Bool :=
  table == tableSetup || table == tableChannelMap || table == tableLimits || table == tableRouting

/-- TABLE_WRITE_READ_ONLY (R152). The row is of writes that the common tests refuse, whose entry bytes play no part;
a code that names a writable table is not of this row and has no effect under it (log entry 14). -/
def execTableWriteReadOnly (tag table index : Byte) (s : State) : Host.Outcome State Fault Refusal :=
  .next (if namesWritable table then s else s.takeFrame (.tableWrite tag table index []) allFour)

/-- TABLE_READ (R153). -/
def execTableRead (tag table first count : Byte) (s : State) : Host.Outcome State Fault Refusal :=
  .next (s.takeFrame (.tableRead tag table first count) allFour)

/-- START (R162, R163). -/
def execStart (tag : Byte) (s : State) : Host.Outcome State Fault Refusal :=
  .next (s.takeFrame (.start tag) allFour)

/-- STOP (R164). -/
def execStop (tag : Byte) (s : State) : Host.Outcome State Fault Refusal :=
  .next (s.takeFrame (.stop tag) allFour)

/-- TIME_SET (R166). -/
def execTimeSet (tag : Byte) (epoch : Tick) (s : State) : Host.Outcome State Fault Refusal :=
  .next (s.takeFrame (.timeSet tag epoch) allFour)

/-- TRIGGER (R119, R120). -/
def execTrigger (tag point : Byte) (s : State) : Host.Outcome State Fault Refusal :=
  .next (s.takeFrame (.trigger tag point) allFour)

/-- CLOSE_ASSESSMENT (R113). -/
def execCloseAssessment (tag point : Byte) (s : State) : Host.Outcome State Fault Refusal :=
  .next (s.takeFrame (.closeAssessment tag point) allFour)

/-- MODULE_COMMAND (R17). -/
def execModuleCommand (tag module : Byte) (word : BitVec 32) (s : State) : Host.Outcome State Fault Refusal :=
  .next (s.takeFrame (.moduleCommand tag module word) allFour)

end Sys2Proof.Machine
end

