-- ==== Sys2Proof/Machine/Port.lean ====
section
/-! DEFINITION. The station port and the Output Arbiter (sections 8.8, 9.1): exchanges, and the completion of INIT,
which executes the held frame (R150, R161). -/

namespace Sys2Proof.Machine

/-! ### The outbound side -/

/-- The Output Arbiter's choice (R142). -/
def State.choose (s : State) : FrameKind :=
  if s.builder.queue ≠ [] then .record
  else if s.captureQueue ≠ [] then .capture
  else .idle

/-- The body of an outbound frame of a kind, between its header and its pad (section 12.3). -/
def State.outboundBody (s : State) (choice : FrameKind) : List Byte :=
  match choice with
  | .idle => []
  | .record =>
    match s.builder.queue with
    | [] => []
    | r :: _ => r.bytes
  | .capture =>
    match s.captureQueue with
    | [] => []
    | f :: _ => f.bytes

/-- The outbound header, composed from the state as SPSEL is asserted (R146). -/
def State.composeHeader (s : State) : OutHeader where
  kind := s.choose
  length := outboundLength (s.outboundBody s.choose).length
  overrun := s.port.overrun
  discarded := s.port.discarded
  epochUnset := s.control.epochUnset
  recordOccupancy := s.builder.queue.length
  captureOccupancy := s.captureQueue.length
  pendingClasses := s.attention.pendingSet

/-- The bytes of the exchange under way, as they are clocked out on the station port (R145, section 12.3). The
chosen frame stands at the head of its queue until the exchange completes (R138, R139, R143). -/
def State.outboundBytes (s : State) : List Byte :=
  match s.exchange with
  | none => []
  | some x => sealFrame (x.header.bytes ++ s.outboundBody x.choice)

/-- SPSEL is asserted: the frame is chosen and its header composed (R142, R145, R146). With an exchange already
under way SPSEL is asserted already (log entry 30). -/
def State.beginExchange (s : State) : State :=
  match s.exchange with
  | some _ => s
  | none => { s with exchange := some { choice := s.choose, header := s.composeHeader } }

/-- A port flag after an exchange that completed: cleared when its header carried it (R147). -/
def settleFlag (carried flag : Bool) : Bool :=
  flag && !carried

/-- The flags that a completed exchange carried are cleared (R147). -/
def Port.settle (q : Port) (h : OutHeader) : Port :=
  { q with overrun := settleFlag h.overrun q.overrun, discarded := settleFlag h.discarded q.discarded }

/-- A removal that brings the Capture Queue to the low watermark or below opens it (R140, R144). -/
def reopen (u : Setup) (occupancy : Nat) (sh : Shedding) : Shedding :=
  if occupancy ≤ u.lowMark then .opened else sh

/-- The chosen frame leaves the head of its queue. The removal of a capture frame is an occasion on which frames are
formed (R121, R138, R139, R143, R144). -/
def State.removeHead (s : State) (choice : FrameKind) : State :=
  match choice with
  | .idle => s
  | .record => { s with builder := { s.builder with queue := s.builder.queue.drop 1 } }
  | .capture =>
    { s with
      captureQueue := s.captureQueue.drop 1
      shedding := reopen s.setup (s.captureQueue.drop 1).length s.shedding }.formAll

/-- The outbound side is settled (R143, R147): `sent` bytes were clocked out in the select period. -/
def State.settleExchange (s : State) (x : Exchange) (sent : Nat) : State :=
  if x.header.length ≤ sent then
    { s with exchange := none, port := s.port.settle x.header }.removeHead x.choice
  else { s with exchange := none }

/-! ### The incoming side -/

/-- The incoming bytes are judged as a control frame, which is taken or discarded with DISCARDED set (R148). -/
def State.judgeIncoming (s : State) (bytes : List Byte) (order : List Module) : State :=
  match judgeControlFrame bytes with
  | none => { s with port := { s.port with discarded := true } }
  | some f => s.takeFrame f order

/-- SPSEL is released: the outbound side is settled, then the incoming bytes are judged (R145). Without an
exchange under way there is nothing to release (log entry 30). -/
def State.endExchange (s : State) (bytes : List Byte) (order : List Module) : State :=
  match s.exchange with
  | none => s
  | some x => (s.settleExchange x bytes.length).judgeIncoming bytes order

/-! ### INIT (R161) -/

/-- CHANNEL MAP, LIMITS and ROUTING cleared, the derived thresholds with them, and the device STOPPED (R67, R161). -/
def State.clearTables (s : State) : State :=
  { s with
    routing := .cleared
    channels := mapAll s.channels (fun _ ch => { ch with entry := .cleared })
    points := mapAll s.points (fun _ pt => { pt with limits := .cleared, thresholds := .zero })
    control := { s.control with device := .stopped } }

/-- The held frame is executed as if just taken in STOPPED, and the slot emptied (R150). -/
def State.executeHeld (s : State) : State :=
  match s.port.held with
  | none => s
  | some f => { s with port := { s.port with held := none } }.executeFrame f allFour

/-- INIT completes (R161): tables cleared, STOPPED, the held frame, then HOLDUP when the level is failing. -/
def State.completeInit (s : State) : State :=
  if s.control.device = .init then s.clearTables.executeHeld.takeFailure else s

/-! ### Meanings -/

/-- EXCHANGE_BEGIN (R142, R145, R146). -/
def execExchangeBegin (s : State) : Host.Outcome State Fault Refusal :=
  .next s.beginExchange

/-- EXCHANGE_END (R143 to R145, R147 to R150). -/
def execExchangeEnd (bytes : List Byte) (moduleOrder : Fin 24) (s : State) : Host.Outcome State Fault Refusal :=
  .next (s.endExchange bytes (orderOf moduleOrder))

/-- INIT_COMPLETE (R150, R161). -/
def execInitComplete (s : State) : Host.Outcome State Fault Refusal :=
  .next s.completeInit

end Sys2Proof.Machine
end

