-- ==== Sys2Proof/Machine/Strobe.lean ====
section
/-! DEFINITION. The expiry of the strobe timer (R1, R2): what is still due in the ending tick, the count, the
supply-fail debouncer, the misses, the closing set and its delivery, and the strobe frame of the new tick. -/

namespace Sys2Proof.Machine

/-- What was due in the ending tick and has not been commanded is taken now (log entry 2). -/
def State.takeDue (s : State) (order : List Module) : State :=
  let s1 := (s.takeFailure.takeReturnHoldup.takeHoldupExpiry order).takeReturnStandby
  ((s1.timeoutAll allFour).expireLine .line0).expireLine .line1

/-- The supply-fail debouncer samples SFI (R167). -/
def Control.sample (c : Control) (debounce : Nat) (sfi : SupplyLevel) : Control :=
  if sfi = c.level then { c with runCount := 0 }
  else if debounce ≤ c.runCount + 1 then { c with level := sfi, runCount := 0 }
  else { c with runCount := c.runCount + 1 }

/-- A count value is a multiple of a length in ticks (R30). -/
def isMultiple (t : Tick) (len : Nat) : Bool :=
  t.toNat % len == 0

/-- The due markings of a new count value (R30). -/
def State.newDue (s : State) (t : Tick) : DueNow where
  period := s.measuring && isMultiple t s.setup.leadTicks
  second := s.measuring && isMultiple t s.setup.nominal.rate

/-- A new tick begins: the count, the timer's period (R1), the debouncer (R167), and the due markings (R30). -/
def State.advance (s : State) (sfi : SupplyLevel) : State :=
  { s with
    count := s.count + 1
    timerNominal := s.setup.nominal
    control := s.control.sample s.setup.debounce sfi
    dueNow := s.newDue (s.count + 1) }

/-- A line's pulse or gap that ends as the new tick begins ends before the raises of the expiry, when the order says
so; else by its row or at the end of the tick. R176 says that the order makes no difference to one request that finds
no follow-up mark, and leaves it open for two, or for one with the mark set: taken after them the raises merge into one
pulse, taken before them they give a pulse and a follow-up (log entry 3). -/
def State.lineIf (s : State) (first : Bool) (l : LineId) : State :=
  if first then s.expireLine l else s

/-- Whether the reference chosen for a point differs from the one before (R28). -/
def State.referenceChanges (s : State) (set : SampleSet) : Vector Bool 4 :=
  mapAll s.points (fun p pt => s.chooseReference p set != pt.reference)

/-- The reference of every point is chosen again, in every state after INIT (R27). -/
def State.chooseReferences (s : State) (set : SampleSet) : State :=
  if s.control.device = .init then s
  else s.mapPoints (fun p pt => { pt with reference := s.chooseReference p set })

/-- A point takes the closing set, when it is a measured point of a device that measures (R23). -/
def State.deliverIf (s : State) (t : Tick) (set : SampleSet) (changes : Vector Bool 4) (p : Point) : State :=
  if s.measuring && (s.point p).measured then s.deliver t set p changes[p.val] else s

/-- Frames are formed between two points, or after them, when the order says so: the occasion that the writing of
the closing set is (R121). An onset may come before it or after it (R118, log entry 3), at the places between the
points alone (log entry 37). -/
def State.formIfAt (s : State) (o : Interleaving) (k : Fin 5) : State :=
  if o.framesAt.val = k.val then s.formAll else s

/-- When the order says so, frames are formed only after a supply failure of this moment has been taken, which
truncates the capture (R126, log entry 29). -/
def State.formLast (s : State) (o : Interleaving) : State :=
  if o.framesAt = 5 then s.takeFailure.formAll else s

/-- The module commands that the closing of this set times out end at this place, when the order says so. R19 puts a
timeout at the closing of set s + 64, the moment of the expiry's own records, and R131 lets either offer come first, so
their place is an operand (log entry 3); they stand together, in the order of the modules (log entry 35). -/
def State.timeoutIfAt (s : State) (o : Interleaving) (first : Bool) (k : Nat) : State :=
  if o.timeoutsAt.val = k ∧ o.timeoutsFirst = first then s.timeoutAll (orderOf o.moduleOrder) else s

/-- The period marking is taken between two points, or after them, as the order says. R30 puts both markings at the
moment that closes the set and orders neither against a crossing in it, so each has a place of its own (log entry 3);
at one place their order makes no difference, since neither reads a due mark. -/
def State.periodIfAt (s : State) (o : Interleaving) (k : Fin 5) : State :=
  if o.periodAt = k then s.takePeriodDue else s

/-- The whole-second marking is taken between two points, or after them, as the order says (R30, log entry 3). -/
def State.secondIfAt (s : State) (o : Interleaving) (k : Fin 5) : State :=
  if o.secondAt = k then s.takeSecondDue else s

/-- The strobe of the new tick is issued between two points, or after them, as the order says (R2). -/
def State.issueIfAt (s : State) (o : Interleaving) (k : Fin 5) : State :=
  if o.fieldAt = k then s.issueStrobe else s

/-- What else happens at this moment after `k` of the points. Frames that the written set brings, and a closure record
with them, stand before or after the whole work of a point, never between two steps of its trackers or two of its
records, where R118 and R131 would allow them too (log entry 37, DESIGN CHOICE). -/
def State.between (s : State) (o : Interleaving) (k : Fin 5) : State :=
  (((((s.timeoutIfAt o true k.val).formIfAt o k).timeoutIfAt o false k.val).periodIfAt o k).secondIfAt o k).issueIfAt
    o k

/-- One point's turn: what comes before it at its place in the order, then its delivery. -/
def State.turn (s : State) (t : Tick) (set : SampleSet) (changes : Vector Bool 4) (o : Interleaving)
    (q : Point × Fin 5) : State :=
  (s.between o q.2).deliverIf t set changes q.1

/-- The points take the closing set one after another, each whole (R23, log entry 4). -/
def State.deliverAll (s : State) (t : Tick) (set : SampleSet) (changes : Vector Bool 4) (o : Interleaving) : State :=
  (((orderOf o.pointOrder).zip [0, 1, 2, 3]).foldl (fun s1 q => s1.turn t set changes o q) s).between o 4

/-- The closing of the set of tick `t` once its contributions are fixed (R10, R27, R115), the issue of the strobe of
the new tick, and the formation of frames that the set's writing brings (R121). -/
def State.closeSet (s : State) (t : Tick) (o : Interleaving) : State :=
  let set := s.closingSet
  let changes := s.referenceChanges set
  ((((s.nextSet set).writeHistory t set).chooseReferences set).deliverAll t set changes o).formLast o

/-- The deadline of the ending tick: misses, and the checks that got no answer (R6, R7, R13). -/
def State.deadline (s : State) (order : List Module) : State :=
  (s.countMisses order).voidSentChecks

/-- The new tick begins: the count and what comes with it, and the lines whose pulse or gap ends first (R1, R176). -/
def State.beginTick (s : State) (sfi : SupplyLevel) (o : Interleaving) : State :=
  ((s.advance sfi).lineIf o.line0First .line0).lineIf o.line1First .line1

/-- The strobe timer expires (R1, R2, R10). Where a pulse or a gap of a line ends at the new tick, its place among the
classes that the expiry raises is an operand, as R176 leaves it open, and so is the place of a module command's timeout
among the records of the expiry, as R131 leaves it open (log entry 3). An expiry of the hold-up timer at the new tick
comes after the whole of it: the set closes and the strobe is issued in HOLDUP (R88, R171, log entry 36, DESIGN CHOICE).
A change of the supply that its own sample brings comes after it too: at a return from STANDBY the strobe of the return
tick is not transmitted and its field is NONE, and the next one is the first transmitted (R173, log entry 29, DESIGN
CHOICE). -/
def State.expire (s : State) (sfi : SupplyLevel) (o : Interleaving) : State :=
  ((((s.takeDue (orderOf o.moduleOrder)).beginTick sfi o).timeoutIfAt o true 5).deadline
    (orderOf o.moduleOrder)).closeSet s.count o

/-- STROBE_TIMER_EXPIRY (R1 and the rules of spec/95 under its heading). -/
def execStrobeTimerExpiry (sfi : SupplyLevel) (order : Interleaving) (s : State) : Host.Outcome State Fault Refusal :=
  .next (s.expire sfi order)

end Sys2Proof.Machine
end

