-- ==== Sys2Proof/Machine/Dispatch.lean ====
section
/-! DEFINITION. The meaning of every command: one arm for each row of the table. -/

namespace Sys2Proof.Machine

/-- The effect of a command on everything but the queue. -/
def exec (i : Instr) (s : State) : Host.Outcome State Fault Refusal :=
  match i with
  | .reset cause => Sys2Proof.Machine.execReset cause s
  | .initComplete => Sys2Proof.Machine.execInitComplete s
  | .strobeTimerExpiry sfi order => Sys2Proof.Machine.execStrobeTimerExpiry sfi order s
  | .leadCheckPeriodDue => Sys2Proof.Machine.execLeadCheckPeriodDue s
  | .wholeSecondDue => Sys2Proof.Machine.execWholeSecondDue s
  | .moduleCommandTimeout m => Sys2Proof.Machine.execModuleCommandTimeout m s
  | .sampleFrame bytes leadFirst => Sys2Proof.Machine.execSampleFrame bytes leadFirst s
  | .captureFrameForm => Sys2Proof.Machine.execCaptureFrameForm s
  | .pulseExpiry line => Sys2Proof.Machine.execPulseExpiry line s
  | .gapExpiry line => Sys2Proof.Machine.execGapExpiry line s
  | .supplyFailure => Sys2Proof.Machine.execSupplyFailure s
  | .supplyReturnHoldup => Sys2Proof.Machine.execSupplyReturnHoldup s
  | .holdupTimerExpiry moduleOrder => Sys2Proof.Machine.execHoldupTimerExpiry moduleOrder s
  | .supplyReturnStandby => Sys2Proof.Machine.execSupplyReturnStandby s
  | .exchangeBegin => Sys2Proof.Machine.execExchangeBegin s
  | .exchangeEnd bytes moduleOrder => Sys2Proof.Machine.execExchangeEnd bytes moduleOrder s
  | .unknownKind kind tag => Sys2Proof.Machine.execUnknownKind kind tag s
  | .nop tag => Sys2Proof.Machine.execNop tag s
  | .ack tag classes => Sys2Proof.Machine.execAck tag classes s
  | .tableWriteSetup tag index entry moduleOrder => Sys2Proof.Machine.execTableWriteSetup tag index entry moduleOrder s
  | .tableWriteChannelMap tag index entry => Sys2Proof.Machine.execTableWriteChannelMap tag index entry s
  | .tableWriteLimits tag index entry => Sys2Proof.Machine.execTableWriteLimits tag index entry s
  | .tableWriteRouting tag index entry => Sys2Proof.Machine.execTableWriteRouting tag index entry s
  | .tableWriteReadOnly tag table index => Sys2Proof.Machine.execTableWriteReadOnly tag table index s
  | .tableRead tag table first count => Sys2Proof.Machine.execTableRead tag table first count s
  | .start tag => Sys2Proof.Machine.execStart tag s
  | .stop tag => Sys2Proof.Machine.execStop tag s
  | .timeSet tag epoch => Sys2Proof.Machine.execTimeSet tag epoch s
  | .trigger tag point => Sys2Proof.Machine.execTrigger tag point s
  | .closeAssessment tag point => Sys2Proof.Machine.execCloseAssessment tag point s
  | .moduleCommand tag module word => Sys2Proof.Machine.execModuleCommand tag module word s

end Sys2Proof.Machine
end

