-- ==== Sys2Proof/Safety.lean ====
section
/-! DEFINITION. What counts as a good state of the device: one predicate for each invariant that claims speak of. -/

namespace Sys2Proof.Machine

/-- The step runs: it answers a next state. No rule of the spec stops the device (INVENTORY.md, Faults). -/
def Runs (s : State) : Prop :=
  ∃ t, step s = .next t

/-! ### Queues and buffers (R115, R132, R133, R139) -/

/-- No store holds more than its places, and the withheld count stays within its byte. -/
structure QueuesBounded (s : State) : Prop where
  records : s.builder.queue.length ≤ 96
  withheld : s.builder.withheld ≤ 255
  frames : s.captureQueue.length ≤ 48
  sets : s.history.sets.length ≤ 2048

/-! ### The record chain (R131, R133, R134) -/

/-- The sequence number that follows a number and a withheld count: one more for the admitted record, and one
for each record withheld between; a withheld count of 255 says only "255 or more". -/
def Follows (before : BitVec 32) (withheld : Nat) (next : BitVec 32) : Prop :=
  withheld < 255 → next = before + 1 + BitVec.ofNat 32 withheld

/-- A record is the next link after a chain word and a sequence number. -/
structure LinksAfter (r : QueuedRecord) (seq : BitVec 32) (chain : Word) : Prop where
  chained : r.chain = crc16 chain (recordBytes r.seq r.withheld r.body)
  numbered : Follows seq r.withheld r.seq

/-- Every record of a queue is the next link after the one before it. -/
def Linked : List QueuedRecord → Prop
  | [] => True
  | [_] => True
  | r :: q :: rest => LinksAfter q r.seq r.chain ∧ Linked (q :: rest)

/-- The record queue is one unbroken chain, and the Record Builder stands ready to add its next link. -/
structure ChainIntact (b : RecordBuilder) : Prop where
  linked : Linked b.queue
  register : ∀ r, b.queue.getLast? = some r → b.chain = r.chain
  counter : ∀ r, b.queue.getLast? = some r → Follows r.seq b.withheld b.seq

/-! ### SETUP (R154) -/

/-- Every numeric field of SETUP lies in its range. -/
structure SetupInRange (u : Setup) : Prop where
  interval : 1 ≤ u.intervalLength ∧ u.intervalLength ≤ 7200
  assessment : 1 ≤ u.assessmentLength ∧ u.assessmentLength ≤ 4032
  period : 10 ≤ u.leadPeriod ∧ u.leadPeriod ≤ 3600
  missLimit : 1 ≤ u.missLimit ∧ u.missLimit ≤ 64
  holdup : 1 ≤ u.holdupLimit ∧ u.holdupLimit ≤ 1000
  debounce : 1 ≤ u.debounce ∧ u.debounce ≤ 255
  pre : u.preTrigger ≤ 1024
  post : 256 ≤ u.postTrigger ∧ u.postTrigger ≤ 8192
  high : 1 ≤ u.highMark ∧ u.highMark ≤ 48
  low : u.lowMark < u.highMark
  rise : 1 ≤ u.originRise ∧ u.originRise ≤ 1024
  minimum : u.originMinimum ≤ 16777215

/-! ### Captures and shedding (R118, R126, R139 to R141) -/

/-- SETUP is in range; a capture runs only in RUNNING with the shedding state OPEN; OPEN holds below the high
watermark and SHED above the low one. -/
structure CaptureCoherent (s : State) : Prop where
  setup : SetupInRange s.setup
  running : s.capture.isSome → s.control.device = .running ∧ s.shedding = .opened
  opened : s.shedding = .opened → s.captureQueue.length < s.setup.highMark
  shed : s.shedding = .shed → s.setup.lowMark < s.captureQueue.length

/-- No frame waits to be formed: a running capture has fewer sets ready than a frame takes, or no room (R121). -/
def FramesFormed (s : State) : Prop :=
  ∀ c, s.capture = some c → s.frameReady c = false

/-- The running capture that a trigger starts, before it forms a frame (R120). -/
structure CaptureStarts (s : State) (tag : Word) (p : Point) (trigger : Tick) (c : RunningCapture) : Prop where
  tag : c.tag = tag
  point : c.point = p
  channels : c.channels = s.channelsOf p
  triggerTick : c.triggerTick = trigger
  triggerEpoch : c.triggerEpoch = trigger + s.control.offset
  preCount : c.preCount = match s.history.oldest with
    | none => 0
    | some oldest => min s.setup.preTrigger (trigger - oldest).toNat
  startTick : c.startTick = trigger - BitVec.ofNat 48 c.preCount
  readPosition : c.readPosition = c.startTick
  plannedEnd : c.plannedEnd = trigger + BitVec.ofNat 48 s.setup.postTrigger
  fresh : c.frameIndex = 0 ∧ c.delivered = 0 ∧ c.crc = 0xFFFF

/-- Two states with the same Capture Engine, Capture Queue, shedding state and records. -/
structure SameEngine (s t : State) : Prop where
  capture : t.capture = s.capture
  frames : t.captureQueue = s.captureQueue
  shedding : t.shedding = s.shedding
  records : t.builder = s.builder

/-! ### Events at a window result (R76, R80 to R86) -/

/-- A phase holds this value among the usable phases of a result, and is the lowest-numbered of those that do (R76). -/
def HoldsFirst (r : WindowResult) (value phase : Nat) : Prop :=
  (phase, value) ∈ r.usable ∧ ∀ u ∈ r.usable, u.2 = value → phase ≤ u.1

/-- A usable phase of a result carries CLIPPED (R80). -/
def ShowsClipped (r : WindowResult) : Prop :=
  ∃ w ∈ r.values, w.kind = .voltage ∧ w.quality ≠ .unavailable ∧ w.opened = false ∧ w.clipped = true

/-- A usable phase of a result has quality HELD (R80). -/
def ShowsHeld (r : WindowResult) : Prop :=
  ∃ w ∈ r.values, w.kind = .voltage ∧ w.quality = .held ∧ w.opened = false

/-- The event that a tracker opens at a result, its class, capture and origin work apart (R79 to R81, R83, R84).
`reached` is vmin or vmax, `involved` the tracker's test of the values of the phases involved. -/
structure EventOpens (s : State) (r : WindowResult) (reached : Nat) (involved : Nat → Prop) (e : OpenEvent) : Prop where
  tag : e.tag = s.eventTag + 1
  startTick : e.startTick = r.tick
  startEpoch : e.startEpoch = r.tick + s.control.offset
  epochUnset : e.epochUnset = s.control.epochUnset
  windows : e.windows = 1 ∧ e.blindWindows = 0
  extreme : e.extreme = reached
  extremePhase : HoldsFirst r reached e.extremePhase
  phases : ∀ n, n < 4 → (e.phases.getLsbD n = true ↔ ∃ u ∈ r.usable, u.1 = n ∧ involved u.2)
  free : e.flags.freeSeen = r.free
  clipped : e.flags.clippedSeen = true ↔ ShowsClipped r
  held : e.flags.heldSeen = true ↔ ShowsHeld r
  stepped : e.flags.timeStepped = false

/-- An open event before and after a result that is not blind, its class and origin work apart (R82, R84). `value` is
vmin or vmax, and `further` says that it lies beyond the extreme. -/
structure EventGrows (r : WindowResult) (value : Nat) (further : Prop) (involved : Nat → Prop) (e e' : OpenEvent) :
    Prop where
  windows : e'.windows = e.windows + 1
  moved : further → e'.extreme = value ∧ HoldsFirst r value e'.extremePhase
  stayed : ¬further → e'.extreme = e.extreme ∧ e'.extremePhase = e.extremePhase
  phases : ∀ n, n < 4 →
    (e'.phases.getLsbD n = true ↔ e.phases.getLsbD n = true ∨ ∃ u ∈ r.usable, u.1 = n ∧ involved u.2)
  free : e'.flags.freeSeen = (e.flags.freeSeen || r.free)
  clipped : e'.flags.clippedSeen = true ↔ e.flags.clippedSeen = true ∨ ShowsClipped r
  held : e'.flags.heldSeen = true ↔ e.flags.heldSeen = true ∨ ShowsHeld r
  stepped : e'.flags.timeStepped = e.flags.timeStepped
  kept : e' = { e with
    windows := e'.windows, extreme := e'.extreme, extremePhase := e'.extremePhase, phases := e'.phases
    flags := e'.flags, eventClass := e'.eventClass, work := e'.work }

/-- The record of an event that a tracker closes at a result, its origin apart (R86, R95). -/
structure ClosesNormal (p : Point) (r : WindowResult) (e : OpenEvent) (rec : EventRecord) : Prop where
  point : rec.point = p
  tag : rec.tag = e.tag
  eventClass : rec.eventClass = e.eventClass
  start : rec.startEpoch = e.startEpoch ∧ rec.epochUnset = e.epochUnset
  duration : rec.duration = r.tick - e.startTick
  extreme : rec.extreme = e.extreme ∧ rec.extremePhase = e.extremePhase
  phases : rec.phases = e.phases
  windows : rec.windows = e.windows ∧ rec.blindWindows = e.blindWindows
  flags : rec.flags = e.flags
  endCause : rec.endCause = .normal
  capture : rec.captureStatus = e.captureStatus ∧ rec.captureTag = e.captureTag

/-- The assessment of a point after an event of a class was counted in it (R111). -/
def CountsEvent (k : EventClass) (before after : Option Assessment) : Prop :=
  (before = none → after = none) ∧
  ∀ a, before = some a → after = some { a with
    dips := if k = .dip then min 65535 (a.dips + 1) else a.dips
    interruptions := if k = .interruption then min 65535 (a.interruptions + 1) else a.interruptions
    swells := if k = .swell then min 65535 (a.swells + 1) else a.swells }

/-! ### Half-windows (R41 to R44) -/

/-- A half-window in progress is below the length at which its mode closes it. -/
def Boundary.bounded (b : Boundary) : Prop :=
  match b.mode with
  | .free => b.count < 128
  | .track _ => b.count < 160

/-- Every point's half-window in progress is bounded. -/
def HalfWindowsBounded (s : State) : Prop :=
  ∀ p, (s.point p).boundary.bounded

/-! ### Spans (R96) and work in progress (R40, R46, R53, R64) -/

/-- A point is being measured: a measured point of a device that measures. -/
def State.active (s : State) (p : Point) : Bool :=
  s.measuring && (s.point p).measured

/-- The device is in STANDBY having come from RUNNING. -/
def State.keepsAssessments (s : State) : Bool :=
  s.control.device == .standby && s.control.prior == some .running

/-- Nothing of a run is in progress at a point: Boundary Unit and trackers as after START, no frequency period,
no check in flight. -/
structure PointRecord.Idle (pt : PointRecord) : Prop where
  boundary : pt.boundary = .fresh
  period : pt.period = none
  pair : pt.pairFlag = false
  low : pt.low = .quiet
  high : pt.high = .quiet
  check : pt.check = none

/-- A block and an interval exist exactly at points being measured, an assessment also through a STANDBY entered
from RUNNING, and a point that is not being measured has no work in progress. -/
structure SpansExact (s : State) : Prop where
  block : ∀ p, (s.point p).block.isSome = s.active p
  interval : ∀ p, (s.point p).interval.isSome = s.active p
  assessment : ∀ p, (s.point p).assessment.isSome =
    ((s.measuring || s.keepsAssessments) && (s.point p).measured)
  idle : ∀ p, s.active p = false → (s.point p).Idle

/-! ### Modules (R11 to R14, R16 to R19) -/

/-- A module's state record fits its state and SETUP. -/
structure ModuleRecord.Coherent (r : ModuleRecord) (enabled : Bool) (missLimit : Nat) : Prop where
  membership : enabled = false ↔ r.state = .disabled
  misses : r.state = .locked → r.missCount < missLimit
  run : r.state = .seeking ∨ r.state = .lost → r.goodRun < 4
  commanded : r.command.isSome → r.state = .locked
  missBound : r.missCount ≤ 64
  runBound : r.goodRun ≤ 255
  failureBound : r.checkFailures ≤ 65535
  staleBound : r.staleFrames ≤ 65535

/-- SETUP is in range and every module's state record fits it. -/
structure ModulesCoherent (s : State) : Prop where
  setup : SetupInRange s.setup
  each : ∀ m, (s.module m).Coherent (s.setup.enables m) s.setup.missLimit

/-! ### The channel map and the limits (R21, R22, R67, R71) -/

/-- The channel map passes the range test of R21 and the whole-table test of R22. -/
structure MapLegal (s : State) : Prop where
  passes : mapPasses (mapAll s.channels (fun _ ch => ch.entry)) = true
  ranges : ∀ c, (s.channel c).entry.inRange = true

/-- A point's limits entry and its pending limits are valid, and its thresholds are those of the entry in force. -/
structure PointRecord.LimitsLegal (pt : PointRecord) : Prop where
  inForce : pt.limits.valid = true
  pending : ∀ l, pt.pendingLimits = some l → l.valid = true
  derived : pt.thresholds = deriveThresholds pt.limits

/-- The limits of every point are legal. -/
def LimitsLegal (s : State) : Prop :=
  ∀ p, (s.point p).LimitsLegal

/-! ### Measurement Control and the port (R2, R30, R90, R150, R159, R169) -/

/-- A prior state exists exactly in HOLDUP and STANDBY, the hold-up timer runs exactly in HOLDUP, a held frame exists
only in INIT, the strobe frame carries the tag of the current tick, no ring holds more than eight values, and no due
marking waits to be taken. -/
structure ControlCoherent (s : State) : Prop where
  prior : s.control.prior.isSome = (s.control.device == .holdup || s.control.device == .standby)
  timer : s.control.timerRunning = (s.control.device == .holdup)
  held : s.port.held.isSome → s.control.device = .init
  tag : s.strobe.tag = tagOf s.count
  rings : ∀ c, (s.channel c).ring.length ≤ 8
  due : s.dueNow = { period := false, second := false }

/-! ### Offers in a row (R131) -/

/-- The Record Builder after these records were offered, one after another. -/
def RecordBuilder.offers (b : RecordBuilder) (bodies : List RecordBody) : RecordBuilder :=
  bodies.foldl RecordBuilder.offer b

/-! ### After a reset (R2, R130, R160, R178) -/

/-- What a reset of this cause leaves, the tables that INIT is still to clear apart (log entry 9), and the hold-up
start tick and the slots of the Set Assembler apart, to which the spec gives no reset value (log entry 12). That the
clipped marks kept from the set before are clear (`last`) is the model's choice too (log entry 12, DESIGN CHOICE). -/
structure AfterReset (cause : ResetCause) (t : State) : Prop where
  count : t.count = 0
  timer : t.timerNominal = .hz50
  setup : t.setup =
    { nominal := .hz50, intervalLength := 600, assessmentLength := 1008, blockPoints := 0, leadPeriod := 300,
      missLimit := 8, moduleEnable := 0, holdupLimit := 250, debounce := 32, restart := .stayStopped,
      preTrigger := 512, postTrigger := 2048, highMark := 40, lowMark := 16, originRise := 64,
      originMinimum := 500 }
  strobe : t.strobe = { tag := 0, field := .none, transmitted := true }
  module : ∀ m, (t.module m).state = .disabled ∧ (t.module m).missCount = 0 ∧ (t.module m).goodRun = 0 ∧
    (t.module m).checkFailures = 0 ∧ (t.module m).staleFrames = 0 ∧ (t.module m).echo = 0 ∧
    (t.module m).command = none ∧ (t.module m).taken = false
  last : ∀ m, ∀ k : Slot, (t.module m).last[k.val] = 0 ∧ (t.module m).clippedBefore[k.val] = false
  channel : ∀ c, (t.channel c).lead = .notChecked ∧ (t.channel c).due = false ∧ (t.channel c).current = .zero ∧
    (t.channel c).previous = .zero ∧ (t.channel c).ring = []
  boundary : ∀ p, (t.point p).boundary =
    { mode := .free, count := 0, armedPositive := true, armedNegative := true, before := none }
  point : ∀ p, (t.point p).pendingLimits = none ∧ (t.point p).measured = false ∧ (t.point p).reference = none ∧
    (t.point p).period = none ∧ (t.point p).pairFlag = false ∧ (t.point p).previousFree = false ∧
    (t.point p).low = .quiet ∧ (t.point p).high = .quiet ∧ (t.point p).check = none
  spans : ∀ p, (t.point p).block = none ∧ (t.point p).interval = none ∧ (t.point p).assessment = none
  eventTag : t.eventTag = 0
  history : t.history = { head := none, sets := [] }
  capture : t.capture = none
  records : ∃ chain, chain = crc16 0xFFFF (recordBytes 0 0 (.status (.reset cause) 0 true)) ∧
    t.builder = { seq := 1, chain := chain, withheld := 0,
                  queue := [{ seq := 0, withheld := 0, body := .status (.reset cause) 0 true, chain := chain }] }
  frames : t.captureQueue = [] ∧ t.shedding = .opened
  port : t.exchange = none ∧ t.port = { overrun := false, discarded := false, held := none }
  device : t.control.device = .init ∧ t.control.offset = 0 ∧ t.control.epochUnset = true ∧ t.control.prior = none ∧
    t.control.timerRunning = false ∧ t.control.level = .good ∧ t.control.runCount = 0
  attention : t.attention.pendingSet = 0 ∧
    ∀ l, t.attention.line l = { phase := .idle, followUp := false } ∧ t.lineHigh l = false

/-! ### The set that an expiry closes (R8 to R10) -/

/-- No entry to STANDBY waits to be taken at the next expiry (log entry 2): the hold-up timer has not run its length,
and a supply failure that is still to be taken finds a hold-up limit of at least 1. A timer that expires at the new tick
is taken after that expiry (log entry 36, DESIGN CHOICE). -/
structure StaysPowered (s : State) : Prop where
  holdup : s.control.device = .holdup → s.control.level = .failing → s.control.timerRunning = true →
    (s.count - s.control.holdupStart).toNat < s.setup.holdupLimit * 256
  failure : s.control.device = .stopped ∨ s.control.device = .running → s.control.level = .failing →
    1 ≤ s.setup.holdupLimit

/-- The slots of the set that the next expiry closes: as a good frame fixed them; held with the last values while a
module stays LOCKED without one; else code 0, unavailable. -/
structure ClosesWith (s : State) (set : SampleSet) : Prop where
  good : ∀ (m : Module) (k : Slot), (s.module m).taken = true →
    (set[m.val])[k.val] = (s.module m).slots[k.val]
  held : ∀ (m : Module) (k : Slot), (s.module m).taken = false → (s.module m).state = .locked →
    s.setup.enables m = true → (s.module m).missCount + 1 < s.setup.missLimit →
    (set[m.val])[k.val] = { code := (s.module m).last[k.val], held := true,
                            clipped := (s.module m).clippedBefore[k.val], unavailable := false }
  lost : ∀ (m : Module) (k : Slot), (s.module m).taken = false → (s.module m).state = .locked →
    s.setup.enables m = true → (s.module m).missCount + 1 = s.setup.missLimit →
    (set[m.val])[k.val] = { code := 0, held := false, clipped := false, unavailable := true }
  missing : ∀ (m : Module) (k : Slot), (s.module m).taken = false → (s.module m).state ≠ .locked →
    (set[m.val])[k.val] = { code := 0, held := false, clipped := false, unavailable := true }

/-- What a point's taking of the set that closes can do to its check, of which `before` is the one it had (R31, R32):
the request is withdrawn when its low tracker leaves QUIET, a sent check stays, and where there was none a new request
may be aimed two ticks after the set of tick `s.count` or later. -/
structure CheckTurns (s : State) (p : Point) (before : Option CheckInFlight) (after : PointRecord) : Prop where
  kept : ∀ k, before = some k → after.check = some k ∨
    (k.sent = false ∧ after.check = none ∧ (s.point p).low = .quiet ∧ after.low ≠ .quiet)
  scheduled : before = none → ∀ k, after.check = some k →
    k.sent = false ∧ k.target = s.count + BitVec.ofNat 48 (max 2 (s.channel k.channel).entry.delay)

/-- The NO_ANSWER reply of a command that a module had outstanding (R19). -/
def noAnswerReply (m : Module) (k : ModuleCommand) : RecordBody :=
  .reply { kind := 0x09, tag := k.tag, result := .noAnswer, tail := .moduleCommand (BitVec.ofNat 8 m.val) none }

/-- The NO_ANSWER reply of a command that was sent more than 64 ticks ago (R19). -/
def State.overdueReply (s : State) (m : Module) : Option RecordBody :=
  match (s.module m).command with
  | none => none
  | some k =>
    match k.sent with
    | none => none
    | some e => if 64 < (s.count - e.tick).toNat then some (noAnswerReply m k) else none

/-- What comes before the first point's turn at an expiry of a device that measures. `w` is `s` after a supply change
that was still to be taken (log entry 2), `v` stands before that turn: the count has moved on (log entry 7, DEDUCED),
the references are chosen, and the records of the misses and of timeouts are offered (log entry 8, DEDUCED). -/
structure BringsTurns (s w v : State) (set : SampleSet) : Prop where
  count : v.count = s.count + 1
  kept : v.eventTag = s.eventTag ∧ v.setup = s.setup ∧ v.routing = s.routing ∧ v.channels = s.channels
  points : ∀ p, v.point p = { s.point p with reference := s.chooseReference p set, check := (v.point p).check }
  engine : v.capture = w.capture ∧ v.captureQueue = w.captureQueue ∧ v.shedding = w.shedding
  records : ∃ bodies : List RecordBody, v.builder = w.builder.offers bodies ∧ bodies.Nodup ∧
    ∀ b, b ∈ bodies ↔
      (∃ m, (s.module m).state = .locked ∧ (v.module m).state = .lost ∧
        b = .status (.moduleLost m) (s.epochOf (s.count + 1)) s.control.epochUnset) ∨
      ∃ m k, (s.module m).command = some k ∧ (v.module m).command = none ∧ b = noAnswerReply m k
  raised : ∀ j, v.attention.isPending j = true ↔ w.attention.isPending j = true ∨
    (j = .moduleState ∧ ∃ m, (s.module m).state = .locked ∧ (v.module m).state = .lost) ∨
    (j = .replyReady ∧ ∃ m, (s.module m).command ≠ none ∧ (v.module m).command = none) ∨
    (j = .queueHigh ∧ w.builder.queue.length < 64 ∧ 64 ≤ v.builder.queue.length)

/-- What an expiry does beside the points' turns, at place `k` of its order: the timeouts and the formation of frames
that the order puts there (R19, R121), the due markings and the strobe. Any frames are those of `State.formAll`. -/
structure AsideAt (o : Interleaving) (k : Nat) (s t : State) : Prop where
  points : ∀ p, t.point p = { s.point p with check := (t.point p).check }
  channels : ∀ c, t.channel c = { s.channel c with due := (t.channel c).due }
  modules : ∀ m, t.module m = { s.module m with command := (t.module m).command, echo := (t.module m).echo } ∧
    ((t.module m).command = none ↔
      (s.module m).command = none ∨ (o.timeoutsAt.val = k ∧ (s.overdueReply m).isSome = true))
  noted : ∃ (formed : State) (replies closures : List RecordBody) (raised : List AttnClass),
    formed = (if o.framesAt.val = k then s.formAll else s) ∧
    t.capture = formed.capture ∧ t.captureQueue = formed.captureQueue ∧ t.shedding = formed.shedding ∧
    formed.builder = s.builder.offers closures ∧
    (s.capture = none ∨ formed.capture.isSome = true → closures = []) ∧
    (∀ c, s.capture = some c → formed.capture = none → ∃ r : ClosureRecord, closures = [.closure r] ∧
      r.tag = c.tag ∧ r.point = c.point ∧ r.triggerEpoch = c.triggerEpoch ∧ r.preCount = c.preCount ∧
      (r.reason = .complete ∨ r.reason = .truncatedShed)) ∧
    replies = (if o.timeoutsAt.val = k then (orderOf o.moduleOrder).filterMap s.overdueReply else []) ∧
    t.builder = s.builder.offers (if o.timeoutsFirst then replies ++ closures else closures ++ replies) ∧
    t.attention = (raised.foldl State.raise s).attention ∧
    (∀ j, j ∈ raised ↔ (j = .replyReady ∧ replies ≠ []) ∨ (j = .captureDone ∧ closures ≠ []) ∨
      (j = .queueHigh ∧ s.builder.queue.length < 64 ∧ 64 ≤ t.builder.queue.length))
  rest : t = { s with
    points := t.points, channels := t.channels, modules := t.modules, strobe := t.strobe, dueNow := t.dueNow
    capture := t.capture, captureQueue := t.captureQueue, shedding := t.shedding
    builder := t.builder, attention := t.attention }

/-- The points take the set one after another, each whole (log entry 4): point `p` in state `u p`, which its delivery
makes `d p`. What else the expiry does stands between two turns, or before or after all (log entries 3, 37). -/
def TakesInTurn (o : Interleaving) (u d : Point → State) : Nat → List Point → State → State → Prop
  | k, [], s, t => AsideAt o k s t
  | k, p :: later, s, t => AsideAt o k s (u p) ∧ TakesInTurn o u d (k + 1) later (d p) t

/-! ### Control frames and their rows (R148 to R150) -/

/-- The row that a TABLE-WRITE of a table code stands under (R152). -/
def writeRow (tag table index : Byte) (entry : List Byte) (order : Fin 24) : Instr :=
  if table = tableSetup then .tableWriteSetup tag index entry order
  else if table = tableChannelMap then .tableWriteChannelMap tag index entry
  else if table = tableLimits then .tableWriteLimits tag index entry
  else if table = tableRouting then .tableWriteRouting tag index entry
  else .tableWriteReadOnly tag table index

/-- The row of the command table that a taken control frame stands under. -/
def rowOf (f : ControlFrame) (order : Fin 24) : Instr :=
  match f with
  | .nop tag => .nop tag
  | .ack tag classes => .ack tag classes
  | .tableWrite tag table index entry => writeRow tag table index entry order
  | .tableRead tag table first count => .tableRead tag table first count
  | .start tag => .start tag
  | .stop tag => .stop tag
  | .timeSet tag epoch => .timeSet tag epoch
  | .trigger tag point => .trigger tag point
  | .closeAssessment tag point => .closeAssessment tag point
  | .moduleCommand tag module word => .moduleCommand tag module word
  | .unknown kind tag => .unknownKind kind tag
  | .badLength kind tag => .unknownKind kind tag

/-- The device as INIT completes, before its held frame is executed: tables cleared, STOPPED, slot empty. -/
def State.initDone (s : State) : State :=
  { s.clearTables with port := { s.port with held := none } }

end Sys2Proof.Machine
end

