-- ==== Sys2Proof/Certificates/Slice0/Obligations.lean ====
section
/-! DEFINITION. The statements about the model. Most say of a command which next state it answers, with what it
leaves unchanged: `t = { s with f := t.f }` says that every field but `f` is as in `s`. `b.offers bodies` is the
Record Builder after these records were offered one after another; `RecordOffered` says what one offer does. -/

open Sys2Proof Sys2Proof.Machine

/-! ### The step and the reset -/

/-- Spec 95: a step takes the command at the front of the queue and executes it on the state with the queue's rest.
An empty queue idles (log entry 6, DESIGN CHOICE). -/
def Obligations.StepRunsFrontCommand : Prop :=
  (∀ (c : Instr) (rest : List Instr) (s : State),
    step { s with pending := c :: rest } = exec c { s with pending := rest }) ∧
  ∀ s : State, s.pending = [] → step s = .next s

/-- Every command in every state answers a next state, and leaves the queue of waiting commands alone. -/
def Obligations.EveryCommandCompletes : Prop :=
  ∀ (c : Instr) (s : State), ∃ t, exec c s = .next t ∧ t.pending = s.pending

/-- R160, R154: `State.reset` is the device after a power-on reset, with the tables that INIT clears standing cleared
(log entry 9, PRESUMED) and no command waiting. That its cause is POWER_ON is log entry 26 (DESIGN CHOICE), and that
the clipped marks of the set before stand clear in it is log entry 12 (DESIGN CHOICE). -/
def Obligations.PowerOnState : Prop :=
  AfterReset .powerOn State.reset ∧
  (∀ c, (State.reset.channel c).entry = .cleared) ∧
  (∀ p, (State.reset.point p).limits = .cleared ∧ (State.reset.point p).thresholds = .zero) ∧
  State.reset.routing = .cleared ∧ State.reset.pending = []

/-- R160, R154, R130, R2, R178: a reset of either cause, in any state. CHANNEL MAP, LIMITS and ROUTING keep their
content until INIT clears them (log entry 9, PRESUMED). That it clears the clipped marks of the set before is log
entry 12 (DESIGN CHOICE). -/
def Obligations.ResetCommandRestoresDevice : Prop :=
  ∀ (cause : ResetCause) (s : State), ∃ t, exec (.reset cause) s = .next t ∧
    AfterReset cause t ∧
    (∀ c, (t.channel c).entry = (s.channel c).entry) ∧
    (∀ p, (t.point p).limits = (s.point p).limits ∧ (t.point p).thresholds = (s.point p).thresholds) ∧
    t.routing = s.routing ∧ t.pending = s.pending

/-- R161, R67: INIT completes with nothing held and the supply good: the three tables are cleared, the derived
thresholds with them, and the device is STOPPED. Outside INIT the row has no effect (log entry 1). -/
def Obligations.InitClearsTables : Prop :=
  (∀ s : State, s.control.device = .init → s.port.held = none → s.control.level = .good →
    ∃ t, exec .initComplete s = .next t ∧
      (∀ c, t.channel c = { s.channel c with entry := .cleared }) ∧
      (∀ p, t.point p = { s.point p with limits := .cleared, thresholds := .zero }) ∧
      (∀ k, t.routing.route k = .none) ∧
      (∀ l, t.routing.config l = { mode := .levelHigh, width := .w1 }) ∧
      t = { s with
        channels := t.channels, points := t.points, routing := t.routing,
        control := { s.control with device := .stopped } }) ∧
  ∀ s : State, s.control.device ≠ .init → exec .initComplete s = .next s

/-- R150, R161: at the completion of INIT the held frame is executed as its own row would be in STOPPED with the
tables cleared, and HOLDUP is entered after it when the debounced level is failing. -/
def Obligations.InitRunsHeldFrame : Prop :=
  (∀ (s : State) (f : ControlFrame) (bytes : List Byte),
    s.control.device = .init → s.port.held = some f → judgeControlFrame bytes = some f →
    ∃ t, exec (rowOf f 0) s.initDone = .next t ∧ exec .initComplete s = exec .supplyFailure t) ∧
  ∀ s : State, s.control.device = .init → s.port.held = none →
    exec .initComplete s = exec .supplyFailure s.initDone

/-! ### The strobe timer -/

/-- R1, R2, R4, R30, R167: what every expiry of the strobe timer does, whatever else happens at it. Both due markings of
the new count value are taken in it (log entry 34, DEDUCED): the second disjunct of a due mark is the period, the third
the whole second. That the strobe goes by the device state after the expiry, so that of the tick of a return from STANDBY
is not transmitted, is the model's choice (log entry 29, DESIGN CHOICE), and so is that the strobe of the tick at which
the hold-up timer expires is (log entry 36, DESIGN CHOICE). -/
def Obligations.ExpiryBeginsTick : Prop :=
  ∀ (s : State) (sfi : SupplyLevel) (o : Interleaving), ∃ t, exec (.strobeTimerExpiry sfi o) s = .next t ∧
    t.count = s.count + 1 ∧
    t.timerNominal = s.setup.nominal ∧
    t.strobe.tag = t.count.setWidth 8 ∧
    t.strobe.transmitted = (t.control.device != .standby) ∧
    (t.control.device = .standby → t.strobe.field = .none) ∧
    (∀ m, (t.module m).taken = false) ∧
    t.dueNow = { period := false, second := false } ∧
    (∀ c, (t.channel c).entry = (s.channel c).entry ∧ (t.channel c).lead = (s.channel c).lead ∧
      ((t.channel c).due = true ↔ (s.channel c).due = true ∨
        (t.measuring = true ∧ t.checkedMeasured (t.channel c).entry = true ∧
          t.count.toNat % (t.setup.leadPeriod * t.setup.nominal.rate) = 0) ∨
        (t.measuring = true ∧ t.checkedMeasured (t.channel c).entry = true ∧
          t.count.toNat % t.setup.nominal.rate = 0 ∧
          ((t.channel c).lead = .suspect ∨ (t.channel c).lead = .opened)))) ∧
    (sfi = s.control.level → t.control.level = s.control.level ∧ t.control.runCount = 0) ∧
    (sfi ≠ s.control.level → s.control.runCount + 1 < s.setup.debounce →
      t.control.level = s.control.level ∧ t.control.runCount = s.control.runCount + 1) ∧
    (sfi ≠ s.control.level → s.setup.debounce ≤ s.control.runCount + 1 →
      t.control.level = sfi ∧ t.control.runCount = 0) ∧
    t.control.offset = s.control.offset ∧ t.control.epochUnset = s.control.epochUnset ∧
    t.setup = s.setup ∧ t.routing = s.routing ∧ t.exchange = s.exchange ∧ t.port = s.port ∧ t.pending = s.pending

/-- R6, R13, R15, R19: the deadline of the ending tick for a module, at every expiry that does not first take an
entry to STANDBY that was not commanded (log entry 2): the hold-up timer has not run its length, and a supply failure
still to be taken finds a hold-up limit of at least 1. `bodies` are the records of the whole expiry. That MODULE_LOST
carries the epoch of the new count is the model's deduction (log entry 7, DEDUCED). A NO_ANSWER reply is that of a
timeout or of the module leaving LOCKED. -/
def Obligations.ExpiryCountsMiss : Prop :=
  ∀ (s : State) (sfi : SupplyLevel) (o : Interleaving) (m : Module),
    StaysPowered s →
    ∃ t, ∃ bodies : List RecordBody, exec (.strobeTimerExpiry sfi o) s = .next t ∧
      t.builder = s.builder.offers bodies ∧
      (s.setup.enables m = true → (s.module m).taken = false →
        ((s.module m).state = .seeking ∨ (s.module m).state = .lost →
          (t.module m).state = (s.module m).state ∧ (t.module m).goodRun = 0 ∧
          (t.module m).missCount = (s.module m).missCount) ∧
        ((s.module m).state = .locked → (s.module m).missCount + 1 < s.setup.missLimit →
          (t.module m).state = .locked ∧ (t.module m).goodRun = 0 ∧
          (t.module m).missCount = (s.module m).missCount + 1) ∧
        ((s.module m).state = .locked → (s.module m).missCount + 1 = s.setup.missLimit →
          (t.module m).state = .lost ∧ (t.module m).goodRun = 0 ∧
          (t.module m).missCount = (s.module m).missCount + 1 ∧ (t.module m).command = none ∧
          .status (.moduleLost m) (s.epochOf (s.count + 1)) s.control.epochUnset ∈ bodies ∧
          t.attention.isPending .moduleState = true ∧
          ∀ k, (s.module m).command = some k →
            .reply { kind := 0x09, tag := k.tag, result := .noAnswer
                     tail := .moduleCommand (BitVec.ofNat 8 m.val) none } ∈ bodies ∧
            t.attention.isPending .replyReady = true)) ∧
      (s.setup.enables m = false ∨ (s.module m).taken = true →
        (t.module m).state = (s.module m).state ∧ (t.module m).goodRun = (s.module m).goodRun ∧
        (t.module m).missCount = (s.module m).missCount) ∧
      (t.module m).checkFailures = (s.module m).checkFailures ∧
      (t.module m).staleFrames = (s.module m).staleFrames ∧
      (t.module m).last = (s.module m).last

/-- R8, R10, R23, R27, R28, R115, R159: where the set that closes goes. In RUNNING and in HOLDUP entered from RUNNING
the History Buffer stores it, and every measured point takes it once, in a state `u p` in which the point and its channels
are as before the expiry but for the reference, the check and the due marks; with a change notice exactly when the
reference chosen for it is another. The whole expiry is spelled as a chain of states, so that the records, the classes
and the engine of each delivery stand in the answered state: `w` after a supply change still to be taken, `v` before the
first turn (`BringsTurns`), `u p` and `d p` before and after the turn of point `p` (`TakesInTurn`, `AsideAt`), `x` after
the last. In INIT, STOPPED, STANDBY and HOLDUP entered from STOPPED the set is dropped, no point takes it, and no record of
a delivery is made. A supply failure or return that still has to be taken is taken first (log entry 2), so a hold-up limit
of 0, a hold-up timer that has run its length, and a return from STANDBY to RUNNING are left out here. A slot marked
unavailable is stored with code 0 and without a mark (log entry 10). These are the model's choice or deduction, not the
spec's: the set is judged by the device state before the expiry, also where the expiry's own sample brings a
failure or a return, so that of a return from STANDBY is dropped (log entry 29, DESIGN CHOICE); the set that closes as the
hold-up timer expires is stored and delivered before the entry to STANDBY (log entry 36, DESIGN CHOICE); the
set is delivered under the incremented count (log entry 7, DEDUCED); the misses and their records come before every
delivery (log entry 8, DEDUCED); each point takes the set whole (log entry 4), in the order that the command gives, which
also places the timeouts and the frames (log entries 3, 35, DESIGN CHOICE), frames between two turns alone (log entry 37,
DESIGN CHOICE) or after a supply failure of this moment (log entry 29). -/
def Obligations.ExpiryWritesHistory : Prop :=
  (∀ (s : State) (sfi : SupplyLevel) (o : Interleaving),
    (s.control.device = .running ∧ (s.control.level = .good ∨ 1 ≤ s.setup.holdupLimit)) ∨
      (s.control.device = .holdup ∧ s.control.prior = some .running ∧
        (s.control.level = .good ∨ s.control.timerRunning = false ∨
          (s.count - s.control.holdupStart).toNat < s.setup.holdupLimit * 256)) →
    ∃ (t w w' v x : State) (set : SampleSet) (stored : StoredSet) (u d : Point → State),
      exec (.strobeTimerExpiry sfi o) s = .next t ∧
      ClosesWith s set ∧
      t.history.head = some s.count ∧
      t.history.sets = (stored :: s.history.sets).take 2048 ∧
      (∀ (m : Module) (k : Slot),
        ((set[m.val])[k.val].unavailable = false →
          (stored[m.val])[k.val] = { code := (set[m.val])[k.val].code, held := (set[m.val])[k.val].held,
                                     clipped := (set[m.val])[k.val].clipped }) ∧
        ((set[m.val])[k.val].unavailable = true →
          (stored[m.val])[k.val] = { code := 0, held := false, clipped := false })) ∧
      exec .supplyFailure s = .next w' ∧ exec .supplyReturnHoldup w' = .next w ∧
      BringsTurns s w v set ∧
      TakesInTurn o u d 0 (Sys2Proof.orderOf o.pointOrder) v x ∧
      (o.framesAt ≠ 5 → t = x) ∧
      (o.framesAt = 5 → ∃ y, exec .supplyFailure x = .next y ∧ t = y.formAll) ∧
      ∀ p : Point,
        ((s.point p).measured = true → ∃ changed : Bool, d p = (u p).deliver s.count set p changed ∧
          (changed = true ↔ s.chooseReference p set ≠ (s.point p).reference) ∧
          (u p).point p =
            { s.point p with reference := s.chooseReference p set, check := ((u p).point p).check } ∧
          (∀ c, ((u p).channel c).entry = (s.channel c).entry) ∧
          (∀ c, (s.channel c).entry.point = p.val →
            (u p).channel c = { s.channel c with due := ((u p).channel c).due }) ∧
          (u p).count = s.count + 1 ∧ (u p).setup = s.setup ∧ (u p).history = t.history ∧ (u p).measuring = true ∧
          (u p).control.offset = s.control.offset ∧ (u p).control.epochUnset = s.control.epochUnset ∧
          t.point p = { (d p).point p with check := (t.point p).check } ∧
          ∀ c, (s.channel c).entry.point = p.val →
            t.channel c = { (d p).channel c with due := (t.channel c).due }) ∧
        ((s.point p).measured = false → d p = u p ∧
          t.point p = { s.point p with reference := s.chooseReference p set, check := (t.point p).check } ∧
          ∀ c, (s.channel c).entry.point = p.val → t.channel c = { s.channel c with due := (t.channel c).due })) ∧
  ∀ (s : State) (sfi : SupplyLevel) (o : Interleaving),
    s.control.device = .init ∨
      (s.control.device = .stopped ∧ (s.control.level = .good ∨ 1 ≤ s.setup.holdupLimit)) ∨
      (s.control.device = .standby ∧ (s.control.level = .failing ∨ s.control.prior ≠ some .running ∨
        s.setup.restart = .stayStopped)) ∨
      (s.control.device = .holdup ∧ s.control.prior ≠ some .running ∧
        (s.control.level = .good ∨ s.control.timerRunning = false ∨
          (s.count - s.control.holdupStart).toNat < s.setup.holdupLimit * 256)) →
    ∃ (t : State) (set : SampleSet), exec (.strobeTimerExpiry sfi o) s = .next t ∧
      ClosesWith s set ∧ t.history = s.history ∧ t.channels = s.channels ∧ t.eventTag = s.eventTag ∧
      (∃ bodies : List RecordBody, t.builder = s.builder.offers bodies ∧
        ∀ b ∈ bodies, (∀ r, b ≠ .event r) ∧ (∀ r, b ≠ .interval r) ∧ (∀ r, b ≠ .block r) ∧
          (s.control.device ≠ .standby → ∀ r, b ≠ .summary r)) ∧
      ∀ p : Point,
        t.point p = { s.point p with
          reference := if s.control.device = .init then (s.point p).reference else s.chooseReference p set
          check := (t.point p).check, assessment := (t.point p).assessment } ∧
        (s.control.device ≠ .standby → (t.point p).assessment = (s.point p).assessment)

/-- R2, R3, R4: the strobe frame that is issued for the current tick, and what its command field does to the checks
and the waiting commands; its bytes (section 12.2; `beBytes`: `RecordOffered`, `sealFrame`: `ExchangeBegins`). Every
expiry of the strobe timer that does not first take an entry to STANDBY that was not commanded (log entry 2) issues it
for the new count: `u` is the state in which it does, at the place among the points that the order gives (R32, log
entry 3, DESIGN CHOICE). By then the deadline has voided the checks of the tick that ends and ended the command of a
module that it made LOST: that the misses come before the command field is the model's deduction, since R2, R13 and R19
put both at one moment and order neither (log entry 8, DEDUCED). By then too the points before that place have taken the
set that closes; the points after it take it afterwards (`CheckTurns`). A command can end afterwards by its timeout alone (R19). -/
def Obligations.StrobeFieldArbitrated : Prop :=
  (∀ s : State,
    (s.control.device = .standby →
      s.issueStrobe = { s with
        strobe := { tag := s.count.setWidth 8, field := .none, transmitted := false } }) ∧
    (s.control.device ≠ .standby → ∀ (p : Point) (k : CheckInFlight),
      (s.point p).check = some k → k.sent = false → k.target = s.count →
      (∀ q, q < p → (s.point q).aims s.count = false) →
      (s.issueStrobe.point p) = { s.point p with check := some { k with sent := true } } ∧
      (∀ q, q ≠ p → (s.point q).aims s.count = true →
        s.issueStrobe.point q =
          { s.point q with check := (s.point q).check.map (fun x => { x with target := s.count + 1 }) }) ∧
      (∀ q, q ≠ p → (s.point q).aims s.count = false → s.issueStrobe.point q = s.point q) ∧
      s.issueStrobe = { s with
        points := s.issueStrobe.points
        strobe := { tag := s.count.setWidth 8, field := .check k.module k.slot, transmitted := true } }) ∧
    (s.control.device ≠ .standby → (∀ p, (s.point p).aims s.count = false) → ∀ (m : Module) (k : ModuleCommand),
      (s.module m).command = some k → k.sent = none → (∀ n, n < m → (s.module n).waiting = false) →
      s.issueStrobe.module m =
        { s.module m with
          echo := (s.module m).echo + 1
          command := some { k with sent := some { echo := (s.module m).echo, tick := s.count } } } ∧
      (∀ n, n ≠ m → s.issueStrobe.module n = s.module n) ∧
      s.issueStrobe = { s with
        modules := s.issueStrobe.modules
        strobe := { tag := s.count.setWidth 8, field := .forward m (s.module m).echo k.word, transmitted := true } }) ∧
    (s.control.device ≠ .standby → (∀ p, (s.point p).aims s.count = false) → (∀ m, (s.module m).waiting = false) →
      s.issueStrobe = { s with
        strobe := { tag := s.count.setWidth 8, field := .none, transmitted := true } })) ∧
  (∀ (s : State) (p : Point) (m : Module) (t : Tick),
    ((s.point p).aims t = true ↔ ∃ k, (s.point p).check = some k ∧ k.sent = false ∧ k.target = t) ∧
    ((s.module m).waiting = true ↔ ∃ k, (s.module m).command = some k ∧ k.sent = none)) ∧
  (∀ (tag : Byte) (transmitted : Bool),
    StrobeFrame.bytes { tag := tag, field := .none, transmitted := transmitted } =
      sealFrame [tag, 0, 0, 0, 0, 0, 0, 0] ∧
    (∀ m slot : Nat, StrobeFrame.bytes { tag := tag, field := .check m slot, transmitted := transmitted } =
      sealFrame [tag, 1, BitVec.ofNat 8 m, BitVec.ofNat 8 slot, 0, 0, 0, 0]) ∧
    ∀ (m : Module) (echo : Byte) (word : BitVec 32),
      StrobeFrame.bytes { tag := tag, field := .forward m echo word, transmitted := transmitted } =
        sealFrame ([tag, 2, BitVec.ofNat 8 m.val, echo] ++ beBytes 4 word.toNat)) ∧
  ∀ (s : State) (sfi : SupplyLevel) (o : Interleaving), StaysPowered s →
    ∃ (t u : State) (earlier later : List Point) (lost : Module → Prop),
      exec (.strobeTimerExpiry sfi o) s = .next t ∧
      earlier = (Sys2Proof.orderOf o.pointOrder).take o.fieldAt.val ∧
      later = (Sys2Proof.orderOf o.pointOrder).drop o.fieldAt.val ∧
      u.count = s.count + 1 ∧ (u.control.device = .standby ↔ t.control.device = .standby) ∧
      t.strobe = u.issueStrobe.strobe ∧
      (∀ m, (u.module m).echo = (s.module m).echo ∧ (t.module m).echo = (u.issueStrobe.module m).echo) ∧
      (∀ m, lost m ↔ s.setup.enables m = true ∧ (s.module m).taken = false ∧ (s.module m).state = .locked ∧
        s.setup.missLimit ≤ (s.module m).missCount + 1) ∧
      (∀ m, (lost m → (u.module m).command = none) ∧
        (¬lost m → (s.module m).waiting = true → (u.module m).command = (s.module m).command) ∧
        ((u.module m).waiting = true → (u.module m).command = (s.module m).command)) ∧
      (∀ m, (t.module m).command = (u.issueStrobe.module m).command ∨
        ((t.module m).command = none ∧ ∃ k e, (u.module m).command = some k ∧ k.sent = some e ∧
          64 < (u.count - e.tick).toNat)) ∧
      (∀ p ∈ earlier, CheckTurns s p ((s.point p).check.filter (fun k => !k.sent)) (u.point p) ∧
        (t.point p).check = (u.issueStrobe.point p).check) ∧
      ∀ p ∈ later, (u.point p).check = (s.point p).check.filter (fun k => !k.sent) ∧
        CheckTurns s p (u.issueStrobe.point p).check (t.point p)

/-! ### What falls due in a tick -/

/-- R30: the two due markings. A row whose moment it is not, or whose marking is taken already, has no effect
(log entry 1); in a run the expiry has taken both (log entry 34, DEDUCED). R31, R3: the check that a due channel gets at a positive crossing found in set `k`: the lowest due
channel whose module is LOCKED, aimed at tick `k` plus its check delay but no earlier than `k + 2`; a half-window
that closes leads to a new check in no other way. -/
def Obligations.DueMarksTaken : Prop :=
  (∀ s : State,
    (s.dueNow.period = true → ∃ t, exec .leadCheckPeriodDue s = .next t ∧
      (∀ c, t.channel c = { s.channel c with
        due := (s.channel c).due || (s.measuring && s.checkedMeasured (s.channel c).entry) }) ∧
      t = { s with channels := t.channels, dueNow := { s.dueNow with period := false } }) ∧
    (s.dueNow.period = false → exec .leadCheckPeriodDue s = .next s) ∧
    (s.dueNow.second = true → ∃ t, exec .wholeSecondDue s = .next t ∧
      (∀ c, t.channel c = { s.channel c with
        due := (s.channel c).due || (s.measuring && s.checkedMeasured (s.channel c).entry &&
          ((s.channel c).lead == .suspect || (s.channel c).lead == .opened)) }) ∧
      t = { s with channels := t.channels, dueNow := { s.dueNow with second := false } }) ∧
    (s.dueNow.second = false → exec .wholeSecondDue s = .next s)) ∧
  (∀ (s : State) (p : Point) (k : Tick) (eligible : Channel → Prop),
    (∀ c, eligible c ↔ (s.channel c).entry.enabled = true ∧ (s.channel c).entry.point = p.val ∧
      (s.channel c).due = true ∧ ∃ m : Module, (s.channel c).entry.module = m.val ∧ (s.module m).state = .locked) →
    (∀ c, s.measuring = true → (s.point p).check = none → (s.point p).low = .quiet → eligible c →
      (∀ d, d < c → ¬eligible d) →
      s.scheduleCheck p k = s.modPoint p (fun pt => { pt with
        check := some
          { channel := c, module := (s.channel c).entry.module, slot := (s.channel c).entry.slot,
            target := k + BitVec.ofNat 48 (max 2 (s.channel c).entry.delay), sent := false } })) ∧
    (s.measuring = false ∨ (s.point p).check ≠ none ∨ (s.point p).low ≠ .quiet ∨ (∀ c, ¬eligible c) →
      s.scheduleCheck p k = s)) ∧
  ∀ (s : State) (p : Point) (t : Tick) (k : Closing) (x : CheckInFlight),
    ((s.closeHalf p t k).point p).check = some x →
    (s.point p).check = some x ∨
      (k.crossing = some .positive ∧ x.sent = false ∧ ((s.closeHalf p t k).point p).low = .quiet ∧
        (s.channel x.channel).due = true ∧ (s.channel x.channel).entry.point = p.val ∧
        x.target = t + BitVec.ofNat 48 (max 2 (s.channel x.channel).entry.delay))

/-- R19, timeout: a command sent at tick s ends NO_ANSWER when the count has passed s + 64; before that, and without
a sent command, the row has no effect (log entry 1). -/
def Obligations.ModuleCommandTimesOut : Prop :=
  ∀ (s : State) (m : Module),
    (∀ (k : ModuleCommand) (e : SentCommand), (s.module m).command = some k → k.sent = some e →
      64 < (s.count - e.tick).toNat →
      exec (.moduleCommandTimeout m) s =
        .next ((s.modModule m (fun r => { r with command := none })).offerReply 0x09 k.tag .noAnswer
          (.moduleCommand (BitVec.ofNat 8 m.val) none))) ∧
    (∀ (k : ModuleCommand) (e : SentCommand), (s.module m).command = some k → k.sent = some e →
      (s.count - e.tick).toNat ≤ 64 → exec (.moduleCommandTimeout m) s = .next s) ∧
    (∀ k : ModuleCommand, (s.module m).command = some k → k.sent = none →
      exec (.moduleCommandTimeout m) s = .next s) ∧
    ((s.module m).command = none → exec (.moduleCommandTimeout m) s = .next s)

/-! ### Sample frames -/

/-- R5: the four ways in which a sample frame of 30 bytes is not taken. -/
def Obligations.SampleFrameDiscarded : Prop :=
  ∀ (s : State) (bytes : List Byte) (leadFirst : Bool), bytes.length = 30 →
    (4 ≤ (byteAt bytes 0).toNat → exec (.sampleFrame bytes leadFirst) s = .next s) ∧
    ∀ m : Module, (byteAt bytes 0).toNat = m.val →
      (s.setup.enables m = false → exec (.sampleFrame bytes leadFirst) s = .next s) ∧
      (s.setup.enables m = true → intact bytes = false →
        exec (.sampleFrame bytes leadFirst) s =
          .next (s.modModule m (fun r => { r with checkFailures := min 65535 (r.checkFailures + 1) }))) ∧
      (s.setup.enables m = true → intact bytes = true → byteAt bytes 1 ≠ s.count.setWidth 8 →
        exec (.sampleFrame bytes leadFirst) s =
          .next (s.modModule m (fun r => { r with staleFrames := min 65535 (r.staleFrames + 1) }))) ∧
      (s.setup.enables m = true → intact bytes = true → byteAt bytes 1 = s.count.setWidth 8 →
        (s.module m).taken = true → exec (.sampleFrame bytes leadFirst) s = .next s)

/-- R12, with R8 and R9 for the slots: what a good frame does to its module, whatever check or reply it answers.
`bodies` are the records it makes, in order. The code of a slot of a module that is not LOCKED follows the reading of
log entry 10 (DEDUCED). -/
def Obligations.GoodFrameTaken : Prop :=
  ∀ (s : State) (bytes : List Byte) (leadFirst : Bool) (m : Module),
    bytes.length = 30 → (byteAt bytes 0).toNat = m.val → s.setup.enables m = true → intact bytes = true →
    byteAt bytes 1 = s.count.setWidth 8 → (s.module m).taken = false →
    ∃ t, ∃ bodies : List RecordBody, exec (.sampleFrame bytes leadFirst) s = .next t ∧
      t.builder = s.builder.offers bodies ∧
      (t.module m).taken = true ∧
      ((s.module m).state = .locked →
        (t.module m).state = .locked ∧ (t.module m).goodRun = min 255 ((s.module m).goodRun + 1) ∧
        (t.module m).missCount = 0) ∧
      ((s.module m).state = .seeking ∨ (s.module m).state = .lost → (s.module m).goodRun + 1 < 4 →
        (t.module m).state = (s.module m).state ∧ (t.module m).goodRun = (s.module m).goodRun + 1 ∧
        (t.module m).missCount = (s.module m).missCount) ∧
      ((s.module m).state = .seeking ∨ (s.module m).state = .lost → (s.module m).goodRun + 1 = 4 →
        (t.module m).state = .locked ∧ (t.module m).goodRun = 4 ∧ (t.module m).missCount = 0 ∧
        bodies.head? = some (.status (.moduleLocked m) s.epochNow s.control.epochUnset) ∧
        t.attention.isPending .moduleState = true) ∧
      (∀ k : Slot, (parseSampleFrame bytes).marks k = false →
        (t.module m).slots[k.val] =
          { code := (parseSampleFrame bytes).samples[k.val], held := false,
            clipped := (parseSampleFrame bytes).overrange.getLsbD k.val,
            unavailable := (s.module m).state != .locked } ∧
        (t.module m).last[k.val] = (parseSampleFrame bytes).samples[k.val]) ∧
      (∀ k : Slot, (parseSampleFrame bytes).marks k = true →
        (t.module m).slots[k.val] =
          (if (s.module m).state = .locked then
            { code := (s.module m).last[k.val], held := true, clipped := (s.module m).clippedBefore[k.val],
              unavailable := false }
          else { code := 0, held := false, clipped := false, unavailable := true }) ∧
        (t.module m).last[k.val] = (s.module m).last[k.val]) ∧
      (t.module m).echo = (s.module m).echo ∧ (t.module m).checkFailures = (s.module m).checkFailures ∧
      (t.module m).staleFrames = (s.module m).staleFrames ∧
      (∀ n, n ≠ m → t.module n = s.module n) ∧
      t = { s with
        modules := t.modules, channels := t.channels, points := t.points, builder := t.builder,
        attention := t.attention }

/-- R18: a good frame of a LOCKED module. A reply ends the sent command whose echo tag it carries, up to 64
ticks after its send tick; any other reply leaves the command as it is. Where the same frame answers a check (R34, R35)
the lead record, if there is one, comes before or after the reply record as the command's operand gives (log entry 3,
DESIGN CHOICE). -/
def Obligations.ReplyEndsCommand : Prop :=
  ∀ (s : State) (bytes : List Byte) (leadFirst : Bool) (m : Module),
    bytes.length = 30 → (byteAt bytes 0).toNat = m.val → s.setup.enables m = true → intact bytes = true →
    byteAt bytes 1 = s.count.setWidth 8 → (s.module m).taken = false → (s.module m).state = .locked →
    ∃ t, ∃ leads replies : List RecordBody, exec (.sampleFrame bytes leadFirst) s = .next t ∧
      t.builder = s.builder.offers (if leadFirst then leads ++ replies else replies ++ leads) ∧
      leads.length ≤ 1 ∧ (s.checkedBy m = none → leads = []) ∧
      (∀ b ∈ leads, ∃ c p ph, b = .status (.leadOpen c p ph) s.epochNow s.control.epochUnset ∨
        b = .status (.leadRestored c p ph) s.epochNow s.control.epochUnset) ∧
      (∀ (k : ModuleCommand) (e : SentCommand), (s.module m).command = some k → k.sent = some e →
        (parseSampleFrame bytes).replyPresent = true → (parseSampleFrame bytes).echo = e.echo →
        (s.count - e.tick).toNat ≤ 64 →
        (t.module m).command = none ∧
        replies = [.reply
          { kind := 0x09, tag := k.tag, result := .done
            tail := .moduleCommand (BitVec.ofNat 8 m.val) (some (parseSampleFrame bytes).reply) }] ∧
        t.attention.isPending .replyReady = true) ∧
      ((parseSampleFrame bytes).replyPresent = false ∨ (s.module m).command = none ∨
          (∃ k, (s.module m).command = some k ∧ k.sent = none) ∨
          (∃ k e, (s.module m).command = some k ∧ k.sent = some e ∧
            ((parseSampleFrame bytes).echo ≠ e.echo ∨ 64 < (s.count - e.tick).toNat)) →
        (t.module m).command = (s.module m).command ∧ replies = [] ∧
        t.attention.isPending .replyReady = s.attention.isPending .replyReady ∧
        (s.checkedBy m = none → t.attention = s.attention))

/-- R34, R35, with R33 for the void check: a good frame of a LOCKED module to which the strobe of this tick carried a
check. The lead record and a reply record of the same frame are offered in the order the command gives: that the
order is an operand is the model's choice (log entry 3, DESIGN CHOICE). R7, R33: a good frame of a module that was not
LOCKED voids the check, and so does the deadline of the send tick without a good frame: a check still sent then ends,
and the only sent check after an expiry is that of the new strobe. A void check leaves the channel's lead state, and
its due mark. -/
def Obligations.CheckVerdictMovesLead : Prop :=
  (∀ (s : State) (bytes : List Byte) (leadFirst : Bool) (m : Module) (p : Point) (k : CheckInFlight) (slot : Slot),
    bytes.length = 30 → (byteAt bytes 0).toNat = m.val → s.setup.enables m = true → intact bytes = true →
    byteAt bytes 1 = s.count.setWidth 8 → (s.module m).taken = false → (s.module m).state = .locked →
    s.checkedBy m = some p → (s.point p).check = some k → k.slot = slot.val →
    ∃ t, ∃ leads replies : List RecordBody, exec (.sampleFrame bytes leadFirst) s = .next t ∧
      t.builder = s.builder.offers (if leadFirst then leads ++ replies else replies ++ leads) ∧
      replies.length ≤ 1 ∧ ((parseSampleFrame bytes).replyPresent = false → replies = []) ∧
      t.point p = { s.point p with check := none } ∧ (∀ q, q ≠ p → t.point q = s.point q) ∧
      (∀ d, d ≠ k.channel → t.channel d = s.channel d) ∧
      ((parseSampleFrame bytes).markerValid = true ∧ (parseSampleFrame bytes).markerSlot = slot.val →
        ∃ suspect : Bool,
          suspect = decide (((parseSampleFrame bytes).samples[slot.val].toInt -
            (s.channel k.channel).entry.level.toInt).natAbs ≤ (s.channel k.channel).entry.band) ∧
          t.channel k.channel = { s.channel k.channel with lead := (t.channel k.channel).lead, due := false } ∧
          (suspect = true → (s.channel k.channel).lead = .notChecked ∨ (s.channel k.channel).lead = .connected →
            (t.channel k.channel).lead = .suspect ∧ leads = []) ∧
          (suspect = true → (s.channel k.channel).lead = .suspect →
            (t.channel k.channel).lead = .opened ∧
            leads = [.status (.leadOpen k.channel (s.channel k.channel).entry.point (s.channel k.channel).entry.phase)
              s.epochNow s.control.epochUnset] ∧
            t.attention.isPending .leadState = true) ∧
          (suspect = true → (s.channel k.channel).lead = .opened →
            (t.channel k.channel).lead = .opened ∧ leads = []) ∧
          (suspect = false → (s.channel k.channel).lead = .opened →
            (t.channel k.channel).lead = .connected ∧
            leads = [.status (.leadRestored k.channel (s.channel k.channel).entry.point
              (s.channel k.channel).entry.phase) s.epochNow s.control.epochUnset] ∧
            t.attention.isPending .leadState = true) ∧
          (suspect = false → (s.channel k.channel).lead ≠ .opened →
            (t.channel k.channel).lead = .connected ∧ leads = []) ∧
          (leads = [] → t.attention.isPending .leadState = s.attention.isPending .leadState)) ∧
      ((parseSampleFrame bytes).markerValid = false ∨ (parseSampleFrame bytes).markerSlot ≠ slot.val →
        t.channel k.channel = s.channel k.channel ∧ leads = [] ∧
        t.attention.isPending .leadState = s.attention.isPending .leadState)) ∧
  (∀ (s : State) (bytes : List Byte) (leadFirst : Bool) (m : Module) (p : Point),
    bytes.length = 30 → (byteAt bytes 0).toNat = m.val → s.setup.enables m = true → intact bytes = true →
    byteAt bytes 1 = s.count.setWidth 8 → (s.module m).taken = false → (s.module m).state ≠ .locked →
    s.checkedBy m = some p →
    ∃ t, ∃ bodies : List RecordBody, exec (.sampleFrame bytes leadFirst) s = .next t ∧
      t.point p = { s.point p with check := none } ∧ (∀ q, q ≠ p → t.point q = s.point q) ∧
      t.channels = s.channels ∧ t.builder = s.builder.offers bodies ∧
      (∀ b ∈ bodies, (∃ e u, b = .status (.moduleLocked m) e u) ∨ ∃ r, b = .reply r) ∧
      t.attention.isPending .leadState = s.attention.isPending .leadState) ∧
  ∀ (s : State) (sfi : SupplyLevel) (o : Interleaving),
    ∃ t, exec (.strobeTimerExpiry sfi o) s = .next t ∧
      (∀ p x, (t.point p).check = some x → x.sent = true → x.target = t.count ∧
        t.strobe.field = .check x.module x.slot) ∧
      ∀ p k, (s.point p).check = some k → k.sent = true →
        (t.channel k.channel).lead = (s.channel k.channel).lead ∧
        ((s.channel k.channel).due = true → (t.channel k.channel).due = true)

/-! ### Waveform capture -/

/-- R121, R122, R123: a frame formed while the capture goes on: it is not the last one, and it leaves the queue off
the high watermark. Without a ready capture the row has no effect (log entry 1). R121: an occasion (`formAll`) does
what the row does, one frame after another, until no frame waits. R115: a stretch of the buffer is the
sets of its ticks, in tick order; the sets are held newest first, so the set of tick `head - d` is at place `d`.
R122, section 12.5: the body of a capture frame, over which the CRC runs (`beBytes`, `flagByte` and `crc16`:
`RecordOffered`), and the 20 bytes of its fixed part. -/
def Obligations.CaptureFrameFormed : Prop :=
  (∀ s : State,
    (∀ c : RunningCapture, s.capture = some c → s.frameReady c = true → 64 < c.remaining →
      s.shedding = .shed ∨ s.captureQueue.length + 1 ≠ s.setup.highMark →
      ∃ t, ∃ f : CaptureFrame, exec .captureFrameForm s = .next t ∧
        f.tag = c.tag ∧ f.point = c.point ∧ f.index = c.frameIndex ∧ f.channels = c.channels ∧
        f.firstTick = c.readPosition ∧
        f.codes = (s.history.stretch c.readPosition 64).map (fun set =>
          c.channels.map (fun ch => (storedSample set (s.channel ch).entry).code)) ∧
        (f.heldPresent = true ↔ ∃ set ∈ s.history.stretch c.readPosition 64, ∃ ch ∈ c.channels,
          (storedSample set (s.channel ch).entry).held = true) ∧
        (f.clippedPresent = true ↔ ∃ set ∈ s.history.stretch c.readPosition 64, ∃ ch ∈ c.channels,
          (storedSample set (s.channel ch).entry).clipped = true) ∧
        t = { s with
          captureQueue := s.captureQueue ++ [f]
          capture := some { c with
            readPosition := c.readPosition + 64, delivered := c.delivered + 64,
            frameIndex := c.frameIndex + 1, crc := crc16 c.crc f.bytes } }) ∧
    (∀ c : RunningCapture, s.capture = some c → s.frameReady c = false →
      exec .captureFrameForm s = .next s) ∧
    (s.capture = none → exec .captureFrameForm s = .next s)) ∧
  (∀ s : State, FramesFormed s.formAll ∧ (FramesFormed s → s.formAll = s) ∧
    ∀ t, exec .captureFrameForm s = .next t → s.formAll = t.formAll) ∧
  (∀ f : CaptureFrame,
    f.bytes = beBytes 2 f.tag.toNat ++ beBytes 1 f.point.val ++ beBytes 2 f.index ++ beBytes 1 f.codes.length ++
      beBytes 1 f.channels.length ++ (f.channels.map (fun c => BitVec.ofNat 8 c.val) ++
        List.replicate (6 - f.channels.length) 0xFF) ++ beBytes 6 f.firstTick.toNat ++
      [flagByte [f.heldPresent, f.clippedPresent]] ++
      f.codes.flatMap (fun set => set.flatMap (fun code => beBytes 3 code.toNat)) ∧
    (f.channels.length ≤ 6 → (∀ set ∈ f.codes, set.length = f.channels.length) →
      f.bytes.length = 20 + f.codes.length * f.channels.length * 3)) ∧
  ∀ (h : History) (head first : Tick) (n : Nat), h.head = some head →
    (head - first).toNat < h.sets.length → n ≤ (head - first).toNat + 1 →
    (h.stretch first n).length = n ∧
    ∀ i, i < n → (h.stretch first n)[i]? = h.sets[(head - (first + BitVec.ofNat 48 i)).toNat]?

/-- R124, R125, R127, R140: the frame that ends its capture, COMPLETE with the frame that reaches the planned end,
else TRUNCATED_SHED with the frame that brings the OPEN queue to the high watermark. -/
def Obligations.CaptureEnds : Prop :=
  ∀ (s : State) (c : RunningCapture), s.capture = some c → s.frameReady c = true →
    (c.remaining ≤ 64 ∨ (s.shedding = .opened ∧ s.captureQueue.length + 1 = s.setup.highMark)) →
    ∃ t, ∃ f : CaptureFrame, exec .captureFrameForm s = .next t ∧
      t.captureQueue = s.captureQueue ++ [f] ∧ f.tag = c.tag ∧ f.index = c.frameIndex ∧
      f.codes = (s.history.stretch c.readPosition (min 64 c.remaining)).map (fun set =>
          c.channels.map (fun ch => (storedSample set (s.channel ch).entry).code)) ∧
      t.capture = none ∧
      t.builder = s.builder.offer (.closure
        { tag := c.tag, point := c.point, triggerEpoch := c.triggerEpoch, preCount := c.preCount,
          delivered := c.delivered + min 64 c.remaining,
          reason := if c.remaining ≤ 64 then .complete else .truncatedShed,
          crc := crc16 c.crc f.bytes }) ∧
      t.attention.isPending .captureDone = true ∧
      t.shedding = (if s.shedding = .opened ∧ s.captureQueue.length + 1 = s.setup.highMark then .shed
        else s.shedding) ∧
      t = { s with
        captureQueue := t.captureQueue, capture := none, builder := t.builder, attention := t.attention,
        shedding := t.shedding }

/-! ### Attention lines -/

/-- R176: the expiry of a pulse and of a gap of W ticks, and the level of a line in a pulse mode after it. Before W
ticks have run, and in another pulse state, the rows have no effect (log entry 1). -/
def Obligations.PulseAndGapExpire : Prop :=
  ∀ (s : State) (l : LineId),
    (∀ since, (s.attention.line l).phase = .pulse since →
      (s.routing.config l).width.ticks ≤ (s.count - since).toNat →
      ∃ t, exec (.pulseExpiry l) s = .next t ∧
        t = { s with attention := s.attention.setLine l { s.attention.line l with phase := .gap s.count } } ∧
        ((s.routing.config l).mode.isPulse = true → t.lineActive l = false)) ∧
    (∀ since, (s.attention.line l).phase = .gap since →
      (s.routing.config l).width.ticks ≤ (s.count - since).toNat →
      ∃ t, exec (.gapExpiry l) s = .next t ∧
        ((s.attention.line l).followUp = true →
          t = { s with
            attention := s.attention.setLine l { phase := .pulse s.count, followUp := false } } ∧
          ((s.routing.config l).mode.isPulse = true → t.lineActive l = true)) ∧
        ((s.attention.line l).followUp = false →
          t = { s with attention := s.attention.setLine l { phase := .idle, followUp := false } })) ∧
    ((∀ since, (s.attention.line l).phase = .pulse since →
        (s.count - since).toNat < (s.routing.config l).width.ticks) →
      exec (.pulseExpiry l) s = .next s) ∧
    ((∀ since, (s.attention.line l).phase = .gap since →
        (s.count - since).toNat < (s.routing.config l).width.ticks) →
      exec (.gapExpiry l) s = .next s)

/-- R174, R175, R176: a raised class. A class already pending changes nothing; a new one joins, and requests a pulse
on the line it is routed to when that line is in a pulse mode. R175, R176, R178 and section 11.2: when a line is at its
active level, and the level at which the pin is driven: low until INIT completes, then high exactly when active in
LEVEL_HIGH and PULSE_HIGH, and exactly when inactive in LEVEL_LOW and PULSE_LOW. -/
def Obligations.ClassRaised : Prop :=
  ∀ (s : State) (k : AttnClass),
    (s.attention.isPending k = true → s.raise k = s) ∧
    (s.attention.isPending k = false →
      (∀ j, (s.raise k).attention.isPending j = (s.attention.isPending j || decide (j = k))) ∧
      (∀ l, (s.routing.route k = lineRoute l ∧ (s.routing.config l).mode.isPulse = true →
          ((s.attention.line l).phase = .idle →
            (s.raise k).attention.line l = { s.attention.line l with phase := .pulse s.count }) ∧
          ((s.attention.line l).phase ≠ .idle →
            (s.raise k).attention.line l = { s.attention.line l with followUp := true })) ∧
        (s.routing.route k ≠ lineRoute l ∨ (s.routing.config l).mode.isPulse = false →
          (s.raise k).attention.line l = s.attention.line l)) ∧
      s.raise k = { s with attention := (s.raise k).attention }) ∧
    ∀ l, (((s.routing.config l).mode = .levelHigh ∨ (s.routing.config l).mode = .levelLow) →
        (s.lineActive l = true ↔ ∃ j, s.attention.isPending j = true ∧ s.routing.route j = lineRoute l)) ∧
      (((s.routing.config l).mode = .pulseHigh ∨ (s.routing.config l).mode = .pulseLow) →
        (s.lineActive l = true ↔ ∃ since, (s.attention.line l).phase = .pulse since)) ∧
      ((s.routing.config l).mode.isPulse = true ↔
        (s.routing.config l).mode = .pulseHigh ∨ (s.routing.config l).mode = .pulseLow) ∧
      (s.control.device = .init → s.lineHigh l = false) ∧
      (s.control.device ≠ .init →
        ((s.routing.config l).mode = .levelHigh ∨ (s.routing.config l).mode = .pulseHigh →
          s.lineHigh l = s.lineActive l) ∧
        ((s.routing.config l).mode = .levelLow ∨ (s.routing.config l).mode = .pulseLow →
          s.lineHigh l = !s.lineActive l))

/-! ### Supply loss -/

/-- R168, R126: a supply failure taken in STOPPED or RUNNING. In another state, or at the good level, the row has no
effect (log entry 1). -/
def Obligations.SupplyFailureEntersHoldup : Prop :=
  (∀ (s : State) (prior : PriorState), s.control.level = .failing →
    (s.control.device = .stopped ∧ prior = .stopped) ∨ (s.control.device = .running ∧ prior = .running) →
    ∃ t, exec .supplyFailure s = .next t ∧
      t.control = { s.control with
        device := .holdup, prior := some prior, timerRunning := true, holdupStart := s.count } ∧
      t.capture = none ∧
      (s.capture = none →
        t.builder = s.builder.offer
          (.status (.holdupEntered prior.device) s.epochNow s.control.epochUnset)) ∧
      (∀ c, s.capture = some c →
        t.builder = (s.builder.offer
            (.status (.holdupEntered prior.device) s.epochNow s.control.epochUnset)).offer
          (.closure { tag := c.tag, point := c.point, triggerEpoch := c.triggerEpoch, preCount := c.preCount,
                      delivered := c.delivered, reason := .truncatedSupply, crc := c.crc }) ∧
        t.attention.isPending .captureDone = true) ∧
      t.attention.isPending .supply = true ∧
      t = { s with control := t.control, capture := none, builder := t.builder, attention := t.attention }) ∧
  ∀ s : State, s.control.level = .good ∨ (s.control.device ≠ .stopped ∧ s.control.device ≠ .running) →
    exec .supplyFailure s = .next s

/-- R170: a supply return in HOLDUP. At the failing level and in another state the row has no effect (log entry 1,
DESIGN CHOICE). A HOLDUP without a prior state, which no run reaches, returns to STOPPED (log entry 24, DESIGN
CHOICE); it is left out here. -/
def Obligations.SupplyReturnEndsHoldup : Prop :=
  (∀ (s : State) (prior : PriorState), s.control.level = .good → s.control.device = .holdup →
    s.control.prior = some prior →
    exec .supplyReturnHoldup s =
      .next (({ s with control := { s.control with device := prior.device, prior := none, timerRunning := false }
        }.offerStatus (.supplyRestored (s.count - s.control.holdupStart) prior.device)).raise .supply)) ∧
  ∀ s : State, s.control.level = .failing ∨ s.control.device ≠ .holdup →
    exec .supplyReturnHoldup s = .next s

/-- R169, R171, R14, R19, R88, R90, R106, R116: the expiry of the hold-up timer. Its records, in order: from RUNNING
those of the events that it closes and of the intervals, then STANDBY_ENTERED, then the NO_ANSWER replies in the order
of modules that the command gives. The place of the replies is the model's choice (log entry 16, DESIGN CHOICE), and so
is a summary that follows an interval, with the new assessment that is then the one kept (log entry 32, DESIGN CHOICE).
Below the assessment length the assessment is kept with its start epoch and its counts, to which the closed interval
and the closed events are added (R106, R110, R111). Before the timer has run its length, the row has
no effect (log entry 1). -/
def Obligations.TimerExpiryEntersStandby : Prop :=
  (∀ (s : State) (order : Fin 24), s.control.device = .holdup → s.control.timerRunning = true →
    s.setup.holdupLimit * 256 ≤ (s.count - s.control.holdupStart).toNat →
    ∃ t, ∃ events spans replies : List RecordBody, exec (.holdupTimerExpiry order) s = .next t ∧
      t.builder = s.builder.offers
        (events ++ spans ++ [.status .standbyEntered s.epochNow s.control.epochUnset] ++ replies) ∧
      (s.control.prior ≠ some .running → events = [] ∧ spans = []) ∧
      (s.control.prior = some .running →
        events = ([0, 1, 2, 3] : List Point).flatMap (fun p =>
          ((s.point p).low.event.toList ++ (s.point p).high.event.toList).map (fun e =>
            .event (eventRecord p e s.count .recorderSupply (e.judge s.setup none)))) ∧
        spans.filterMap (fun b => match b with
            | .interval r => some (r.point, r.startEpoch, r.length, r.flags.stopped)
            | _ => none) =
          ([0, 1, 2, 3] : List Point).filterMap (fun p =>
            if (s.point p).measured then
              (s.point p).interval.map (fun iv => (p, iv.coverageEpoch, s.count - iv.coverageStart, false))
            else none) ∧
        (∀ b ∈ spans, (∃ r, b = .interval r) ∨
          ∃ q, b = .summary q ∧ q.flags.early = false ∧ q.flags.stopped = false ∧
            s.setup.assessmentLength ≤ q.closedIntervals)) ∧
      replies = (Sys2Proof.orderOf order).filterMap (fun m => (s.module m).command.map (fun k =>
        .reply { kind := 0x09, tag := k.tag, result := .noAnswer
                 tail := .moduleCommand (BitVec.ofNat 8 m.val) none })) ∧
      t.control = { s.control with device := .standby, timerRunning := false } ∧
      (∀ m, s.setup.enables m = true →
        t.module m = { s.module m with state := .seeking, goodRun := 0, missCount := 0, command := none }) ∧
      (∀ m, s.setup.enables m = false → t.module m = { s.module m with command := none }) ∧
      (∀ c, t.channel c = { s.channel c with current := .zero, previous := .zero, ring := [] }) ∧
      (∀ p, (t.point p).boundary = .fresh ∧ (t.point p).period = none ∧ (t.point p).pairFlag = false ∧
        (t.point p).check = none ∧ (t.point p).measured = (s.point p).measured ∧
        (t.point p).limits = (s.point p).limits ∧ (t.point p).pendingLimits = (s.point p).pendingLimits ∧
        (t.point p).assessment.isSome = (s.point p).assessment.isSome) ∧
      (s.control.prior ≠ some .running → ∀ p, (t.point p).assessment = (s.point p).assessment) ∧
      (s.control.prior = some .running → ∀ p a iv, (s.point p).measured = true →
        (s.point p).assessment = some a → (s.point p).interval = some iv →
        (a.closedIntervals + 1 < s.setup.assessmentLength → ∃ a', (t.point p).assessment = some a' ∧
          a'.startEpoch = a.startEpoch ∧ a'.closedIntervals = a.closedIntervals + 1 ∧
          a'.stepped = (a.stepped || iv.timeStepped) ∧ a'.unset = (a.unset || iv.epochUnset) ∧
          a'.freqEvaluated = a.freqEvaluated ∧ a'.freqOutside = a.freqOutside ∧
          (iv.disturbed = true ∨ (s.count - iv.coverageStart).toNat < s.setup.intervalLength * s.setup.nominal.rate →
            a'.phases = a.phases) ∧
          ∀ counted : EventClass → Nat, (∀ k, counted k =
              (((s.point p).low.event.toList ++ (s.point p).high.event.toList).filter
                (fun e => e.eventClass == k)).length) →
            (a.dips + counted .dip ≤ 65535 → a'.dips = a.dips + counted .dip) ∧
            (a.interruptions + counted .interruption ≤ 65535 →
              a'.interruptions = a.interruptions + counted .interruption) ∧
            (a.swells + counted .swell ≤ 65535 → a'.swells = a.swells + counted .swell)) ∧
        (s.setup.assessmentLength ≤ a.closedIntervals + 1 →
          (t.point p).assessment = some (.fresh s.epochNow))) ∧
      (s.control.prior = some .running → ∀ p, (t.point p).low = .quiet ∧ (t.point p).high = .quiet ∧
        ((s.point p).measured = true → (t.point p).block = none ∧ (t.point p).interval = none)) ∧
      t.history = { head := none, sets := [] } ∧
      t.attention.isPending .supply = true ∧
      t = { s with
        control := t.control, modules := t.modules, channels := t.channels, points := t.points,
        history := t.history, builder := t.builder, attention := t.attention }) ∧
  ∀ (s : State) (order : Fin 24),
    s.control.device ≠ .holdup ∨ s.control.timerRunning = false ∨
      (s.count - s.control.holdupStart).toNat < s.setup.holdupLimit * 256 →
    exec (.holdupTimerExpiry order) s = .next s

/-- R173, R98, R106: a supply return in STANDBY, to RUNNING when the prior state is RUNNING under RESUME, else to
STOPPED with every kept assessment ended. At the failing level and in another state the row has no effect (log entry 1,
DESIGN CHOICE). -/
def Obligations.SupplyReturnLeavesStandby : Prop :=
  (∀ s : State, s.control.level = .good → s.control.device = .standby →
    s.control.prior = some .running → s.setup.restart = .resume →
    ∃ t, exec .supplyReturnStandby s = .next t ∧
      t.control = { s.control with device := .running, prior := none, timerRunning := false } ∧
      t.builder = s.builder.offer
        (.status (.supplyRestored (s.count - s.control.holdupStart) .running) s.epochNow s.control.epochUnset) ∧
      t.attention.isPending .supply = true ∧
      (∀ p, (s.point p).measured = true →
        t.point p = { s.point p with block := some .fresh, interval := some (s.newInterval s.count) }) ∧
      (∀ p, (s.point p).measured = false → t.point p = s.point p) ∧
      t = { s with control := t.control, points := t.points, builder := t.builder, attention := t.attention }) ∧
  (∀ s : State, s.control.level = .good → s.control.device = .standby →
    s.control.prior ≠ some .running ∨ s.setup.restart = .stayStopped →
    ∃ t, ∃ summaries : List RecordBody, exec .supplyReturnStandby s = .next t ∧
      t.control = { s.control with device := .stopped, prior := none, timerRunning := false } ∧
      t.builder = (s.builder.offer (.status (.supplyRestored (s.count - s.control.holdupStart) .stopped)
        s.epochNow s.control.epochUnset)).offers summaries ∧
      summaries = ([0, 1, 2, 3] : List Point).filterMap (fun p =>
        (s.point p).assessment.map (fun a => .summary (summaryRecord s p a false true))) ∧
      t.attention.isPending .supply = true ∧
      (summaries ≠ [] → t.attention.isPending .assessmentClosed = true) ∧
      (∀ p, t.point p = { s.point p with assessment := none }) ∧
      t = { s with control := t.control, points := t.points, builder := t.builder, attention := t.attention }) ∧
  ∀ s : State, s.control.level = .failing ∨ s.control.device ≠ .standby →
    exec .supplyReturnStandby s = .next s

/-! ### The station port -/

/-- R142, R145, R146: SPSEL is asserted. With an exchange under way it is asserted already (log entry 30). Section
12.3: the bytes of the outbound frame (`beBytes` and `flagByte`: `RecordOffered`), and sections 1.6 and 12.1: its pad
and its check word, with which the ones'-complement sum over the words of the frame is FFFFh. -/
def Obligations.ExchangeBegins : Prop :=
  (∀ s : State, s.exchange = none → ∃ t, ∃ x : Exchange, exec .exchangeBegin s = .next t ∧
    t = { s with exchange := some x } ∧
    (s.builder.queue ≠ [] → x.choice = .record) ∧
    (s.builder.queue = [] → s.captureQueue ≠ [] → x.choice = .capture) ∧
    (s.builder.queue = [] → s.captureQueue = [] → x.choice = .idle) ∧
    x.header.kind = x.choice ∧ x.header.length = t.outboundBytes.length ∧
    x.header.overrun = s.port.overrun ∧ x.header.discarded = s.port.discarded ∧
    x.header.epochUnset = s.control.epochUnset ∧
    x.header.recordOccupancy = s.builder.queue.length ∧ x.header.captureOccupancy = s.captureQueue.length ∧
    x.header.pendingClasses = s.attention.pendingSet ∧
    ∃ body : List Byte,
      (∀ r rest, s.builder.queue = r :: rest → body = r.bytes) ∧
      (∀ f rest, s.builder.queue = [] → s.captureQueue = f :: rest → body = f.bytes) ∧
      (s.builder.queue = [] → s.captureQueue = [] → body = []) ∧
      t.outboundBytes = sealFrame (
        [(match x.choice with | .idle => (0 : Byte) | .record => 1 | .capture => 2)] ++ beBytes 2 x.header.length ++
        [flagByte [x.header.overrun, x.header.discarded, x.header.epochUnset]] ++
        beBytes 1 x.header.recordOccupancy ++ beBytes 1 x.header.captureOccupancy ++
        beBytes 2 x.header.pendingClasses.toNat ++ body) ∧
      t.outboundBytes.length = 8 + body.length + body.length % 2 + 2) ∧
  (∀ (s : State) (x : Exchange), s.exchange = some x → exec .exchangeBegin s = .next s) ∧
  (∀ (bytes padded : List Byte), padded = (if bytes.length % 2 = 1 then bytes ++ [0] else bytes) →
    sealFrame bytes = padded ++ beBytes 2 (65535 - wordSum padded) ∧ wordSum padded ≤ 65535 ∧
    intact (sealFrame bytes) = true) ∧
  (∀ bytes : List Byte, intact bytes = true ↔ wordSum bytes = 65535) ∧
  wordSum [] = 0 ∧ (∀ a : Byte, wordSum [a] = a.toNat * 256) ∧
  ∀ (a b : Byte) (rest : List Byte) (n : Nat), n = a.toNat * 256 + b.toNat + wordSum rest →
    wordSum (a :: b :: rest) = if n < 65536 then n else n - 65535

/-- R143, R144, R147, R148: SPSEL is released after bytes that are no control frame. The exchange completes when
as many bytes were clocked as its frame is long, else it is cut short. R121: the removal of a capture frame is an
occasion on which a running capture forms frames (`formAll`, of which `CaptureFrameFormed` speaks). Without an exchange
the row has no effect (log entry 30). -/
def Obligations.ExchangeSettles : Prop :=
  (∀ (s : State) (x : Exchange) (bytes : List Byte) (order : Fin 24) (q : Port),
    s.exchange = some x → judgeControlFrame bytes = none →
    q = { s.port with
      overrun := s.port.overrun && !x.header.overrun, discarded := s.port.discarded && !x.header.discarded } →
    (bytes.length < x.header.length →
      exec (.exchangeEnd bytes order) s =
        .next { s with exchange := none, port := { s.port with discarded := true } }) ∧
    (x.header.length ≤ bytes.length →
      (x.choice = .idle →
        exec (.exchangeEnd bytes order) s =
          .next { s with exchange := none, port := { q with discarded := true } }) ∧
      (x.choice = .record →
        exec (.exchangeEnd bytes order) s =
          .next { s with
            exchange := none, port := { q with discarded := true }
            builder := { s.builder with queue := s.builder.queue.tail } }) ∧
      (x.choice = .capture → ∃ removed t : State,
        removed = { s with
          exchange := none, port := q, captureQueue := s.captureQueue.tail
          shedding := if s.captureQueue.tail.length ≤ s.setup.lowMark then .opened else s.shedding } ∧
        t = removed.formAll ∧ t.port = q ∧ (s.capture = none → t = removed) ∧
        exec (.exchangeEnd bytes order) s = .next { t with port := { q with discarded := true } }))) ∧
  ∀ (s : State) (bytes : List Byte) (order : Fin 24), s.exchange = none →
    exec (.exchangeEnd bytes order) s = .next s

/-- R148, R180: which collected bytes are a control frame, and what the frame is: its kind in byte 0, its tag in byte
1, its length in bytes 2 and 3, its fields after them. Bytes beyond the length play no part. -/
def Obligations.ControlFrameJudged : Prop :=
  ∀ (bytes : List Byte) (len : Nat), len = (byteAt bytes 2).toNat * 256 + (byteAt bytes 3).toNat →
    (bytes.length < 4 ∨ len < 6 ∨ 34 < len ∨ len % 2 = 1 ∨ bytes.length < len ∨
        intact (bytes.take len) = false → judgeControlFrame bytes = none) ∧
    (4 ≤ bytes.length → 6 ≤ len → len ≤ 34 → len % 2 = 0 → len ≤ bytes.length →
      intact (bytes.take len) = true →
      judgeControlFrame bytes = some
        (if 0x09 < (byteAt bytes 0).toNat then .unknown (byteAt bytes 0) (byteAt bytes 1)
        else if ([6, 8, 34, 10, 6, 6, 12, 8, 8, 12] : List Nat)[(byteAt bytes 0).toNat]? ≠ some len then
          .badLength (byteAt bytes 0) (byteAt bytes 1)
        else if byteAt bytes 0 = 0x00 then .nop (byteAt bytes 1)
        else if byteAt bytes 0 = 0x01 then .ack (byteAt bytes 1) (byteAt bytes 4 ++ byteAt bytes 5)
        else if byteAt bytes 0 = 0x02 then
          .tableWrite (byteAt bytes 1) (byteAt bytes 4) (byteAt bytes 5) ((bytes.drop 6).take 26)
        else if byteAt bytes 0 = 0x03 then
          .tableRead (byteAt bytes 1) (byteAt bytes 4) (byteAt bytes 5) (byteAt bytes 6)
        else if byteAt bytes 0 = 0x04 then .start (byteAt bytes 1)
        else if byteAt bytes 0 = 0x05 then .stop (byteAt bytes 1)
        else if byteAt bytes 0 = 0x06 then .timeSet (byteAt bytes 1) (byteAt bytes 4 ++ byteAt bytes 5 ++
          byteAt bytes 6 ++ byteAt bytes 7 ++ byteAt bytes 8 ++ byteAt bytes 9)
        else if byteAt bytes 0 = 0x07 then .trigger (byteAt bytes 1) (byteAt bytes 4)
        else if byteAt bytes 0 = 0x08 then .closeAssessment (byteAt bytes 1) (byteAt bytes 4)
        else .moduleCommand (byteAt bytes 1) (byteAt bytes 4)
          (byteAt bytes 5 ++ byteAt bytes 6 ++ byteAt bytes 7 ++ byteAt bytes 8)))

/-- R149, R145: outside INIT, a release whose bytes are a control frame settles the outbound side and then executes
the frame as its own row would be. -/
def Obligations.TakenFrameExecuted : Prop :=
  ∀ (s : State) (x : Exchange) (bytes : List Byte) (f : ControlFrame) (order : Fin 24),
    s.exchange = some x → s.control.device ≠ .init → judgeControlFrame bytes = some f →
    exec (.exchangeEnd bytes order) s = exec (rowOf f order) (s.settleExchange x bytes.length)

/-- R150: in INIT a taken frame of a kind other than NOP is held when the slot is empty and dropped with OVERRUN when
it is full. A frame of kind NOP has no effect, one of a wrong length as well: R150 goes by the kind (log entry 31,
DESIGN CHOICE). A control-frame row other than TABLE_WRITE_READ_ONLY, whose frame has no entry bytes (log entry 14),
acts on the slot in the same way. -/
def Obligations.FramesHeldInInit : Prop :=
  ∀ (s : State) (bytes : List Byte) (f : ControlFrame) (order : Fin 24) (nop : Prop),
    (nop ↔ byteAt bytes 0 = 0x00) → s.control.device = .init → judgeControlFrame bytes = some f →
    (nop ↔ ∃ tag, f = .nop tag ∨ f = .badLength 0x00 tag) ∧
    (nop → exec (rowOf f order) s = .next s) ∧
    (¬nop → (∀ tag table index, rowOf f order ≠ .tableWriteReadOnly tag table index) →
      (s.port.held = none →
        exec (rowOf f order) s = .next { s with port := { s.port with held := some f } }) ∧
      (∀ g, s.port.held = some g →
        exec (rowOf f order) s = .next { s with port := { s.port with overrun := true } })) ∧
    ∀ x, s.exchange = some x → ∃ t, exec (.exchangeEnd bytes order) s = .next t ∧
      (nop → t = s.settleExchange x bytes.length) ∧
      (¬nop → s.port.held = none →
        t.port.held = some f ∧ t.port.overrun = (s.settleExchange x bytes.length).port.overrun) ∧
      (∀ g, ¬nop → s.port.held = some g → t.port.held = some g ∧ t.port.overrun = true) ∧
      t = { s.settleExchange x bytes.length with port := t.port } ∧
      t.port.discarded = (s.settleExchange x bytes.length).port.discarded

/-! ### Control frames, executed outside INIT -/

/-- R149, R152: a kind the device does not know, a known kind of a length that is not its own, and a TABLE-WRITE of a
table that cannot be written. That a NOP or ACK of a wrong length is answered too is the model's choice (log entry 31,
DESIGN CHOICE). A table code of that row that names a writable table has no effect (log entry 14). -/
def Obligations.UnservedFramesAnswered : Prop :=
  ∀ (s : State) (kind tag table index : Byte), s.control.device ≠ .init →
    (0x09 < kind.toNat →
      exec (.unknownKind kind tag) s = .next (s.offerReply kind tag .unknownKind .empty)) ∧
    (kind.toNat ≤ 0x09 →
      exec (.unknownKind kind tag) s = .next (s.offerReply kind tag .invalidEntry .empty)) ∧
    (5 < table.toNat →
      exec (.tableWriteReadOnly tag table index) s =
        .next (s.offerReply 0x02 tag .badIndex (.tableWrite table index none))) ∧
    (table = 0x04 ∨ table = 0x05 →
      exec (.tableWriteReadOnly tag table index) s =
        .next (s.offerReply 0x02 tag .invalidEntry (.tableWrite table index none))) ∧
    (table.toNat < 4 → exec (.tableWriteReadOnly tag table index) s = .next s)

/-- R151: NOP in any state, and ACK when it is executed. The last two clauses are the two orders of an ACK and a new
occurrence of a class it lists. -/
def Obligations.NopAndAck : Prop :=
  (∀ (s : State) (tag : Byte), exec (.nop tag) s = .next s) ∧
  ∀ (s : State) (tag : Byte) (classes : Word), s.control.device ≠ .init →
    ∃ t, exec (.ack tag classes) s = .next t ∧
      (∀ k, t.attention.isPending k = (s.attention.isPending k && !inMask classes (classIndex k).val)) ∧
      (∀ l, t.attention.line l = s.attention.line l) ∧
      t = { s with attention := t.attention } ∧
      ∀ k, inMask classes (classIndex k).val = true →
        (t.raise k).attention.isPending k = true ∧
        ∃ u, exec (.ack tag classes) (s.raise k) = .next u ∧ u.attention.isPending k = false

/-- R155: a TABLE-WRITE of SETUP: the tests, the entry stored with every field brought into its range, and the reply.
In INIT it is held. `records` are those of modules that the write takes out of LOCKED (R11, R19), which
`SetupActsOnModules` lists. -/
def Obligations.SetupWritten : Prop :=
  ∀ (s : State) (tag index : Byte) (entry : List Byte) (order : Fin 24),
    (s.control.device = .init → s.port.held = none →
      exec (.tableWriteSetup tag index entry order) s =
        .next { s with port := { s.port with held := some (.tableWrite tag 0x00 index entry) } }) ∧
    (s.control.device = .running ∨ s.control.device = .holdup ∨ s.control.device = .standby →
      exec (.tableWriteSetup tag index entry order) s =
        .next (s.offerReply 0x02 tag .refusedState (.tableWrite 0x00 index none))) ∧
    (s.control.device = .stopped → index ≠ 0 →
      exec (.tableWriteSetup tag index entry order) s =
        .next (s.offerReply 0x02 tag .badIndex (.tableWrite 0x00 index none))) ∧
    (s.control.device = .stopped → index = 0 →
      ∃ t, ∃ records : List RecordBody, exec (.tableWriteSetup tag index entry order) s = .next t ∧
        t.builder = (s.builder.offers records).offer (.reply
          { kind := 0x02, tag := tag, result := .done, tail := .tableWrite 0x00 0x00 (some (.setup t.setup)) }) ∧
        t.attention.isPending .replyReady = true ∧
        t.setup =
          { nominal := if fieldAt entry 0 1 ≤ 55 then .hz50 else .hz60
            intervalLength := max 1 (min 7200 (fieldAt entry 1 2))
            assessmentLength := max 1 (min 4032 (fieldAt entry 3 2))
            blockPoints := (byteAt entry 5).setWidth 4
            leadPeriod := max 10 (min 3600 (fieldAt entry 6 2))
            missLimit := max 1 (min 64 (fieldAt entry 8 1))
            moduleEnable := (byteAt entry 9).setWidth 4
            holdupLimit := max 1 (min 1000 (fieldAt entry 10 2))
            debounce := max 1 (min 255 (fieldAt entry 12 1))
            restart := if byteAt entry 13 = 0x01 then .resume else .stayStopped
            preTrigger := min 1024 (fieldAt entry 14 2)
            postTrigger := max 256 (min 8192 (fieldAt entry 16 2))
            highMark := max 1 (min 48 (fieldAt entry 18 1))
            lowMark := min (max 1 (min 48 (fieldAt entry 18 1)) - 1) (fieldAt entry 19 1)
            originRise := max 1 (min 1024 (fieldAt entry 20 2))
            originMinimum := min 16777215 (fieldAt entry 22 3) } ∧
        SetupInRange t.setup ∧
        t = { s with
          setup := t.setup, modules := t.modules, shedding := t.shedding, builder := t.builder,
          attention := t.attention })

/-- R11, R15, R19, R141, R155: what a stored SETUP write does to the modules and to the shedding state, and its records:
those of each module, in the order of modules that the command gives (log entry 3), then the DONE reply. A module that
becomes LOST makes MODULE_LOST first, and then, as one that is disabled does, the NO_ANSWER reply of its command; that
order of the two is the model's choice, which R11, R15 and R19 leave open (log entry 16, DESIGN CHOICE). -/
def Obligations.SetupActsOnModules : Prop :=
  ∀ (s : State) (tag : Byte) (entry : List Byte) (order : Fin 24), s.control.device = .stopped →
    ∃ t, ∃ (disabled lost : Module → Prop) (unanswered records : Module → List RecordBody),
      exec (.tableWriteSetup tag 0 entry order) s = .next t ∧
      (∀ m, disabled m ↔ s.setup.enables m = true ∧ t.setup.enables m = false) ∧
      (∀ m, lost m ↔ s.setup.enables m = t.setup.enables m ∧ (s.module m).state = .locked ∧
        t.setup.missLimit ≤ (s.module m).missCount) ∧
      (∀ m, ((s.module m).command = none → unanswered m = []) ∧
        ∀ k, (s.module m).command = some k → unanswered m =
          [.reply { kind := 0x09, tag := k.tag, result := .noAnswer
                    tail := .moduleCommand (BitVec.ofNat 8 m.val) none }]) ∧
      (∀ m, (disabled m → records m = unanswered m) ∧
        (lost m → records m =
          .status (.moduleLost m) (s.count + s.control.offset) s.control.epochUnset :: unanswered m) ∧
        (¬disabled m → ¬lost m → records m = [])) ∧
      t.builder = (s.builder.offers ((Sys2Proof.orderOf order).flatMap records)).offer (.reply
        { kind := 0x02, tag := tag, result := .done, tail := .tableWrite 0x00 0x00 (some (.setup t.setup)) }) ∧
      t.attention.isPending .replyReady = true ∧
      (∀ m, t.setup.enables m = true → s.setup.enables m = false →
        t.module m = { s.module m with
          state := .seeking, goodRun := 0, missCount := 0, checkFailures := 0, staleFrames := 0 }) ∧
      (∀ m, t.setup.enables m = false → s.setup.enables m = true →
        t.module m = { s.module m with state := .disabled, command := none }) ∧
      (∀ m, t.setup.enables m = s.setup.enables m →
        (s.module m).state ≠ .locked ∨ (s.module m).missCount < t.setup.missLimit →
        t.module m = s.module m) ∧
      (∀ m, t.setup.enables m = true → s.setup.enables m = true → (s.module m).state = .locked →
        t.setup.missLimit ≤ (s.module m).missCount →
        t.module m = { s.module m with state := .lost, goodRun := 0, command := none } ∧
        t.attention.isPending .moduleState = true) ∧
      (s.shedding = .opened →
        t.shedding = (if t.setup.highMark ≤ s.captureQueue.length then .shed else .opened)) ∧
      (s.shedding = .shed →
        t.shedding = (if s.captureQueue.length ≤ t.setup.lowMark then .opened else .shed))

/-- R21, R22: a TABLE-WRITE of CHANNEL MAP, its tests in order, the stored entry, and the reply. `e` is the entry the
bytes spell by the layout of section 12.6, with the check band clamped. In INIT the frame is held. -/
def Obligations.MapEntryWritten : Prop :=
  (∀ (s : State) (tag index : Byte) (entry : List Byte) (kind : ChannelKind) (e : MapEntry),
    e = parseMapEntry kind entry →
    (s.control.device = .init → s.port.held = none →
      exec (.tableWriteChannelMap tag index entry) s =
        .next { s with port := { s.port with held := some (.tableWrite tag 0x01 index entry) } }) ∧
    (s.control.device = .running ∨ s.control.device = .holdup ∨ s.control.device = .standby →
      exec (.tableWriteChannelMap tag index entry) s =
        .next (s.offerReply 0x02 tag .refusedState (.tableWrite 0x01 index none))) ∧
    (s.control.device = .stopped → 24 ≤ index.toNat →
      exec (.tableWriteChannelMap tag index entry) s =
        .next (s.offerReply 0x02 tag .badIndex (.tableWrite 0x01 index none))) ∧
    (s.control.device = .stopped → index.toNat < 24 →
      1 < (byteAt entry 3).toNat ∨
        (byteAt entry 3 = kind.code ∧ e.enabled = true ∧
          (3 < e.module ∨ 5 < e.slot ∨ 3 < e.point ∨ e.phase < 1 ∨ 3 < e.phase)) →
      exec (.tableWriteChannelMap tag index entry) s =
        .next (s.offerReply 0x02 tag .invalidEntry (.tableWrite 0x01 index none))) ∧
    ∀ c : Channel, s.control.device = .stopped → index.toNat = c.val → byteAt entry 3 = kind.code →
      e.enabled = false ∨ (e.module ≤ 3 ∧ e.slot ≤ 5 ∧ e.point ≤ 3 ∧ 1 ≤ e.phase ∧ e.phase ≤ 3) →
      (mapPasses (s.mapWith c e) = false →
        exec (.tableWriteChannelMap tag index entry) s =
          .next (s.offerReply 0x02 tag .invalidEntry (.tableWrite 0x01 index none))) ∧
      (mapPasses (s.mapWith c e) = true →
        exec (.tableWriteChannelMap tag index entry) s =
          .next ((s.modChannel c (fun ch => { ch with entry := e, lead := .notChecked, due := false })).offerReply
            0x02 tag .done (.tableWrite 0x01 index (some (.channelMap e)))))) ∧
  (∀ entries : Vector MapEntry 24, mapPasses entries = true ↔
    ∀ i j : Channel, i ≠ j → (entries[i.val]).enabled = true → (entries[j.val]).enabled = true →
      ¬((entries[i.val]).module = (entries[j.val]).module ∧ (entries[i.val]).slot = (entries[j.val]).slot) ∧
      ¬((entries[i.val]).point = (entries[j.val]).point ∧ (entries[i.val]).kind = (entries[j.val]).kind ∧
        (entries[i.val]).phase = (entries[j.val]).phase)) ∧
  ∀ (kind : ChannelKind) (entry : List Byte), parseMapEntry kind entry =
    { enabled := (byteAt entry 0).getLsbD 0
      leadCheck := (byteAt entry 0).getLsbD 1
      module := (byteAt entry 1).toNat
      slot := (byteAt entry 2).toNat
      kind := kind
      point := (byteAt entry 4).toNat
      phase := (byteAt entry 5).toNat
      offset := byteAt entry 6 ++ byteAt entry 7
      gain := (byteAt entry 8).toNat * 65536 + (byteAt entry 9).toNat * 256 + (byteAt entry 10).toNat
      delay := (byteAt entry 11).toNat
      level := byteAt entry 12 ++ byteAt entry 13 ++ byteAt entry 14
      band := min 8388607
        ((byteAt entry 15).toNat * 65536 + (byteAt entry 16).toNat * 256 + (byteAt entry 17).toNat) }

/-- R70 to R74, R67: a TABLE-WRITE of LIMITS: installed in STOPPED with its thresholds, pending in RUNNING. The entry
that the bytes spell by section 12.6, with the two clamps of R71; the ranges of R70; the eight thresholds; and the
installation of pending limits at a window result that leaves both trackers QUIET. Its place before the Aggregator's
taking of the same half-window is the model's choice (log entry 38, DESIGN CHOICE; `SpansClose`). -/
def Obligations.LimitsWritten : Prop :=
  (∀ (s : State) (tag index : Byte) (entry : List Byte) (l : LimitsEntry), l = parseLimits entry →
    (s.control.device = .holdup ∨ s.control.device = .standby →
      exec (.tableWriteLimits tag index entry) s =
        .next (s.offerReply 0x02 tag .refusedState (.tableWrite 0x02 index none))) ∧
    (s.control.device = .stopped ∨ s.control.device = .running → 4 ≤ index.toNat →
      exec (.tableWriteLimits tag index entry) s =
        .next (s.offerReply 0x02 tag .badIndex (.tableWrite 0x02 index none))) ∧
    (s.control.device = .stopped ∨ s.control.device = .running → index.toNat < 4 → l.valid = false →
      exec (.tableWriteLimits tag index entry) s =
        .next (s.offerReply 0x02 tag .invalidEntry (.tableWrite 0x02 index none))) ∧
    ∀ p : Point, index.toNat = p.val → l.valid = true →
      (s.control.device = .stopped →
        exec (.tableWriteLimits tag index entry) s =
          .next ((s.modPoint p (fun pt => { pt with
              limits := l, thresholds := deriveThresholds l, pendingLimits := none })).offerReply
            0x02 tag .done (.tableWrite 0x02 index (some (.limits l))))) ∧
      (s.control.device = .running → (s.point p).measured = true → l.declared = 0 →
        exec (.tableWriteLimits tag index entry) s =
          .next (s.offerReply 0x02 tag .invalidEntry (.tableWrite 0x02 index none))) ∧
      (s.control.device = .running → (s.point p).measured = false ∨ l.declared ≠ 0 →
        exec (.tableWriteLimits tag index entry) s =
          .next ((s.modPoint p (fun pt => { pt with pendingLimits := some l })).offerReply
            0x02 tag .done (.tableWrite 0x02 index (some (.limits l)))))) ∧
  (∀ entry : List Byte, parseLimits entry =
    { declared := fieldAt entry 0 3, dip := fieldAt entry 3 2, swell := fieldAt entry 5 2
      interruption := fieldAt entry 7 2, hysteresis := min 100 (fieldAt entry 9 2)
      lowerBand := fieldAt entry 11 2, upperBand := fieldAt entry 13 2
      freqLower := fieldAt entry 15 3, freqUpper := fieldAt entry 18 3
      crossing := min 1048576 (fieldAt entry 21 3) }) ∧
  (∀ l : LimitsEntry, l.valid = true ↔ l.declared = 0 ∨
    (10000 ≤ l.declared ∧ l.declared ≤ 100000 ∧ 100 ≤ l.dip ∧ l.dip ≤ 990 ∧ 1010 ≤ l.swell ∧ l.swell ≤ 2000 ∧
      10 ≤ l.interruption ∧ l.interruption < l.dip ∧ l.hysteresis ≤ 100 ∧ l.lowerBand ≤ 999 ∧
      1001 ≤ l.upperBand ∧ l.upperBand ≤ 2000 ∧ l.freqLower < l.freqUpper ∧ l.freqUpper ≤ 16777215 ∧
      l.crossing ≤ 1048576)) ∧
  (∀ l : LimitsEntry, deriveThresholds l =
    { dipStart := (l.declared * l.dip + 500) / 1000
      dipEnd := (l.declared * (l.dip + l.hysteresis) + 500) / 1000
      intStart := (l.declared * l.interruption + 500) / 1000
      intEnd := (l.declared * (l.interruption + l.hysteresis) + 500) / 1000
      swellStart := (l.declared * l.swell + 500) / 1000
      swellEnd := (l.declared * (l.swell - l.hysteresis) + 500) / 1000
      lowerBand := (l.declared * l.lowerBand + 500) / 1000
      upperBand := (l.declared * l.upperBand + 500) / 1000 }) ∧
  ∀ (s t : State) (p : Point) (r : WindowResult), t = s.takeResult p r →
    (∀ l, (t.point p).low = .quiet → (t.point p).high = .quiet → (s.point p).pendingLimits = some l →
      (t.point p).limits = l ∧ (t.point p).thresholds = deriveThresholds l ∧ (t.point p).pendingLimits = none ∧
      ∃ before : List RecordBody, t.builder =
        (s.builder.offers before).offer (.status (.limitsInstalled p) s.epochNow s.control.epochUnset)) ∧
    ((t.point p).low ≠ .quiet ∨ (t.point p).high ≠ .quiet ∨ (s.point p).pendingLimits = none →
      (t.point p).limits = (s.point p).limits ∧ (t.point p).thresholds = (s.point p).thresholds ∧
      (t.point p).pendingLimits = (s.point p).pendingLimits)

/-- R157, R177: a TABLE-WRITE of ROUTING, in every state after INIT. -/
def Obligations.RoutingWritten : Prop :=
  ∀ (s : State) (tag index : Byte) (entry : List Byte), s.control.device ≠ .init →
    (index ≠ 0 →
      exec (.tableWriteRouting tag index entry) s =
        .next (s.offerReply 0x02 tag .badIndex (.tableWrite 0x03 index none))) ∧
    (index = 0 →
      (∃ i, i < 10 ∧ 2 < (byteAt entry i).toNat) ∨ 3 < (byteAt entry 10).toNat ∨ 3 < (byteAt entry 11).toNat ∨
        3 < (byteAt entry 12).toNat ∨ 3 < (byteAt entry 13).toNat →
      exec (.tableWriteRouting tag index entry) s =
        .next (s.offerReply 0x02 tag .invalidEntry (.tableWrite 0x03 index none))) ∧
    (index = 0 → (∀ i, i < 10 → (byteAt entry i).toNat ≤ 2) → (byteAt entry 10).toNat ≤ 3 →
      (byteAt entry 11).toNat ≤ 3 → (byteAt entry 12).toNat ≤ 3 → (byteAt entry 13).toNat ≤ 3 →
      ∃ t, ∃ r : Routing, exec (.tableWriteRouting tag index entry) s = .next t ∧
        (∀ k, (r.route k).code = byteAt entry (classIndex k).val) ∧
        (r.config .line0).mode.code = byteAt entry 10 ∧ (r.config .line0).width.code = byteAt entry 11 ∧
        (r.config .line1).mode.code = byteAt entry 12 ∧ (r.config .line1).width.code = byteAt entry 13 ∧
        ∃ u : State, u.attention.pendingSet = s.attention.pendingSet ∧
          (∀ l, r.config l = s.routing.config l → u.attention.line l = s.attention.line l) ∧
          (∀ l, r.config l ≠ s.routing.config l →
            u.attention.line l = { phase := .idle, followUp := false }) ∧
          u = { s with routing := r, attention := u.attention } ∧
          t = u.offerReply 0x02 tag .done (.tableWrite 0x03 index (some (.routing r))))

/-- R153, R16, R75, R158: a TABLE-READ, its tests, and the entries of its one reply. A point is shown as configured by
the test of R25 on the limits in force. In INIT it is held. -/
def Obligations.TableReadAnswered : Prop :=
  ∀ (s : State) (tag table first count : Byte),
    (s.control.device = .init → s.port.held = none →
      exec (.tableRead tag table first count) s =
        .next { s with port := { s.port with held := some (.tableRead tag table first count) } }) ∧
    (s.control.device ≠ .init → ∀ size, ([1, 24, 4, 1, 4, 4] : List Nat)[table.toNat]? = some size →
      1 ≤ count.toNat → count.toNat ≤ 24 → first.toNat + count.toNat ≤ size →
      ∃ entries : List TableEntry,
        exec (.tableRead tag table first count) s =
          .next (s.offerReply 0x03 tag .done (.tableRead table first count entries)) ∧
        entries.length = count.toNat ∧
        ∀ i, i < count.toNat →
          (table = 0x00 → entries[i]? = some (.setup s.setup)) ∧
          (table = 0x01 → ∀ c : Channel, c.val = first.toNat + i →
            entries[i]? = some (.channelMap (s.channel c).entry)) ∧
          (table = 0x02 → ∀ p : Point, p.val = first.toNat + i →
            entries[i]? = some (.limits (s.point p).limits)) ∧
          (table = 0x03 → entries[i]? = some (.routing s.routing)) ∧
          (table = 0x04 → ∀ m : Module, m.val = first.toNat + i →
            entries[i]? = some (.moduleStatus
              { state := (s.module m).state, missCount := (s.module m).missCount,
                goodRun := (s.module m).goodRun, checkFailures := (s.module m).checkFailures,
                staleFrames := (s.module m).staleFrames, outstanding := (s.module m).command.isSome })) ∧
          (table = 0x05 → ∀ p : Point, p.val = first.toNat + i →
            ∃ e : PointStatus, entries[i]? = some (.pointStatus e) ∧
              e.measured = (s.point p).measured ∧
              (e.configured = true ↔ (s.point p).limits.declared ≠ 0 ∧ ∃ (c : Channel) (m : Module),
                (s.channel c).entry.enabled = true ∧ (s.channel c).entry.point = p.val ∧
                (s.channel c).entry.kind = .voltage ∧ (s.channel c).entry.module = m.val ∧
                s.setup.enables m = true) ∧
              (e.pendingLimits = true ↔ (s.point p).pendingLimits ≠ none) ∧
              ((s.point p).low = .quiet → e.low = .quiet ∧ e.lowTag = none) ∧
              (∀ x, (s.point p).low = .dip x → e.low = .dip ∧ e.lowTag = some x.tag) ∧
              (∀ x, (s.point p).low = .interrupt x → e.low = .interrupt ∧ e.lowTag = some x.tag) ∧
              ((s.point p).high = .quiet → e.high = .quiet ∧ e.highTag = none) ∧
              (∀ x, (s.point p).high = .swell x → e.high = .swell ∧ e.highTag = some x.tag) ∧
              (e.mode = .free ↔ (s.point p).boundary.mode = .free) ∧
              e.halfCount = (s.point p).boundary.count ∧ e.reference = (s.point p).reference ∧
              e.channels = ((List.finRange 24).filter (fun c =>
                  (s.channel c).entry.enabled && (s.channel c).entry.point == p.val)).map (fun c =>
                { channel := c.val, kind := (s.channel c).entry.kind, phase := (s.channel c).entry.phase
                  lead := (s.channel c).lead, due := (s.channel c).due }))) ∧
    (s.control.device ≠ .init →
      5 < table.toNat ∨ count = 0 ∨ 24 < count.toNat ∨
        (∃ size, ([1, 24, 4, 1, 4, 4] : List Nat)[table.toNat]? = some size ∧
          size < first.toNat + count.toNat) →
      exec (.tableRead tag table first count) s =
        .next (s.offerReply 0x03 tag .badIndex (.tableRead table first count [])))

/-- R163, R26, R29, R53, R55, R90, R96, R98, R116: an accepted START. -/
def Obligations.StartAccepted : Prop :=
  ∀ (s : State) (tag : Byte), s.control.device = .stopped →
    (∃ p, s.configuredWith p (s.point p).limitsToCome = true) →
    (∀ c, (s.channel c).entry.enabled = true →
      ∃ p : Point, (s.channel c).entry.point = p.val ∧ (s.point p).limitsToCome.declared ≠ 0) →
    ∃ t, ∃ measured : BitVec 4, exec (.start tag) s = .next t ∧
      t.control = { s.control with device := .running } ∧
      (∀ p : Point, measured.getLsbD p.val = (t.point p).measured) ∧
      (∀ p, (t.point p).measured = s.configuredWith p (s.point p).limitsToCome) ∧
      t.builder = (s.builder.offer (.status (.started measured) s.epochNow s.control.epochUnset)).offer
        (.reply { kind := 0x04, tag := tag, result := .done, tail := .empty }) ∧
      t.attention.isPending .replyReady = true ∧
      (∀ p, (t.point p).limits = (s.point p).limitsToCome ∧ (t.point p).pendingLimits = none ∧
        (t.point p).thresholds =
          (if (s.point p).pendingLimits.isSome then deriveThresholds (s.point p).limitsToCome
          else (s.point p).thresholds) ∧
        (t.point p).reference = (s.point p).reference ∧
        (t.point p).low = .quiet ∧ (t.point p).high = .quiet ∧
        (t.point p).boundary =
          { mode := .free, count := 0, armedPositive := true, armedNegative := true, before := none } ∧
        (t.point p).period = none ∧ (t.point p).pairFlag = false ∧ (t.point p).previousFree = false ∧
        (t.point p).check = (s.point p).check) ∧
      (∀ p, (t.point p).measured = true →
        (t.point p).block = some .fresh ∧ (t.point p).interval = some (s.newInterval s.count) ∧
        (t.point p).assessment = some (.fresh s.epochNow)) ∧
      (∀ c, t.channel c =
        { entry := (s.channel c).entry, lead := .notChecked, due := t.checkedMeasured (s.channel c).entry,
          current := .zero, previous := .zero, ring := [] }) ∧
      t.history = { head := none, sets := [] } ∧
      t = { s with
        control := t.control, points := t.points, channels := t.channels, history := t.history,
        builder := t.builder, attention := t.attention }

/-- R162: a START outside INIT that fails a test changes nothing but its reply. -/
def Obligations.StartRefused : Prop :=
  ∀ (s : State) (tag : Byte),
    (s.control.device = .running ∨ s.control.device = .holdup ∨ s.control.device = .standby →
      exec (.start tag) s = .next (s.offerReply 0x04 tag .refusedState .empty)) ∧
    (s.control.device = .stopped → (∀ p, s.configuredWith p (s.point p).limitsToCome = false) →
      exec (.start tag) s = .next (s.offerReply 0x04 tag .notConfigured .empty)) ∧
    (s.control.device = .stopped →
      (∃ c, ∃ p : Point, (s.channel c).entry.enabled = true ∧ (s.channel c).entry.point = p.val ∧
        (s.point p).limitsToCome.declared = 0) →
      exec (.start tag) s = .next (s.offerReply 0x04 tag .notConfigured .empty))

/-- R164, R32, R46, R53, R64, R87, R105, R126: STOP. Its records, in order: the events of every point in order of point
number, the low tracker's first, with a duration up to this tick; the capture, TRUNCATED_STOP; the spans of each
measured point in order of point number, its block unless it holds nothing or makes no record, its interval and its
summary, both flagged STOPPED; the STOPPED record; the reply. The due markings not yet taken are dropped with it (log
entry 34, DEDUCED). -/
def Obligations.StopAccepted : Prop :=
  (∀ (s : State) (tag : Byte), s.control.device = .running →
    ∃ t, ∃ (events closures : List RecordBody) (spans : Point → List RecordBody), exec (.stop tag) s = .next t ∧
      t.control = { s.control with device := .stopped } ∧
      t.builder = s.builder.offers
        (events ++ closures ++ ([0, 1, 2, 3] : List Point).flatMap spans ++
          [.status .stopped s.epochNow s.control.epochUnset,
           .reply { kind := 0x05, tag := tag, result := .done, tail := .empty }]) ∧
      t.attention.isPending .replyReady = true ∧
      events = ([0, 1, 2, 3] : List Point).flatMap (fun p =>
        ((s.point p).low.event.toList ++ (s.point p).high.event.toList).map (fun e =>
          .event (eventRecord p e s.count .stop (e.judge s.setup none)))) ∧
      (events ≠ [] → t.attention.isPending .eventEnd = true) ∧
      closures = s.capture.toList.map (fun c =>
        .closure { tag := c.tag, point := c.point, triggerEpoch := c.triggerEpoch, preCount := c.preCount,
                   delivered := c.delivered, reason := .truncatedStop, crc := c.crc }) ∧
      (closures ≠ [] → t.attention.isPending .captureDone = true) ∧
      (∀ p, (s.point p).measured = false → spans p = []) ∧
      (∀ p b iv a, (s.point p).measured = true → (s.point p).block = some b → (s.point p).interval = some iv →
        (s.point p).assessment = some a →
        ∃ (blocks : List RecordBody) (r : IntervalRecord) (q : SummaryRecord),
          spans p = blocks ++ [.interval r, .summary q] ∧
          (b.count = 0 ∨ s.setup.blockPoints.getLsbD p.val = false → blocks = []) ∧
          (b.count ≠ 0 → s.setup.blockPoints.getLsbD p.val = true → ∃ x, blocks = [.block x] ∧ x.point = p ∧
            x.halfWindows = b.count ∧ x.disturbed = b.disturbed ∧ x.blind = b.blind) ∧
          r.point = p ∧ r.startEpoch = iv.coverageEpoch ∧ r.length = s.count - iv.coverageStart ∧
          r.halfWindows = iv.halfWindows ∧ r.flags.stopped = true ∧ r.flags.timeStepped = iv.timeStepped ∧
          q.point = p ∧ q.startEpoch = a.startEpoch ∧ q.closedIntervals = a.closedIntervals + 1 ∧
          q.flags.stopped = true ∧ q.flags.early = false ∧
          t.attention.isPending .intervalClosed = true ∧ t.attention.isPending .assessmentClosed = true) ∧
      t.capture = none ∧
      (∀ p, (t.point p).low = .quiet ∧ (t.point p).high = .quiet ∧ (t.point p).check = none ∧
        (t.point p).boundary = .fresh ∧ (t.point p).period = none ∧ (t.point p).pairFlag = false ∧
        (t.point p).previousFree = false ∧
        (t.point p).measured = (s.point p).measured ∧ (t.point p).limits = (s.point p).limits ∧
        (t.point p).thresholds = (s.point p).thresholds ∧
        (t.point p).pendingLimits = (s.point p).pendingLimits ∧
        (t.point p).reference = (s.point p).reference) ∧
      (∀ p, (s.point p).measured = true →
        (t.point p).block = none ∧ (t.point p).interval = none ∧ (t.point p).assessment = none) ∧
      (∀ c, t.channel c = { s.channel c with due := false, current := .zero, previous := .zero }) ∧
      t = { s with
        control := t.control, points := t.points, channels := t.channels, capture := none,
        builder := t.builder, attention := t.attention, dueNow := { period := false, second := false } }) ∧
  ∀ (s : State) (tag : Byte),
    s.control.device = .stopped ∨ s.control.device = .holdup ∨ s.control.device = .standby →
    exec (.stop tag) s = .next (s.offerReply 0x05 tag .refusedState .empty)

/-- R166, R54, R89, R104, R107, R110, R112: TIME-SET outside INIT. In RUNNING the records between TIME_STEPPED and the
reply are those of the measured points in order of point number: the block, unless it holds nothing or makes no record,
the interval, flagged TIME_STEPPED, and the summary of an assessment that reaches its length with it. -/
def Obligations.TimeSetSteps : Prop :=
  ∀ (s : State) (tag : Byte) (epoch : Tick),
    (s.control.device = .stopped →
      exec (.timeSet tag epoch) s =
        .next (({ s with control := { s.control with offset := epoch - s.count, epochUnset := false }
          }.offer (.status (.timeStepped s.epochNow epoch) epoch false)).offerReply 0x06 tag .done .empty)) ∧
    (s.control.device = .running →
      ∃ t, ∃ records : List RecordBody, exec (.timeSet tag epoch) s = .next t ∧
        t.control = { s.control with offset := epoch - s.count, epochUnset := false } ∧
        t.epochNow = epoch ∧
        t.builder = ((s.builder.offer (.status (.timeStepped s.epochNow epoch) epoch false)).offers records).offer
          (.reply { kind := 0x06, tag := tag, result := .done, tail := .empty }) ∧
        t.attention.isPending .replyReady = true ∧
        (∃ spans : Point → List RecordBody, records = ([0, 1, 2, 3] : List Point).flatMap spans ∧
          (∀ p, (s.point p).measured = false → spans p = [] ∧ (t.point p).block = (s.point p).block ∧
            (t.point p).interval = (s.point p).interval ∧ (t.point p).assessment = (s.point p).assessment) ∧
          ∀ p b iv a, (s.point p).measured = true → (s.point p).block = some b → (s.point p).interval = some iv →
            (s.point p).assessment = some a →
            ∃ (blocks summaries : List RecordBody) (r : IntervalRecord),
              spans p = blocks ++ [.interval r] ++ summaries ∧
              (b.count = 0 ∨ s.setup.blockPoints.getLsbD p.val = false → blocks = []) ∧
              (b.count ≠ 0 → s.setup.blockPoints.getLsbD p.val = true → ∃ x, blocks = [.block x] ∧ x.point = p ∧
                x.halfWindows = b.count ∧ x.disturbed = b.disturbed ∧ x.blind = b.blind ∧
                ∀ start, b.start = some start → x.startEpoch = start) ∧
              r.point = p ∧ r.startEpoch = iv.coverageEpoch ∧ r.length = s.count - iv.coverageStart ∧
              r.halfWindows = iv.halfWindows ∧ r.flags.timeStepped = true ∧ r.flags.stopped = false ∧
              r.flags.epochUnset = iv.epochUnset ∧
              t.attention.isPending .intervalClosed = true ∧
              (a.closedIntervals + 1 < s.setup.assessmentLength → summaries = [] ∧
                (t.point p).assessment = some (a.takeInterval s p r)) ∧
              (s.setup.assessmentLength ≤ a.closedIntervals + 1 → (t.point p).assessment = some (.fresh epoch) ∧
                t.attention.isPending .assessmentClosed = true ∧
                ∃ q : SummaryRecord, summaries = [.summary q] ∧ q.point = p ∧ q.startEpoch = a.startEpoch ∧
                  q.closedIntervals = a.closedIntervals + 1 ∧ q.flags.timeStepped = true ∧
                  q.flags.stopped = false ∧ q.flags.early = false)) ∧
        (∀ p, (t.point p).period = none ∧
          (∀ e, (s.point p).low = .dip e →
            (t.point p).low = .dip { e with flags := { e.flags with timeStepped := true } }) ∧
          (∀ e, (s.point p).low = .interrupt e →
            (t.point p).low = .interrupt { e with flags := { e.flags with timeStepped := true } }) ∧
          (∀ e, (s.point p).high = .swell e →
            (t.point p).high = .swell { e with flags := { e.flags with timeStepped := true } }) ∧
          (t.point p).boundary = (s.point p).boundary ∧ (t.point p).limits = (s.point p).limits ∧
          (t.point p).measured = (s.point p).measured ∧ (t.point p).check = (s.point p).check) ∧
        (∀ p, (s.point p).measured = true → (t.point p).block = some .fresh ∧
          ∃ iv, (t.point p).interval = some iv ∧ iv.coverageStart = s.count ∧ iv.coverageEpoch = epoch ∧
            iv.base = epoch.toNat - epoch.toNat % s.setup.intervalTicks ∧ iv.epochUnset = false ∧
            iv.halfWindows = 0) ∧
        t = { s with
          control := t.control, points := t.points, builder := t.builder, attention := t.attention }) ∧
    (s.control.device = .holdup ∨ s.control.device = .standby →
      exec (.timeSet tag epoch) s = .next (s.offerReply 0x06 tag .refusedState .empty))

/-- R119, R120, R121: TRIGGER, its tests in order, and the capture it starts, which forms frames at once (`formAll`, of
which `CaptureFrameFormed` speaks). In INIT it is held. -/
def Obligations.TriggerJudged : Prop :=
  ∀ (s : State) (tag point : Byte),
    (s.control.device = .init → s.port.held = none →
      exec (.trigger tag point) s =
        .next { s with port := { s.port with held := some (.trigger tag point) } }) ∧
    (s.control.device = .stopped ∨ s.control.device = .holdup ∨ s.control.device = .standby →
      exec (.trigger tag point) s = .next (s.offerReply 0x07 tag .refusedState (.trigger none))) ∧
    (s.control.device = .running → 4 ≤ point.toNat →
      exec (.trigger tag point) s = .next (s.offerReply 0x07 tag .badIndex (.trigger none))) ∧
    ∀ p : Point, s.control.device = .running → point.toNat = p.val →
      ((s.point p).measured = false →
        exec (.trigger tag point) s = .next (s.offerReply 0x07 tag .notConfigured (.trigger none))) ∧
      ((s.point p).measured = true → s.capture.isSome = true ∨ s.shedding = .shed →
        exec (.trigger tag point) s = .next (s.offerReply 0x07 tag .busy (.trigger none))) ∧
      ((s.point p).measured = true → s.capture = none → s.shedding = .opened →
        ∃ c : RunningCapture, CaptureStarts s (s.eventTag + 1) p s.count c ∧
          exec (.trigger tag point) s =
            .next (({ s with eventTag := s.eventTag + 1, capture := some c }.formAll).offerReply 0x07 tag .done
              (.trigger (some (s.eventTag + 1)))))

/-- R113, R112, R109: CLOSE-ASSESSMENT outside INIT. A point code of FFh is ALL (R180). `summaries` are the summary
records, flagged EARLY, in order of point number. -/
def Obligations.AssessmentClosed : Prop :=
  ∀ (s : State) (tag point : Byte), s.control.device ≠ .init →
    (s.measuring = false →
      exec (.closeAssessment tag point) s = .next (s.offerReply 0x08 tag .refusedState .empty)) ∧
    (s.measuring = true → 4 ≤ point.toNat → point ≠ 0xFF →
      exec (.closeAssessment tag point) s = .next (s.offerReply 0x08 tag .badIndex .empty)) ∧
    (s.measuring = true →
      (∃ p : Point, point.toNat = p.val ∧ (s.point p).measured = false) ∨
        (point = 0xFF ∧ ∀ p, (s.point p).measured = false) →
      exec (.closeAssessment tag point) s = .next (s.offerReply 0x08 tag .notConfigured .empty)) ∧
    (s.measuring = true → ∀ named : List Point,
      (∃ p, point.toNat = p.val ∧ named = [p]) ∨
        (point = 0xFF ∧ named = ([0, 1, 2, 3] : List Point).filter (fun p => (s.point p).measured)) →
      named ≠ [] → (∀ p ∈ named, (s.point p).measured = true ∧ (s.point p).assessment.isSome = true) →
      ∃ t, ∃ summaries : List RecordBody, exec (.closeAssessment tag point) s = .next t ∧
        summaries = named.filterMap (fun p =>
          (s.point p).assessment.map (fun a => .summary (summaryRecord s p a true false))) ∧
        t.builder = (s.builder.offers summaries).offer
          (.reply { kind := 0x08, tag := tag, result := .done, tail := .empty }) ∧
        t.attention.isPending .assessmentClosed = true ∧ t.attention.isPending .replyReady = true ∧
        (∀ p ∈ named, t.point p = { s.point p with assessment := some (.fresh s.epochNow) }) ∧
        (∀ p, p ∉ named → t.point p = s.point p) ∧
        t = { s with points := t.points, builder := t.builder, attention := t.attention })

/-- R17: MODULE-COMMAND outside INIT: its tests in order, and its acceptance. -/
def Obligations.ModuleCommandJudged : Prop :=
  ∀ (s : State) (tag module : Byte) (word : BitVec 32),
    (s.control.device = .holdup ∨ s.control.device = .standby →
      exec (.moduleCommand tag module word) s =
        .next (s.offerReply 0x09 tag .refusedState (.moduleCommand module none))) ∧
    (s.control.device = .stopped ∨ s.control.device = .running →
      (4 ≤ module.toNat →
        exec (.moduleCommand tag module word) s =
          .next (s.offerReply 0x09 tag .badIndex (.moduleCommand module none))) ∧
      ∀ m : Module, module.toNat = m.val →
        ((s.module m).state ≠ .locked →
          exec (.moduleCommand tag module word) s =
            .next (s.offerReply 0x09 tag .moduleNotLocked (.moduleCommand module none))) ∧
        ((s.module m).state = .locked → (s.module m).command.isSome = true →
          exec (.moduleCommand tag module word) s =
            .next (s.offerReply 0x09 tag .busy (.moduleCommand module none))) ∧
        ((s.module m).state = .locked → (s.module m).command = none →
          exec (.moduleCommand tag module word) s =
            .next (s.modModule m (fun r => { r with
              command := some { tag := tag, word := word, sent := none } }))))

/-! ### Records -/

/-- R129, R131, R132, R133, R134: one offer to the Record Builder. R134, R123: the CRC register. R179, sections 12.4 and
12.6: the bytes of a record, most significant byte first, flags from bit 0, absent values all ones, the codes of the
enumerated fields, and the entries that a reply carries. Three bytes for which section 12.6 gives no code are left out
here: the command outstanding mark of MODULE STATUS, a reference phase of none, and STAY_STOPPED (log entry 33, DESIGN
CHOICE); and so is an event's window count that four bytes cannot hold (log entry 13). -/
def Obligations.RecordOffered : Prop :=
  (∀ (b : RecordBuilder) (body : RecordBody),
    (b.offer body).seq = b.seq + 1 ∧
    (b.queue.length < body.admission.limit →
      ∃ r : QueuedRecord, (b.offer body).queue = b.queue ++ [r] ∧ r.seq = b.seq ∧ r.withheld = b.withheld ∧
        r.body = body ∧ r.chain = crc16 b.chain (recordBytes b.seq b.withheld body) ∧
        (b.offer body).chain = r.chain ∧ (b.offer body).withheld = 0) ∧
    (body.admission.limit ≤ b.queue.length →
      (b.offer body).queue = b.queue ∧ (b.offer body).chain = b.chain ∧
      (b.withheld < 255 → (b.offer body).withheld = b.withheld + 1) ∧
      (b.withheld = 255 → (b.offer body).withheld = 255))) ∧
  (∀ e, (RecordBody.event e).admission.limit = 96) ∧ (∀ c, (RecordBody.closure c).admission.limit = 96) ∧
  (∀ c e u, (RecordBody.status (.reset c) e u).admission.limit = 96) ∧
  (∀ p e u, (RecordBody.status (.holdupEntered p) e u).admission.limit = 96) ∧
  (∀ e u, (RecordBody.status .standbyEntered e u).admission.limit = 96) ∧
  (∀ k e u, (∀ c, k ≠ .reset c) → (∀ p, k ≠ .holdupEntered p) → k ≠ .standbyEntered →
    (RecordBody.status k e u).admission.limit = 88) ∧
  (∀ i, (RecordBody.interval i).admission.limit = 88) ∧ (∀ r, (RecordBody.summary r).admission.limit = 88) ∧
  (∀ r, (RecordBody.reply r).admission.limit = 88) ∧ (∀ b, (RecordBody.block b).admission.limit = 64) ∧
  (∀ shift : Word → Word, (∀ r, shift r = if r.getLsbD 15 = true then (r <<< 1) ^^^ 0x1021 else r <<< 1) →
    ∀ (r : Word) (b : Byte) (rest : List Byte), crc16 r [] = r ∧
      crc16 r (b :: rest) = crc16 (shift (shift (shift (shift (shift (shift (shift (shift
        (r ^^^ (b ++ (0 : Byte))))))))))) rest) ∧
  (∀ len n i : Nat, (beBytes len n).length = len ∧
    (i < len → (beBytes len n)[i]? = some (BitVec.ofNat 8 (n / 256 ^ (len - 1 - i))))) ∧
  (∀ len n : Nat, optBytes len none = List.replicate len 0xFF ∧ optBytes len (some n) = beBytes len n) ∧
  (∀ bits : List Bool, bits.length ≤ 8 → ∀ n, (flagByte bits).getLsbD n = bits.getD n false) ∧
  (([.dip, .interruption, .swell] : List EventClass).map EventClass.code = [0, 1, 2] ∧
    ([.normal, .stop, .recorderSupply] : List EndCause).map EndCause.code = [0, 1, 2] ∧
    ([.taken, .shared, .notTakenBusy, .notTakenShed, .notTakenSupply] : List CaptureStatus).map
      CaptureStatus.code = [0, 1, 2, 3, 4] ∧
    ([.upstream, .downstream, .undetermined, .notAssessed] : List Origin).map Origin.code = [0, 1, 2, 3] ∧
    ([.complete, .truncatedShed, .truncatedSupply, .truncatedStop] : List EndReason).map EndReason.code =
      [0, 1, 2, 3] ∧
    ([.init, .stopped, .running, .holdup, .standby] : List DeviceState).map DeviceState.code = [0, 1, 2, 3, 4] ∧
    ([.done, .refusedState, .notConfigured, .invalidEntry, .badIndex, .busy, .noAnswer, .moduleNotLocked,
      .unknownKind] : List ReplyResult).map ReplyResult.code = [0, 1, 2, 3, 4, 5, 6, 7, 8] ∧
    ([.disabled, .seeking, .locked, .lost] : List ModuleState).map ModuleState.code = [0, 1, 2, 3] ∧
    ([.voltage, .current] : List ChannelKind).map ChannelKind.code = [0, 1] ∧
    ([.free, .track] : List BoundaryMode).map BoundaryMode.code = [0, 1] ∧
    ([.quiet, .dip, .interrupt] : List LowState).map LowState.code = [0, 1, 2] ∧
    ([.quiet, .swell] : List HighState).map HighState.code = [0, 1] ∧
    ([.none, .line0, .line1] : List Route).map Route.code = [0, 1, 2] ∧
    ([.levelHigh, .levelLow, .pulseHigh, .pulseLow] : List LineMode).map LineMode.code = [0, 1, 2, 3] ∧
    ([.w1, .w4, .w16, .w64] : List PulseWidth).map PulseWidth.code = [0, 1, 2, 3]) ∧
  (∀ r : QueuedRecord, r.bytes = recordBytes r.seq r.withheld r.body ++ beBytes 2 r.chain.toNat) ∧
  (∀ (seq : BitVec 32) (withheld : Nat) (head : Byte → List Byte),
    (∀ code, head code = [code] ++ beBytes 4 seq.toNat ++ beBytes 1 withheld) →
    (∀ e : EventRecord, e.windows < 2 ^ 32 → e.blindWindows < 2 ^ 32 →
      recordBytes seq withheld (.event e) = head 0x00 ++ (
        beBytes 2 e.tag.toNat ++ [e.eventClass.code] ++ beBytes 1 e.point.val ++ beBytes 6 e.startEpoch.toNat ++
        [flagByte [e.epochUnset, e.flags.freeSeen, e.flags.clippedSeen, e.flags.heldSeen, e.flags.timeStepped]] ++
        beBytes 6 e.duration.toNat ++ beBytes 4 e.extreme ++ beBytes 1 e.extremePhase ++ [e.phases.setWidth 8] ++
        beBytes 4 e.windows ++ beBytes 4 e.blindWindows ++ [e.endCause.code, e.captureStatus.code] ++
        optBytes 3 (e.captureTag.map BitVec.toNat) ++ [e.origin.code] ++ optBytes 3 e.ratio)) ∧
    (∀ c : ClosureRecord, recordBytes seq withheld (.closure c) = head 0x01 ++ (
      beBytes 2 c.tag.toNat ++ beBytes 1 c.point.val ++ beBytes 6 c.triggerEpoch.toNat ++ beBytes 2 c.preCount ++
      beBytes 2 c.delivered ++ [c.reason.code] ++ beBytes 2 c.crc.toNat)) ∧
    (∀ (epoch : Tick) (unset : Bool) (status : Byte → List Byte),
      (∀ code, status code = head 0x02 ++ [code] ++ beBytes 6 epoch.toNat ++ [flagByte [unset]]) →
      recordBytes seq withheld (.status (.reset .powerOn) epoch unset) = status 0x00 ++ [0] ∧
      recordBytes seq withheld (.status (.reset .resetPin) epoch unset) = status 0x00 ++ [1] ∧
      (∀ points : BitVec 4, recordBytes seq withheld (.status (.started points) epoch unset) =
        status 0x01 ++ [points.setWidth 8]) ∧
      recordBytes seq withheld (.status .stopped epoch unset) = status 0x02 ∧
      (∀ m : Module, recordBytes seq withheld (.status (.moduleLocked m) epoch unset) =
          status 0x03 ++ [BitVec.ofNat 8 m.val] ∧
        recordBytes seq withheld (.status (.moduleLost m) epoch unset) = status 0x04 ++ [BitVec.ofNat 8 m.val]) ∧
      (∀ (c : Channel) (p phase : Nat),
        recordBytes seq withheld (.status (.leadOpen c p phase) epoch unset) =
          status 0x05 ++ [BitVec.ofNat 8 c.val, BitVec.ofNat 8 p, BitVec.ofNat 8 phase] ∧
        recordBytes seq withheld (.status (.leadRestored c p phase) epoch unset) =
          status 0x06 ++ [BitVec.ofNat 8 c.val, BitVec.ofNat 8 p, BitVec.ofNat 8 phase]) ∧
      (∀ p : Point, recordBytes seq withheld (.status (.limitsInstalled p) epoch unset) =
        status 0x07 ++ [BitVec.ofNat 8 p.val]) ∧
      (∀ old new : Tick, recordBytes seq withheld (.status (.timeStepped old new) epoch unset) =
        status 0x08 ++ beBytes 6 old.toNat ++ beBytes 6 new.toNat) ∧
      (∀ prior : DeviceState, recordBytes seq withheld (.status (.holdupEntered prior) epoch unset) =
        status 0x09 ++ [prior.code]) ∧
      (∀ (d : Tick) (returned : DeviceState),
        recordBytes seq withheld (.status (.supplyRestored d returned) epoch unset) =
          status 0x0A ++ beBytes 6 d.toNat ++ [returned.code]) ∧
      recordBytes seq withheld (.status .standbyEntered epoch unset) = status 0x0B) ∧
    (∀ r : IntervalRecord, recordBytes seq withheld (.interval r) = head 0x03 ++ (
      beBytes 1 r.point.val ++ beBytes 6 r.startEpoch.toNat ++ beBytes 4 r.length.toNat ++
      [flagByte [r.flags.disturbed, r.flags.short, r.flags.timeStepped, r.flags.stopped, r.flags.epochUnset]] ++
      beBytes 4 r.halfWindows ++ beBytes 4 r.blindHalfWindows ++ beBytes 1 r.channels.length ++
      r.channels.flatMap (fun c => beBytes 1 c.channel.val ++ optBytes 4 c.value ++ optBytes 4 c.least ++
        optBytes 4 c.greatest ++ beBytes 4 c.held ++ beBytes 4 c.clipped ++ beBytes 4 c.opened) ++
      (beBytes 2 r.frequency.valid ++ optBytes 4 r.frequency.mean ++ optBytes 4 r.frequency.least ++
        optBytes 4 r.frequency.greatest ++ beBytes 2 r.frequency.outOfBand))) ∧
    (∀ r : SummaryRecord, recordBytes seq withheld (.summary r) = head 0x04 ++ (
      beBytes 1 r.point.val ++ beBytes 6 r.startEpoch.toNat ++ beBytes 2 r.closedIntervals ++
      [flagByte [r.flags.early, r.flags.stopped, r.flags.timeStepped, r.flags.epochUnset]] ++
      ([r.phase1, r.phase2, r.phase3].flatMap (fun x => match x with
        | none => List.replicate 6 0xFF
        | some n => beBytes 2 n.evaluated ++ beBytes 2 n.below ++ beBytes 2 n.above)) ++
      beBytes 4 r.freqEvaluated ++ beBytes 4 r.freqOutside ++
      beBytes 2 r.dips ++ beBytes 2 r.interruptions ++ beBytes 2 r.swells)) ∧
    (∀ (kind tag : Byte) (result : ReplyResult) (reply : ReplyTail → List Byte),
      (∀ tail, reply tail = recordBytes seq withheld
        (.reply { kind := kind, tag := tag, result := result, tail := tail })) →
      reply .empty = head 0x05 ++ [kind, tag, result.code] ∧
      (∀ table index entry, reply (.tableWrite table index (some entry)) =
        head 0x05 ++ [kind, tag, result.code, table, index] ++ entry.bytes) ∧
      (∀ table index, reply (.tableWrite table index none) = head 0x05 ++ [kind, tag, result.code, table, index] ++
        List.replicate ((([25, 18, 24, 14] : List Nat)[table.toNat]?).getD 0) 0xFF) ∧
      (∀ table first count entries, reply (.tableRead table first count entries) =
        head 0x05 ++ [kind, tag, result.code, table, first, count] ++ entries.flatMap TableEntry.bytes) ∧
      (∀ (m : Byte) (word : Option (BitVec 32)), reply (.moduleCommand m word) =
        head 0x05 ++ [kind, tag, result.code, m] ++ optBytes 4 (word.map BitVec.toNat)) ∧
      ∀ x : Option Word, reply (.trigger x) =
        head 0x05 ++ [kind, tag, result.code] ++ optBytes 3 (x.map BitVec.toNat)) ∧
    ∀ b : BlockRecord, recordBytes seq withheld (.block b) = head 0x06 ++ (
      beBytes 1 b.point.val ++ beBytes 6 b.startEpoch.toNat ++ beBytes 1 b.halfWindows ++
      [flagByte [b.disturbed, b.short, b.blind]] ++ beBytes 1 b.channels.length ++
      b.channels.flatMap (fun c => beBytes 1 c.channel.val ++ optBytes 4 c.value))) ∧
  (∀ e : Setup, e.restart = .resume → (TableEntry.setup e).bytes =
    [if e.nominal = .hz50 then 50 else 60] ++ beBytes 2 e.intervalLength ++ beBytes 2 e.assessmentLength ++
    [e.blockPoints.setWidth 8] ++ beBytes 2 e.leadPeriod ++ beBytes 1 e.missLimit ++ [e.moduleEnable.setWidth 8] ++
    beBytes 2 e.holdupLimit ++ beBytes 1 e.debounce ++ [0x01] ++ beBytes 2 e.preTrigger ++
    beBytes 2 e.postTrigger ++ beBytes 1 e.highMark ++ beBytes 1 e.lowMark ++ beBytes 2 e.originRise ++
    beBytes 3 e.originMinimum) ∧
  (∀ e : MapEntry, (TableEntry.channelMap e).bytes =
    [flagByte [e.enabled, e.leadCheck]] ++ beBytes 1 e.module ++ beBytes 1 e.slot ++ [e.kind.code] ++
    beBytes 1 e.point ++ beBytes 1 e.phase ++ beBytes 2 e.offset.toNat ++ beBytes 3 e.gain ++ beBytes 1 e.delay ++
    beBytes 3 e.level.toNat ++ beBytes 3 e.band) ∧
  (∀ e : LimitsEntry, (TableEntry.limits e).bytes =
    beBytes 3 e.declared ++ beBytes 2 e.dip ++ beBytes 2 e.swell ++ beBytes 2 e.interruption ++
    beBytes 2 e.hysteresis ++ beBytes 2 e.lowerBand ++ beBytes 2 e.upperBand ++ beBytes 3 e.freqLower ++
    beBytes 3 e.freqUpper ++ beBytes 3 e.crossing) ∧
  (∀ e : Routing, (TableEntry.routing e).bytes =
    ([.eventOnset, .eventEnd, .captureDone, .intervalClosed, .assessmentClosed, .moduleState, .leadState,
      .queueHigh, .supply, .replyReady] : List AttnClass).map (fun k => (e.route k).code) ++
    [(e.config .line0).mode.code, (e.config .line0).width.code,
     (e.config .line1).mode.code, (e.config .line1).width.code]) ∧
  (∀ e : ModuleStatus, ∃ mark : Byte, (TableEntry.moduleStatus e).bytes =
    [e.state.code] ++ beBytes 1 e.missCount ++ beBytes 1 e.goodRun ++ beBytes 2 e.checkFailures ++
    beBytes 2 e.staleFrames ++ [mark]) ∧
  ∀ (e : PointStatus) (phase : Nat), e.reference = some phase → (TableEntry.pointStatus e).bytes =
    [flagByte [e.measured, e.configured, e.pendingLimits], e.low.code, e.high.code] ++
    optBytes 3 (e.lowTag.map BitVec.toNat) ++ optBytes 3 (e.highTag.map BitVec.toNat) ++ [e.mode.code] ++
    beBytes 1 e.halfCount ++ beBytes 1 phase ++ beBytes 1 e.channels.length ++
    e.channels.flatMap (fun c => beBytes 1 c.channel ++ [c.kind.code] ++ beBytes 1 c.phase ++
      [(match c.lead with | .notChecked => (0 : Byte) | .connected => 1 | .suspect => 2 | .opened => 3) +
        if c.due then 0x80 else 0])

/-- R135: only an admission from 63 to 64 raises QUEUE_HIGH, each time; from there class C is refused; the removal of a
record, by which the occupancy falls, raises nothing. -/
def Obligations.QueueHighRaised : Prop :=
  (∀ (s : State) (body : RecordBody),
    (s.builder.queue.length = 63 →
      (s.offer body).builder.queue.length = 64 ∧
      s.offer body = { s with builder := s.builder.offer body }.raise .queueHigh) ∧
    (s.builder.queue.length ≠ 63 → s.offer body = { s with builder := s.builder.offer body }) ∧
    (s.builder.queue.length = 64 → body.admission = .c → (s.offer body).builder.queue = s.builder.queue)) ∧
  ∀ s : State, s.removeHead .record =
    { s with builder := { s.builder with queue := s.builder.queue.tail } }

/-! ### Measurement -/

/-- R61: the integer square root, and the three places where it is taken: window, block and interval mean squares. -/
def Obligations.RootExact : Prop :=
  (∀ m : Nat, intRoot m * intRoot m ≤ m ∧ ∀ r, r * r ≤ m → r ≤ intRoot m) ∧
  intRoot 0 = 0 ∧ (∀ m : Nat, m ≤ 2 ^ 46 → intRoot m ≤ 8388608) ∧
  (∀ (c : Channel) (r : ChannelRecord) (free : Bool) (v : Nat), (windowValue c r free).value = some v →
    v = scaleRoot (intRoot ((r.previous.q + r.current.q) / (r.previous.n + r.current.n))) r.entry.gain) ∧
  (∀ (s : State) (p : Point) (b : Block) (x : BlockChannel) (v : Nat),
    x ∈ (blockRecord s p b).channels → x.value = some v →
    v = scaleRoot (intRoot ((b.sums[x.channel.val]).q / (b.sums[x.channel.val]).n))
      (s.channel x.channel).entry.gain) ∧
  ∀ (s : State) (p : Point) (iv : Interval) (e : Tick) (stopped : Bool) (x : IntervalChannel) (v : Nat),
    x ∈ (intervalRecord s p iv e stopped).channels → x.value = some v →
    v = scaleRoot (intRoot ((iv.sums[x.channel.val]).sum / (iv.sums[x.channel.val]).count))
      (s.channel x.channel).entry.gain

/-- R47: the crossing offset of a positive crossing from code `y` to code `x`. -/
def Obligations.CrossingOffset : Prop :=
  ∀ y x : Int, -8388608 ≤ y → y < 0 → 0 ≤ x → x ≤ 8388607 →
    (crossingOffset y x : Int) = 256 * -y / (x - y) ∧ crossingOffset y x ≤ 256 ∧
    (crossingOffset y x = 256 ↔ x = 0) ∧ 0 < -y ∧ -y ≤ 8388608 ∧ 0 < x - y ∧ x - y ≤ 16777215

/-- R58, R59, R60, R62: the window value of a channel from its two tallies. R23, R56: the corrected code of a sample,
what a sample adds to a tally by its marks, and the delivery of a set, which adds the sample of each enabled channel of
the point and takes the Boundary Unit on, and then, exactly where that closes a half-window, is its closing. R57, R63: a closing hands the trackers a window result with one value for each channel of the point, formed
before the tallies are rotated, when the pair flag is set, and no result when it is clear; it makes the current tallies
the previous ones, zeroes them, keeps its free mark and sets the pair flag. -/
def Obligations.WindowValueFormed : Prop :=
  (∀ (c : Channel) (r : ChannelRecord) (free : Bool),
    (0 < r.previous.unavailable ∨ 0 < r.current.unavailable ∨ 16 < r.previous.held + r.current.held →
      (windowValue c r free).quality = .unavailable ∧ (windowValue c r free).value = none) ∧
    (r.previous.unavailable = 0 → r.current.unavailable = 0 → r.previous.held + r.current.held ≤ 16 →
      (windowValue c r free).quality = (if r.previous.held + r.current.held = 0 then .good else .held) ∧
      ∃ root, root * root ≤ (r.previous.q + r.current.q) / (r.previous.n + r.current.n) ∧
        (r.previous.q + r.current.q) / (r.previous.n + r.current.n) < (root + 1) * (root + 1) ∧
        (windowValue c r free).value = some (min 16777215 ((root * r.entry.gain + 524288) / 1048576))) ∧
    ((windowValue c r free).clipped = true ↔ 0 < r.previous.clipped ∨ 0 < r.current.clipped) ∧
    ((windowValue c r free).opened = true ↔ r.lead = .opened) ∧
    (windowValue c r free).free = free ∧ (windowValue c r free).channel = c ∧
    (windowValue c r free).kind = r.entry.kind ∧ (windowValue c r free).phase = r.entry.phase) ∧
  (∀ (code : Code) (offset : BitVec 16),
    correctedCode code offset = max (-8388608) (min 8388607 (code.toInt - offset.toInt))) ∧
  (∀ (y : Tally) (x : Int) (v : SlotValue),
    (v.unavailable = true → y.add x v = { y with unavailable := y.unavailable + 1 }) ∧
    (v.unavailable = false → y.add x v = { y with
      q := y.q + (x * x).toNat, n := y.n + 1, held := y.held + (if v.held then 1 else 0)
      clipped := y.clipped + (if v.clipped then 1 else 0) })) ∧
  (∀ (s : State) (p : Point) (t : Tick) (set : SampleSet) (changed : Bool) (cut : Option Closing) (c : Channel),
    cut = ((s.point p).boundary.step (s.point p).limits.crossing changed (s.referenceCode p set)).2 →
    (¬((s.channel c).entry.enabled = true ∧ (s.channel c).entry.point = p.val) →
      (s.deliver t set p changed).channel c = s.channel c) ∧
    ((s.channel c).entry.enabled = true → (s.channel c).entry.point = p.val →
      ∀ (m : Module) (k : Slot) (added : Tally), (s.channel c).entry.module = m.val →
        (s.channel c).entry.slot = k.val →
        added = (s.channel c).current.add
          (correctedCode (set[m.val])[k.val].code (s.channel c).entry.offset) (set[m.val])[k.val] →
        (cut = none → (s.deliver t set p changed).channel c = { s.channel c with current := added }) ∧
        (cut ≠ none → ((s.deliver t set p changed).channel c).previous = added ∧
          ((s.deliver t set p changed).channel c).current = .zero))) ∧
  (∀ (s : State) (p : Point) (t : Tick) (set : SampleSet) (changed : Bool) (cut : Boundary × Option Closing),
    cut = (s.point p).boundary.step (s.point p).limits.crossing changed (s.referenceCode p set) →
    ∃ u : State,
      u.point p = { (s.advancePeriod p t).point p with boundary := cut.1, period := (u.point p).period } ∧
      (∀ q, q ≠ p → u.point q = s.point q) ∧
      (∀ c, ¬((s.channel c).entry.enabled = true ∧ (s.channel c).entry.point = p.val) →
        u.channel c = s.channel c) ∧
      (∀ c, u.channel c = { s.channel c with current := (u.channel c).current }) ∧
      (∀ (c : Channel) (m : Module) (k : Slot), (s.channel c).entry.enabled = true →
        (s.channel c).entry.point = p.val → (s.channel c).entry.module = m.val → (s.channel c).entry.slot = k.val →
        (u.channel c).current = (s.channel c).current.add
          (correctedCode (set[m.val])[k.val].code (s.channel c).entry.offset) (set[m.val])[k.val]) ∧
      u = { s with points := u.points, channels := u.channels } ∧
      (cut.2 = none → s.deliver t set p changed = u) ∧
      ∀ k, cut.2 = some k → s.deliver t set p changed = u.closeHalf p t k) ∧
  ∀ (s : State) (p : Point) (t : Tick) (k : Closing),
    ((s.closeHalf p t k).point p).pairFlag = true ∧ ((s.closeHalf p t k).point p).previousFree = k.free ∧
    ((s.point p).pairFlag = false →
      ((s.closeHalf p t k).point p).low = (s.point p).low ∧
      ((s.closeHalf p t k).point p).high = (s.point p).high) ∧
    ((s.point p).pairFlag = true → ∃ r : WindowResult, r.tick = t ∧ r.free = (k.free || (s.point p).previousFree) ∧
      r.values = (s.channelsOf p).map (fun c => windowValue c (s.channel c) r.free) ∧
      ((s.closeHalf p t k).point p).low = (((s.rotate p k.free).takeResult p r).point p).low ∧
      ((s.closeHalf p t k).point p).high = (((s.rotate p k.free).takeResult p r).point p).high)

/-- R38, R39: the crossing of a set from code `y` to code `z`, with arming hysteresis `h`, and the arming marks after
the set; a set without a predecessor finds both sides armed and no crossing. R27: the reference whose codes are tested
is the lowest phase with an enabled voltage channel, a slot not unavailable in the set, and a lead that is not OPEN.
An expiry chooses it for the set that closes, in every state after INIT. R28: a set delivered with a reference change
puts the Boundary Unit into FREE with its count going on, arms both sides, and makes the frequency period invalid; an
expiry delivers its set so exactly when the reference it chose is another (also `ExpiryWritesHistory`). -/
def Obligations.CrossingsArmed : Prop :=
  (∀ (b : Boundary) (h : Nat) (y z : Int), b.before = some y →
    (b.crossingAt (some z) = some .positive ↔ b.armedPositive = true ∧ y < 0 ∧ 0 ≤ z) ∧
    (b.crossingAt (some z) = some .negative ↔ b.armedNegative = true ∧ 0 ≤ y ∧ z < 0) ∧
    ((b.step h false (some z)).1.armedPositive = true ↔
      (b.armedPositive = true ∧ b.crossingAt (some z) ≠ some .positive) ∨ z ≤ -(h : Int)) ∧
    ((b.step h false (some z)).1.armedNegative = true ↔
      (b.armedNegative = true ∧ b.crossingAt (some z) ≠ some .negative) ∨ (h : Int) ≤ z) ∧
    (b.step h false (some z)).1.before = some z) ∧
  (∀ (b : Boundary) (h : Nat) (changed : Bool) (x : Option Int), changed = true ∨ b.before = none →
    (b.prepare changed).crossingAt x = none ∧
    (b.step h changed x).1.armedPositive = true ∧ (b.step h changed x).1.armedNegative = true ∧
    (b.step h changed x).1.before = x) ∧
  (∀ (s : State) (p : Point) (phase : Nat),
    (∀ c, s.voltageOf p phase = some c →
      (s.channel c).entry.enabled = true ∧ (s.channel c).entry.point = p.val ∧
      (s.channel c).entry.kind = .voltage ∧ (s.channel c).entry.phase = phase) ∧
    (s.voltageOf p phase = none → ∀ c, (s.channel c).entry.enabled = true → (s.channel c).entry.point = p.val →
      (s.channel c).entry.kind = .voltage → (s.channel c).entry.phase ≠ phase)) ∧
  (∀ (s : State) (p : Point) (set : SampleSet) (fits : Nat → Prop),
    (∀ phase, fits phase ↔ ∃ (c : Channel) (m : Module) (k : Slot), s.voltageOf p phase = some c ∧
      (s.channel c).entry.module = m.val ∧ (s.channel c).entry.slot = k.val ∧
      (set[m.val])[k.val].unavailable = false ∧ (s.channel c).lead ≠ .opened) →
    (∀ phase, s.chooseReference p set = some phase ↔
      1 ≤ phase ∧ phase ≤ 3 ∧ fits phase ∧ ∀ lower, 1 ≤ lower → lower < phase → ¬fits lower) ∧
    (s.chooseReference p set = none ↔ ∀ phase, 1 ≤ phase → phase ≤ 3 → ¬fits phase)) ∧
  (∀ (s : State) (set : SampleSet),
    (s.control.device = .init → s.chooseReferences set = s) ∧
    (s.control.device ≠ .init →
      (∀ p, (s.chooseReferences set).point p = { s.point p with reference := s.chooseReference p set }) ∧
      s.chooseReferences set = { s with points := (s.chooseReferences set).points }) ∧
    ∀ p : Point, (s.referenceChanges set)[p.val] = true ↔ s.chooseReference p set ≠ (s.point p).reference) ∧
  (∀ (s : State) (sfi : SupplyLevel) (o : Interleaving), StaysPowered s →
    ∃ (t : State) (set : SampleSet), exec (.strobeTimerExpiry sfi o) s = .next t ∧ ClosesWith s set ∧
      (s.control.device = .init → ∀ p, (t.point p).reference = (s.point p).reference) ∧
      (s.control.device ≠ .init → ∀ p, (t.point p).reference = s.chooseReference p set) ∧
      ∀ p, s.measuring = true → (s.point p).measured = true →
        s.chooseReference p set ≠ (s.point p).reference →
        (t.point p).boundary.mode = .free ∧
        (t.point p).boundary.count =
          (if (s.point p).boundary.count + 1 < 128 then (s.point p).boundary.count + 1 else 0) ∧
        (t.point p).boundary.armedPositive = true ∧ (t.point p).boundary.armedNegative = true ∧
        ∃ q, (t.point p).period = some q ∧ q.valid = false) ∧
  ∀ (s : State) (t : Tick) (set : SampleSet) (p : Point) (changed : Bool),
    ((s.deliver t set p changed).point p).boundary =
      ((s.point p).boundary.step (s.point p).limits.crossing changed (s.referenceCode p set)).1 ∧
    (changed = true →
      ((s.deliver t set p changed).point p).boundary =
        { mode := .free,
          count := if (s.point p).boundary.count + 1 < 128 then (s.point p).boundary.count + 1 else 0,
          armedPositive := true, armedNegative := true, before := s.referenceCode p set } ∧
      ∃ q, ((s.deliver t set p changed).point p).period = some q ∧ q.valid = false)

/-- R41 to R45: when the half-window in progress closes, by the mode, the crossing and the count. -/
def Obligations.BoundaryCuts : Prop :=
  ∀ (b : Boundary) (h : Nat) (x : Option Int), ∀ crossing, crossing = (b.prepare false).crossingAt x →
    (∀ expected, b.mode = .track expected →
      (crossing = some expected → 96 ≤ b.count + 1 →
        (b.step h false x).1.mode = .track expected.opposite ∧ (b.step h false x).1.count = 0 ∧
        (b.step h false x).2 =
          some { count := b.count + 1, free := false, crossing := crossing, tracked := true }) ∧
      (crossing ≠ some expected ∨ b.count + 1 < 96 → b.count + 1 < 160 →
        (b.step h false x).1.mode = .track expected ∧ (b.step h false x).1.count = b.count + 1 ∧
        (b.step h false x).2 = none) ∧
      (crossing ≠ some expected → 160 ≤ b.count + 1 →
        (b.step h false x).1.mode = .free ∧ (b.step h false x).1.count = 0 ∧
        (b.step h false x).2 =
          some { count := b.count + 1, free := true, crossing := none, tracked := false })) ∧
    (b.mode = .free →
      (∀ polarity, crossing = some polarity → 32 ≤ b.count + 1 →
        (b.step h false x).1.mode = .track polarity.opposite ∧ (b.step h false x).1.count = 0 ∧
        (b.step h false x).2 =
          some { count := b.count + 1, free := true, crossing := crossing, tracked := false }) ∧
      ((crossing ≠ none ∧ b.count + 1 < 32) ∨ (crossing = none ∧ b.count + 1 < 128) →
        (b.step h false x).1.mode = .free ∧ (b.step h false x).1.count = b.count + 1 ∧
        (b.step h false x).2 = none) ∧
      (crossing = none → 128 ≤ b.count + 1 →
        (b.step h false x).1.mode = .free ∧ (b.step h false x).1.count = 0 ∧
        (b.step h false x).2 =
          some { count := b.count + 1, free := true, crossing := none, tracked := false })) ∧
    (b.count + 1 < 128 →
      (b.step h true x).1.mode = .free ∧ (b.step h true x).1.count = b.count + 1 ∧ (b.step h true x).2 = none) ∧
    (128 ≤ b.count + 1 →
      (b.step h true x).1.mode = .free ∧ (b.step h true x).1.count = 0 ∧
      (b.step h true x).2 =
        some { count := b.count + 1, free := true, crossing := none, tracked := false })

/-- R76, R77 to R82, R85, R86: the low tracker at a window result. `vmin` and `vmax` are the least and greatest value
of the usable phases; `answer` is the Capture Engine's answer to an onset (R118), by which the event takes its capture
status and tag; `EventOpens` and `EventGrows` list the fields of an event that opens and of one that goes on. An event
that closes makes its record from the fields as this result leaves them, and is counted in the point's assessment
(R111). R68, R69, R90 to R93: the origin work of its event, begun at the onset and decided at the next
result; a capture that the onset takes forms frames at once (R118, R120, R121); the reference of a ring, the ratio, and
the origin by its tests, where `next` is absent at a forced end and `f` and `g` are the reference and onset current of
each channel; and what joins a ring. -/
def Obligations.LowTrackerMoves : Prop :=
  (∀ (r : WindowResult) (phase v : Nat), (phase, v) ∈ r.usable ↔ ∃ w ∈ r.values,
    w.kind = .voltage ∧ w.quality ≠ .unavailable ∧ w.opened = false ∧ w.phase = phase ∧ w.value = some v) ∧
  (∀ (s : State) (p : Point) (r : WindowResult) (answer : CaptureStatus),
    answer = (if s.control.device = .holdup then .notTakenSupply
      else if s.capture.isSome then .notTakenBusy
      else if s.shedding = .shed then .notTakenShed
      else .taken) →
    (s.lowStep p r).point p = { s.point p with
      low := ((s.lowStep p r).point p).low, assessment := ((s.lowStep p r).point p).assessment } ∧
    (∀ q, q ≠ p → (s.lowStep p r).point q = s.point q) ∧
    s.lowStep p r = { s with
      points := (s.lowStep p r).points, eventTag := (s.lowStep p r).eventTag, capture := (s.lowStep p r).capture
      captureQueue := (s.lowStep p r).captureQueue, shedding := (s.lowStep p r).shedding
      builder := (s.lowStep p r).builder, attention := (s.lowStep p r).attention } ∧
    (r.usable = [] →
      ((s.lowStep p r).point p).low.state = (s.point p).low.state ∧
      s.lowStep p r = { s with points := (s.lowStep p r).points } ∧
      ∀ e, (s.point p).low.event = some e → ((s.lowStep p r).point p).low.event = some { e with
        blindWindows := e.blindWindows + 1
        work := .decided (e.judge s.setup (some r)).1 (e.judge s.setup (some r)).2 }) ∧
    ∀ (vmin vmax : Nat) (th : Thresholds), th = (s.point p).thresholds →
      (∃ u ∈ r.usable, u.2 = vmin) → (∃ u ∈ r.usable, u.2 = vmax) →
      (∀ u ∈ r.usable, vmin ≤ u.2 ∧ u.2 ≤ vmax) →
      ((s.point p).low = .quiet →
        (vmin < th.dipStart → ∃ e, ((s.lowStep p r).point p).low =
            (if vmax < th.intStart then .interrupt e else .dip e) ∧
          EventOpens s r vmin (fun v => v < th.dipStart) e ∧ (s.lowStep p r).eventTag = e.tag ∧
          e.eventClass = (if vmax < th.intStart then .interruption else .dip) ∧
          e.captureStatus = answer ∧ e.captureTag = (if answer = .taken then some e.tag else none) ∧
          (answer = .taken → ∃ c : RunningCapture, CaptureStarts s e.tag p r.tick c ∧
            SameEngine { s with eventTag := e.tag, capture := some c }.formAll (s.lowStep p r)) ∧
          (answer ≠ .taken → SameEngine s (s.lowStep p r)) ∧
          e.work = .gathering ((s.currentsOf p).map (fun c =>
            { channel := c, reference := ringReference (s.channel c).ring, onset := r.valueOf c })) ∧
          (s.lowStep p r).attention.isPending .eventOnset = true) ∧
        (th.dipStart ≤ vmin → s.lowStep p r = s)) ∧
      ∀ e, (s.point p).low.event = some e → ∃ e' : OpenEvent,
        EventGrows r vmin (vmin < e.extreme) (fun v => v < th.dipStart) e e' ∧
        e'.work = .decided (e.judge s.setup (some r)).1 (e.judge s.setup (some r)).2 ∧
        (∀ closes : Prop,
          (closes ↔ th.dipEnd ≤ vmin ∧ ((s.point p).low = .interrupt e ∨ th.intStart ≤ vmax)) →
          (closes → ((s.lowStep p r).point p).low = .quiet ∧ e'.eventClass = e.eventClass ∧
            (s.lowStep p r).attention.isPending .eventEnd = true ∧
            CountsEvent e.eventClass (s.point p).assessment ((s.lowStep p r).point p).assessment ∧
            ∃ rec, (s.lowStep p r).builder = s.builder.offer (.event rec) ∧ ClosesNormal p r e' rec ∧
              (rec.origin, rec.ratio) = e.judge s.setup (some r)) ∧
          (¬closes → SameEngine s (s.lowStep p r) ∧
            ((s.lowStep p r).point p).assessment = (s.point p).assessment)) ∧
        ((s.point p).low = .dip e →
          (vmax < th.intStart → ((s.lowStep p r).point p).low = .interrupt e' ∧ e'.eventClass = .interruption) ∧
          (th.intStart ≤ vmax → vmin < th.dipEnd →
            ((s.lowStep p r).point p).low = .dip e' ∧ e'.eventClass = e.eventClass)) ∧
        ((s.point p).low = .interrupt e →
          (vmin < th.dipEnd → th.intEnd ≤ vmax →
            ((s.lowStep p r).point p).low = .dip e' ∧ e'.eventClass = e.eventClass) ∧
          (vmin < th.dipEnd → vmax < th.intEnd →
            ((s.lowStep p r).point p).low = .interrupt e' ∧ e'.eventClass = e.eventClass))) ∧
  (∀ (e : OpenEvent) (u : Setup) (next : Option WindowResult),
    (∀ notes, e.work = .gathering notes → e.judge u next = decideOrigin u notes next) ∧
    ∀ origin ratio, e.work = .decided origin ratio → e.judge u next = (origin, ratio)) ∧
  (∀ ring : List Nat,
    (ring.length < 8 → ringReference ring = none) ∧ (ring.length = 8 → ringReference ring = some (ring.sum / 8))) ∧
  (∀ onset reference : Nat,
    (0 < reference → originRatio onset reference = min 65535 (onset * 256 / reference)) ∧
    (reference = 0 → 0 < onset → originRatio onset reference = 65535) ∧ originRatio 0 0 = 256) ∧
  (∀ n : OriginNote, n.current none = n.onset ∧
    (∀ r a b, n.onset = some a → r.valueOf n.channel = some b → n.current (some r) = some (max a b)) ∧
    ∀ r, n.onset = none ∨ r.valueOf n.channel = none → n.current (some r) = none) ∧
  (∀ (u : Setup) (notes : List OriginNote) (next : Option WindowResult),
    decideOrigin u [] next = (.notAssessed, none) ∧
    ((∃ n ∈ notes, n.reference = none ∨ n.current next = none) →
      decideOrigin u notes next = (.undetermined, none)) ∧
    ∀ f g : OriginNote → Nat, notes ≠ [] →
      (∀ n ∈ notes, n.reference = some (f n) ∧ n.current next = some (g n)) →
      ∃ ratio, (∃ n ∈ notes, ratio = originRatio (g n) (f n)) ∧ (∀ n ∈ notes, originRatio (g n) (f n) ≤ ratio) ∧
        ((∃ n ∈ notes, 256 + u.originRise ≤ originRatio (g n) (f n) ∧ u.originMinimum ≤ g n) →
          decideOrigin u notes next = (.downstream, some ratio)) ∧
        ((∀ n ∈ notes, originRatio (g n) (f n) < 256 + u.originRise ∨ g n < u.originMinimum) →
          decideOrigin u notes next = (.upstream, some ratio))) ∧
  ∀ (s : State) (p : Point) (r : WindowResult) (c : Channel) (joins : Prop),
    (joins ↔ (s.point p).low = .quiet ∧ ((s.takeResult p r).point p).low = .quiet ∧
      (s.channel c).entry.enabled = true ∧ (s.channel c).entry.point = p.val ∧ (s.channel c).entry.kind = .current) →
    (∀ v, joins → r.valueOf c = some v →
      ((s.channel c).ring.length < 8 → ((s.takeResult p r).channel c).ring = (s.channel c).ring ++ [v]) ∧
      ((s.channel c).ring.length = 8 → ((s.takeResult p r).channel c).ring = (s.channel c).ring.tail ++ [v])) ∧
    (¬joins ∨ r.valueOf c = none → ((s.takeResult p r).channel c).ring = (s.channel c).ring)

/-- R77, R83 to R86: the high tracker at a window result; `low` is the event the low tracker opened at the same one. A
blind window adds to the blind window count of an open swell alone. `answer` is the Capture Engine's answer to an onset
(R118). A capture that its onset takes forms frames at once (R118, R120, R121). A swell that closes makes its record
from the fields as this result leaves them, and is counted in the point's assessment (R111). R63, R81, R85: a window
result goes to the low tracker and then, with the event that this one has
just opened, to the high tracker; R32: a low tracker that leaves QUIET at it withdraws the point's unsent check, and the
channel stays due. What else a result does is the installation of pending limits (`LimitsWritten`) and the rings
(`LowTrackerMoves`). -/
def Obligations.HighTrackerMoves : Prop :=
  (∀ (s : State) (p : Point) (r : WindowResult) (low : Option OpenEvent), r.usable = [] →
    ((s.point p).high = .quiet → s.highStep p r low = s) ∧
    ∀ e, (s.point p).high = .swell e → s.highStep p r low = s.modPoint p (fun pt =>
      { pt with high := .swell { e with blindWindows := e.blindWindows + 1 } })) ∧
  (∀ (s u t : State) (p : Point) (r : WindowResult) (low : Option OpenEvent),
    ((s.point p).low = .quiet → low = ((s.lowStep p r).point p).low.event) →
    ((s.point p).low ≠ .quiet → low = none) →
    u = (s.lowStep p r).highStep p r low → t = s.takeResult p r →
    t.point p = { u.point p with
      check := (t.point p).check, limits := (t.point p).limits, thresholds := (t.point p).thresholds
      pendingLimits := (t.point p).pendingLimits } ∧
    ((s.point p).low = .quiet → (t.point p).low ≠ .quiet → ∀ k, (s.point p).check = some k →
      (k.sent = false → (t.point p).check = none) ∧ (k.sent = true → (t.point p).check = some k)) ∧
    ((s.point p).low ≠ .quiet ∨ (t.point p).low = .quiet ∨ (s.point p).check = none →
      (t.point p).check = (s.point p).check) ∧
    (∀ q, q ≠ p → t.point q = s.point q) ∧
    (∀ c, t.channel c = { s.channel c with ring := (t.channel c).ring }) ∧
    (∃ installed : List RecordBody, installed.length ≤ 1 ∧ t.builder = u.builder.offers installed) ∧
    (∀ k, u.attention.isPending k = true → t.attention.isPending k = true) ∧
    t = { u with points := t.points, channels := t.channels, builder := t.builder, attention := t.attention }) ∧
  ∀ (s : State) (p : Point) (r : WindowResult) (low : Option OpenEvent) (vmax : Nat) (th : Thresholds)
    (answer : CaptureStatus),
    th = (s.point p).thresholds → (∃ u ∈ r.usable, u.2 = vmax) → (∀ u ∈ r.usable, u.2 ≤ vmax) →
    answer = (if s.control.device = .holdup then .notTakenSupply
      else if s.capture.isSome then .notTakenBusy
      else if s.shedding = .shed then .notTakenShed
      else .taken) →
    (s.highStep p r low).point p = { s.point p with
      high := ((s.highStep p r low).point p).high, assessment := ((s.highStep p r low).point p).assessment } ∧
    (∀ q, q ≠ p → (s.highStep p r low).point q = s.point q) ∧
    s.highStep p r low = { s with
      points := (s.highStep p r low).points, eventTag := (s.highStep p r low).eventTag
      capture := (s.highStep p r low).capture, captureQueue := (s.highStep p r low).captureQueue
      shedding := (s.highStep p r low).shedding, builder := (s.highStep p r low).builder
      attention := (s.highStep p r low).attention } ∧
    ((s.point p).high = .quiet →
      (th.swellStart < vmax → ∃ e, ((s.highStep p r low).point p).high = .swell e ∧
        EventOpens s r vmax (fun v => th.swellStart < v) e ∧ (s.highStep p r low).eventTag = e.tag ∧
        e.eventClass = .swell ∧ e.work = .decided .notAssessed none ∧
        (s.highStep p r low).attention.isPending .eventOnset = true ∧
        (low = none → e.captureStatus = answer ∧ e.captureTag = (if answer = .taken then some e.tag else none) ∧
          (answer = .taken → ∃ c : RunningCapture, CaptureStarts s e.tag p r.tick c ∧
            SameEngine { s with eventTag := e.tag, capture := some c }.formAll (s.highStep p r low)) ∧
          (answer ≠ .taken → SameEngine s (s.highStep p r low))) ∧
        (∀ l, low = some l → l.captureStatus = .taken →
          e.captureStatus = .shared ∧ e.captureTag = l.captureTag) ∧
        (∀ l, low = some l → l.captureStatus ≠ .taken →
          e.captureStatus = l.captureStatus ∧ e.captureTag = none) ∧
        (∀ l, low = some l → SameEngine s (s.highStep p r low))) ∧
      (vmax ≤ th.swellStart → s.highStep p r low = s)) ∧
    ∀ e, (s.point p).high = .swell e → ∃ e' : OpenEvent,
      EventGrows r vmax (e.extreme < vmax) (fun v => th.swellStart < v) e e' ∧ e'.eventClass = e.eventClass ∧
      e'.work = e.work ∧
      (vmax ≤ th.swellEnd → ((s.highStep p r low).point p).high = .quiet ∧
        (s.highStep p r low).attention.isPending .eventEnd = true ∧
        CountsEvent e.eventClass (s.point p).assessment ((s.highStep p r low).point p).assessment ∧
        ∃ rec, (s.highStep p r low).builder = s.builder.offer (.event rec) ∧ ClosesNormal p r e' rec ∧
          (∀ origin ratio, e.work = .decided origin ratio → rec.origin = origin ∧ rec.ratio = ratio)) ∧
      (th.swellEnd < vmax → ((s.highStep p r low).point p).high = .swell e' ∧
        SameEngine s (s.highStep p r low) ∧
        ((s.highStep p r low).point p).assessment = (s.point p).assessment)

/-- R101, R104, R110, R112: a block and an interval of a point close, the latter with a summary when the assessment
reaches its length with it; the block's mean squares join the interval (R66), and the interval's values are judged
against the bands, phase by phase. R111: a closed event counts by its class. R94, R97: the closing of a half-window
hands it over after the trackers took its window result, if there is one, with the closing's count, that result and the
disturbed mark; only a lead check at a positive crossing comes after it. That limits which the result installs are in
force when the half-window is taken is the model's choice (log entry 38, DESIGN CHOICE). R97, R99: a half-window in a new base first
closes the block short, unless it holds nothing, and the interval at the tick of the new base, and opens new ones
there; R100, R102: it then joins the block and the interval, each channel by its tally and its window value. R48 to R52, R103, R111: the frequency period of a point begins at its first set
and ends at the first set of another period, with the multiple of 10 seconds that holds the set's epoch value; a valid
one hands its value to the interval and the assessment; every set acts on it after the Boundary Unit has decided. -/
def Obligations.SpansClose : Prop :=
  (∀ (s : State) (p : Point) (b : Block),
    ((s.closeBlock p b).point p).block = some .fresh ∧
    (s.control.device = .running → s.setup.blockPoints.getLsbD p.val = true →
      ∃ r : BlockRecord, (s.closeBlock p b).builder = s.builder.offer (.block r) ∧ r.point = p ∧
        r.halfWindows = b.count ∧ r.disturbed = b.disturbed ∧ r.blind = b.blind ∧
        (r.short = true ↔ b.count < (match s.setup.nominal with | .hz50 => 20 | .hz60 => 24))) ∧
    (s.control.device ≠ .running ∨ s.setup.blockPoints.getLsbD p.val = false →
      (s.closeBlock p b).builder = s.builder) ∧
    ((s.closeBlock p b).point p).interval = (s.point p).interval.map (fun iv => iv.takeBlock b) ∧
    ((s.point p).block = some b → b.count = 0 →
      s.closeBlockShort p = s.modPoint p (fun pt => { pt with block := some .fresh })) ∧
    ((s.point p).block = some b → b.count ≠ 0 → s.closeBlockShort p = s.closeBlock p b)) ∧
  (∀ (iv : Interval) (b : Block) (c : Channel),
    (iv.takeBlock b).disturbed = (iv.disturbed || b.disturbed) ∧
    (b.sums[c.val].n = 0 → (iv.takeBlock b).sums[c.val] = iv.sums[c.val]) ∧
    (b.sums[c.val].n ≠ 0 → (iv.takeBlock b).sums[c.val] = { iv.sums[c.val] with
      sum := iv.sums[c.val].sum + b.sums[c.val].q / b.sums[c.val].n, count := iv.sums[c.val].count + 1 }) ∧
    iv.takeBlock b = { iv with disturbed := (iv.takeBlock b).disturbed, sums := (iv.takeBlock b).sums }) ∧
  (∀ (s : State) (p : Point) (iv : Interval) (a : Assessment) (e : Tick),
    (s.point p).interval = some iv → (s.point p).assessment = some a →
    ((s.closeInterval p e false).point p).interval = none ∧
    (s.closeInterval p e false).attention.isPending .intervalClosed = true ∧
    ∃ r : IntervalRecord, r.point = p ∧ r.startEpoch = iv.coverageEpoch ∧ r.length = e - iv.coverageStart ∧
      r.halfWindows = iv.halfWindows ∧ r.flags.disturbed = iv.disturbed ∧
      (r.flags.short = true ↔ (e - iv.coverageStart).toNat < s.setup.intervalLength * s.setup.nominal.rate) ∧
      (a.closedIntervals + 1 < s.setup.assessmentLength →
        (s.closeInterval p e false).builder = s.builder.offer (.interval r) ∧
        ((s.closeInterval p e false).point p).assessment = some (a.takeInterval s p r)) ∧
      (s.setup.assessmentLength ≤ a.closedIntervals + 1 →
        ((s.closeInterval p e false).point p).assessment = some (.fresh (s.epochOf e)) ∧
        (s.closeInterval p e false).attention.isPending .assessmentClosed = true ∧
        ∃ q : SummaryRecord, q.closedIntervals = a.closedIntervals + 1 ∧ q.flags.early = false ∧
          (s.closeInterval p e false).builder = (s.builder.offer (.interval r)).offer (.summary q))) ∧
  (∀ (s : State) (p : Point) (a : Assessment) (r : IntervalRecord) (evaluable : Prop),
    (evaluable ↔ r.flags.disturbed = false ∧ r.flags.short = false ∧ 2 * r.blindHalfWindows ≤ r.halfWindows) →
    a.takeInterval s p r = { a with
      closedIntervals := a.closedIntervals + 1, stepped := a.stepped || r.flags.timeStepped
      unset := a.unset || r.flags.epochUnset, phases := (a.takeInterval s p r).phases } ∧
    ∀ i : Fin 3,
      (¬evaluable ∨ (∀ c, s.voltageOf p (i.val + 1) = some c → r.valueOf c = none) →
        (a.takeInterval s p r).phases[i.val] = a.phases[i.val]) ∧
      ∀ c v, evaluable → s.voltageOf p (i.val + 1) = some c → r.valueOf c = some v →
        (a.takeInterval s p r).phases[i.val] =
          { evaluated := a.phases[i.val].evaluated + 1
            below := a.phases[i.val].below + (if v < (s.point p).thresholds.lowerBand then 1 else 0)
            above := a.phases[i.val].above + (if (s.point p).thresholds.upperBand < v then 1 else 0) }) ∧
  (∀ (s : State) (p : Point) (e : OpenEvent) (endTick : Tick) (cause : EndCause),
    (s.closeEvent p e endTick cause).point p = { s.point p with
      assessment := (s.point p).assessment.map (fun a => { a with
        dips := if e.eventClass = .dip then satSucc 65535 a.dips else a.dips
        interruptions := if e.eventClass = .interruption then satSucc 65535 a.interruptions else a.interruptions
        swells := if e.eventClass = .swell then satSucc 65535 a.swells else a.swells }) }) ∧
  (∀ (s : State) (p : Point) (h : ClosedHalf) (iv : Interval) (b joined : Block) (base : Nat) (start : Tick),
    (s.point p).interval = some iv → (s.point p).block = some b →
    base = (h.tick + s.control.offset).toNat -
      (h.tick + s.control.offset).toNat % (s.setup.intervalLength * s.setup.nominal.rate) →
    (iv.base ≠ base → start = BitVec.ofNat 48 base - s.control.offset →
      s.takeHalf p h = (s.changeBase p base).takeHalf p h ∧
      s.changeBase p base = ((s.closeBlockShort p).closeInterval p start false).modPoint p (fun pt => { pt with
        block := some .fresh
        interval := some
          { base := base, coverageStart := start, coverageEpoch := BitVec.ofNat 48 base, halfWindows := 0
            blindHalfWindows := 0, disturbed := false, timeStepped := false, epochUnset := s.control.epochUnset
            sums := Vector.replicate 24 .zero, frequency := .zero } })) ∧
    (iv.base = base → joined = b.join (h.tick - BitVec.ofNat 48 h.count + 1 + s.control.offset)
        (Vector.ofFn (fun c : Channel =>
          if (s.channel c).entry.enabled = true ∧ (s.channel c).entry.point = p.val then some (s.channel c).previous
          else none)) h →
      (b.count + 1 ≠ (match s.setup.nominal with | .hz50 => 20 | .hz60 => 24) →
        s.takeHalf p h = s.modPoint p (fun pt => { pt with block := some joined, interval := some (iv.join h) })) ∧
      (b.count + 1 = (match s.setup.nominal with | .hz50 => 20 | .hz60 => 24) →
        s.takeHalf p h = (s.closeBlock p joined).modPoint p (fun pt =>
          { pt with interval := some ((iv.takeBlock joined).join h) })))) ∧
  (∀ (s u : State) (p : Point) (t : Tick) (k : Closing) (result : Option WindowResult) (disturbed : Bool),
    ((s.point p).pairFlag = false → result = none ∧ u = s.rotate p k.free) →
    ((s.point p).pairFlag = true → ∃ r : WindowResult, result = some r ∧ r.tick = t ∧
      r.free = (k.free || (s.point p).previousFree) ∧
      r.values = (s.channelsOf p).map (fun c => windowValue c (s.channel c) r.free) ∧
      u = (s.rotate p k.free).takeResult p r) →
    (disturbed = true ↔ result ≠ none ∧ ((u.point p).low ≠ .quiet ∨ (u.point p).high ≠ .quiet)) →
    s.closeHalf p t k =
      (if k.crossing = some .positive then
        (u.takeHalf p { tick := t, count := k.count, result := result, disturbed := disturbed }).scheduleCheck p t
      else u.takeHalf p { tick := t, count := k.count, result := result, disturbed := disturbed })) ∧
  (∀ (b : Block) (start : Tick) (tallies : Vector (Option Tally) 24) (h : ClosedHalf) (c : Channel),
    (b.join start tallies h).count = b.count + 1 ∧
    (b.join start tallies h).start = (if b.count = 0 then some start else b.start) ∧
    (b.join start tallies h).disturbed = (b.disturbed || h.disturbed) ∧
    (b.join start tallies h).blind = (b.blind || h.result.any (fun r => r.usable.isEmpty)) ∧
    (∀ y, tallies[c.val] = some y → y.unavailable = 0 →
      (b.join start tallies h).sums[c.val] = { q := b.sums[c.val].q + y.q, n := b.sums[c.val].n + y.n }) ∧
    (tallies[c.val] = none ∨ (∃ y, tallies[c.val] = some y ∧ y.unavailable ≠ 0) →
      (b.join start tallies h).sums[c.val] = b.sums[c.val])) ∧
  (∀ (iv : Interval) (h : ClosedHalf) (c : Channel),
    (iv.join h).halfWindows = iv.halfWindows + 1 ∧
    (iv.join h).blindHalfWindows =
      iv.blindHalfWindows + (if h.result.any (fun r => r.usable.isEmpty) then 1 else 0) ∧
    (iv.join h).disturbed = (iv.disturbed || h.disturbed) ∧
    (h.result = none → (iv.join h).sums[c.val] = iv.sums[c.val]) ∧
    (∀ r, h.result = some r → (∀ w ∈ r.values, w.channel ≠ c) → (iv.join h).sums[c.val] = iv.sums[c.val]) ∧
    (∀ r w, h.result = some r → w ∈ r.values → w.channel = c → (∀ x ∈ r.values, x.channel = c → x = w) →
      (iv.join h).sums[c.val].held = iv.sums[c.val].held + (if w.quality = .held then 1 else 0) ∧
      (iv.join h).sums[c.val].clipped = iv.sums[c.val].clipped + (if w.clipped then 1 else 0) ∧
      (iv.join h).sums[c.val].opened = iv.sums[c.val].opened + (if w.opened then 1 else 0) ∧
      (iv.join h).sums[c.val].sum = iv.sums[c.val].sum ∧ (iv.join h).sums[c.val].count = iv.sums[c.val].count ∧
      (w.opened = true ∨ w.value = none →
        (iv.join h).sums[c.val].least = iv.sums[c.val].least ∧
        (iv.join h).sums[c.val].greatest = iv.sums[c.val].greatest) ∧
      ∀ v, w.opened = false → w.value = some v →
        (iv.join h).sums[c.val].least = some (match iv.sums[c.val].least with | none => v | some x => min x v) ∧
        (iv.join h).sums[c.val].greatest =
          some (match iv.sums[c.val].greatest with | none => v | some x => max x v)) ∧
    iv.join h = { iv with
      halfWindows := (iv.join h).halfWindows, blindHalfWindows := (iv.join h).blindHalfWindows
      disturbed := (iv.join h).disturbed, sums := (iv.join h).sums }) ∧
  (∀ (s : State) (p : Point) (t : Tick) (e len : Nat) (first : Tick),
    e = (t + s.control.offset).toNat → len = 10 * s.setup.nominal.rate → first = BitVec.ofNat 48 (e - e % len) →
    ((s.point p).period = none →
      s.advancePeriod p t = s.modPoint p (fun pt => { pt with
        period := some { first := first, crossings := 0, span := none, valid := true } })) ∧
    ∀ q, (s.point p).period = some q →
      (q.first = first → s.advancePeriod p t = s) ∧
      (q.first ≠ first → q.valid = false ∨ q.crossings < 2 ∨ q.span = none →
        s.advancePeriod p t = s.modPoint p (fun pt => { pt with
          period := some { first := first, crossings := 0, span := none, valid := true } })) ∧
      ∀ i j, q.first ≠ first → q.valid = true → 2 ≤ q.crossings → q.span = some (i, j) →
        ∃ f : Nat, f = (2 * ((q.crossings - 1) * s.setup.nominal.rate * 256 * 1000) + (j - i).toNat) /
            (2 * (j - i).toNat) ∧
          ∃ out : Bool, (out = true ↔ f < (s.point p).limits.freqLower ∨ (s.point p).limits.freqUpper < f) ∧
            s.advancePeriod p t = s.modPoint p (fun pt => { pt with
              period := some { first := first, crossings := 0, span := none, valid := true }
              interval := pt.interval.map (fun iv => { iv with frequency :=
                { valid := iv.frequency.valid + 1, sum := iv.frequency.sum + f
                  least := lesserOf iv.frequency.least f, greatest := greaterOf iv.frequency.greatest f
                  outOfBand := iv.frequency.outOfBand + (if out then 1 else 0) } })
              assessment := pt.assessment.map (fun a => { a with
                freqEvaluated := a.freqEvaluated + 1
                freqOutside := a.freqOutside + (if out then 1 else 0) }) })) ∧
  (∀ (q : Period) (free changed : Bool),
    ((q.act none free changed).crossings = q.crossings ∧ (q.act none free changed).span = q.span) ∧
    (∀ i, (q.act (some i) free changed).crossings = q.crossings + 1 ∧
      (q.span = none → (q.act (some i) free changed).span = some (i, i)) ∧
      ∀ a b, q.span = some (a, b) → (q.act (some i) free changed).span = some (a, i)) ∧
    ∀ instant, (q.act instant free changed).first = q.first ∧
      ((q.act instant free changed).valid = true ↔ q.valid = true ∧ free = false ∧ changed = false)) ∧
  ∀ (s : State) (t : Tick) (set : SampleSet) (p : Point) (changed : Bool) (b : Boundary) (x : Option Int)
    (cut : Option Closing),
    b = (s.point p).boundary → x = s.referenceCode p set →
    cut = (b.step (s.point p).limits.crossing changed x).2 →
    ∃ instant : Option Instant,
      ((s.deliver t set p changed).point p).period = (((s.advancePeriod p t).point p).period).map (fun q =>
        q.act instant (cut.any (fun k => k.free)) changed) ∧
      (∀ i, instant = some i ↔ ∃ (k : Closing) (y z : Int), cut = some k ∧ k.tracked = true ∧
        k.crossing = some .positive ∧ (b.prepare changed).before = some y ∧ x = some z ∧
        i = BitVec.ofNat 56 ((t - 1).toNat * 256 + crossingOffset y z))

/-! ### Invariants that every step keeps -/

/-- The stores stay within their places (R115, R132, R133, R139); the record queue stays one unbroken chain (R131, R133,
R134); a capture runs only in RUNNING with the shedding state OPEN, which fits the occupancy of the Capture Queue and
the watermarks (R118, R125, R126, R140, R141); no frame waits to be formed, as each occasion of R121 forms all that
its conditions allow. -/
def Obligations.StoresAndCapturesKept : Prop :=
  ∀ s t : State, step s = .next t →
    (QueuesBounded s → QueuesBounded t) ∧ (ChainIntact s.builder → ChainIntact t.builder) ∧
    (CaptureCoherent s → CaptureCoherent t) ∧ (FramesFormed s → FramesFormed t)

/-- Half-windows in progress stay below the length that closes them (R41 to R44); the channel map passes its tests
(R21, R22); limits are valid and the thresholds are derived from them (R67, R71). -/
def Obligations.TablesAndHalfWindowsKept : Prop :=
  ∀ s t : State, step s = .next t →
    (HalfWindowsBounded s → HalfWindowsBounded t) ∧ (MapLegal s → MapLegal t) ∧ (LimitsLegal s → LimitsLegal t)

/-- A block, an interval and an assessment exist exactly where R96 gives one, and a point that is not being measured
has no work in progress (R40, R46, R53, R64, R78, R106). -/
def Obligations.SpansExactKept : Prop :=
  ∀ s t : State, SpansExact s → step s = .next t → SpansExact t

/-- Every module's state record fits its state and SETUP: a LOCKED module is below the miss limit, only a LOCKED one
has a command outstanding, exactly the modules outside the enable set are DISABLED (R11 to R14, R16 to R19). -/
def Obligations.ModulesCoherentKept : Prop :=
  ∀ s t : State, ModulesCoherent s → step s = .next t → ModulesCoherent t

/-- A prior state exists exactly in HOLDUP and STANDBY, the hold-up timer runs exactly in HOLDUP, a frame is held only
in INIT, the strobe frame carries the tag of the current tick, no ring holds more than eight values, and no due marking
of the current count value waits to be taken (R2, R30, R90, R150, R159, R169; log entry 34). -/
def Obligations.ControlCoherentKept : Prop :=
  ∀ s t : State, ControlCoherent s → step s = .next t → ControlCoherent t

/-- Every invariant above holds after power-on reset. That MapLegal and LimitsLegal hold there rests on the model's
choice of cleared tables in `State.reset` (log entry 9, PRESUMED). -/
def Obligations.InvariantsAtReset : Prop :=
  QueuesBounded State.reset ∧ ChainIntact State.reset.builder ∧ CaptureCoherent State.reset ∧
  FramesFormed State.reset ∧
  HalfWindowsBounded State.reset ∧ MapLegal State.reset ∧ LimitsLegal State.reset ∧ SpansExact State.reset ∧
  ModulesCoherent State.reset ∧ ControlCoherent State.reset
end

