-- ==== Sys2Proof/Laws/State.lean ====
section
/-! SUPPORT. How the shared updates act on each field of the state: one lemma per field per update. -/

namespace Sys2Proof.Machine

/-! ### Vectors -/

theorem updAt_get {α : Type} {n : Nat} (v : Vector α n) (i j : Fin n) (f : α → α) :
    (updAt v i f)[j.val] = if j = i then f v[i.val] else v[j.val] := by
  unfold updAt
  rw [Vector.getElem_set]
  by_cases h : j = i
  · subst h
    simp
  · have h2 : i.val ≠ j.val := fun e => h (Fin.ext e.symm)
    simp [h, h2]

theorem mapAll_get {α β : Type} {n : Nat} (v : Vector α n) (f : Fin n → α → β) (i : Fin n) :
    (mapAll v f)[i.val] = f i v[i.val] := by
  unfold mapAll
  simp

/-! ### Reading a part after an update -/

theorem State.modModule_module (s : State) (m n : Module) (f : ModuleRecord → ModuleRecord) :
    (s.modModule m f).module n = if n = m then f (s.module m) else s.module n :=
  updAt_get s.modules m n f

theorem State.modChannel_channel (s : State) (c d : Channel) (f : ChannelRecord → ChannelRecord) :
    (s.modChannel c f).channel d = if d = c then f (s.channel c) else s.channel d :=
  updAt_get s.channels c d f

theorem State.modPoint_point (s : State) (p q : Point) (f : PointRecord → PointRecord) :
    (s.modPoint p f).point q = if q = p then f (s.point p) else s.point q :=
  updAt_get s.points p q f

/-- Two changes of one point in a row are one. -/
theorem State.modPoint_modPoint (s : State) (p : Point) (f g : PointRecord → PointRecord) :
    (s.modPoint p f).modPoint p g = s.modPoint p (fun pt => g (f pt)) := by
  refine congrArg (fun v => ({ s with points := v } : State)) (Vector.ext fun i hi => ?_)
  have e := updAt_get (updAt s.points p f) p ⟨i, hi⟩ g
  have e2 := updAt_get s.points p ⟨i, hi⟩ f
  have e3 := updAt_get s.points p ⟨i, hi⟩ (fun pt => g (f pt))
  have e4 := updAt_get s.points p p f
  show (updAt (updAt s.points p f) p g)[i] = _
  rw [e, e2, e3, e4, if_pos rfl]
  split <;> rfl

/-- Only what a change does to the point itself counts. -/
theorem State.modPoint_congr (s : State) (p : Point) {f g : PointRecord → PointRecord}
    (h : f (s.point p) = g (s.point p)) : s.modPoint p f = s.modPoint p g := by
  refine congrArg (fun v => ({ s with points := v } : State)) (Vector.ext fun i hi => ?_)
  rw [updAt_get s.points p ⟨i, hi⟩ f, updAt_get s.points p ⟨i, hi⟩ g]
  exact congrArg (fun x => if (⟨i, hi⟩ : Point) = p then x else s.points[i]) h

@[simp] theorem State.mapModules_module (s : State) (m : Module) (f : Module → ModuleRecord → ModuleRecord) :
    (s.mapModules f).module m = f m (s.module m) :=
  mapAll_get s.modules f m

@[simp] theorem State.mapChannels_channel (s : State) (c : Channel) (f : Channel → ChannelRecord → ChannelRecord) :
    (s.mapChannels f).channel c = f c (s.channel c) :=
  mapAll_get s.channels f c

@[simp] theorem State.mapPoints_point (s : State) (p : Point) (f : Point → PointRecord → PointRecord) :
    (s.mapPoints f).point p = f p (s.point p) :=
  mapAll_get s.points f p

/-! ### Fields an update leaves -/

@[simp] theorem State.modModule_count (s : State) (m : Module) (f : ModuleRecord → ModuleRecord) :
    (s.modModule m f).count = s.count := rfl

@[simp] theorem State.modModule_timerNominal (s : State) (m : Module) (f : ModuleRecord → ModuleRecord) :
    (s.modModule m f).timerNominal = s.timerNominal := rfl

@[simp] theorem State.modModule_setup (s : State) (m : Module) (f : ModuleRecord → ModuleRecord) :
    (s.modModule m f).setup = s.setup := rfl

@[simp] theorem State.modModule_routing (s : State) (m : Module) (f : ModuleRecord → ModuleRecord) :
    (s.modModule m f).routing = s.routing := rfl

@[simp] theorem State.modModule_strobe (s : State) (m : Module) (f : ModuleRecord → ModuleRecord) :
    (s.modModule m f).strobe = s.strobe := rfl

@[simp] theorem State.modModule_channels (s : State) (m : Module) (f : ModuleRecord → ModuleRecord) :
    (s.modModule m f).channels = s.channels := rfl

@[simp] theorem State.modModule_points (s : State) (m : Module) (f : ModuleRecord → ModuleRecord) :
    (s.modModule m f).points = s.points := rfl

@[simp] theorem State.modModule_eventTag (s : State) (m : Module) (f : ModuleRecord → ModuleRecord) :
    (s.modModule m f).eventTag = s.eventTag := rfl

@[simp] theorem State.modModule_history (s : State) (m : Module) (f : ModuleRecord → ModuleRecord) :
    (s.modModule m f).history = s.history := rfl

@[simp] theorem State.modModule_capture (s : State) (m : Module) (f : ModuleRecord → ModuleRecord) :
    (s.modModule m f).capture = s.capture := rfl

@[simp] theorem State.modModule_builder (s : State) (m : Module) (f : ModuleRecord → ModuleRecord) :
    (s.modModule m f).builder = s.builder := rfl

@[simp] theorem State.modModule_captureQueue (s : State) (m : Module) (f : ModuleRecord → ModuleRecord) :
    (s.modModule m f).captureQueue = s.captureQueue := rfl

@[simp] theorem State.modModule_shedding (s : State) (m : Module) (f : ModuleRecord → ModuleRecord) :
    (s.modModule m f).shedding = s.shedding := rfl

@[simp] theorem State.modModule_exchange (s : State) (m : Module) (f : ModuleRecord → ModuleRecord) :
    (s.modModule m f).exchange = s.exchange := rfl

@[simp] theorem State.modModule_port (s : State) (m : Module) (f : ModuleRecord → ModuleRecord) :
    (s.modModule m f).port = s.port := rfl

@[simp] theorem State.modModule_control (s : State) (m : Module) (f : ModuleRecord → ModuleRecord) :
    (s.modModule m f).control = s.control := rfl

@[simp] theorem State.modModule_attention (s : State) (m : Module) (f : ModuleRecord → ModuleRecord) :
    (s.modModule m f).attention = s.attention := rfl

@[simp] theorem State.modModule_dueNow (s : State) (m : Module) (f : ModuleRecord → ModuleRecord) :
    (s.modModule m f).dueNow = s.dueNow := rfl

@[simp] theorem State.modModule_pending (s : State) (m : Module) (f : ModuleRecord → ModuleRecord) :
    (s.modModule m f).pending = s.pending := rfl

@[simp] theorem State.modModule_channel_other (s : State) (m : Module) (f : ModuleRecord → ModuleRecord) (x : Channel) :
    (s.modModule m f).channel x = s.channel x := rfl

@[simp] theorem State.modModule_point_other (s : State) (m : Module) (f : ModuleRecord → ModuleRecord) (x : Point) :
    (s.modModule m f).point x = s.point x := rfl

@[simp] theorem State.modChannel_count (s : State) (c : Channel) (f : ChannelRecord → ChannelRecord) :
    (s.modChannel c f).count = s.count := rfl

@[simp] theorem State.modChannel_timerNominal (s : State) (c : Channel) (f : ChannelRecord → ChannelRecord) :
    (s.modChannel c f).timerNominal = s.timerNominal := rfl

@[simp] theorem State.modChannel_setup (s : State) (c : Channel) (f : ChannelRecord → ChannelRecord) :
    (s.modChannel c f).setup = s.setup := rfl

@[simp] theorem State.modChannel_routing (s : State) (c : Channel) (f : ChannelRecord → ChannelRecord) :
    (s.modChannel c f).routing = s.routing := rfl

@[simp] theorem State.modChannel_strobe (s : State) (c : Channel) (f : ChannelRecord → ChannelRecord) :
    (s.modChannel c f).strobe = s.strobe := rfl

@[simp] theorem State.modChannel_modules (s : State) (c : Channel) (f : ChannelRecord → ChannelRecord) :
    (s.modChannel c f).modules = s.modules := rfl

@[simp] theorem State.modChannel_points (s : State) (c : Channel) (f : ChannelRecord → ChannelRecord) :
    (s.modChannel c f).points = s.points := rfl

@[simp] theorem State.modChannel_eventTag (s : State) (c : Channel) (f : ChannelRecord → ChannelRecord) :
    (s.modChannel c f).eventTag = s.eventTag := rfl

@[simp] theorem State.modChannel_history (s : State) (c : Channel) (f : ChannelRecord → ChannelRecord) :
    (s.modChannel c f).history = s.history := rfl

@[simp] theorem State.modChannel_capture (s : State) (c : Channel) (f : ChannelRecord → ChannelRecord) :
    (s.modChannel c f).capture = s.capture := rfl

@[simp] theorem State.modChannel_builder (s : State) (c : Channel) (f : ChannelRecord → ChannelRecord) :
    (s.modChannel c f).builder = s.builder := rfl

@[simp] theorem State.modChannel_captureQueue (s : State) (c : Channel) (f : ChannelRecord → ChannelRecord) :
    (s.modChannel c f).captureQueue = s.captureQueue := rfl

@[simp] theorem State.modChannel_shedding (s : State) (c : Channel) (f : ChannelRecord → ChannelRecord) :
    (s.modChannel c f).shedding = s.shedding := rfl

@[simp] theorem State.modChannel_exchange (s : State) (c : Channel) (f : ChannelRecord → ChannelRecord) :
    (s.modChannel c f).exchange = s.exchange := rfl

@[simp] theorem State.modChannel_port (s : State) (c : Channel) (f : ChannelRecord → ChannelRecord) :
    (s.modChannel c f).port = s.port := rfl

@[simp] theorem State.modChannel_control (s : State) (c : Channel) (f : ChannelRecord → ChannelRecord) :
    (s.modChannel c f).control = s.control := rfl

@[simp] theorem State.modChannel_attention (s : State) (c : Channel) (f : ChannelRecord → ChannelRecord) :
    (s.modChannel c f).attention = s.attention := rfl

@[simp] theorem State.modChannel_dueNow (s : State) (c : Channel) (f : ChannelRecord → ChannelRecord) :
    (s.modChannel c f).dueNow = s.dueNow := rfl

@[simp] theorem State.modChannel_pending (s : State) (c : Channel) (f : ChannelRecord → ChannelRecord) :
    (s.modChannel c f).pending = s.pending := rfl

@[simp] theorem State.modChannel_module_other (s : State) (c : Channel) (f : ChannelRecord → ChannelRecord) (x : Module) :
    (s.modChannel c f).module x = s.module x := rfl

@[simp] theorem State.modChannel_point_other (s : State) (c : Channel) (f : ChannelRecord → ChannelRecord) (x : Point) :
    (s.modChannel c f).point x = s.point x := rfl

@[simp] theorem State.modPoint_count (s : State) (p : Point) (f : PointRecord → PointRecord) :
    (s.modPoint p f).count = s.count := rfl

@[simp] theorem State.modPoint_timerNominal (s : State) (p : Point) (f : PointRecord → PointRecord) :
    (s.modPoint p f).timerNominal = s.timerNominal := rfl

@[simp] theorem State.modPoint_setup (s : State) (p : Point) (f : PointRecord → PointRecord) :
    (s.modPoint p f).setup = s.setup := rfl

@[simp] theorem State.modPoint_routing (s : State) (p : Point) (f : PointRecord → PointRecord) :
    (s.modPoint p f).routing = s.routing := rfl

@[simp] theorem State.modPoint_strobe (s : State) (p : Point) (f : PointRecord → PointRecord) :
    (s.modPoint p f).strobe = s.strobe := rfl

@[simp] theorem State.modPoint_modules (s : State) (p : Point) (f : PointRecord → PointRecord) :
    (s.modPoint p f).modules = s.modules := rfl

@[simp] theorem State.modPoint_channels (s : State) (p : Point) (f : PointRecord → PointRecord) :
    (s.modPoint p f).channels = s.channels := rfl

@[simp] theorem State.modPoint_eventTag (s : State) (p : Point) (f : PointRecord → PointRecord) :
    (s.modPoint p f).eventTag = s.eventTag := rfl

@[simp] theorem State.modPoint_history (s : State) (p : Point) (f : PointRecord → PointRecord) :
    (s.modPoint p f).history = s.history := rfl

@[simp] theorem State.modPoint_capture (s : State) (p : Point) (f : PointRecord → PointRecord) :
    (s.modPoint p f).capture = s.capture := rfl

@[simp] theorem State.modPoint_builder (s : State) (p : Point) (f : PointRecord → PointRecord) :
    (s.modPoint p f).builder = s.builder := rfl

@[simp] theorem State.modPoint_captureQueue (s : State) (p : Point) (f : PointRecord → PointRecord) :
    (s.modPoint p f).captureQueue = s.captureQueue := rfl

@[simp] theorem State.modPoint_shedding (s : State) (p : Point) (f : PointRecord → PointRecord) :
    (s.modPoint p f).shedding = s.shedding := rfl

@[simp] theorem State.modPoint_exchange (s : State) (p : Point) (f : PointRecord → PointRecord) :
    (s.modPoint p f).exchange = s.exchange := rfl

@[simp] theorem State.modPoint_port (s : State) (p : Point) (f : PointRecord → PointRecord) :
    (s.modPoint p f).port = s.port := rfl

@[simp] theorem State.modPoint_control (s : State) (p : Point) (f : PointRecord → PointRecord) :
    (s.modPoint p f).control = s.control := rfl

@[simp] theorem State.modPoint_attention (s : State) (p : Point) (f : PointRecord → PointRecord) :
    (s.modPoint p f).attention = s.attention := rfl

@[simp] theorem State.modPoint_dueNow (s : State) (p : Point) (f : PointRecord → PointRecord) :
    (s.modPoint p f).dueNow = s.dueNow := rfl

@[simp] theorem State.modPoint_pending (s : State) (p : Point) (f : PointRecord → PointRecord) :
    (s.modPoint p f).pending = s.pending := rfl

@[simp] theorem State.modPoint_module_other (s : State) (p : Point) (f : PointRecord → PointRecord) (x : Module) :
    (s.modPoint p f).module x = s.module x := rfl

@[simp] theorem State.modPoint_channel_other (s : State) (p : Point) (f : PointRecord → PointRecord) (x : Channel) :
    (s.modPoint p f).channel x = s.channel x := rfl

@[simp] theorem State.mapModules_count (s : State) (f : Module → ModuleRecord → ModuleRecord) :
    (s.mapModules f).count = s.count := rfl

@[simp] theorem State.mapModules_timerNominal (s : State) (f : Module → ModuleRecord → ModuleRecord) :
    (s.mapModules f).timerNominal = s.timerNominal := rfl

@[simp] theorem State.mapModules_setup (s : State) (f : Module → ModuleRecord → ModuleRecord) :
    (s.mapModules f).setup = s.setup := rfl

@[simp] theorem State.mapModules_routing (s : State) (f : Module → ModuleRecord → ModuleRecord) :
    (s.mapModules f).routing = s.routing := rfl

@[simp] theorem State.mapModules_strobe (s : State) (f : Module → ModuleRecord → ModuleRecord) :
    (s.mapModules f).strobe = s.strobe := rfl

@[simp] theorem State.mapModules_channels (s : State) (f : Module → ModuleRecord → ModuleRecord) :
    (s.mapModules f).channels = s.channels := rfl

@[simp] theorem State.mapModules_points (s : State) (f : Module → ModuleRecord → ModuleRecord) :
    (s.mapModules f).points = s.points := rfl

@[simp] theorem State.mapModules_eventTag (s : State) (f : Module → ModuleRecord → ModuleRecord) :
    (s.mapModules f).eventTag = s.eventTag := rfl

@[simp] theorem State.mapModules_history (s : State) (f : Module → ModuleRecord → ModuleRecord) :
    (s.mapModules f).history = s.history := rfl

@[simp] theorem State.mapModules_capture (s : State) (f : Module → ModuleRecord → ModuleRecord) :
    (s.mapModules f).capture = s.capture := rfl

@[simp] theorem State.mapModules_builder (s : State) (f : Module → ModuleRecord → ModuleRecord) :
    (s.mapModules f).builder = s.builder := rfl

@[simp] theorem State.mapModules_captureQueue (s : State) (f : Module → ModuleRecord → ModuleRecord) :
    (s.mapModules f).captureQueue = s.captureQueue := rfl

@[simp] theorem State.mapModules_shedding (s : State) (f : Module → ModuleRecord → ModuleRecord) :
    (s.mapModules f).shedding = s.shedding := rfl

@[simp] theorem State.mapModules_exchange (s : State) (f : Module → ModuleRecord → ModuleRecord) :
    (s.mapModules f).exchange = s.exchange := rfl

@[simp] theorem State.mapModules_port (s : State) (f : Module → ModuleRecord → ModuleRecord) :
    (s.mapModules f).port = s.port := rfl

@[simp] theorem State.mapModules_control (s : State) (f : Module → ModuleRecord → ModuleRecord) :
    (s.mapModules f).control = s.control := rfl

@[simp] theorem State.mapModules_attention (s : State) (f : Module → ModuleRecord → ModuleRecord) :
    (s.mapModules f).attention = s.attention := rfl

@[simp] theorem State.mapModules_dueNow (s : State) (f : Module → ModuleRecord → ModuleRecord) :
    (s.mapModules f).dueNow = s.dueNow := rfl

@[simp] theorem State.mapModules_pending (s : State) (f : Module → ModuleRecord → ModuleRecord) :
    (s.mapModules f).pending = s.pending := rfl

@[simp] theorem State.mapModules_channel_same (s : State) (f : Module → ModuleRecord → ModuleRecord) (x : Channel) :
    (s.mapModules f).channel x = s.channel x := rfl

@[simp] theorem State.mapModules_point_same (s : State) (f : Module → ModuleRecord → ModuleRecord) (x : Point) :
    (s.mapModules f).point x = s.point x := rfl

@[simp] theorem State.mapChannels_count (s : State) (f : Channel → ChannelRecord → ChannelRecord) :
    (s.mapChannels f).count = s.count := by unfold State.mapChannels; rfl

@[simp] theorem State.mapChannels_timerNominal (s : State) (f : Channel → ChannelRecord → ChannelRecord) :
    (s.mapChannels f).timerNominal = s.timerNominal := by unfold State.mapChannels; rfl

@[simp] theorem State.mapChannels_setup (s : State) (f : Channel → ChannelRecord → ChannelRecord) :
    (s.mapChannels f).setup = s.setup := by unfold State.mapChannels; rfl

@[simp] theorem State.mapChannels_routing (s : State) (f : Channel → ChannelRecord → ChannelRecord) :
    (s.mapChannels f).routing = s.routing := by unfold State.mapChannels; rfl

@[simp] theorem State.mapChannels_strobe (s : State) (f : Channel → ChannelRecord → ChannelRecord) :
    (s.mapChannels f).strobe = s.strobe := by unfold State.mapChannels; rfl

@[simp] theorem State.mapChannels_modules (s : State) (f : Channel → ChannelRecord → ChannelRecord) :
    (s.mapChannels f).modules = s.modules := by unfold State.mapChannels; rfl

@[simp] theorem State.mapChannels_points (s : State) (f : Channel → ChannelRecord → ChannelRecord) :
    (s.mapChannels f).points = s.points := by unfold State.mapChannels; rfl

@[simp] theorem State.mapChannels_eventTag (s : State) (f : Channel → ChannelRecord → ChannelRecord) :
    (s.mapChannels f).eventTag = s.eventTag := by unfold State.mapChannels; rfl

@[simp] theorem State.mapChannels_history (s : State) (f : Channel → ChannelRecord → ChannelRecord) :
    (s.mapChannels f).history = s.history := by unfold State.mapChannels; rfl

@[simp] theorem State.mapChannels_capture (s : State) (f : Channel → ChannelRecord → ChannelRecord) :
    (s.mapChannels f).capture = s.capture := by unfold State.mapChannels; rfl

@[simp] theorem State.mapChannels_builder (s : State) (f : Channel → ChannelRecord → ChannelRecord) :
    (s.mapChannels f).builder = s.builder := by unfold State.mapChannels; rfl

@[simp] theorem State.mapChannels_captureQueue (s : State) (f : Channel → ChannelRecord → ChannelRecord) :
    (s.mapChannels f).captureQueue = s.captureQueue := by unfold State.mapChannels; rfl

@[simp] theorem State.mapChannels_shedding (s : State) (f : Channel → ChannelRecord → ChannelRecord) :
    (s.mapChannels f).shedding = s.shedding := by unfold State.mapChannels; rfl

@[simp] theorem State.mapChannels_exchange (s : State) (f : Channel → ChannelRecord → ChannelRecord) :
    (s.mapChannels f).exchange = s.exchange := by unfold State.mapChannels; rfl

@[simp] theorem State.mapChannels_port (s : State) (f : Channel → ChannelRecord → ChannelRecord) :
    (s.mapChannels f).port = s.port := by unfold State.mapChannels; rfl

@[simp] theorem State.mapChannels_control (s : State) (f : Channel → ChannelRecord → ChannelRecord) :
    (s.mapChannels f).control = s.control := by unfold State.mapChannels; rfl

@[simp] theorem State.mapChannels_attention (s : State) (f : Channel → ChannelRecord → ChannelRecord) :
    (s.mapChannels f).attention = s.attention := by unfold State.mapChannels; rfl

@[simp] theorem State.mapChannels_dueNow (s : State) (f : Channel → ChannelRecord → ChannelRecord) :
    (s.mapChannels f).dueNow = s.dueNow := by unfold State.mapChannels; rfl

@[simp] theorem State.mapChannels_pending (s : State) (f : Channel → ChannelRecord → ChannelRecord) :
    (s.mapChannels f).pending = s.pending := by unfold State.mapChannels; rfl

@[simp] theorem State.mapChannels_module_same (s : State) (f : Channel → ChannelRecord → ChannelRecord) (x : Module) :
    (s.mapChannels f).module x = s.module x := by unfold State.mapChannels State.module; rfl

@[simp] theorem State.mapChannels_point_same (s : State) (f : Channel → ChannelRecord → ChannelRecord) (x : Point) :
    (s.mapChannels f).point x = s.point x := by unfold State.mapChannels State.point; rfl

@[simp] theorem State.mapPoints_count (s : State) (f : Point → PointRecord → PointRecord) :
    (s.mapPoints f).count = s.count := rfl

@[simp] theorem State.mapPoints_timerNominal (s : State) (f : Point → PointRecord → PointRecord) :
    (s.mapPoints f).timerNominal = s.timerNominal := rfl

@[simp] theorem State.mapPoints_setup (s : State) (f : Point → PointRecord → PointRecord) :
    (s.mapPoints f).setup = s.setup := rfl

@[simp] theorem State.mapPoints_routing (s : State) (f : Point → PointRecord → PointRecord) :
    (s.mapPoints f).routing = s.routing := rfl

@[simp] theorem State.mapPoints_strobe (s : State) (f : Point → PointRecord → PointRecord) :
    (s.mapPoints f).strobe = s.strobe := rfl

@[simp] theorem State.mapPoints_modules (s : State) (f : Point → PointRecord → PointRecord) :
    (s.mapPoints f).modules = s.modules := rfl

@[simp] theorem State.mapPoints_channels (s : State) (f : Point → PointRecord → PointRecord) :
    (s.mapPoints f).channels = s.channels := rfl

@[simp] theorem State.mapPoints_eventTag (s : State) (f : Point → PointRecord → PointRecord) :
    (s.mapPoints f).eventTag = s.eventTag := rfl

@[simp] theorem State.mapPoints_history (s : State) (f : Point → PointRecord → PointRecord) :
    (s.mapPoints f).history = s.history := rfl

@[simp] theorem State.mapPoints_capture (s : State) (f : Point → PointRecord → PointRecord) :
    (s.mapPoints f).capture = s.capture := rfl

@[simp] theorem State.mapPoints_builder (s : State) (f : Point → PointRecord → PointRecord) :
    (s.mapPoints f).builder = s.builder := rfl

@[simp] theorem State.mapPoints_captureQueue (s : State) (f : Point → PointRecord → PointRecord) :
    (s.mapPoints f).captureQueue = s.captureQueue := rfl

@[simp] theorem State.mapPoints_shedding (s : State) (f : Point → PointRecord → PointRecord) :
    (s.mapPoints f).shedding = s.shedding := rfl

@[simp] theorem State.mapPoints_exchange (s : State) (f : Point → PointRecord → PointRecord) :
    (s.mapPoints f).exchange = s.exchange := rfl

@[simp] theorem State.mapPoints_port (s : State) (f : Point → PointRecord → PointRecord) :
    (s.mapPoints f).port = s.port := rfl

@[simp] theorem State.mapPoints_control (s : State) (f : Point → PointRecord → PointRecord) :
    (s.mapPoints f).control = s.control := rfl

@[simp] theorem State.mapPoints_attention (s : State) (f : Point → PointRecord → PointRecord) :
    (s.mapPoints f).attention = s.attention := rfl

@[simp] theorem State.mapPoints_dueNow (s : State) (f : Point → PointRecord → PointRecord) :
    (s.mapPoints f).dueNow = s.dueNow := rfl

@[simp] theorem State.mapPoints_pending (s : State) (f : Point → PointRecord → PointRecord) :
    (s.mapPoints f).pending = s.pending := rfl

@[simp] theorem State.mapPoints_module_same (s : State) (f : Point → PointRecord → PointRecord) (x : Module) :
    (s.mapPoints f).module x = s.module x := rfl

@[simp] theorem State.mapPoints_channel_same (s : State) (f : Point → PointRecord → PointRecord) (x : Channel) :
    (s.mapPoints f).channel x = s.channel x := rfl

@[simp] theorem State.raise_count (s : State) (k : AttnClass) :
    (s.raise k).count = s.count := rfl

@[simp] theorem State.raise_timerNominal (s : State) (k : AttnClass) :
    (s.raise k).timerNominal = s.timerNominal := rfl

@[simp] theorem State.raise_setup (s : State) (k : AttnClass) :
    (s.raise k).setup = s.setup := rfl

@[simp] theorem State.raise_routing (s : State) (k : AttnClass) :
    (s.raise k).routing = s.routing := rfl

@[simp] theorem State.raise_strobe (s : State) (k : AttnClass) :
    (s.raise k).strobe = s.strobe := rfl

@[simp] theorem State.raise_modules (s : State) (k : AttnClass) :
    (s.raise k).modules = s.modules := rfl

@[simp] theorem State.raise_channels (s : State) (k : AttnClass) :
    (s.raise k).channels = s.channels := rfl

@[simp] theorem State.raise_points (s : State) (k : AttnClass) :
    (s.raise k).points = s.points := rfl

@[simp] theorem State.raise_eventTag (s : State) (k : AttnClass) :
    (s.raise k).eventTag = s.eventTag := rfl

@[simp] theorem State.raise_history (s : State) (k : AttnClass) :
    (s.raise k).history = s.history := rfl

@[simp] theorem State.raise_capture (s : State) (k : AttnClass) :
    (s.raise k).capture = s.capture := rfl

@[simp] theorem State.raise_builder (s : State) (k : AttnClass) :
    (s.raise k).builder = s.builder := rfl

@[simp] theorem State.raise_captureQueue (s : State) (k : AttnClass) :
    (s.raise k).captureQueue = s.captureQueue := rfl

@[simp] theorem State.raise_shedding (s : State) (k : AttnClass) :
    (s.raise k).shedding = s.shedding := rfl

@[simp] theorem State.raise_exchange (s : State) (k : AttnClass) :
    (s.raise k).exchange = s.exchange := rfl

@[simp] theorem State.raise_port (s : State) (k : AttnClass) :
    (s.raise k).port = s.port := rfl

@[simp] theorem State.raise_control (s : State) (k : AttnClass) :
    (s.raise k).control = s.control := rfl

@[simp] theorem State.raise_dueNow (s : State) (k : AttnClass) :
    (s.raise k).dueNow = s.dueNow := rfl

@[simp] theorem State.raise_pending (s : State) (k : AttnClass) :
    (s.raise k).pending = s.pending := rfl

@[simp] theorem State.raise_module_same (s : State) (k : AttnClass) (x : Module) :
    (s.raise k).module x = s.module x := rfl

@[simp] theorem State.raise_channel_same (s : State) (k : AttnClass) (x : Channel) :
    (s.raise k).channel x = s.channel x := rfl

@[simp] theorem State.raise_point_same (s : State) (k : AttnClass) (x : Point) :
    (s.raise k).point x = s.point x := rfl

end Sys2Proof.Machine
end

