-- ==== Sys2Proof/Laws/Records.lean ====
section
/-! SUPPORT. What an offer can do to the Record Builder (R131 to R135), and to the rest of the state. -/

namespace Sys2Proof.Machine

/-- A builder reached from another by offers alone. -/
inductive Offered (b : RecordBuilder) : RecordBuilder → Prop where
  | none : Offered b b
  | more {c : RecordBuilder} (body : RecordBody) (h : Offered b c) : Offered b (c.offer body)

theorem Offered.trans {a b c : RecordBuilder} (h : Offered a b) (k : Offered b c) : Offered a c := by
  induction k with
  | none => exact h
  | more body _ ih => exact .more body ih

theorem Offered.one (b : RecordBuilder) (body : RecordBody) : Offered b (b.offer body) :=
  .more body .none

/-- What offers keep, they keep however many they are. -/
theorem Offered.keeps {P : RecordBuilder → Prop} (step : ∀ b body, P b → P (b.offer body))
    {b c : RecordBuilder} (h : Offered b c) (hb : P b) : P c := by
  induction h with
  | none => exact hb
  | more body _ ih => exact step _ body ih

/-! ### Reading an offer -/

theorem State.offer_builder (s : State) (body : RecordBody) : (s.offer body).builder = s.builder.offer body := by
  unfold State.offer
  dsimp only
  split <;> rfl

theorem State.offer_eq (s : State) (body : RecordBody) :
    s.offer body = { s with builder := s.builder.offer body } ∨
      s.offer body = ({ s with builder := s.builder.offer body } : State).raise .queueHigh := by
  unfold State.offer
  dsimp only
  split
  · exact Or.inr rfl
  · exact Or.inl rfl

@[simp] theorem State.offer_count (s : State) (body : RecordBody) : (s.offer body).count = s.count := by
  rcases s.offer_eq body with h | h <;> rw [h] <;> rfl

@[simp] theorem State.offer_timerNominal (s : State) (body : RecordBody) : (s.offer body).timerNominal = s.timerNominal := by
  rcases s.offer_eq body with h | h <;> rw [h] <;> rfl

@[simp] theorem State.offer_setup (s : State) (body : RecordBody) : (s.offer body).setup = s.setup := by
  rcases s.offer_eq body with h | h <;> rw [h] <;> rfl

@[simp] theorem State.offer_routing (s : State) (body : RecordBody) : (s.offer body).routing = s.routing := by
  rcases s.offer_eq body with h | h <;> rw [h] <;> rfl

@[simp] theorem State.offer_strobe (s : State) (body : RecordBody) : (s.offer body).strobe = s.strobe := by
  rcases s.offer_eq body with h | h <;> rw [h] <;> rfl

@[simp] theorem State.offer_modules (s : State) (body : RecordBody) : (s.offer body).modules = s.modules := by
  rcases s.offer_eq body with h | h <;> rw [h] <;> rfl

@[simp] theorem State.offer_channels (s : State) (body : RecordBody) : (s.offer body).channels = s.channels := by
  rcases s.offer_eq body with h | h <;> rw [h] <;> rfl

@[simp] theorem State.offer_points (s : State) (body : RecordBody) : (s.offer body).points = s.points := by
  rcases s.offer_eq body with h | h <;> rw [h] <;> rfl

@[simp] theorem State.offer_eventTag (s : State) (body : RecordBody) : (s.offer body).eventTag = s.eventTag := by
  rcases s.offer_eq body with h | h <;> rw [h] <;> rfl

@[simp] theorem State.offer_history (s : State) (body : RecordBody) : (s.offer body).history = s.history := by
  rcases s.offer_eq body with h | h <;> rw [h] <;> rfl

@[simp] theorem State.offer_capture (s : State) (body : RecordBody) : (s.offer body).capture = s.capture := by
  rcases s.offer_eq body with h | h <;> rw [h] <;> rfl

@[simp] theorem State.offer_captureQueue (s : State) (body : RecordBody) : (s.offer body).captureQueue = s.captureQueue := by
  rcases s.offer_eq body with h | h <;> rw [h] <;> rfl

@[simp] theorem State.offer_shedding (s : State) (body : RecordBody) : (s.offer body).shedding = s.shedding := by
  rcases s.offer_eq body with h | h <;> rw [h] <;> rfl

@[simp] theorem State.offer_exchange (s : State) (body : RecordBody) : (s.offer body).exchange = s.exchange := by
  rcases s.offer_eq body with h | h <;> rw [h] <;> rfl

@[simp] theorem State.offer_port (s : State) (body : RecordBody) : (s.offer body).port = s.port := by
  rcases s.offer_eq body with h | h <;> rw [h] <;> rfl

@[simp] theorem State.offer_control (s : State) (body : RecordBody) : (s.offer body).control = s.control := by
  rcases s.offer_eq body with h | h <;> rw [h] <;> rfl

@[simp] theorem State.offer_dueNow (s : State) (body : RecordBody) : (s.offer body).dueNow = s.dueNow := by
  rcases s.offer_eq body with h | h <;> rw [h] <;> rfl

@[simp] theorem State.offer_pending (s : State) (body : RecordBody) : (s.offer body).pending = s.pending := by
  rcases s.offer_eq body with h | h <;> rw [h] <;> rfl

@[simp] theorem State.offer_module (s : State) (body : RecordBody) (x : Module) :
    (s.offer body).module x = s.module x := by
  simp only [State.module, State.offer_modules]

@[simp] theorem State.offer_channel (s : State) (body : RecordBody) (x : Channel) :
    (s.offer body).channel x = s.channel x := by
  simp only [State.channel, State.offer_channels]

@[simp] theorem State.offer_point (s : State) (body : RecordBody) (x : Point) :
    (s.offer body).point x = s.point x := by
  simp only [State.point, State.offer_points]

/-! ### What an offer keeps of the builder -/

theorem RecordBuilder.offer_admitted (b : RecordBuilder) (body : RecordBody) (h : b.admits body = true) :
    b.offer body = { seq := b.seq + 1, chain := (b.link body).chain, withheld := 0, queue := b.queue ++ [b.link body] } := by
  unfold RecordBuilder.offer
  rw [if_pos h]

theorem RecordBuilder.offer_refused (b : RecordBuilder) (body : RecordBody) (h : b.admits body = false) :
    b.offer body = { b with seq := b.seq + 1, withheld := satSucc 255 b.withheld } := by
  unfold RecordBuilder.offer
  rw [if_neg (by simp [h])]

theorem AdmissionClass.limit_le (k : AdmissionClass) : k.limit ≤ 96 := by
  cases k <;> decide

theorem satSucc_le (top n : Nat) : satSucc top n ≤ top := by
  unfold satSucc
  split <;> omega

theorem RecordBuilder.offer_queue_le (b : RecordBuilder) (body : RecordBody) (h : b.queue.length ≤ 96) :
    (b.offer body).queue.length ≤ 96 := by
  cases ha : b.admits body with
  | true =>
    rw [b.offer_admitted body ha]
    have h1 : b.queue.length < body.admission.limit := by simpa [RecordBuilder.admits] using ha
    have h2 := body.admission.limit_le
    simp only [List.length_append, List.length_cons, List.length_nil]
    omega
  | false =>
    rw [b.offer_refused body ha]
    exact h

theorem RecordBuilder.offer_withheld_le (b : RecordBuilder) (body : RecordBody) :
    (b.offer body).withheld ≤ 255 := by
  cases ha : b.admits body with
  | true =>
    rw [b.offer_admitted body ha]
    exact Nat.zero_le _
  | false =>
    rw [b.offer_refused body ha]
    exact satSucc_le 255 _

/-! ### The chain -/

theorem Linked.tail {r : QueuedRecord} {rest : List QueuedRecord} (h : Linked (r :: rest)) : Linked rest := by
  cases rest with
  | nil => trivial
  | cons q qs => exact h.2

theorem Linked.snoc {rs : List QueuedRecord} {x : QueuedRecord} (h : Linked rs)
    (hx : ∀ r, rs.getLast? = some r → LinksAfter x r.seq r.chain) : Linked (rs ++ [x]) := by
  induction rs with
  | nil => trivial
  | cons r rest ih =>
    cases rest with
    | nil => exact ⟨hx r rfl, trivial⟩
    | cons q qs =>
      refine ⟨h.1, ih h.2 ?_⟩
      intro y hy
      exact hx y (by simpa [List.getLast?_cons_cons] using hy)

theorem Follows.skip {a c : BitVec 32} {w : Nat} (h : Follows a w c) : Follows a (satSucc 255 w) (c + 1) := by
  intro hw
  unfold satSucc at hw ⊢
  split at hw
  · rename_i hlt
    rw [if_pos hlt, h (by omega), BitVec.ofNat_add]
    simp only [BitVec.add_assoc]
    rfl
  · omega

theorem ChainIntact.offer {b : RecordBuilder} (h : ChainIntact b) (body : RecordBody) : ChainIntact (b.offer body) := by
  cases ha : b.admits body with
  | true =>
    rw [b.offer_admitted body ha]
    have hlink : ∀ r, b.queue.getLast? = some r → LinksAfter (b.link body) r.seq r.chain := by
      intro r hr
      refine ⟨?_, h.counter r hr⟩
      show crc16 b.chain _ = crc16 r.chain _
      rw [h.register r hr]
      rfl
    refine ⟨h.linked.snoc hlink, ?_, ?_⟩
    · intro r hr
      simp only [List.getLast?_append, List.getLast?_singleton, Option.some_or, Option.some.injEq] at hr
      rw [← hr]
    · intro r hr
      simp only [List.getLast?_append, List.getLast?_singleton, Option.some_or, Option.some.injEq] at hr
      rw [← hr]
      intro _
      show b.seq + 1 = b.seq + 1 + 0
      simp
  | false =>
    rw [b.offer_refused body ha]
    exact ⟨h.linked, h.register, fun r hr => (h.counter r hr).skip⟩

theorem ChainIntact.drop {b : RecordBuilder} (h : ChainIntact b) :
    ChainIntact { b with queue := b.queue.drop 1 } := by
  have hlast : ∀ r, (b.queue.drop 1).getLast? = some r → b.queue.getLast? = some r := by
    intro r hr
    cases hq : b.queue with
    | nil => rw [hq] at hr; cases hr
    | cons x xs =>
      rw [hq] at hr
      cases xs with
      | nil => cases hr
      | cons y ys => simpa [List.getLast?_cons_cons] using hr
  refine ⟨?_, fun r hr => h.register r (hlast r hr), fun r hr => h.counter r (hlast r hr)⟩
  cases hq : b.queue with
  | nil => trivial
  | cons x xs =>
    have := h.linked
    rw [hq] at this
    exact this.tail

end Sys2Proof.Machine
end

