-- ==== Sys2Proof/Laws/Formation.lean ====
section
/-! SUPPORT. Records and classes that an operation adds (`Noted`), and what the formation of capture frames can do to
the state (`Formed`), once for every occasion of R121. -/

namespace Sys2Proof.Machine

/-! ### Records and classes -/

/-- `t` is `s` with new records offered and classes raised, nothing else. -/
def Noted (s t : State) : Prop :=
  ∃ b a, Offered s.builder b ∧ t = { s with builder := b, attention := a }

theorem Noted.refl (s : State) : Noted s s :=
  ⟨s.builder, s.attention, .none, rfl⟩

theorem Noted.trans {s t u : State} (h : Noted s t) (k : Noted t u) : Noted s u := by
  obtain ⟨b, a, ho, rfl⟩ := h
  obtain ⟨b2, a2, ho2, rfl⟩ := k
  exact ⟨b2, a2, ho.trans ho2, rfl⟩

theorem Noted.raise (s : State) (k : AttnClass) : Noted s (s.raise k) :=
  ⟨s.builder, _, .none, rfl⟩

theorem Noted.offer (s : State) (body : RecordBody) : Noted s (s.offer body) := by
  rcases s.offer_eq body with h | h
  · rw [h]
    exact ⟨_, s.attention, .one _ _, rfl⟩
  · rw [h]
    exact ⟨_, _, .one _ _, rfl⟩

theorem Noted.offerRaise (s : State) (body : RecordBody) (k : AttnClass) : Noted s ((s.offer body).raise k) :=
  (Noted.offer s body).trans (.raise _ k)

theorem Noted.offerStatus (s : State) (kind : StatusKind) : Noted s (s.offerStatus kind) :=
  Noted.offer s _

theorem Noted.statusRaise (s : State) (kind : StatusKind) (k : AttnClass) :
    Noted s ((s.offerStatus kind).raise k) :=
  (Noted.offerStatus s kind).trans (.raise _ k)

theorem Noted.offerReply (s : State) (kind tag : Byte) (result : ReplyResult) (tail : ReplyTail) :
    Noted s (s.offerReply kind tag result tail) :=
  Noted.offerRaise s _ _

theorem Noted.attention (s : State) (a : Attention) : Noted s { s with attention := a } :=
  ⟨s.builder, a, .none, rfl⟩

theorem inMask_or {w : Nat} (x y : BitVec w) (n : Nat) (h : inMask x n = true) : inMask (x ||| y) n = true := by
  unfold inMask at h ⊢
  rw [BitVec.getLsbD_or, h]
  rfl

theorem Attention.raise_keeps (a : Attention) (r : Routing) (now : Tick) (k c : AttnClass)
    (h : a.isPending c = true) : (a.raise r now k).isPending c = true := by
  unfold Attention.raise
  split
  · exact h
  · exact inMask_or _ _ _ h

theorem Attention.raise_pends (a : Attention) (r : Routing) (now : Tick) (k : AttnClass) :
    (a.raise r now k).isPending k = true := by
  unfold Attention.raise
  split
  · assumption
  · show inMask (a.pendingSet ||| classMask k) (classIndex k).val = true
    unfold inMask
    rw [BitVec.getLsbD_or, Bool.or_eq_true]
    right
    cases k <;> decide

/-! ### What the invariants see of the Capture Engine -/

/-- `CaptureCoherent`, of the parts that it speaks of. -/
structure EngineFits (u : Setup) (d : DeviceState) (running : Bool) (sh : Shedding) (n : Nat) : Prop where
  setup : SetupInRange u
  running : running = true → d = .running ∧ sh = .opened
  opened : sh = .opened → n < u.highMark
  shed : sh = .shed → u.lowMark < n

/-- `CaptureCoherent` of a state, as the parts that change with a frame see it. -/
def State.engineFits (s : State) : Prop :=
  EngineFits s.setup s.control.device s.capture.isSome s.shedding s.captureQueue.length

theorem State.engineFits_iff (s : State) : s.engineFits ↔ CaptureCoherent s :=
  ⟨fun h => ⟨h.setup, h.running, h.opened, h.shed⟩, fun h => ⟨h.setup, h.running, h.opened, h.shed⟩⟩

theorem State.engineFits_congr {s t : State} (h : s.engineFits) (hu : t.setup = s.setup) (hd : t.control = s.control)
    (hc : t.capture = s.capture) (hs : t.shedding = s.shedding) (hq : t.captureQueue = s.captureQueue) :
    t.engineFits := by
  unfold State.engineFits at h ⊢
  rw [hu, hd, hc, hs, hq]
  exact h

/-- `t` is `s` after frames were formed: frames have joined the Capture Queue, the capture has gone on or has ended, its
record is offered and classes are raised; nothing else has changed. -/
def Formed (s t : State) : Prop :=
  ∃ q sh c b a, Offered s.builder b ∧ (∀ k, s.attention.isPending k = true → Attention.isPending a k = true) ∧
    (s.captureQueue.length ≤ 48 → q.length ≤ 48) ∧
    (s.engineFits → EngineFits s.setup s.control.device c.isSome sh q.length) ∧
    t = { s with captureQueue := q, shedding := sh, capture := c, builder := b, attention := a }

theorem Formed.refl (s : State) : Formed s s :=
  ⟨s.captureQueue, s.shedding, s.capture, s.builder, s.attention, .none, fun _ h => h, id, id, rfl⟩

theorem Formed.trans {s t u : State} (h : Formed s t) (k : Formed t u) : Formed s u := by
  obtain ⟨q, sh, c, b, a, ho, ha, hq, hf, rfl⟩ := h
  obtain ⟨q2, sh2, c2, b2, a2, ho2, ha2, hq2, hf2, rfl⟩ := k
  exact ⟨q2, sh2, c2, b2, a2, ho.trans ho2, fun x p => ha2 x (ha x p), fun x => hq2 (hq x), fun x => hf2 (hf x), rfl⟩

/-! ### Forming frames -/

theorem State.offerRaise_eq (s : State) (body : RecordBody) (k : AttnClass) : ∃ b a, Offered s.builder b ∧
    (∀ j, s.attention.isPending j = true → Attention.isPending a j = true) ∧
    (s.offer body).raise k = { s with builder := b, attention := a } := by
  rcases s.offer_eq body with h | h
  · rw [h]
    exact ⟨_, _, .one _ _, fun j hj => Attention.raise_keeps _ s.routing s.count k j hj, rfl⟩
  · rw [h]
    exact ⟨_, _, .one _ _, fun j hj => Attention.raise_keeps _ s.routing s.count k j
      (Attention.raise_keeps _ s.routing s.count .queueHigh j hj), rfl⟩

theorem State.endCapture_eq (s : State) (reason : EndReason) : ∃ b a, Offered s.builder b ∧
    (∀ j, s.attention.isPending j = true → Attention.isPending a j = true) ∧
    s.endCapture reason = { s with capture := none, builder := b, attention := a } := by
  unfold State.endCapture
  split
  · rename_i h
    exact ⟨s.builder, s.attention, .none, fun _ h => h, by rw [← h]⟩
  · rename_i c _
    obtain ⟨b, a, ho, ha, he⟩ := s.offerRaise_eq (.closure (closureOf c reason)) .captureDone
    rw [he]
    exact ⟨b, a, ho, ha, rfl⟩

theorem State.endCapture_noted (s : State) (reason : EndReason) :
    Noted { s with capture := none } (s.endCapture reason) := by
  obtain ⟨b, a, ho, _, he⟩ := s.endCapture_eq reason
  exact ⟨b, a, ho, he⟩

/-- The state after a frame has joined, before the watermark is looked at: the capture goes on or has ended. -/
theorem State.formFrame_joined (s : State) (c : RunningCapture) (f : CaptureFrame) (c2 : RunningCapture) :
    ∃ k b a, Offered s.builder b ∧
      (∀ j, s.attention.isPending j = true → Attention.isPending a j = true) ∧
      (if c.remaining ≤ Config.frameSets then
        ({ s with captureQueue := s.captureQueue ++ [f], capture := some c2 } : State).endCapture .complete
      else { s with captureQueue := s.captureQueue ++ [f], capture := some c2 }) =
      { s with captureQueue := s.captureQueue ++ [f], capture := k, builder := b, attention := a } := by
  split
  · obtain ⟨b, a, ho, ha, he⟩ := State.endCapture_eq
      { s with captureQueue := s.captureQueue ++ [f], capture := some c2 } .complete
    exact ⟨none, b, a, ho, ha, he⟩
  · exact ⟨some c2, s.builder, s.attention, .none, fun _ h => h, rfl⟩

/-- A frame that is formed takes one place of the Capture Queue. -/
theorem State.formFrame_length (s : State) (c : RunningCapture) :
    (s.formFrame c).captureQueue.length = s.captureQueue.length + 1 := by
  unfold State.formFrame
  dsimp only
  obtain ⟨k, b, a, _, _, he⟩ := s.formFrame_joined c (nextFrame s c) (c.advance (nextFrame s c))
  rw [he]
  unfold State.shedIfFull
  split
  · obtain ⟨b2, a2, _, _, he2⟩ := State.endCapture_eq
      { s with captureQueue := s.captureQueue ++ [nextFrame s c], capture := k, builder := b, attention := a,
               shedding := .shed } .truncatedShed
    rw [he2]
    simp
  · simp

theorem Formed.formFrame (s : State) (c : RunningCapture) (hc : s.capture = some c)
    (hroom : s.captureQueue.length < 48) : Formed s (s.formFrame c) := by
  unfold State.formFrame
  dsimp only
  obtain ⟨k, b, a, ho, ha, he⟩ := s.formFrame_joined c (nextFrame s c) (c.advance (nextFrame s c))
  rw [he]
  have hlen : (s.captureQueue ++ [nextFrame s c]).length = s.captureQueue.length + 1 := by simp
  unfold State.shedIfFull
  split
  · rename_i hfull
    obtain ⟨b2, a2, ho2, ha2, he2⟩ := State.endCapture_eq
      { s with captureQueue := s.captureQueue ++ [nextFrame s c], capture := k, builder := b, attention := a,
               shedding := .shed } .truncatedShed
    rw [he2]
    refine ⟨_, _, _, _, _, ho.trans ho2, fun j hj => ha2 j (ha j hj), fun _ => by rw [hlen]; omega, fun h => ?_, rfl⟩
    have h1 := h.setup.low
    refine ⟨h.setup, (fun x => by cases x), (fun x => by cases x), fun _ => ?_⟩
    show s.setup.lowMark < (s.captureQueue ++ [nextFrame s c]).length
    have h2 : (s.captureQueue ++ [nextFrame s c]).length = s.setup.highMark := hfull.2
    omega
  · rename_i hfull
    refine ⟨_, _, _, _, _, ho, ha, fun _ => by rw [hlen]; omega, fun h => ?_, rfl⟩
    have hr := h.running (by rw [hc]; rfl)
    have h3 := h.opened hr.2
    refine ⟨h.setup, fun _ => hr, fun _ => ?_, fun x => ?_⟩
    · have h4 : ¬ (s.captureQueue ++ [nextFrame s c]).length = s.setup.highMark := fun e => hfull ⟨hr.2, e⟩
      omega
    · have x' : s.shedding = .shed := x
      rw [hr.2] at x'
      cases x'

theorem State.frameReady_room (s : State) (c : RunningCapture) (h : s.frameReady c = true) :
    s.captureQueue.length < 48 := by
  have h2 : (setsReady s.history c && decide (s.captureQueue.length < Config.captureQueueSize)) = true := h
  simp only [Bool.and_eq_true, decide_eq_true_eq] at h2
  exact h2.2

theorem Formed.formOne (s : State) : Formed s s.formOne := by
  unfold State.formOne
  split
  · exact .refl s
  · rename_i c hc
    split
    · rename_i h
      exact .formFrame s c hc (s.frameReady_room c h)
    · exact .refl s

theorem Formed.formFrames (s : State) (n : Nat) : Formed s (s.formFrames n) := by
  induction n generalizing s with
  | zero => exact .refl s
  | succ n ih => exact (Formed.formOne s).trans (ih _)

/-- What each of the three occasions of R121 can do. -/
theorem Formed.formAll (s : State) : Formed s s.formAll :=
  .formFrames s _

/-! ### No frame waits -/

theorem FramesFormed.congr {s t : State} (h : FramesFormed s) (hc : t.capture = s.capture)
    (hh : t.history = s.history) (hq : t.captureQueue = s.captureQueue) : FramesFormed t := by
  intro c e
  have := h c (hc ▸ e)
  unfold State.frameReady at this ⊢
  rw [hh, hq]
  exact this

/-- Where no frame waits, none is formed. -/
theorem State.formOne_formed (s : State) (h : FramesFormed s) : s.formOne = s := by
  unfold State.formOne
  split
  · rfl
  · rename_i c hc
    rw [h c hc]
    rfl

theorem State.formFrames_formed (s : State) (n : Nat) (h : FramesFormed s) : s.formFrames n = s := by
  induction n with
  | zero => rfl
  | succ n ih =>
    show s.formOne.formFrames n = s
    rw [s.formOne_formed h, ih]

/-- Each frame takes a place, so as many frames as there are places left leave none waiting. -/
theorem State.formFrames_done (s : State) (n : Nat) (h : 48 ≤ s.captureQueue.length + n) :
    FramesFormed (s.formFrames n) := by
  induction n generalizing s with
  | zero =>
    intro c _
    cases hr : s.frameReady c with
    | false => exact hr
    | true =>
      have := s.frameReady_room c hr
      omega
  | succ n ih =>
    show FramesFormed (s.formOne.formFrames n)
    by_cases hf : FramesFormed s
    · rw [s.formOne_formed hf, s.formFrames_formed n hf]
      exact hf
    · refine ih _ ?_
      have : s.formOne.captureQueue.length = s.captureQueue.length + 1 := by
        unfold State.formOne
        split
        · rename_i hn
          exact absurd (fun c hc => by rw [hn] at hc; cases hc) hf
        · rename_i c hc
          split
          · exact s.formFrame_length c
          · rename_i hr
            refine absurd (fun d hd => ?_) hf
            rw [hc] at hd
            cases hd
            simpa using hr
      omega

/-- After an occasion of R121 no frame waits. -/
theorem State.formAll_done (s : State) : FramesFormed s.formAll :=
  s.formFrames_done _ (Nat.le_add_left _ _)

end Sys2Proof.Machine
end

