-- ==== Sys2Proof/Laws/Within.lean ====
section
/-! SUPPORT. What the processing of one point can do to the state, once for each operation of chapters 3 to 7:
`Within b i g p s t` says that `t` differs from `s` in point `p`, in channel values, in new records, in newly pending
classes, and at most, with `g`, by a capture that starts and its frames; with `b` the Boundary Unit of `p` is kept, with `i` the presence of
its block and interval. -/

namespace Sys2Proof.Machine

/-- What the processing of a point keeps of the point itself. -/
structure PointKept (b i : Bool) (x y : PointRecord) : Prop where
  measured : y.measured = x.measured
  reference : y.reference = x.reference
  boundary : b = true → y.boundary = x.boundary
  interval : i = true → y.interval.isSome = x.interval.isSome
  block : i = true ∨ x.block.isSome = true → y.block.isSome = x.block.isSome
  assessment : y.assessment.isSome = x.assessment.isSome
  limits : x.LimitsLegal → y.LimitsLegal

/-- What the processing of a point keeps of the state. -/
structure Within (b i g : Bool) (p : Point) (s t : State) : Prop where
  count : t.count = s.count
  timerNominal : t.timerNominal = s.timerNominal
  setup : t.setup = s.setup
  routing : t.routing = s.routing
  strobe : t.strobe = s.strobe
  modules : t.modules = s.modules
  history : t.history = s.history
  engine : g = false → t.captureQueue = s.captureQueue ∧ t.shedding = s.shedding ∧ t.capture = s.capture
  frames : s.captureQueue.length ≤ 48 → t.captureQueue.length ≤ 48
  fits : s.measuring = true → s.engineFits → t.engineFits
  formed : FramesFormed s → FramesFormed t
  exchange : t.exchange = s.exchange
  port : t.port = s.port
  control : t.control = s.control
  dueNow : t.dueNow = s.dueNow
  pending : t.pending = s.pending
  entry : ∀ c, (t.channel c).entry = (s.channel c).entry
  leads : ∀ c, (t.channel c).lead = (s.channel c).lead ∧ (t.channel c).due = (s.channel c).due
  ring : ∀ c, (s.channel c).ring.length ≤ 8 → (t.channel c).ring.length ≤ 8
  builder : Offered s.builder t.builder
  classes : ∀ k, s.attention.isPending k = true → t.attention.isPending k = true
  others : ∀ q, q ≠ p → t.point q = s.point q
  here : PointKept b i (s.point p) (t.point p)

/-! ### Composition -/

theorem PointKept.refl (b i : Bool) (x : PointRecord) : PointKept b i x x :=
  ⟨rfl, rfl, fun _ => rfl, fun _ => rfl, fun _ => rfl, rfl, id⟩

theorem PointKept.trans {b i : Bool} {x y z : PointRecord} (h : PointKept b i x y) (k : PointKept b i y z) :
    PointKept b i x z :=
  ⟨k.measured.trans h.measured, k.reference.trans h.reference, fun e => (k.boundary e).trans (h.boundary e),
    fun e => (k.interval e).trans (h.interval e),
    fun e => (k.block (e.imp id (fun x => (h.block e).trans x))).trans (h.block e), k.assessment.trans h.assessment,
    fun l => k.limits (h.limits l)⟩

theorem PointKept.weaken {b i : Bool} {x y : PointRecord} (h : PointKept true true x y) : PointKept b i x y :=
  ⟨h.measured, h.reference, fun _ => h.boundary rfl, fun _ => h.interval rfl, fun _ => h.block (Or.inl rfl), h.assessment, h.limits⟩

theorem Within.refl (b i g : Bool) (p : Point) (s : State) : Within b i g p s s :=
  ⟨rfl, rfl, rfl, rfl, rfl, rfl, rfl, fun _ => ⟨rfl, rfl, rfl⟩, id, fun _ h => h, id, rfl, rfl, rfl, rfl, rfl,
    fun _ => rfl, fun _ => ⟨rfl, rfl⟩, fun _ h => h, .none, fun _ h => h, fun _ _ => rfl, PointKept.refl b i _⟩

theorem Within.trans {b i g : Bool} {p : Point} {s t u : State} (h : Within b i g p s t) (k : Within b i g p t u) :
    Within b i g p s u where
  count := k.count.trans h.count
  timerNominal := k.timerNominal.trans h.timerNominal
  setup := k.setup.trans h.setup
  routing := k.routing.trans h.routing
  strobe := k.strobe.trans h.strobe
  modules := k.modules.trans h.modules
  history := k.history.trans h.history
  engine := fun e => ⟨(k.engine e).1.trans (h.engine e).1, (k.engine e).2.1.trans (h.engine e).2.1,
    (k.engine e).2.2.trans (h.engine e).2.2⟩
  frames := fun x => k.frames (h.frames x)
  fits := fun m x => k.fits (by unfold State.measuring; rw [h.control]; exact m) (h.fits m x)
  formed := fun x => k.formed (h.formed x)
  exchange := k.exchange.trans h.exchange
  port := k.port.trans h.port
  control := k.control.trans h.control
  dueNow := k.dueNow.trans h.dueNow
  pending := k.pending.trans h.pending
  entry := fun c => (k.entry c).trans (h.entry c)
  leads := fun c => ⟨(k.leads c).1.trans (h.leads c).1, (k.leads c).2.trans (h.leads c).2⟩
  ring := fun c l => k.ring c (h.ring c l)
  builder := h.builder.trans k.builder
  classes := fun c l => k.classes c (h.classes c l)
  others := fun q hq => (k.others q hq).trans (h.others q hq)
  here := h.here.trans k.here

theorem Within.weaken {b i g : Bool} {p : Point} {s t : State} (h : Within true true g p s t) : Within b i g p s t :=
  { h with here := h.here.weaken }

/-! ### Raising and offering -/

theorem Within.raise (b i g : Bool) (p : Point) (s : State) (k : AttnClass) : Within b i g p s (s.raise k) :=
  { Within.refl b i g p s with classes := fun c h => s.attention.raise_keeps s.routing s.count k c h }

theorem Within.offer (b i g : Bool) (p : Point) (s : State) (body : RecordBody) : Within b i g p s (s.offer body) := by
  have base : Within b i g p s { s with builder := s.builder.offer body } :=
    { Within.refl b i g p s with builder := .one _ _ }
  rcases s.offer_eq body with h | h
  · rw [h]
    exact base
  · rw [h]
    exact base.trans (Within.raise b i g p _ _)

theorem Within.offerStatus (b i g : Bool) (p : Point) (s : State) (kind : StatusKind) :
    Within b i g p s (s.offerStatus kind) :=
  Within.offer b i g p s _

theorem Within.offerRaise (b i g : Bool) (p : Point) (s : State) (body : RecordBody) (k : AttnClass) :
    Within b i g p s ((s.offer body).raise k) :=
  (Within.offer b i g p s body).trans (Within.raise b i g p _ k)

theorem Within.modPoint {b i g : Bool} {p : Point} (s : State) (f : PointRecord → PointRecord)
    (h : PointKept b i (s.point p) (f (s.point p))) : Within b i g p s (s.modPoint p f) :=
  { Within.refl b i g p s with
    others := fun q hq => by rw [State.modPoint_point, if_neg hq]
    here := by rw [State.modPoint_point, if_pos rfl]; exact h }

theorem Within.mapChannels {b i g : Bool} {p : Point} (s : State) (f : Channel → ChannelRecord → ChannelRecord)
    (he : ∀ c x, (f c x).entry = x.entry) (hl : ∀ c x, (f c x).lead = x.lead ∧ (f c x).due = x.due)
    (hr : ∀ c x, x.ring.length ≤ 8 → (f c x).ring.length ≤ 8) :
    Within b i g p s (s.mapChannels f) where
  count := s.mapChannels_count f
  timerNominal := s.mapChannels_timerNominal f
  setup := s.mapChannels_setup f
  routing := s.mapChannels_routing f
  strobe := s.mapChannels_strobe f
  modules := s.mapChannels_modules f
  history := s.mapChannels_history f
  engine := fun _ => ⟨s.mapChannels_captureQueue f, s.mapChannels_shedding f, s.mapChannels_capture f⟩
  frames := fun x => (s.mapChannels_captureQueue f).symm ▸ x
  fits := fun _ x => State.engineFits_congr x (s.mapChannels_setup f) (s.mapChannels_control f) (s.mapChannels_capture f)
    (s.mapChannels_shedding f) (s.mapChannels_captureQueue f)
  formed := fun x => x.congr (s.mapChannels_capture f) (s.mapChannels_history f) (s.mapChannels_captureQueue f)
  exchange := s.mapChannels_exchange f
  port := s.mapChannels_port f
  control := s.mapChannels_control f
  dueNow := s.mapChannels_dueNow f
  pending := s.mapChannels_pending f
  entry := fun c => by rw [State.mapChannels_channel]; exact he c _
  leads := fun c => by rw [State.mapChannels_channel]; exact hl c _
  ring := fun c h => by rw [State.mapChannels_channel]; exact hr c _ h
  builder := by rw [State.mapChannels_builder]; exact .none
  classes := fun k h => by rw [State.mapChannels_attention]; exact h
  others := fun q _ => s.mapChannels_point_same f q
  here := by rw [State.mapChannels_point_same]; exact PointKept.refl b i _

/-- Either of two operations, by a test. -/
theorem Within.iteIf {b i g : Bool} {p : Point} {s t u : State} {c : Prop} [Decidable c]
    (ht : Within b i g p s t) (hu : Within b i g p s u) : Within b i g p s (if c then t else u) := by
  split
  · exact ht
  · exact hu

/-- An operation that is followed by another only sometimes. -/
theorem Within.andIf {b i g : Bool} {p : Point} {s t u : State} {c : Prop} [Decidable c]
    (ht : Within b i g p s t) (hu : Within b i g p t u) : Within b i g p s (if c then u else t) :=
  Within.iteIf (ht.trans hu) ht

/-! ### The Capture Engine's answer (R118) -/

theorem State.captureAnswer_taken (s : State) (h : s.captureAnswer = .taken) :
    s.capture = none ∧ s.shedding = .opened ∧ s.control.device ≠ .holdup := by
  unfold State.captureAnswer at h
  split at h
  · cases h
  · split at h
    · cases h
    · split at h
      · cases h
      · rename_i h1 h2 h3
        refine ⟨by simpa using h2, ?_, h1⟩
        cases hs : s.shedding with
        | opened => rfl
        | shed => exact absurd hs h3

theorem Within.startCapture (b i : Bool) (p : Point) (s : State) (tag : Word) (q : Point) (t : Tick)
    (h : s.capture = none ∧ s.shedding = .opened ∧ s.control.device ≠ .holdup) :
    Within b i true p s (s.startCapture tag q t) := by
  obtain ⟨r, sh, c, k, a, ho, ha, hr, hf, he⟩ := Formed.formAll { s with capture := some (newCapture s tag q t) }
  have hd := State.formAll_done { s with capture := some (newCapture s tag q t) }
  unfold State.startCapture
  rw [he] at hd ⊢
  refine { Within.refl b i true p s with
    builder := ho, classes := ha, frames := hr, formed := fun _ => hd
    engine := fun e => by cases e
    fits := fun hm x => hf ⟨x.setup, fun _ => ⟨?_, h.2.1⟩, x.opened, x.shed⟩ }
  have h3 := h.2.2
  unfold State.measuring at hm
  show s.control.device = .running
  revert hm h3
  cases s.control.device <;> simp

theorem Within.requestCapture (b i : Bool) (p : Point) (s : State) (tag : Word) (q : Point) (t : Tick) :
    Within b i true p s (s.requestCapture tag q t) := by
  unfold State.requestCapture
  split
  · rename_i h
    exact Within.startCapture b i p s tag q t (s.captureAnswer_taken h)
  · exact Within.refl b i true p s

theorem Within.eventTag (b i g : Bool) (p : Point) (s : State) (tag : Word) :
    Within b i g p s { s with eventTag := tag } :=
  { Within.refl b i g p s with }

/-! ### Trackers (chapter 5) -/

/-- A change of a point's trackers, check or pending parts that the kept fields do not see. -/
theorem PointKept.ofSame {b i : Bool} {x y : PointRecord} (hm : y.measured = x.measured)
    (hr : y.reference = x.reference) (hb : y.boundary = x.boundary) (hi : y.interval = x.interval)
    (hk : y.block = x.block) (ha : y.assessment.isSome = x.assessment.isSome) (hl : y.limits = x.limits)
    (hp : y.pendingLimits = x.pendingLimits) (ht : y.thresholds = x.thresholds) : PointKept b i x y :=
  ⟨hm, hr, fun _ => hb, fun _ => by rw [hi], fun _ => by rw [hk], ha, fun l =>
    ⟨by rw [hl]; exact l.inForce, by rw [hp]; exact l.pending, by rw [hl, ht]; exact l.derived⟩⟩

theorem Within.closeEvent (b i g : Bool) (p : Point) (s : State) (e : OpenEvent) (t : Tick) (cause : EndCause) :
    Within b i g p s (s.closeEvent p e t cause) := by
  unfold State.closeEvent
  refine (Within.offerRaise b i g p s _ _).trans (Within.modPoint _ _ ?_)
  exact PointKept.ofSame rfl rfl rfl rfl rfl (by simp) rfl rfl rfl

theorem Within.openLow (b i : Bool) (p : Point) (s : State) (r : WindowResult) (k : EventClass) (v : Nat × Nat) :
    Within b i true p s (s.openLow p r k v) := by
  unfold State.openLow
  refine ((((Within.eventTag b i true p s _).trans (Within.requestCapture b i p _ _ _ _)).trans
    (Within.modPoint _ _ ?_))).trans (Within.raise b i true p _ _)
  exact PointKept.ofSame rfl rfl rfl rfl rfl rfl rfl rfl rfl

theorem Within.openHigh (b i : Bool) (p : Point) (s : State) (r : WindowResult) (v : Nat × Nat)
    (low : Option OpenEvent) : Within b i true p s (s.openHigh p r v low) := by
  unfold State.openHigh
  cases low with
  | some e =>
    refine ((Within.eventTag b i true p s _).trans (Within.modPoint _ _ ?_)).trans (Within.raise b i true p _ _)
    exact PointKept.ofSame rfl rfl rfl rfl rfl rfl rfl rfl rfl
  | none =>
    refine (((Within.eventTag b i true p s _).trans (Within.requestCapture b i p _ _ _ _)).trans
      (Within.modPoint _ _ ?_)).trans (Within.raise b i true p _ _)
    exact PointKept.ofSame rfl rfl rfl rfl rfl rfl rfl rfl rfl

theorem Within.lowContinue (b i g : Bool) (p : Point) (s : State) (r : WindowResult) (e : OpenEvent)
    (v w : Nat × Nat) : Within b i g p s (s.lowContinue p r e v w) := by
  unfold State.lowContinue
  refine (Within.iteIf (Within.closeEvent b i g p s _ _ _) (Within.refl b i g p s)).trans (Within.modPoint _ _ ?_)
  exact PointKept.ofSame rfl rfl rfl rfl rfl rfl rfl rfl rfl

theorem Within.lowStep (b i : Bool) (p : Point) (s : State) (r : WindowResult) :
    Within b i true p s (s.lowStep p r) := by
  unfold State.lowStep
  split
  · exact Within.modPoint _ _ (PointKept.ofSame rfl rfl rfl rfl rfl rfl rfl rfl rfl)
  · dsimp only
    split
    · exact Within.lowContinue b i true p s r _ _ _
    · split
      · exact Within.openLow b i p s r _ _
      · exact Within.openLow b i p s r _ _
      all_goals exact Within.refl b i true p s

theorem Within.highStep (b i : Bool) (p : Point) (s : State) (r : WindowResult) (low : Option OpenEvent) :
    Within b i true p s (s.highStep p r low) := by
  unfold State.highStep
  dsimp only
  split
  · exact Within.modPoint _ _ (PointKept.ofSame rfl rfl rfl rfl rfl rfl rfl rfl rfl)
  · split
    · exact Within.iteIf (Within.openHigh b i p s r _ low) (Within.refl b i true p s)
    · split
      · refine (Within.closeEvent b i true p s _ _ _).trans (Within.modPoint _ _ ?_)
        exact PointKept.ofSame rfl rfl rfl rfl rfl rfl rfl rfl rfl
      · exact Within.modPoint _ _ (PointKept.ofSame rfl rfl rfl rfl rfl rfl rfl rfl rfl)

theorem PointRecord.install_legal (pt : PointRecord) (l : LimitsEntry) (h : l.valid = true) :
    (pt.install l).LimitsLegal :=
  ⟨h, (fun _ e => by cases e), rfl⟩

theorem Within.installPending (b i g : Bool) (p : Point) (s : State) : Within b i g p s (s.installPending p) := by
  unfold State.installPending
  split
  · split
    · exact Within.refl b i g p s
    · rename_i l hl
      refine (Within.modPoint _ _ ?_).trans (Within.offerStatus b i g p _ _)
      exact ⟨rfl, rfl, fun _ => rfl, fun _ => rfl, fun _ => rfl, rfl, fun h =>
        PointRecord.install_legal _ l (h.pending l hl)⟩
  · exact Within.refl b i g p s

theorem pushRing_le (ring : List Nat) (v : Nat) : (pushRing ring v).length ≤ 8 := by
  unfold pushRing Config.ringSize
  simp only [List.length_drop, List.length_append, List.length_cons, List.length_nil]
  omega

theorem Within.joinRings (b i g : Bool) (p : Point) (s : State) (r : WindowResult) :
    Within b i g p s (s.joinRings p r) := by
  unfold State.joinRings
  refine Within.mapChannels s _ ?_ ?_ ?_
  · intro c x
    split
    · split <;> rfl
    · rfl
  · intro c x
    split
    · split <;> exact ⟨rfl, rfl⟩
    · exact ⟨rfl, rfl⟩
  · intro c x h
    split
    · split
      · exact h
      · exact pushRing_le _ _
    · exact h

theorem PointRecord.withdraw_kept (b i : Bool) (pt : PointRecord) : PointKept b i pt pt.withdraw := by
  unfold PointRecord.withdraw
  split
  · exact PointKept.refl b i _
  · split
    · exact PointKept.refl b i _
    · exact PointKept.ofSame rfl rfl rfl rfl rfl rfl rfl rfl rfl

theorem Within.takeResult (b i : Bool) (p : Point) (s : State) (r : WindowResult) :
    Within b i true p s (s.takeResult p r) := by
  unfold State.takeResult
  dsimp only
  refine Within.andIf (Within.trans ?_ (Within.installPending b i true p _)) (Within.joinRings b i true p _ r)
  refine Within.andIf ?_ (Within.modPoint _ _ (PointRecord.withdraw_kept b i _))
  exact (Within.lowStep b i p s r).trans (Within.highStep b i p _ r _)

end Sys2Proof.Machine
end

