-- ==== Sys2Proof/Laws/Delivery.lean ====
section
/-! SUPPORT. What the Aggregator, the lead check scheduling and the delivery of a set can do (chapters 2, 3, 6). -/

namespace Sys2Proof.Machine

/-! ### The Aggregator -/

theorem Within.endAssessment (b i g : Bool) (p : Point) (s : State) (early stopped : Bool) (a : Assessment) :
    Within b i g p s (s.endAssessment p early stopped (some a)) := by
  unfold State.endAssessment
  split
  · exact Within.refl b i g p s
  · rename_i x hx
    refine (Within.offerRaise b i g p s _ _).trans (Within.modPoint _ _ ?_)
    refine PointKept.ofSame rfl rfl rfl rfl rfl ?_ rfl rfl rfl
    simp [hx]

theorem Within.closeBlock (b i g : Bool) (p : Point) (s : State) (k : Block) (h : (s.point p).block.isSome = true) :
    Within b i g p s (s.closeBlock p k) := by
  unfold State.closeBlock
  refine Within.trans (t := if (s.control.device == .running && inMask s.setup.blockPoints p.val) = true
    then s.offer (.block (blockRecord s p k)) else s) ?_ ?_
  · exact Within.iteIf (Within.offer b i g p s _) (Within.refl b i g p s)
  · refine Within.modPoint _ _ ⟨rfl, rfl, fun _ => rfl, fun _ => by simp, fun _ => ?_, rfl, fun l => ⟨l.1, l.2, l.3⟩⟩
    split <;> simp [h]

theorem Within.closeBlockShort (b i g : Bool) (p : Point) (s : State) :
    Within b i g p s (s.closeBlockShort p) := by
  unfold State.closeBlockShort
  split
  · exact Within.refl b i g p s
  · rename_i k hk
    split
    · exact Within.modPoint _ _ ⟨rfl, rfl, fun _ => rfl, fun _ => rfl, fun _ => by simp [hk], rfl, fun l => ⟨l.1, l.2, l.3⟩⟩
    · exact Within.closeBlock b i g p s k (by simp [hk])

theorem Within.closeInterval (b g : Bool) (p : Point) (s : State) (t : Tick) (stopped : Bool) :
    Within b false g p s (s.closeInterval p t stopped) := by
  unfold State.closeInterval
  split
  · exact Within.refl b false g p s
  · dsimp only
    refine Within.andIf ?_ (Within.endAssessment b false g p _ _ _ _)
    refine (Within.modPoint _ _ ?_).trans (Within.offerRaise b false g p _ _ _)
    exact ⟨rfl, rfl, fun _ => rfl, (fun h => by cases h), fun _ => rfl, by simp, fun l => ⟨l.1, l.2, l.3⟩⟩

/-- What keeps the presence of a block and an interval may be shown apart. -/
theorem Within.withSpans {b g : Bool} {p : Point} {s t : State} (h : Within b false g p s t)
    (hb : (t.point p).block.isSome = (s.point p).block.isSome)
    (hi : (t.point p).interval.isSome = (s.point p).interval.isSome) : Within b true g p s t :=
  { h with here := { h.here with interval := fun _ => hi, block := fun _ => hb } }

theorem Within.forgetSpans {b i g : Bool} {p : Point} {s t : State} (h : Within b true g p s t) :
    Within b i g p s t :=
  { h with here := { h.here with interval := fun _ => h.here.interval rfl, block := fun _ => h.here.block (Or.inl rfl) } }

theorem Within.openSpans (b g : Bool) (p : Point) (s : State) (t : Tick) : Within b false g p s (s.openSpans t p) :=
  Within.modPoint _ _ ⟨rfl, rfl, fun _ => rfl, (fun e => by cases e), fun e => by simp [e.resolve_left (by simp)],
    rfl, fun l => ⟨l.1, l.2, l.3⟩⟩

theorem State.openSpans_point (s : State) (t : Tick) (p : Point) :
    (s.openSpans t p).point p = { s.point p with block := some .fresh, interval := some (s.newInterval t) } := by
  unfold State.openSpans
  rw [State.modPoint_point, if_pos rfl]

theorem Within.changeBaseLoose (b g : Bool) (p : Point) (s : State) (base : Nat) :
    Within b false g p s (s.changeBase p base) :=
  ((Within.closeBlockShort b false g p s).trans (Within.closeInterval b g p _ _ false)).trans
    (Within.openSpans b g p _ _)

theorem Within.changeBase (b i g : Bool) (p : Point) (s : State) (base : Nat)
    (h : i = true → (s.point p).block.isSome = true ∧ (s.point p).interval.isSome = true) :
    Within b i g p s (s.changeBase p base) := by
  cases i with
  | false => exact Within.changeBaseLoose b g p s base
  | true =>
    refine Within.withSpans (Within.changeBaseLoose b g p s base) ?_ ?_
    · unfold State.changeBase
      rw [State.openSpans_point]
      exact (h rfl).1.symm
    · unfold State.changeBase
      rw [State.openSpans_point]
      exact (h rfl).2.symm

theorem Within.joinBlock (b i g : Bool) (p : Point) (s : State) (h : ClosedHalf) :
    Within b i g p s (s.joinBlock p h) := by
  unfold State.joinBlock
  split
  · exact Within.refl b i g p s
  · rename_i k hk
    dsimp only
    split
    · exact Within.closeBlock b i g p s _ (by simp [hk])
    · exact Within.modPoint _ _ ⟨rfl, rfl, fun _ => rfl, fun _ => rfl, fun _ => by simp [hk], rfl, fun l => ⟨l.1, l.2, l.3⟩⟩

theorem State.baseMoves_interval (s : State) (p : Point) (base : Nat) (h : s.baseMoves p base = true) :
    (s.point p).interval.isSome = true := by
  unfold State.baseMoves at h
  split at h
  · cases h
  · rename_i iv hiv
    simp [hiv]

theorem Within.takeHalf (b i g : Bool) (p : Point) (s : State) (h : ClosedHalf)
    (hs : i = true → (s.point p).block.isSome = (s.point p).interval.isSome) :
    Within b i g p s (s.takeHalf p h) := by
  unfold State.takeHalf
  dsimp only
  refine Within.trans (t := if s.baseMoves p (intervalBase s.setup (s.epochOf h.tick)) = true
    then s.changeBase p (intervalBase s.setup (s.epochOf h.tick)) else s) ?_ ?_
  · split
    · rename_i hm
      have hi := s.baseMoves_interval p _ hm
      exact Within.changeBase b i g p s _ (fun e => ⟨(hs e).trans hi, hi⟩)
    · exact Within.refl b i g p s
  · refine (Within.joinBlock b i g p _ h).trans (Within.modPoint _ _ ?_)
    exact ⟨rfl, rfl, fun _ => rfl, fun _ => by simp, fun _ => rfl, rfl, fun l => ⟨l.1, l.2, l.3⟩⟩

/-! ### Lead checks -/

theorem Within.scheduleCheck (b i g : Bool) (p : Point) (s : State) (k : Tick) :
    Within b i g p s (s.scheduleCheck p k) := by
  unfold State.scheduleCheck
  split
  · split
    · exact Within.refl b i g p s
    · exact Within.modPoint _ _ (PointKept.ofSame rfl rfl rfl rfl rfl rfl rfl rfl rfl)
  · exact Within.refl b i g p s

/-! ### Delivery -/

theorem PointRecord.countFrequency_kept (b i : Bool) (pt : PointRecord) (v : Nat) :
    PointKept b i pt (pt.countFrequency v) :=
  ⟨rfl, rfl, fun _ => rfl, fun _ => by simp [PointRecord.countFrequency], fun _ => rfl,
    by simp [PointRecord.countFrequency], fun l => ⟨l.1, l.2, l.3⟩⟩

theorem Within.advancePeriod (b i g : Bool) (p : Point) (s : State) (t : Tick) :
    Within b i g p s (s.advancePeriod p t) := by
  unfold State.advancePeriod
  dsimp only
  split
  · exact Within.modPoint _ _ (PointKept.ofSame rfl rfl rfl rfl rfl rfl rfl rfl rfl)
  · split
    · exact Within.refl b i g p s
    · refine Within.modPoint _ _ ?_
      split
      · exact PointKept.ofSame rfl rfl rfl rfl rfl rfl rfl rfl rfl
      · exact (PointRecord.countFrequency_kept b i _ _).trans
          (PointKept.ofSame rfl rfl rfl rfl rfl rfl rfl rfl rfl)

theorem Within.addSamples (b i g : Bool) (p : Point) (s : State) (set : SampleSet) :
    Within b i g p s (s.addSamples p set) := by
  unfold State.addSamples
  refine Within.mapChannels s _ ?_ ?_ ?_
  · intro c x
    split <;> rfl
  · intro c x
    split <;> exact ⟨rfl, rfl⟩
  · intro c x h
    split <;> exact h

theorem Within.rotate (b i g : Bool) (p : Point) (s : State) (free : Bool) : Within b i g p s (s.rotate p free) := by
  unfold State.rotate State.rotateTallies
  refine (Within.mapChannels s _ ?_ ?_ ?_).trans (Within.modPoint _ _ ?_)
  · intro c x
    split <;> rfl
  · intro c x
    split <;> exact ⟨rfl, rfl⟩
  · intro c x h
    split <;> exact h
  · exact PointKept.ofSame rfl rfl rfl rfl rfl rfl rfl rfl rfl

theorem Within.takeIfResult (b i : Bool) (p : Point) (s : State) (r : Option WindowResult) :
    Within b i true p s (s.takeIfResult p r) := by
  unfold State.takeIfResult
  split
  · exact Within.refl b i true p s
  · exact Within.takeResult b i p s _

theorem Within.closeHalf (i : Bool) (p : Point) (s : State) (t : Tick) (k : Closing)
    (hs : i = true → (s.point p).block.isSome = (s.point p).interval.isSome) :
    Within true i true p s (s.closeHalf p t k) := by
  unfold State.closeHalf
  dsimp only
  refine Within.andIf ?_ (Within.scheduleCheck true i true p _ t)
  have h1 := (Within.rotate true i true p s k.free).trans
    (Within.takeIfResult true i p _ (s.windowResult p t k.free))
  refine h1.trans (Within.takeHalf true i true p _ _ ?_)
  intro e
  rw [h1.here.block (Or.inl e), h1.here.interval e]
  exact hs e

/-- The state in which the Boundary Unit of a point decides on a set: period and samples are taken. -/
def State.beforeCut (s : State) (t : Tick) (set : SampleSet) (p : Point) : State :=
  (s.advancePeriod p t).addSamples p set

/-- The decision of a point's Boundary Unit on a set. -/
def State.cutOf (s : State) (t : Tick) (set : SampleSet) (p : Point) (changed : Bool) : Boundary × Option Closing :=
  ((s.beforeCut t set p).point p).boundary.step ((s.beforeCut t set p).point p).limits.crossing changed
    ((s.beforeCut t set p).referenceCode p set)

theorem Within.beforeCut (b i g : Bool) (s : State) (t : Tick) (set : SampleSet) (p : Point) :
    Within b i g p s (s.beforeCut t set p) :=
  (Within.advancePeriod b i g p s t).trans (Within.addSamples b i g p _ set)

theorem Within.closeIfCut (i : Bool) (p : Point) (s : State) (t : Tick) (k : Option Closing)
    (hs : i = true → (s.point p).block.isSome = (s.point p).interval.isSome) :
    Within true i true p s (match k with | none => s | some k => s.closeHalf p t k) := by
  cases k with
  | none => exact Within.refl true i true p s
  | some k => exact Within.closeHalf i p s t k hs

/-- The delivery of a set to a point: what it keeps, and the Boundary Unit it leaves (R41 to R45). -/
theorem Within.deliver (i : Bool) (s : State) (t : Tick) (set : SampleSet) (p : Point) (changed : Bool)
    (hs : i = true → (s.point p).block.isSome = (s.point p).interval.isSome) :
    Within false i true p s (s.deliver t set p changed) ∧
      ((s.deliver t set p changed).point p).boundary = (s.cutOf t set p changed).1 := by
  have h1 : Within false i true p s ((s.beforeCut t set p).modPoint p (fun pt =>
      { pt with
        boundary := (s.cutOf t set p changed).1
        period := pt.period.map (fun q => q.act
          (closingInstant t (((s.beforeCut t set p).point p).boundary.prepare changed).before
            ((s.beforeCut t set p).referenceCode p set) (s.cutOf t set p changed).2)
          (closedFree (s.cutOf t set p changed).2) changed) })) :=
    (Within.beforeCut false i true s t set p).trans
      (Within.modPoint _ _ ⟨rfl, rfl, (fun e => by cases e), fun _ => rfl, fun _ => rfl, rfl,
        fun l => ⟨l.1, l.2, l.3⟩⟩)
  have h2 := Within.closeIfCut i p _ t (s.cutOf t set p changed).2 (fun e => by
    rw [h1.here.block (Or.inl e), h1.here.interval e]; exact hs e)
  refine ⟨h1.trans { h2 with here := { h2.here with boundary := fun e => by cases e } }, ?_⟩
  refine (h2.here.boundary rfl).trans ?_
  rw [State.modPoint_point, if_pos rfl]

end Sys2Proof.Machine
end

