-- ==== Sys2Proof/Laws/Boundary.lean ====
section
/-! SUPPORT. What the Boundary Unit's decision can do (R41 to R44). -/

namespace Sys2Proof.Machine

theorem Boundary.fresh_bounded : Boundary.fresh.bounded := by
  show 0 < 128
  omega

@[simp] theorem Boundary.prepare_count (b : Boundary) (changed : Bool) : (b.prepare changed).count = b.count := by
  unfold Boundary.prepare
  repeat' split
  all_goals rfl

theorem Boundary.prepare_mode (b : Boundary) (changed : Bool) :
    (b.prepare changed).mode = if changed then .free else b.mode := by
  unfold Boundary.prepare
  cases changed
  · simp only [Bool.false_eq_true, if_false]
    split <;> rfl
  · rfl

@[simp] theorem Boundary.disarm_mode (b : Boundary) (x : Option Polarity) : (b.disarm x).mode = b.mode := by
  unfold Boundary.disarm
  split <;> rfl

@[simp] theorem Boundary.disarm_count (b : Boundary) (x : Option Polarity) : (b.disarm x).count = b.count := by
  unfold Boundary.disarm
  split <;> rfl

@[simp] theorem Boundary.arm_mode (b : Boundary) (h : Nat) (x : Option Int) : (b.arm h x).mode = b.mode := by
  unfold Boundary.arm
  split <;> rfl

@[simp] theorem Boundary.arm_count (b : Boundary) (h : Nat) (x : Option Int) : (b.arm h x).count = b.count := by
  unfold Boundary.arm
  split <;> rfl

/-- The unit as the decision finds it: the mode of the notice, the count already incremented. -/
structure Boundary.Ready (b r : Boundary) (changed : Bool) : Prop where
  mode : r.mode = if changed then .free else b.mode
  count : r.count = b.count + 1

theorem Boundary.step_eq (b : Boundary) (h : Nat) (changed : Bool) (x : Option Int) :
    ∃ r c, b.step h changed x = r.decide changed c ∧ b.Ready r changed := by
  refine ⟨_, _, rfl, ?_, ?_⟩
  · simp [Boundary.prepare_mode]
  · simp

/-- A half-window that stays in progress stays below the length that closes it, and one that closes holds 32 to
160 sets (R42 to R44). -/
theorem Boundary.decide_bounds (b r : Boundary) (changed : Bool) (c : Option Polarity) (hr : b.Ready r changed)
    (hb : b.bounded) : (r.decide changed c).1.bounded ∧
      ∀ k, (r.decide changed c).2 = some k → 32 ≤ k.count ∧ k.count ≤ 160 ∧ (r.decide changed c).1.count = 0 := by
  have hcount := hr.count
  have hmode := hr.mode
  have hb' : b.count < 160 := by
    unfold Boundary.bounded at hb
    split at hb <;> omega
  unfold Boundary.decide
  cases changed with
  | true =>
    simp only [if_true] at hmode ⊢
    split
    · refine ⟨?_, ?_⟩
      · show 0 < 128
        omega
      · intro k hk
        cases hk
        rename_i hle
        simp only [Config.freeMax] at hle
        refine ⟨?_, ?_, rfl⟩ <;> show _ ≤ _ <;> simp only <;> omega
    · rename_i hlt
      simp only [Config.freeMax] at hlt
      refine ⟨?_, by intro k hk; cases hk⟩
      unfold Boundary.bounded
      rw [hmode]
      show r.count < 128
      omega
  | false =>
    simp only [Bool.false_eq_true, if_false] at hmode ⊢
    unfold Boundary.bounded at hb
    rw [← hmode] at hb
    cases hm : r.mode with
    | track e =>
      rw [hm] at hb
      dsimp only at hb ⊢
      split
      · rename_i hc
        have h2 := hc.2
        simp only [Config.trackMin] at h2
        refine ⟨show 0 < 160 by omega, ?_⟩
        intro k hk
        cases hk
        refine ⟨?_, ?_, rfl⟩ <;> show _ ≤ _ <;> simp only <;> omega
      · split
        · rename_i hc
          simp only [Config.trackMax] at hc
          refine ⟨show 0 < 128 by omega, ?_⟩
          intro k hk
          cases hk
          refine ⟨?_, ?_, rfl⟩ <;> show _ ≤ _ <;> simp only <;> omega
        · rename_i hc
          simp only [Config.trackMax] at hc
          refine ⟨?_, by intro k hk; cases hk⟩
          unfold Boundary.bounded
          rw [hm]
          show r.count < 160
          omega
    | free =>
      rw [hm] at hb
      dsimp only at hb ⊢
      have hclose : (r.closed .free).bounded := show 0 < 128 by omega
      cases c with
      | some q =>
        dsimp only
        split
        · rename_i hc
          simp only [Config.freeMin] at hc
          refine ⟨show 0 < 160 by omega, ?_⟩
          intro k hk
          cases hk
          refine ⟨?_, ?_, rfl⟩ <;> show _ ≤ _ <;> simp only <;> omega
        · rename_i hc
          simp only [Config.freeMin] at hc
          rw [if_neg (by simp only [Config.freeMax]; omega)]
          refine ⟨?_, by intro k hk; cases hk⟩
          unfold Boundary.bounded
          rw [hm]
          show r.count < 128
          omega
      | none =>
        dsimp only
        split
        · rename_i hc
          simp only [Config.freeMax] at hc
          refine ⟨hclose, ?_⟩
          intro k hk
          cases hk
          refine ⟨?_, ?_, rfl⟩ <;> show _ ≤ _ <;> simp only <;> omega
        · rename_i hc
          simp only [Config.freeMax] at hc
          refine ⟨?_, by intro k hk; cases hk⟩
          unfold Boundary.bounded
          rw [hm]
          show r.count < 128
          omega

theorem Boundary.step_bounds (b : Boundary) (h : Nat) (changed : Bool) (x : Option Int) (hb : b.bounded) :
    (b.step h changed x).1.bounded ∧
      ∀ k, (b.step h changed x).2 = some k → 32 ≤ k.count ∧ k.count ≤ 160 ∧ (b.step h changed x).1.count = 0 := by
  obtain ⟨r, c, he, hr⟩ := b.step_eq h changed x
  rw [he]
  exact Boundary.decide_bounds b r changed c hr hb

/-- The Boundary Unit that a delivery leaves is bounded when the one before it was. -/
theorem State.cutOf_bounded (s : State) (t : Tick) (set : SampleSet) (p : Point) (changed : Bool)
    (h : (s.point p).boundary.bounded) : (s.cutOf t set p changed).1.bounded := by
  refine (Boundary.step_bounds _ _ _ _ ?_).1
  rw [(Within.beforeCut true false true s t set p).here.boundary rfl]
  exact h

end Sys2Proof.Machine
end

