-- ==== Sys2Proof/Laws/Keeps.lean ====
section
/-! SUPPORT. Which invariants an operation keeps: `Keeps s t` bundles the invariants of Safety.lean, one implication
for each, so that they compose and every operation needs one lemma. -/

namespace Sys2Proof.Machine

/-- Every marking that is still to be taken by `d` is so by `e`. -/
def DueNow.within (d e : DueNow) : Prop :=
  (d.period = true → e.period = true) ∧ (d.second = true → e.second = true)

theorem DueNow.within_none {d : DueNow} :
    d.within { period := false, second := false } ↔ d = { period := false, second := false } := by
  obtain ⟨p, q⟩ := d
  cases p <;> cases q <;> simp [DueNow.within]

theorem DueNow.within.refl (d : DueNow) : d.within d :=
  ⟨id, id⟩

theorem DueNow.within_trans {d e f : DueNow} (h : d.within e) (k : e.within f) : d.within f :=
  ⟨fun x => k.1 (h.1 x), fun x => k.2 (h.2 x)⟩

/-- How far an expiry under way is from a whole step: the tag of the strobe frame is `tag` away from that of the
current tick, with `waits` the set just written may have frames waiting, and the markings of `due` may be still to be
taken. -/
structure Drift where
  tag : Byte
  waits : Bool
  due : DueNow

/-- Between two steps. -/
def Drift.zero : Drift where
  tag := 0
  waits := false
  due := { period := false, second := false }

/-- The strobe of the new tick is issued. -/
def Drift.issue (d : Drift) : Drift :=
  { d with tag := 0 }

/-- A new tick begins. -/
def Drift.tick (d : Drift) : Drift :=
  { d with tag := d.tag - 1, due := { period := true, second := true } }

/-- The period marking is taken. -/
def Drift.period (d : Drift) : Drift :=
  { d with due := { d.due with period := false } }

/-- The whole-second marking is taken. -/
def Drift.second (d : Drift) : Drift :=
  { d with due := { d.due with second := false } }

/-- A set is written. -/
def Drift.write (d : Drift) : Drift :=
  { d with waits := true }

/-- The frames that the conditions allow are formed. -/
def Drift.form (d : Drift) : Drift :=
  { d with waits := false }

/-- `ControlCoherent` with the strobe frame away from the current tick and due markings still to be taken: within an
expiry the count runs ahead. -/
structure ControlWith (d : Drift) (s : State) : Prop where
  prior : s.control.prior.isSome = (s.control.device == .holdup || s.control.device == .standby)
  timer : s.control.timerRunning = (s.control.device == .holdup)
  held : s.port.held.isSome → s.control.device = .init
  tag : s.strobe.tag = tagOf s.count + d.tag
  rings : ∀ c, (s.channel c).ring.length ≤ 8
  due : s.dueNow.within d.due

/-- Whether frames wait does not count here. -/
theorem ControlWith.retag {d e : Drift} {s : State} (h : ControlWith d s) (he : e.tag = d.tag) (hd : e.due = d.due) :
    ControlWith e s :=
  ⟨h.prior, h.timer, h.held, he ▸ h.tag, h.rings, hd ▸ h.due⟩

theorem controlWith_zero (s : State) : ControlWith .zero s ↔ ControlCoherent s := by
  refine ⟨fun h => ⟨h.prior, h.timer, h.held, ?_, h.rings, ?_⟩, fun h => ⟨h.prior, h.timer, h.held, ?_, h.rings, ?_⟩⟩
  · rw [h.tag]
    exact BitVec.add_zero _
  · exact DueNow.within_none.mp h.due
  · rw [h.tag]
    exact (BitVec.add_zero _).symm
  · exact DueNow.within_none.mpr h.due

/-- `FramesFormed`, unless frames may wait. -/
def FormedWith (d : Drift) (s : State) : Prop :=
  d.waits = false → FramesFormed s

theorem formedWith_zero (s : State) : FormedWith .zero s ↔ FramesFormed s :=
  ⟨fun h => h rfl, fun h _ => h⟩

/-- Each invariant of `s` is one of `t`; `f` says how far `t` is from a whole step when `s` is so far. -/
structure KeepsBy (f : Drift → Drift) (s t : State) : Prop where
  queues : QueuesBounded s → QueuesBounded t
  chain : ChainIntact s.builder → ChainIntact t.builder
  captures : CaptureCoherent s → CaptureCoherent t
  halves : HalfWindowsBounded s → HalfWindowsBounded t
  spans : SpansExact s → SpansExact t
  modules : ModulesCoherent s → ModulesCoherent t
  map : MapLegal s → MapLegal t
  limits : LimitsLegal s → LimitsLegal t
  control : ∀ {d}, ControlWith d s → ControlWith (f d) t
  formed : ∀ {d}, FormedWith d s → FormedWith (f d) t

/-- Each invariant of `s` is one of `t`. -/
abbrev Keeps (s t : State) : Prop := KeepsBy id s t

theorem Keeps.refl (s : State) : Keeps s s :=
  ⟨id, id, id, id, id, id, id, id, id, id⟩

theorem KeepsBy.trans {f g : Drift → Drift} {s t u : State} (h : KeepsBy f s t) (k : KeepsBy g t u) :
    KeepsBy (g ∘ f) s u :=
  ⟨k.queues ∘ h.queues, k.chain ∘ h.chain, k.captures ∘ h.captures, k.halves ∘ h.halves, k.spans ∘ h.spans,
    k.modules ∘ h.modules, k.map ∘ h.map, k.limits ∘ h.limits, fun q => k.control (h.control q), fun q => k.formed (h.formed q)⟩

theorem Keeps.trans {s t u : State} (h : Keeps s t) (k : Keeps t u) : Keeps s u :=
  KeepsBy.trans h k

/-- An occasion of R121 makes up for frames that wait. -/
theorem KeepsBy.toKeeps {s t : State} (h : KeepsBy Drift.form s t) : Keeps s t :=
  { h with control := fun q => (h.control q).retag rfl rfl, formed := fun q _ => h.formed q rfl }

/-- An operation that leaves no frame waiting where none waited. -/
theorem KeepsBy.settled {s t : State} (h : KeepsBy Drift.write s t) (hf : FramesFormed s → FramesFormed t) :
    Keeps s t :=
  { h with control := fun q => (h.control q).retag rfl rfl, formed := fun q e => hf (q e) }

theorem Keeps.iteIf {s t u : State} {c : Prop} [Decidable c] (ht : c → Keeps s t) (hu : ¬c → Keeps s u) :
    Keeps s (if c then t else u) := by
  split
  · exact ht ‹_›
  · exact hu ‹_›

theorem Keeps.foldl {α : Type} (f : State → α → State) (h : ∀ s x, Keeps s (f s x)) (l : List α) (s : State) :
    Keeps s (l.foldl f s) := by
  induction l generalizing s with
  | nil => exact .refl s
  | cons x xs ih => exact (h s x).trans (ih _)

/-! ### Records and classes -/

theorem QueuesBounded.offered {s : State} {b : RecordBuilder} (h : QueuesBounded s) (ho : Offered s.builder b) :
    b.queue.length ≤ 96 ∧ b.withheld ≤ 255 :=
  ho.keeps (P := fun b => b.queue.length ≤ 96 ∧ b.withheld ≤ 255)
    (fun b body hb => ⟨b.offer_queue_le body hb.1, b.offer_withheld_le body⟩) ⟨h.records, h.withheld⟩

theorem Keeps.noted {s t : State} (h : Noted s t) : Keeps s t := by
  obtain ⟨b, a, ho, rfl⟩ := h
  exact ⟨fun q => ⟨(q.offered ho).1, (q.offered ho).2, q.frames, q.sets⟩,
    fun q => ho.keeps (fun b body hb => hb.offer body) q,
    fun q => ⟨q.setup, q.running, q.opened, q.shed⟩, fun q => q,
    fun q => ⟨q.block, q.interval, q.assessment, q.idle⟩, fun q => ⟨q.setup, q.each⟩,
    fun q => ⟨q.passes, q.ranges⟩, fun q => q, fun q => ⟨q.prior, q.timer, q.held, q.tag, q.rings, q.due⟩, fun q => q⟩

/-! ### Modules -/

/-- The module of `s` fits its state and SETUP. -/
def State.fits (s : State) (m : Module) (r : ModuleRecord) : Prop :=
  r.Coherent (s.setup.enables m) s.setup.missLimit

theorem State.modModule_coherent {s : State} (m : Module) (f : ModuleRecord → ModuleRecord)
    (h : SetupInRange s.setup → s.fits m (s.module m) → s.fits m (f (s.module m))) (q : ModulesCoherent s) :
    ModulesCoherent (s.modModule m f) := by
  refine ⟨q.setup, fun n => ?_⟩
  rw [State.modModule_module]
  split
  · rename_i e
    subst e
    exact h q.setup (q.each n)
  · exact q.each n

/-- A change of modules alone, by its effect on the modules' invariant. -/
theorem Keeps.onModules {s : State} (v : Vector ModuleRecord 4)
    (h : ModulesCoherent s → ModulesCoherent { s with modules := v }) : Keeps s { s with modules := v } :=
  ⟨fun q => ⟨q.records, q.withheld, q.frames, q.sets⟩, fun q => q,
    fun q => ⟨q.setup, q.running, q.opened, q.shed⟩, fun q => q,
    fun q => ⟨q.block, q.interval, q.assessment, q.idle⟩, h,
    fun q => ⟨q.passes, q.ranges⟩, fun q => q, fun q => ⟨q.prior, q.timer, q.held, q.tag, q.rings, q.due⟩, fun q => q⟩

theorem Keeps.modModule (s : State) (m : Module) (f : ModuleRecord → ModuleRecord)
    (h : SetupInRange s.setup → s.fits m (s.module m) → s.fits m (f (s.module m))) : Keeps s (s.modModule m f) :=
  Keeps.onModules _ (State.modModule_coherent m f h)

/-! ### Points and channels -/

theorem State.active_eq {s t : State} (hm : t.measuring = s.measuring) (p : Point)
    (hp : (t.point p).measured = (s.point p).measured) : t.active p = s.active p := by
  unfold State.active
  rw [hm, hp]

/-- A change of one point that keeps what the invariants see of it. -/
theorem Keeps.modPoint (s : State) (p : Point) (f : PointRecord → PointRecord)
    (h : PointKept true true (s.point p) (f (s.point p))) (hi : (s.point p).Idle → (f (s.point p)).Idle) :
    Keeps s (s.modPoint p f) := by
  have key : ∀ q, PointKept true true (s.point q) ((s.modPoint p f).point q) ∧
      ((s.point q).Idle → ((s.modPoint p f).point q).Idle) := by
    intro q
    rw [State.modPoint_point]
    split
    · rename_i e
      subst e
      exact ⟨h, hi⟩
    · exact ⟨.refl _ _ _, id⟩
  have ha : ∀ q, (s.modPoint p f).active q = s.active q := 
    fun q => State.active_eq (s := s) (t := s.modPoint p f) rfl q (key q).1.measured
  refine ⟨fun q => ⟨q.records, q.withheld, q.frames, q.sets⟩, fun q => q,
    fun q => ⟨q.setup, q.running, q.opened, q.shed⟩, ?_, ?_, fun q => ⟨q.setup, q.each⟩,
    fun q => ⟨q.passes, q.ranges⟩, ?_, fun q => ⟨q.prior, q.timer, q.held, q.tag, q.rings, q.due⟩, fun q => q⟩
  · intro q x
    rw [(key x).1.boundary rfl]
    exact q x
  · intro q
    refine ⟨fun x => ?_, fun x => ?_, fun x => ?_, fun x hx => ?_⟩
    · rw [(key x).1.block (Or.inl rfl), ha]
      exact q.block x
    · rw [(key x).1.interval rfl, ha]
      exact q.interval x
    · rw [(key x).1.assessment, (key x).1.measured]
      exact q.assessment x
    · exact (key x).2 (q.idle x (ha x ▸ hx))
  · intro q x
    exact (key x).1.limits (q x)

theorem entries_congr {v w : Vector ChannelRecord 24} (h : ∀ c : Channel, (w[c.val]).entry = (v[c.val]).entry) :
    mapAll w (fun _ ch => ch.entry) = mapAll v (fun _ ch => ch.entry) := by
  apply Vector.ext
  intro i hi
  have := h ⟨i, hi⟩
  have e1 := mapAll_get w (fun _ ch => ch.entry) ⟨i, hi⟩
  have e2 := mapAll_get v (fun _ ch => ch.entry) ⟨i, hi⟩
  simp only at e1 e2 this
  rw [e1, e2, this]

/-- A change of channel values that keeps every map entry and the bound of the rings. -/
theorem Keeps.onChannels {s : State} (v : Vector ChannelRecord 24)
    (he : ∀ c : Channel, (v[c.val]).entry = (s.channel c).entry)
    (hr : ∀ c : Channel, (s.channel c).ring.length ≤ 8 → (v[c.val]).ring.length ≤ 8) :
    Keeps s { s with channels := v } := by
  refine ⟨fun q => ⟨q.records, q.withheld, q.frames, q.sets⟩, fun q => q,
    fun q => ⟨q.setup, q.running, q.opened, q.shed⟩, fun q => q,
    fun q => ⟨q.block, q.interval, q.assessment, q.idle⟩, fun q => ⟨q.setup, q.each⟩, ?_, fun q => q,
    fun q => ⟨q.prior, q.timer, q.held, q.tag, fun c => hr c (q.rings c), q.due⟩, fun q => q⟩
  intro q
  refine ⟨?_, fun c => ?_⟩
  · have := entries_congr (v := s.channels) (w := v) he
    show mapPasses (mapAll v _) = true
    rw [this]
    exact q.passes
  · show (v[c.val]).entry.inRange = true
    rw [he c]
    exact q.ranges c

theorem Keeps.mapChannels (s : State) (f : Channel → ChannelRecord → ChannelRecord)
    (he : ∀ c x, (f c x).entry = x.entry) (hr : ∀ c x, x.ring.length ≤ 8 → (f c x).ring.length ≤ 8) :
    Keeps s (s.mapChannels f) := by
  refine Keeps.onChannels (mapAll s.channels f) ?_ ?_
  · intro c
    rw [mapAll_get]
    exact he c _
  · intro c h
    rw [mapAll_get]
    exact hr c _ h

theorem Keeps.modChannel (s : State) (c : Channel) (f : ChannelRecord → ChannelRecord)
    (he : ∀ x, (f x).entry = x.entry) (hr : ∀ x, x.ring.length ≤ 8 → (f x).ring.length ≤ 8) :
    Keeps s (s.modChannel c f) := by
  refine Keeps.onChannels (updAt s.channels c f) ?_ ?_
  · intro d
    rw [updAt_get]
    split
    · rename_i e
      subst e
      exact he _
    · rfl
  · intro d h
    rw [updAt_get]
    split
    · rename_i e
      subst e
      exact hr _ h
    · exact h

/-! ### The processing of a measured point -/

/-- What one point's processing keeps, with the Boundary Unit it leaves. -/
theorem Keeps.ofWithin {s t : State} {p : Point} (hw : ∀ i, (i = true →
      (s.point p).block.isSome = (s.point p).interval.isSome) → Within false i true p s t)
    (hb : (s.point p).boundary.bounded → (t.point p).boundary.bounded) (ha : s.active p = true) :
    Keeps s t := by
  have h := hw false (fun e => by cases e)
  have hmeas : t.measuring = s.measuring := by unfold State.measuring; rw [h.control]
  have hkeep : t.keepsAssessments = s.keepsAssessments := by unfold State.keepsAssessments; rw [h.control]
  have hmod : ∀ m, t.module m = s.module m := fun m => by unfold State.module; rw [h.modules]
  have hm : ∀ q, (t.point q).measured = (s.point q).measured := by
    intro q
    by_cases e : q = p
    · subst e
      exact h.here.measured
    · rw [h.others q e]
  have hact : ∀ q, t.active q = s.active q := fun q => State.active_eq hmeas q (hm q)
  refine ⟨?_, ?_, ?_, ?_, ?_, ?_, ?_, ?_, ?_, ?_⟩
  · intro q
    exact ⟨(q.offered h.builder).1, (q.offered h.builder).2, h.frames q.frames, h.history ▸ q.sets⟩
  · intro q
    exact h.builder.keeps (fun b body hb => hb.offer body) q
  · intro q
    have hm : s.measuring = true := (Bool.and_eq_true_iff.mp ha).1
    exact t.engineFits_iff.mp (h.fits hm (s.engineFits_iff.mpr q))
  · intro q x
    by_cases e : x = p
    · subst e
      exact hb (q x)
    · rw [h.others x e]
      exact q x
  · intro q
    have h2 := hw true (fun _ => by rw [q.block, q.interval])
    refine ⟨fun x => ?_, fun x => ?_, fun x => ?_, fun x hx => ?_⟩
    · by_cases e : x = p
      · subst e
        rw [h2.here.block (Or.inl rfl), hact]
        exact q.block x
      · rw [h.others x e, hact]
        exact q.block x
    · by_cases e : x = p
      · subst e
        rw [h2.here.interval rfl, hact]
        exact q.interval x
      · rw [h.others x e, hact]
        exact q.interval x
    · rw [hmeas, hkeep, hm]
      by_cases e : x = p
      · subst e
        rw [h2.here.assessment]
        exact q.assessment x
      · rw [h.others x e]
        exact q.assessment x
    · rw [hact] at hx
      by_cases e : x = p
      · subst e
        rw [ha] at hx
        cases hx
      · rw [h.others x e]
        exact q.idle x hx
  · intro q
    refine ⟨h.setup ▸ q.setup, fun m => ?_⟩
    rw [hmod, h.setup]
    exact q.each m
  · intro q
    refine ⟨?_, fun c => ?_⟩
    · rw [entries_congr (v := s.channels) (w := t.channels) h.entry]
      exact q.passes
    · rw [h.entry c]
      exact q.ranges c
  · intro q x
    by_cases e : x = p
    · subst e
      exact h.here.limits (q x)
    · rw [h.others x e]
      exact q x
  · intro d q
    exact ⟨h.control ▸ q.prior, h.control ▸ q.timer, h.port ▸ h.control ▸ q.held, h.strobe ▸ h.count ▸ q.tag,
      fun c => h.ring c (q.rings c), h.dueNow.symm ▸ q.due⟩
  · exact fun q e => h.formed (q e)

theorem Keeps.deliverIf (s : State) (t : Tick) (set : SampleSet) (changes : Vector Bool 4) (p : Point) :
    Keeps s (s.deliverIf t set changes p) := by
  unfold State.deliverIf
  refine Keeps.iteIf (fun h => ?_) (fun _ => .refl s)
  refine Keeps.ofWithin (fun i hi => (Within.deliver i s t set p _ hi).1) ?_ h
  intro hb
  rw [(Within.deliver false s t set p _ (fun e => by cases e)).2]
  exact s.cutOf_bounded t set p _ hb

end Sys2Proof.Machine
end

