-- ==== Sys2Proof/Laws/Link.lean ====
section
/-! SUPPORT. What the operations of the module link can do (chapter 1). -/

namespace Sys2Proof.Machine

/-! ### Modules changed twice, and not at all -/

theorem updAt_self {α : Type} {n : Nat} (v : Vector α n) (i : Fin n) (f : α → α) (h : f v[i.val] = v[i.val]) :
    updAt v i f = v := by
  unfold updAt
  rw [h]
  exact Vector.set_getElem_self i.isLt

theorem updAt_updAt {α : Type} {n : Nat} (v : Vector α n) (i : Fin n) (f g : α → α) :
    updAt (updAt v i f) i g = updAt v i (fun x => g (f x)) := by
  have h := updAt_get v i i f
  rw [if_pos rfl] at h
  unfold updAt at h ⊢
  rw [h, Vector.set_set]

theorem State.modModule_self (s : State) (m : Module) (f : ModuleRecord → ModuleRecord)
    (h : f (s.module m) = s.module m) : s.modModule m f = s := by
  unfold State.modModule
  rw [updAt_self s.modules m f h]

theorem State.modModule_twice (s : State) (m : Module) (f g : ModuleRecord → ModuleRecord) :
    (s.modModule m f).modModule m g = s.modModule m (fun r => g (f r)) := by
  unfold State.modModule
  rw [updAt_updAt]

theorem Noted.modModule {s t : State} (h : Noted s t) (m : Module) (f : ModuleRecord → ModuleRecord) :
    Noted (s.modModule m f) (t.modModule m f) := by
  obtain ⟨b, a, ho, rfl⟩ := h
  exact ⟨b, a, ho, rfl⟩

/-! ### Commands and losses -/

/-- The module without an outstanding command. -/
def ModuleRecord.freed (r : ModuleRecord) : ModuleRecord :=
  { r with command := none }

theorem State.endCommand_noted (s : State) (m : Module) (result : ReplyResult) (word : Option (BitVec 32)) :
    Noted (s.modModule m ModuleRecord.freed) (s.endCommand m result word) := by
  unfold State.endCommand
  split
  · rename_i h
    rw [State.modModule_self]
    · exact .refl s
    · unfold ModuleRecord.freed
      rw [← h]
  · exact Noted.offerReply _ _ _ _ _

theorem ModuleRecord.Coherent.freed {r : ModuleRecord} {e : Bool} {l : Nat} (h : r.Coherent e l) :
    r.freed.Coherent e l :=
  ⟨h.membership, h.misses, h.run, (fun x => by cases x), h.missBound, h.runBound, h.failureBound, h.staleBound⟩

theorem Keeps.endCommand (s : State) (m : Module) (result : ReplyResult) (word : Option (BitVec 32)) :
    Keeps s (s.endCommand m result word) :=
  (Keeps.modModule s m _ (fun _ h => h.freed)).trans (.noted (s.endCommand_noted m result word))

theorem Keeps.timeoutCommand (s : State) (m : Module) : Keeps s (s.timeoutCommand m) :=
  Keeps.iteIf (fun _ => Keeps.endCommand s m _ _) (fun _ => .refl s)

theorem Keeps.takeReply (s : State) (m : Module) (f : SampleFrame) : Keeps s (s.takeReply m f) :=
  Keeps.iteIf (fun _ => Keeps.endCommand s m _ _) (fun _ => .refl s)

/-- The module as a loss leaves it. -/
def ModuleRecord.lostNow (r : ModuleRecord) : ModuleRecord :=
  { r with state := .lost, goodRun := 0, command := none }

theorem State.loseModule_noted (s : State) (m : Module) :
    Noted (s.modModule m ModuleRecord.lostNow) (s.loseModule m) := by
  unfold State.loseModule
  have h1 : Noted (s.modModule m (fun r => { r with state := .lost, goodRun := 0 }))
      (((s.modModule m (fun r => { r with state := .lost, goodRun := 0 })).offerStatus (.moduleLost m)).raise
        .moduleState) := Noted.offerRaise _ _ _
  have h2 := h1.modModule m ModuleRecord.freed
  rw [State.modModule_twice] at h2
  exact h2.trans (State.endCommand_noted _ m _ _)

theorem ModuleRecord.Coherent.lostNow {r : ModuleRecord} {e : Bool} {l : Nat} (h : r.Coherent e l)
    (hs : r.state ≠ .disabled) : r.lostNow.Coherent e l :=
  ⟨⟨fun x => absurd (h.membership.mp x) hs, fun x => by cases x⟩, (fun x => by cases x),
    fun _ => show 0 < 4 by omega, (fun x => by cases x), h.missBound, Nat.zero_le _, h.failureBound, h.staleBound⟩

theorem Keeps.loseModule (s : State) (m : Module) (hs : (s.module m).state ≠ .disabled) :
    Keeps s (s.loseModule m) :=
  (Keeps.modModule s m _ (fun _ h => h.lostNow hs)).trans (.noted (s.loseModule_noted m))

/-- A module after a miss while LOCKED, before the limit is looked at. -/
def ModuleRecord.missed (r : ModuleRecord) : ModuleRecord :=
  { r with goodRun := 0, missCount := r.missCount + 1 }

theorem Keeps.missModule (s : State) (m : Module) : Keeps s (s.missModule m) := by
  unfold State.missModule
  cases hs : (s.module m).state with
  | disabled => exact .refl s
  | seeking =>
    exact Keeps.modModule s m _ (fun _ h => ⟨h.membership, h.misses, fun _ => show 0 < 4 by omega, h.commanded,
      h.missBound, Nat.zero_le _, h.failureBound, h.staleBound⟩)
  | lost =>
    exact Keeps.modModule s m _ (fun _ h => ⟨h.membership, h.misses, fun _ => show 0 < 4 by omega, h.commanded,
      h.missBound, Nat.zero_le _, h.failureBound, h.staleBound⟩)
  | locked =>
    dsimp only
    refine Keeps.iteIf (fun hl => ?_) (fun hl => ?_)
    · have h1 := State.loseModule_noted (s.modModule m ModuleRecord.missed) m
      rw [State.modModule_twice] at h1
      refine (Keeps.modModule s m _ (fun hr h => ?_)).trans (.noted h1)
      have h2 : (s.module m).missCount < s.setup.missLimit := h.misses hs
      have h3 := hr.missLimit.2
      refine ⟨⟨fun x => ?_, fun x => by cases x⟩, (fun x => by cases x), fun _ => show 0 < 4 by omega,
        (fun x => by cases x), ?_, Nat.zero_le _, h.failureBound, h.staleBound⟩
      · have := h.membership.mp x
        rw [hs] at this
        cases this
      · show (s.module m).missCount + 1 ≤ 64
        omega
    · refine Keeps.modModule s m _ (fun hr h => ?_)
      have h3 := hr.missLimit.2
      have h4 : (s.module m).missCount + 1 < s.setup.missLimit := by omega
      exact ⟨h.membership, fun _ => h4, fun x => by rw [hs] at x; cases x <;> contradiction, h.commanded,
        show _ + 1 ≤ 64 by omega, Nat.zero_le _, h.failureBound, h.staleBound⟩

theorem Keeps.countMisses (s : State) (order : List Module) : Keeps s (s.countMisses order) :=
  Keeps.foldl _ (fun s m => Keeps.iteIf (fun _ => Keeps.missModule s m) (fun _ => .refl s)) order s

/-! ### Checks -/

theorem Keeps.mapPoints (s : State) (f : Point → PointRecord → PointRecord)
    (h : ∀ p, PointKept true true (s.point p) (f p (s.point p)) ∧ ((s.point p).Idle → (f p (s.point p)).Idle)) :
    Keeps s (s.mapPoints f) := by
  have ha : ∀ q, (s.mapPoints f).active q = s.active q := fun q =>
    State.active_eq (s := s) (t := s.mapPoints f) rfl q (by rw [State.mapPoints_point]; exact (h q).1.measured)
  refine ⟨fun q => ⟨q.records, q.withheld, q.frames, q.sets⟩, fun q => q,
    fun q => ⟨q.setup, q.running, q.opened, q.shed⟩, ?_, ?_, fun q => ⟨q.setup, q.each⟩,
    fun q => ⟨q.passes, q.ranges⟩, ?_, fun q => ⟨q.prior, q.timer, q.held, q.tag, q.rings, q.due⟩, fun q => q⟩
  · intro q x
    rw [State.mapPoints_point, (h x).1.boundary rfl]
    exact q x
  · intro q
    refine ⟨fun x => ?_, fun x => ?_, fun x => ?_, fun x hx => ?_⟩
    · rw [State.mapPoints_point, (h x).1.block (Or.inl rfl), ha]
      exact q.block x
    · rw [State.mapPoints_point, (h x).1.interval rfl, ha]
      exact q.interval x
    · rw [State.mapPoints_point, (h x).1.assessment, (h x).1.measured]
      exact q.assessment x
    · rw [State.mapPoints_point]
      exact (h x).2 (q.idle x (ha x ▸ hx))
  · intro q x
    rw [State.mapPoints_point]
    exact (h x).1.limits (q x)

/-- A point whose check alone changes, from one check to another or to none. -/
theorem PointRecord.withCheck_kept (b i : Bool) (pt : PointRecord) (k : Option CheckInFlight) :
    PointKept b i pt { pt with check := k } :=
  PointKept.ofSame rfl rfl rfl rfl rfl rfl rfl rfl rfl

theorem PointRecord.withCheck_idle (pt : PointRecord) (k : Option CheckInFlight) (hk : pt.check = none → k = none)
    (h : pt.Idle) : PointRecord.Idle { pt with check := k } :=
  ⟨h.boundary, h.period, h.pair, h.low, h.high, hk h.check⟩

theorem PointRecord.checkOnly (pt : PointRecord) (k : Option CheckInFlight) (hk : pt.check = none → k = none) :
    PointKept true true pt { pt with check := k } ∧ (pt.Idle → PointRecord.Idle { pt with check := k }) :=
  ⟨pt.withCheck_kept true true k, pt.withCheck_idle k hk⟩

theorem PointRecord.unchanged (pt : PointRecord) : PointKept true true pt pt ∧ (pt.Idle → pt.Idle) :=
  ⟨.refl _ _ _, id⟩

theorem Keeps.voidSentChecks (s : State) : Keeps s s.voidSentChecks := by
  refine Keeps.mapPoints s _ (fun p => ?_)
  unfold PointRecord.voidSent
  split
  · exact PointRecord.unchanged _
  · split
    · exact PointRecord.checkOnly _ _ (fun _ => rfl)
    · exact PointRecord.unchanged _

theorem Keeps.endChecks (s : State) : Keeps s s.endChecks :=
  Keeps.mapPoints s _ (fun _ => PointRecord.checkOnly _ _ (fun _ => rfl))

theorem Keeps.dropCheck (s : State) (p : Point) : Keeps s (s.dropCheck p) :=
  Keeps.modPoint s p _ (PointRecord.checkOnly _ none (fun _ => rfl)).1
    (PointRecord.checkOnly (s.point p) none (fun _ => rfl)).2

theorem Keeps.judgeCheck (s : State) (p : Point) (code : Code) : Keeps s (s.judgeCheck p code) := by
  unfold State.judgeCheck
  split
  · exact .refl s
  · dsimp only
    have h : ∀ (c : Channel) (f : ChannelRecord → ChannelRecord), (∀ x, (f x).entry = x.entry) →
        (∀ x, x.ring.length ≤ 8 → (f x).ring.length ≤ 8) → Keeps s ((s.modChannel c f).dropCheck p) :=
      fun c f he hr => (Keeps.modChannel s c f he hr).trans (Keeps.dropCheck _ p)
    split
    · exact h _ _ (fun _ => rfl) (fun _ x => x)
    · refine Keeps.trans ?_ (.noted (Noted.statusRaise _ _ _))
      exact h _ _ (fun _ => rfl) (fun _ x => x)

theorem Keeps.answerCheck (s : State) (m : Module) (f : SampleFrame) (locked : Bool) :
    Keeps s (s.answerCheck m f locked) := by
  unfold State.answerCheck
  split
  · exact .refl s
  · split
    · exact .refl s
    · exact Keeps.iteIf (fun _ => Keeps.judgeCheck s _ _) (fun _ => Keeps.dropCheck s _)

/-! ### The command field -/

theorem Keeps.arbitrateChecks (s : State) (p : Point) (t : Tick) : Keeps s (s.arbitrateChecks p t) := by
  refine Keeps.mapPoints s _ (fun q => ?_)
  split
  · exact PointRecord.checkOnly _ _ (fun h => by rw [h]; rfl)
  · split
    · exact PointRecord.checkOnly _ _ (fun h => by rw [h]; rfl)
    · exact PointRecord.unchanged _

theorem Keeps.withStrobe (s : State) (field : CommandField) : KeepsBy Drift.issue s
    { s with strobe := s.formStrobe field } :=
  ⟨fun q => ⟨q.records, q.withheld, q.frames, q.sets⟩, fun q => q,
    fun q => ⟨q.setup, q.running, q.opened, q.shed⟩, fun q => q,
    fun q => ⟨q.block, q.interval, q.assessment, q.idle⟩, fun q => ⟨q.setup, q.each⟩,
    fun q => ⟨q.passes, q.ranges⟩, fun q => q, fun q => ⟨q.prior, q.timer, q.held, (BitVec.add_zero _).symm, q.rings, q.due⟩,
    fun q => q⟩

theorem Keeps.forward (s : State) (m : Module) (t : Tick) : Keeps s (s.modModule m (fun r => r.forward t)) := by
  refine Keeps.modModule s m _ (fun _ h => ⟨h.membership, h.misses, h.run, fun x => h.commanded ?_, h.missBound,
    h.runBound, h.failureBound, h.staleBound⟩)
  simpa [ModuleRecord.forward] using x

/-- After its issue the strobe frame carries the tag of the current tick. -/
theorem Keeps.issueStrobe (s : State) : KeepsBy Drift.issue s s.issueStrobe := by
  unfold State.issueStrobe
  split
  · exact Keeps.withStrobe s _
  split
  · exact KeepsBy.trans (Keeps.arbitrateChecks s _ s.count) (Keeps.withStrobe (s.arbitrateChecks _ s.count) _)
  · split
    · exact KeepsBy.trans (Keeps.forward s _ s.count) (Keeps.withStrobe (s.modModule _ _) _)
    · exact Keeps.withStrobe s _

/-! ### Sample frames and the closing set -/

theorem ModuleRecord.Coherent.setParts {r : ModuleRecord} {e : Bool} {l : Nat} (h : r.Coherent e l) (taken : Bool)
    (slots : Vector SlotValue 6) (last : Vector Code 6) (clip : Vector Bool 6) :
    ModuleRecord.Coherent { r with taken := taken, slots := slots, last := last, clippedBefore := clip } e l :=
  ⟨h.membership, h.misses, h.run, h.commanded, h.missBound, h.runBound, h.failureBound, h.staleBound⟩

theorem satSucc_lt (top n : Nat) (h : n < top) : satSucc top n = n + 1 := by
  unfold satSucc
  rw [if_pos h]

theorem ModuleRecord.Coherent.countGood {r : ModuleRecord} {e : Bool} {l : Nat} (h : r.Coherent e l) (hl : 1 ≤ l) :
    r.countGood.Coherent e l := by
  have hrun : (r.state = .seeking ∨ r.state = .lost) → e ≠ false := by
    intro hs he
    have := h.membership.mp he
    rcases hs with x | x <;> rw [x] at this <;> cases this
  have climb : (r.state = .seeking ∨ r.state = .lost) → ModuleRecord.Coherent
      (if Config.lockRun ≤ r.goodRun + 1 then
        { r with goodRun := satSucc 255 r.goodRun, state := .locked, missCount := 0 }
      else { r with goodRun := satSucc 255 r.goodRun }) e l := by
    intro hs
    split
    · exact ⟨⟨fun x => absurd x (hrun hs), fun x => by cases x⟩, fun _ => hl,
        (fun x => by rcases x with x | x <;> cases x), fun _ => rfl, Nat.zero_le _, satSucc_le 255 _, h.failureBound,
        h.staleBound⟩
    · rename_i hc
      refine ⟨h.membership, h.misses, fun _ => ?_, h.commanded, h.missBound, satSucc_le 255 _, h.failureBound,
        h.staleBound⟩
      simp only [Config.lockRun] at hc
      show satSucc 255 r.goodRun < 4
      rw [satSucc_lt 255 r.goodRun (by omega)]
      omega
  unfold ModuleRecord.countGood
  split
  · exact h
  · rename_i hs
    exact ⟨h.membership, fun _ => hl, (fun x => by rw [hs] at x; rcases x with x | x <;> cases x), h.commanded,
      Nat.zero_le _, satSucc_le 255 _, h.failureBound, h.staleBound⟩
  · rename_i hs
    exact climb (Or.inl hs)
  · rename_i hs
    exact climb (Or.inr hs)

theorem Keeps.takeGoodFrame (s : State) (m : Module) (f : SampleFrame) (leadFirst : Bool) :
    Keeps s (s.takeGoodFrame m f leadFirst) := by
  unfold State.takeGoodFrame
  dsimp only
  have h1 : Keeps s (s.modModule m (fun r => r.takeFrame f)) :=
    Keeps.modModule s m _ (fun hr h => (h.countGood hr.missLimit.1).setParts _ _ _ _)
  refine Keeps.iteIf (fun _ => ?_) (fun _ => ?_)
  · refine Keeps.trans ?_ (Keeps.takeReply _ m f)
    refine Keeps.trans ?_ (Keeps.answerCheck _ m f _)
    exact Keeps.iteIf (fun _ => h1.trans (.noted (Noted.offerRaise _ _ _))) (fun _ => h1)
  · refine Keeps.trans ?_ (Keeps.answerCheck _ m f _)
    refine Keeps.trans ?_ (Keeps.takeReply _ m f)
    exact Keeps.iteIf (fun _ => h1.trans (.noted (Noted.offerRaise _ _ _))) (fun _ => h1)

theorem Keeps.judgeSampleFrame (s : State) (bytes : List Byte) (leadFirst : Bool) :
    Keeps s (s.judgeSampleFrame bytes leadFirst) := by
  unfold State.judgeSampleFrame
  split
  · exact .refl s
  · rename_i m _
    dsimp only
    refine Keeps.iteIf (fun _ => ?_) (fun _ => Keeps.iteIf (fun _ => ?_) (fun _ =>
      Keeps.iteIf (fun _ => .refl s) (fun _ => Keeps.takeGoodFrame s m _ leadFirst)))
    · exact Keeps.modModule s m _ (fun _ h => ⟨h.membership, h.misses, h.run, h.commanded, h.missBound, h.runBound,
        satSucc_le 65535 _, h.staleBound⟩)
    · exact Keeps.modModule s m _ (fun _ h => ⟨h.membership, h.misses, h.run, h.commanded, h.missBound, h.runBound,
        h.failureBound, satSucc_le 65535 _⟩)

theorem Keeps.mapModules (s : State) (f : Module → ModuleRecord → ModuleRecord)
    (h : ∀ m, SetupInRange s.setup → s.fits m (s.module m) → s.fits m (f m (s.module m))) :
    Keeps s (s.mapModules f) :=
  Keeps.onModules _ (fun q => ⟨q.setup, fun m => by
    have := h m q.setup (q.each m)
    rw [← State.mapModules_module s m f] at this
    exact this⟩)

theorem Keeps.nextSet (s : State) (set : SampleSet) : Keeps s (s.nextSet set) :=
  Keeps.mapModules s _ (fun _ _ h => h.setParts _ _ _ _)

end Sys2Proof.Machine
end

