-- ==== Sys2Proof/Laws/Across.lean ====
section
/-! SUPPORT. What the operations that close events and spans can do (sections 5.7, 6.5): `Across s t` says that `t`
differs from `s` in new records, newly pending classes, and in the trackers and spans of the points. -/

namespace Sys2Proof.Machine

/-- What closing events and spans keeps of a point. -/
structure PointBase (x y : PointRecord) : Prop where
  measured : y.measured = x.measured
  boundary : y.boundary = x.boundary
  check : y.check = x.check
  period : y.period = x.period
  pairFlag : y.pairFlag = x.pairFlag
  limits : y.limits = x.limits
  thresholds : y.thresholds = x.thresholds
  pendingLimits : y.pendingLimits = x.pendingLimits
  low : x.low = .quiet → y.low = .quiet
  high : x.high = .quiet → y.high = .quiet

theorem PointBase.refl (x : PointRecord) : PointBase x x :=
  ⟨rfl, rfl, rfl, rfl, rfl, rfl, rfl, rfl, id, id⟩

theorem PointBase.trans {x y z : PointRecord} (h : PointBase x y) (k : PointBase y z) : PointBase x z :=
  ⟨k.measured.trans h.measured, k.boundary.trans h.boundary, k.check.trans h.check, k.period.trans h.period,
    k.pairFlag.trans h.pairFlag, k.limits.trans h.limits, k.thresholds.trans h.thresholds,
    k.pendingLimits.trans h.pendingLimits, k.low ∘ h.low, k.high ∘ h.high⟩

/-- What closing events and spans keeps of the state. -/
structure Across (s t : State) : Prop where
  whole : ∃ b a v, Offered s.builder b ∧ t = { s with builder := b, attention := a, points := v }
  base : ∀ q, PointBase (s.point q) (t.point q)

theorem Across.refl (s : State) : Across s s :=
  ⟨⟨s.builder, s.attention, s.points, .none, rfl⟩, fun _ => .refl _⟩

theorem Across.trans {s t u : State} (h : Across s t) (k : Across t u) : Across s u := by
  refine ⟨?_, fun q => (h.base q).trans (k.base q)⟩
  obtain ⟨b, a, v, ho, rfl⟩ := h.whole
  obtain ⟨b2, a2, v2, ho2, rfl⟩ := k.whole
  exact ⟨b2, a2, v2, ho.trans ho2, rfl⟩

theorem Across.foldl {α : Type} (f : State → α → State) (h : ∀ s x, Across s (f s x)) (l : List α) (s : State) :
    Across s (l.foldl f s) := by
  induction l generalizing s with
  | nil => exact .refl s
  | cons x xs ih => exact (h s x).trans (ih _)

theorem Across.noted {s t : State} (h : Noted s t) : Across s t := by
  obtain ⟨b, a, ho, rfl⟩ := h
  exact ⟨⟨b, a, s.points, ho, rfl⟩, fun _ => .refl _⟩

theorem Across.modPoint (s : State) (p : Point) (f : PointRecord → PointRecord)
    (h : PointBase (s.point p) (f (s.point p))) : Across s (s.modPoint p f) := by
  refine ⟨⟨s.builder, s.attention, _, .none, rfl⟩, fun q => ?_⟩
  rw [State.modPoint_point]
  split
  · rename_i e
    subst e
    exact h
  · exact .refl _

theorem Across.iteIf {s t u : State} {c : Prop} [Decidable c] (ht : Across s t) (hu : Across s u) :
    Across s (if c then t else u) := by
  split
  · exact ht
  · exact hu

/-! ### Folds over points -/

theorem foldl_all {α : Type} (f : State → α → State) (P : α → State → Prop) (est : ∀ s x, P x (f s x))
    (pres : ∀ s x y, P y s → P y (f s x)) (l : List α) (s : State) : ∀ x ∈ l, P x (l.foldl f s) := by
  have keep : ∀ (l : List α) (s : State) (y : α), P y s → P y (l.foldl f s) := by
    intro l
    induction l with
    | nil => exact fun _ _ h => h
    | cons x xs ih => exact fun s y h => ih _ y (pres s x y h)
  induction l generalizing s with
  | nil => intro x hx; cases hx
  | cons y ys ih =>
    intro x hx
    cases hx with
    | head => exact keep ys _ y (est s y)
    | tail _ h => exact ih _ x h

theorem foldl_other (f : State → Point → State) (h : ∀ s x q, q ≠ x → (f s x).point q = s.point q) (q : Point)
    (l : List Point) (hq : q ∉ l) (s : State) : (l.foldl f s).point q = s.point q := by
  induction l generalizing s with
  | nil => rfl
  | cons x xs ih =>
    have h1 : q ≠ x := fun e => hq (e ▸ List.mem_cons_self)
    have h2 : q ∉ xs := fun e => hq (List.mem_cons_of_mem _ e)
    exact (ih h2 _).trans (h s x q h1)

theorem mem_allFour (p : Fin 4) : p ∈ allFour := by
  revert p
  decide

theorem State.mem_measuredPoints (s : State) (p : Point) : p ∈ s.measuredPoints ↔ (s.point p).measured = true := by
  unfold State.measuredPoints
  rw [List.mem_filter]
  exact ⟨fun h => h.2, fun h => ⟨mem_allFour p, h⟩⟩

/-! ### Events -/

theorem Across.closeEvent (s : State) (p : Point) (e : OpenEvent) (t : Tick) (cause : EndCause) :
    Across s (s.closeEvent p e t cause) := by
  unfold State.closeEvent
  exact (Across.noted (Noted.offerRaise _ _ _)).trans
    (Across.modPoint _ _ _ ⟨rfl, rfl, rfl, rfl, rfl, rfl, rfl, rfl, id, id⟩)

theorem Across.closeIfOpen (s : State) (p : Point) (e : Option OpenEvent) (cause : EndCause) :
    Across s (s.closeIfOpen p e cause) := by
  cases e with
  | none => exact .refl s
  | some e => exact Across.closeEvent s p e _ cause

theorem Across.forceClosePoint (s : State) (cause : EndCause) (p : Point) :
    Across s (s.forceClosePoint cause p) := by
  unfold State.forceClosePoint
  dsimp only
  refine Across.trans ?_ (Across.modPoint _ _ _ ⟨rfl, rfl, rfl, rfl, rfl, rfl, rfl, rfl, fun _ => rfl, fun _ => rfl⟩)
  exact (Across.closeIfOpen s p _ cause).trans (Across.closeIfOpen _ p _ cause)

theorem State.forceClosePoint_quiet (s : State) (cause : EndCause) (p : Point) :
    ((s.forceClosePoint cause p).point p).low = .quiet ∧ ((s.forceClosePoint cause p).point p).high = .quiet := by
  unfold State.forceClosePoint
  dsimp only
  rw [State.modPoint_point, if_pos rfl]
  exact ⟨rfl, rfl⟩

theorem Within.closeIfOpen (b i g : Bool) (p : Point) (s : State) (e : Option OpenEvent) (cause : EndCause) :
    Within b i g p s (s.closeIfOpen p e cause) := by
  cases e with
  | none => exact Within.refl b i g p s
  | some e => exact Within.closeEvent b i g p s e _ cause

theorem Within.forceClosePoint (b i g : Bool) (p : Point) (s : State) (cause : EndCause) :
    Within b i g p s (s.forceClosePoint cause p) := by
  unfold State.forceClosePoint
  dsimp only
  refine Within.trans ?_ (Within.modPoint _ _ (PointKept.ofSame rfl rfl rfl rfl rfl rfl rfl rfl rfl))
  exact (Within.closeIfOpen b i g p s _ cause).trans (Within.closeIfOpen b i g p _ _ cause)

theorem Across.forceCloseEvents (s : State) (cause : EndCause) : Across s (s.forceCloseEvents cause) :=
  Across.foldl _ (fun s p => Across.forceClosePoint s cause p) allFour s

/-- After a forced closing every tracker is QUIET (R87, R88). -/
theorem State.forceCloseEvents_quiet (s : State) (cause : EndCause) (p : Point) :
    ((s.forceCloseEvents cause).point p).low = .quiet ∧ ((s.forceCloseEvents cause).point p).high = .quiet :=
  foldl_all (fun s p => s.forceClosePoint cause p) (fun p s => (s.point p).low = .quiet ∧ (s.point p).high = .quiet)
    (fun s p => s.forceClosePoint_quiet cause p)
    (fun s p q h => ⟨((Across.forceClosePoint s cause p).base q).low h.1,
      ((Across.forceClosePoint s cause p).base q).high h.2⟩) allFour s p (mem_allFour p)

/-- What a point keeps through the closings of events: the presence of its three spans. -/
structure SameSpans (x y : PointRecord) : Prop where
  block : y.block.isSome = x.block.isSome
  interval : y.interval.isSome = x.interval.isSome
  assessment : y.assessment.isSome = x.assessment.isSome

theorem Within.sameSpans {b g : Bool} {p : Point} {s t : State} (h : Within b true g p s t) (q : Point) :
    SameSpans (s.point q) (t.point q) := by
  by_cases e : q = p
  · subst e
    exact ⟨h.here.block (Or.inl rfl), h.here.interval rfl, h.here.assessment⟩
  · rw [h.others q e]
    exact ⟨rfl, rfl, rfl⟩

theorem foldl_sameSpans (f : State → Point → State) (h : ∀ s x q, SameSpans (s.point q) ((f s x).point q))
    (l : List Point) (s : State) (q : Point) : SameSpans (s.point q) ((l.foldl f s).point q) := by
  induction l generalizing s with
  | nil => exact ⟨rfl, rfl, rfl⟩
  | cons x xs ih =>
    have h1 := h s x q
    have h2 := ih (f s x)
    exact ⟨h2.block.trans h1.block, h2.interval.trans h1.interval, h2.assessment.trans h1.assessment⟩

theorem State.forceCloseEvents_spans (s : State) (cause : EndCause) (q : Point) :
    SameSpans (s.point q) ((s.forceCloseEvents cause).point q) :=
  foldl_sameSpans _ (fun s p q => (Within.forceClosePoint true true true p s cause).sameSpans q) allFour s q

/-! ### Spans -/

theorem Across.closeBlock (s : State) (p : Point) (k : Block) : Across s (s.closeBlock p k) := by
  unfold State.closeBlock
  refine Across.trans (t := if (s.control.device == .running && inMask s.setup.blockPoints p.val) = true
    then s.offer (.block (blockRecord s p k)) else s) ?_ ?_
  · exact Across.iteIf (Across.noted (Noted.offer s _)) (.refl s)
  · exact Across.modPoint _ _ _ ⟨rfl, rfl, rfl, rfl, rfl, rfl, rfl, rfl, id, id⟩

theorem Across.closeBlockShort (s : State) (p : Point) : Across s (s.closeBlockShort p) := by
  unfold State.closeBlockShort
  split
  · exact .refl s
  · exact Across.iteIf (Across.modPoint _ _ _ ⟨rfl, rfl, rfl, rfl, rfl, rfl, rfl, rfl, id, id⟩)
      (Across.closeBlock s p _)

theorem Across.endAssessment (s : State) (p : Point) (early stopped : Bool) (next : Option Assessment) :
    Across s (s.endAssessment p early stopped next) := by
  unfold State.endAssessment
  split
  · exact .refl s
  · exact (Across.noted (Noted.offerRaise _ _ _)).trans
      (Across.modPoint _ _ _ ⟨rfl, rfl, rfl, rfl, rfl, rfl, rfl, rfl, id, id⟩)

theorem Across.closeInterval (s : State) (p : Point) (t : Tick) (stopped : Bool) :
    Across s (s.closeInterval p t stopped) := by
  unfold State.closeInterval
  split
  · exact .refl s
  · dsimp only
    have h : ∀ (r : IntervalRecord) (f : PointRecord → PointRecord), PointBase (s.point p) (f (s.point p)) →
        Across s (((s.modPoint p f).offer (.interval r)).raise .intervalClosed) := fun r f hf =>
      (Across.modPoint s p f hf).trans (Across.noted (Noted.offerRaise _ _ _))
    refine Across.iteIf (Across.trans ?_ (Across.endAssessment _ p false false _)) ?_
    · exact h _ _ ⟨rfl, rfl, rfl, rfl, rfl, rfl, rfl, rfl, id, id⟩
    · exact h _ _ ⟨rfl, rfl, rfl, rfl, rfl, rfl, rfl, rfl, id, id⟩

theorem Across.openSpans (s : State) (t : Tick) (p : Point) : Across s (s.openSpans t p) :=
  Across.modPoint _ _ _ ⟨rfl, rfl, rfl, rfl, rfl, rfl, rfl, rfl, id, id⟩

theorem Across.stopSpans (s : State) (p : Point) : Across s (s.stopSpans p) := by
  unfold State.stopSpans
  exact ((((Across.closeBlockShort s p).trans (Across.closeInterval _ p _ true))).trans
    (Across.endAssessment _ p false true none)).trans
    (Across.modPoint _ _ _ ⟨rfl, rfl, rfl, rfl, rfl, rfl, rfl, rfl, id, id⟩)

theorem Across.standbySpans (s : State) (p : Point) : Across s (s.standbySpans p) := by
  unfold State.standbySpans
  exact ((Across.closeBlockShort s p).trans (Across.closeInterval _ p _ false)).trans
    (Across.modPoint _ _ _ ⟨rfl, rfl, rfl, rfl, rfl, rfl, rfl, rfl, id, id⟩)

theorem Across.markInterval (s : State) (p : Point) :
    Across s (s.modPoint p (fun pt =>
      { pt with interval := pt.interval.map (fun iv => { iv with timeStepped := true }) })) :=
  Across.modPoint _ _ _ ⟨rfl, rfl, rfl, rfl, rfl, rfl, rfl, rfl, id, id⟩

theorem Across.stepSpans (s : State) (p : Point) : Across s (s.stepSpans p) := by
  unfold State.stepSpans
  dsimp only
  exact (((Across.closeBlockShort s p).trans (Across.markInterval _ p)).trans (Across.closeInterval _ p _ false)).trans
    (Across.openSpans _ _ p)

theorem State.endAssessment_point (s : State) (p : Point) (early stopped : Bool) (next : Option Assessment) :
    ((s.endAssessment p early stopped next).point p).block = (s.point p).block ∧
      ((s.endAssessment p early stopped next).point p).interval = (s.point p).interval ∧
      (next = none → ((s.endAssessment p early stopped next).point p).assessment = none) := by
  unfold State.endAssessment
  split
  · rename_i h
    exact ⟨rfl, rfl, fun _ => h⟩
  · rw [State.modPoint_point, if_pos rfl]
    refine ⟨?_, ?_, fun h => h⟩
    · simp
    · simp

theorem State.endAssessment_other (s : State) (p q : Point) (early stopped : Bool) (next : Option Assessment)
    (h : q ≠ p) : (s.endAssessment p early stopped next).point q = s.point q := by
  unfold State.endAssessment
  split
  · rfl
  · rw [State.modPoint_point, if_neg h]
    simp

theorem State.stopSpans_point (s : State) (p : Point) : ((s.stopSpans p).point p).block = none ∧
    ((s.stopSpans p).point p).interval = none ∧ ((s.stopSpans p).point p).assessment = none := by
  unfold State.stopSpans
  rw [State.modPoint_point, if_pos rfl]
  exact ⟨rfl, rfl, rfl⟩

theorem State.stopSpans_other (s : State) (p q : Point) (h : q ≠ p) : (s.stopSpans p).point q = s.point q := by
  unfold State.stopSpans
  rw [State.modPoint_point, if_neg h, State.endAssessment_other _ _ _ _ _ _ h,
    (Within.closeInterval true true p _ _ true).others q h,
    (Within.closeBlockShort true true true p s).others q h]

theorem State.standbySpans_point (s : State) (p : Point) : ((s.standbySpans p).point p).block = none ∧
    ((s.standbySpans p).point p).interval = none ∧
    ((s.standbySpans p).point p).assessment.isSome = (s.point p).assessment.isSome := by
  unfold State.standbySpans
  rw [State.modPoint_point, if_pos rfl]
  refine ⟨rfl, rfl, ?_⟩
  show (((s.closeBlockShort p).closeInterval p s.count false).point p).assessment.isSome = _
  rw [(Within.closeInterval true true p _ _ false).here.assessment,
    (Within.closeBlockShort true true true p s).here.assessment]

theorem State.standbySpans_other (s : State) (p q : Point) (h : q ≠ p) :
    (s.standbySpans p).point q = s.point q := by
  unfold State.standbySpans
  rw [State.modPoint_point, if_neg h, (Within.closeInterval true true p _ _ false).others q h,
    (Within.closeBlockShort true true true p s).others q h]

theorem State.stepSpans_point (s : State) (p : Point) : ((s.stepSpans p).point p).block.isSome = true ∧
    ((s.stepSpans p).point p).interval.isSome = true ∧
    ((s.stepSpans p).point p).assessment.isSome = (s.point p).assessment.isSome := by
  unfold State.stepSpans
  dsimp only
  rw [State.openSpans_point]
  refine ⟨rfl, rfl, ?_⟩
  show ((State.closeInterval _ p s.count false).point p).assessment.isSome = _
  rw [(Within.closeInterval true true p _ _ false).here.assessment, State.modPoint_point, if_pos rfl]
  show ((s.closeBlockShort p).point p).assessment.isSome = _
  rw [(Within.closeBlockShort true true true p s).here.assessment]

theorem State.stepSpans_other (s : State) (p q : Point) (h : q ≠ p) : (s.stepSpans p).point q = s.point q := by
  unfold State.stepSpans State.openSpans
  dsimp only
  rw [State.modPoint_point, if_neg h, (Within.closeInterval true true p _ _ false).others q h,
    State.modPoint_point, if_neg h, (Within.closeBlockShort true true true p s).others q h]

/-! ### The invariants through closings -/

theorem Across.keeps {s t : State} (h : Across s t) (hs : SpansExact s → SpansExact t) : Keeps s t := by
  have hb := h.base
  obtain ⟨b, a, v, ho, rfl⟩ := h.whole
  refine ⟨fun q => ⟨(q.offered ho).1, (q.offered ho).2, q.frames, q.sets⟩,
    fun q => ho.keeps (fun b body hb => hb.offer body) q,
    fun q => ⟨q.setup, q.running, q.opened, q.shed⟩, ?_, hs, fun q => ⟨q.setup, q.each⟩,
    fun q => ⟨q.passes, q.ranges⟩, ?_, fun q => ⟨q.prior, q.timer, q.held, q.tag, q.rings, q.due⟩, fun q => q⟩
  · intro q x
    rw [(hb x).boundary]
    exact q x
  · intro q x
    refine ⟨by rw [(hb x).limits]; exact (q x).inForce, by rw [(hb x).pendingLimits]; exact (q x).pending, ?_⟩
    rw [(hb x).limits, (hb x).thresholds]
    exact (q x).derived

end Sys2Proof.Machine
end

