-- ==== Sys2Proof/Laws/Run.lean ====
section
/-! SUPPORT. What frame formation, the lines, and Measurement Control's operations keep (chapters 7, 10, 11). -/

namespace Sys2Proof.Machine

/-! ### Lines and due markings -/

theorem Keeps.expirePulse (s : State) (l : LineId) : Keeps s (s.expirePulse l) :=
  Keeps.iteIf (fun _ => .noted (Noted.attention s _)) (fun _ => .refl s)

theorem Keeps.expireGap (s : State) (l : LineId) : Keeps s (s.expireGap l) :=
  Keeps.iteIf (fun _ => .noted (Noted.attention s _)) (fun _ => .refl s)

theorem Keeps.acknowledge (s : State) (classes : Word) : Keeps s (s.acknowledge classes) :=
  .noted (Noted.attention s _)

/-- A change that no invariant sees, or that takes or drops due markings. -/
theorem Keeps.unseen {s : State} (r : Routing) (a : Attention) (d : DueNow) (x : Option Exchange) (n : Nominal)
    (tag : Word) (cs : List Instr) (hd : d.within s.dueNow) : Keeps s
      { s with routing := r, attention := a, dueNow := d, exchange := x, timerNominal := n, eventTag := tag, pending := cs } :=
  ⟨fun q => ⟨q.records, q.withheld, q.frames, q.sets⟩, fun q => q,
    fun q => ⟨q.setup, q.running, q.opened, q.shed⟩, fun q => q,
    fun q => ⟨q.block, q.interval, q.assessment, q.idle⟩, fun q => ⟨q.setup, q.each⟩,
    fun q => ⟨q.passes, q.ranges⟩, fun q => q,
    fun q => ⟨q.prior, q.timer, q.held, q.tag, q.rings, DueNow.within_trans hd q.due⟩, fun q => q⟩

theorem Keeps.markDue (s : State) (period second : Bool) : Keeps s (s.markDue period second) := by
  unfold State.markDue
  refine Keeps.iteIf (fun _ => Keeps.mapChannels s _ ?_ ?_) (fun _ => .refl s)
  · intro c x
    split <;> rfl
  · intro c x h
    split <;> exact h

theorem Keeps.expireLine (s : State) (l : LineId) : Keeps s (s.expireLine l) :=
  (Keeps.expirePulse s l).trans (Keeps.expireGap _ l)

/-- Markings are taken, or dropped. -/
theorem Keeps.withDueNow (s : State) (d : DueNow) (hd : d.within s.dueNow) : Keeps s { s with dueNow := d } :=
  Keeps.unseen s.routing s.attention d s.exchange s.timerNominal s.eventTag s.pending hd

theorem State.markDue_dueNow (s : State) (period second : Bool) : (s.markDue period second).dueNow = s.dueNow := by
  unfold State.markDue
  split
  · exact s.mapChannels_dueNow _
  · rfl

/-- After the period marking none of its kind waits. -/
theorem KeepsBy.takePeriodDue (s : State) : KeepsBy Drift.period s s.takePeriodDue := by
  have h : Keeps s s.takePeriodDue := Keeps.iteIf
    (fun _ => (Keeps.markDue s true false).trans
      (Keeps.withDueNow _ _ ⟨(fun x => by cases x), fun x => (s.markDue_dueNow _ _).symm ▸ x⟩))
    (fun _ => .refl s)
  have hp : s.takePeriodDue.dueNow.period = false := by
    unfold State.takePeriodDue
    split
    · rfl
    · rename_i hn
      exact Bool.eq_false_iff.mpr hn
  exact { h with
    control := fun q =>
      have k := h.control q
      ⟨k.prior, k.timer, k.held, k.tag, k.rings, fun x => (by rw [hp] at x; cases x), k.due.2⟩
    formed := h.formed }

/-- After the whole-second marking none of its kind waits. -/
theorem KeepsBy.takeSecondDue (s : State) : KeepsBy Drift.second s s.takeSecondDue := by
  have h : Keeps s s.takeSecondDue := Keeps.iteIf
    (fun _ => (Keeps.markDue s false true).trans
      (Keeps.withDueNow _ _ ⟨fun x => (s.markDue_dueNow _ _).symm ▸ x, (fun x => by cases x)⟩))
    (fun _ => .refl s)
  have hp : s.takeSecondDue.dueNow.second = false := by
    unfold State.takeSecondDue
    split
    · rfl
    · rename_i hn
      exact Bool.eq_false_iff.mpr hn
  exact { h with
    control := fun q =>
      have k := h.control q
      ⟨k.prior, k.timer, k.held, k.tag, k.rings, k.due.1, fun x => (by rw [hp] at x; cases x)⟩
    formed := h.formed }

/-- An operation that takes markings keeps every invariant. -/
theorem KeepsBy.takesDue {f : Drift → Drift} {s t : State} (h : KeepsBy f s t) (ht : ∀ d, (f d).tag = d.tag)
    (hw : ∀ d, (f d).waits = d.waits) (hd : ∀ d, (f d).due.within d.due) : Keeps s t :=
  { h with
    control := fun q =>
      have k := h.control q
      ⟨k.prior, k.timer, k.held, by rw [k.tag, ht]; rfl, k.rings, DueNow.within_trans k.due (hd _)⟩
    formed := fun {d} q e => h.formed q ((hw d).trans e) }

theorem Keeps.takePeriodDue (s : State) : Keeps s s.takePeriodDue :=
  (KeepsBy.takePeriodDue s).takesDue (fun _ => rfl) (fun _ => rfl) (fun _ => ⟨(fun x => by cases x), id⟩)

theorem Keeps.takeSecondDue (s : State) : Keeps s s.takeSecondDue :=
  (KeepsBy.takeSecondDue s).takesDue (fun _ => rfl) (fun _ => rfl) (fun _ => ⟨id, (fun x => by cases x)⟩)

/-! ### Captures -/

/-- A change of the Capture Queue, the shedding state and the running capture, by its effect on their invariants;
frames may wait after it. -/
theorem Keeps.onCapture {s : State} (q : List CaptureFrame) (sh : Shedding) (c : Option RunningCapture)
    (hq : q.length ≤ 48 ∨ q.length ≤ s.captureQueue.length)
    (hc : CaptureCoherent s → CaptureCoherent { s with captureQueue := q, shedding := sh, capture := c }) :
    KeepsBy Drift.write s { s with captureQueue := q, shedding := sh, capture := c } :=
  ⟨fun h => ⟨h.records, h.withheld, by rcases hq with x | x; exact x; exact Nat.le_trans x h.frames, h.sets⟩,
    fun h => h, hc, fun h => h, fun h => ⟨h.block, h.interval, h.assessment, h.idle⟩, fun h => ⟨h.setup, h.each⟩,
    fun h => ⟨h.passes, h.ranges⟩, fun h => h, fun h => ⟨h.prior, h.timer, h.held, h.tag, h.rings, h.due⟩,
    fun _ e => by cases e⟩

theorem Keeps.endCapture (s : State) (reason : EndReason) : Keeps s (s.endCapture reason) :=
  ((Keeps.onCapture s.captureQueue s.shedding none (Or.inr (Nat.le_refl _))
    (fun h => ⟨h.setup, (fun x => by cases x), h.opened, h.shed⟩)).settled (fun _ _ e => by cases e)).trans
    (.noted (s.endCapture_noted reason))

theorem Keeps.ofFormed {s t : State} (h : Formed s t) (hd : FramesFormed s → FramesFormed t) : Keeps s t := by
  obtain ⟨q, sh, c, b, a, ho, _, hq, hf, rfl⟩ := h
  exact ⟨fun h => ⟨(h.offered ho).1, (h.offered ho).2, hq h.frames, h.sets⟩,
    fun h => ho.keeps (fun b body hb => hb.offer body) h,
    fun h => (State.engineFits_iff _).mp (hf (s.engineFits_iff.mpr h)), fun h => h,
    fun h => ⟨h.block, h.interval, h.assessment, h.idle⟩, fun h => ⟨h.setup, h.each⟩,
    fun h => ⟨h.passes, h.ranges⟩, fun h => h, fun h => ⟨h.prior, h.timer, h.held, h.tag, h.rings, h.due⟩,
    fun h e => hd (h e)⟩

theorem Keeps.formOne (s : State) : Keeps s s.formOne :=
  .ofFormed (.formOne s) (fun h => by rw [s.formOne_formed h]; exact h)

/-- An occasion of R121 leaves no frame waiting, whatever waited before it. -/
theorem Keeps.formAll (s : State) : KeepsBy Drift.form s s.formAll := by
  have h := Keeps.ofFormed (.formAll s) (fun _ => s.formAll_done)
  exact ⟨h.queues, h.chain, h.captures, h.halves, h.spans, h.modules, h.map, h.limits,
    fun q => (h.control q).retag rfl rfl,
    fun _ _ => s.formAll_done⟩

/-! ### Measurement Control -/

theorem SpansExact.congr {s t : State} (h : SpansExact s) (hm : t.measuring = s.measuring)
    (hk : t.keepsAssessments = s.keepsAssessments) (hp : t.points = s.points) : SpansExact t := by
  have hpt : ∀ q, t.point q = s.point q := fun q => by unfold State.point; rw [hp]
  have ha : ∀ q, t.active q = s.active q := fun q => State.active_eq hm q (by rw [hpt])
  refine ⟨fun q => ?_, fun q => ?_, fun q => ?_, fun q hq => ?_⟩
  · rw [hpt, ha]; exact h.block q
  · rw [hpt, ha]; exact h.interval q
  · rw [hpt, hm, hk]; exact h.assessment q
  · rw [hpt]; exact h.idle q (ha q ▸ hq)

/-- A change of Measurement Control and of the running capture, by its effect on what they bear on. -/
theorem Keeps.onControl {s : State} (c : Control) (k : Option RunningCapture)
    (hc : CaptureCoherent s → k.isSome → c.device = .running ∧ s.shedding = .opened)
    (hs : SpansExact s → SpansExact { s with control := c, capture := k })
    (hk : ∀ {d}, ControlWith d s → ControlWith d { s with control := c, capture := k })
    (hw : ∀ x, k = some x → s.capture = some x) :
    Keeps s { s with control := c, capture := k } :=
  ⟨fun h => ⟨h.records, h.withheld, h.frames, h.sets⟩, fun h => h, fun h => ⟨h.setup, hc h, h.opened, h.shed⟩,
    fun h => h, hs, fun h => ⟨h.setup, h.each⟩, fun h => ⟨h.passes, h.ranges⟩, fun h => h, hk,
    fun h e x hx => h e x (hw x hx)⟩

theorem Keeps.enterHoldup (s : State) (hd : s.control.device = .stopped ∨ s.control.device = .running) :
    Keeps s s.enterHoldup := by
  unfold State.enterHoldup
  dsimp only
  refine Keeps.trans (Keeps.onControl (s := s)
    { s.control with device := .holdup, prior := some (priorOf s.control.device), timerRunning := true,
                     holdupStart := s.count } none (fun _ x => by cases x) (fun h => ?_) (fun h => ?_)
                     (fun _ e => by cases e)) (.noted ?_)
  · refine h.congr ?_ ?_ rfl
    · unfold State.measuring priorOf
      rcases hd with e | e <;> rw [e] <;> rfl
    · unfold State.keepsAssessments
      rcases hd with e | e <;> rw [e] <;> rfl
  · refine ⟨rfl, rfl, fun x => ?_, h.tag, h.rings, h.due⟩
    have := h.held x
    rcases hd with e | e <;> rw [e] at this <;> cases this
  · have h1 : ∀ u : State, Noted { u with capture := none } ((u.endCapture .truncatedSupply).raise .supply) :=
      fun u => (u.endCapture_noted _).trans (.raise _ _)
    obtain ⟨b, a, ho, he⟩ := Noted.offerStatus
      ({ s with control := { s.control with device := .holdup, prior := some (priorOf s.control.device), timerRunning := true, holdupStart := s.count } } : State)
      (.holdupEntered (priorOf s.control.device).device)
    rw [he]
    exact Noted.trans ⟨b, a, ho, rfl⟩ (h1
      { s with
        control := { s.control with device := .holdup, prior := some (priorOf s.control.device), timerRunning := true,
                                    holdupStart := s.count },
        builder := b, attention := a })

theorem State.supplyFailed_device (s : State) (h : s.supplyFailed = true) :
    s.control.device = .stopped ∨ s.control.device = .running := by
  unfold State.supplyFailed at h
  simp only [Bool.and_eq_true, Bool.or_eq_true, beq_iff_eq] at h
  exact h.2

theorem Keeps.takeFailure (s : State) : Keeps s s.takeFailure :=
  Keeps.iteIf (fun h => Keeps.enterHoldup s (s.supplyFailed_device h)) (fun _ => .refl s)

/-- The control block as a supply return leaves it. -/
def Control.restored (c : Control) (d : DeviceState) : Control :=
  { c with device := d, prior := none, timerRunning := false }

theorem State.restoreSupply_noted (s : State) (d : DeviceState) :
    Noted { s with control := s.control.restored d } (s.restoreSupply d) :=
  Noted.statusRaise _ _ _

theorem Keeps.takeReturnHoldup (s : State) : Keeps s s.takeReturnHoldup := by
  unfold State.takeReturnHoldup
  refine Keeps.iteIf (fun h => ?_) (fun _ => .refl s)
  simp only [Bool.and_eq_true, beq_iff_eq] at h
  have hd := h.2
  refine Keeps.trans (Keeps.onControl (s := s) (s.control.restored s.control.returnState) s.capture ?_ ?_ ?_ (fun _ h => h))
    (.noted (s.restoreSupply_noted _))
  · intro q x
    have := (q.running x).1
    rw [hd] at this
    cases this
  · intro q
    refine q.congr ?_ ?_ rfl
    · unfold State.measuring Control.restored Control.returnState
      rw [hd]
      cases s.control.prior with
      | none => rfl
      | some x => cases x <;> rfl
    · unfold State.keepsAssessments Control.restored Control.returnState
      rw [hd]
      cases s.control.prior with
      | none => rfl
      | some x => cases x <;> rfl
  · intro d q
    refine ⟨?_, ?_, fun x => ?_, q.tag, q.rings, q.due⟩
    · unfold Control.restored Control.returnState
      cases s.control.prior with
      | none => rfl
      | some x => cases x <;> rfl
    · unfold Control.restored Control.returnState
      cases s.control.prior with
      | none => rfl
      | some x => cases x <;> rfl
    · have := q.held x
      rw [hd] at this
      cases this

/-! ### Work in progress -/

/-- A state whose work in progress is discarded: every Boundary Unit is fresh, and nothing else an invariant sees. -/
theorem Keeps.discardWork (s : State) (hi : SpansExact s → SpansExact s.discardWork) : Keeps s s.discardWork := by
  have hc : ∀ t : State, Keeps t (t.mapChannels (fun _ ch => ch.zeroTallies)) :=
    fun t => Keeps.mapChannels t _ (fun _ _ => rfl) (fun _ _ h => h)
  have h1 := hc (s.mapPoints (fun _ pt => pt.discardWork))
  refine ⟨fun q => h1.queues ⟨q.records, q.withheld, q.frames, q.sets⟩, fun q => h1.chain q,
    fun q => h1.captures ⟨q.setup, q.running, q.opened, q.shed⟩, fun q => h1.halves (fun p => ?_), hi,
    fun q => h1.modules ⟨q.setup, q.each⟩, fun q => h1.map ⟨q.passes, q.ranges⟩, fun q => h1.limits (fun p => ?_),
    fun q => h1.control ⟨q.prior, q.timer, q.held, q.tag, q.rings, q.due⟩,
    fun q => h1.formed (fun e => FramesFormed.congr (q e) rfl rfl rfl)⟩
  · rw [State.mapPoints_point]
    exact Boundary.fresh_bounded
  · rw [State.mapPoints_point]
    exact ⟨(q p).inForce, (q p).pending, (q p).derived⟩

theorem State.discardWork_point (s : State) (p : Point) : s.discardWork.point p = (s.point p).discardWork := by
  unfold State.discardWork
  rw [State.mapChannels_point_same, State.mapPoints_point]

theorem Keeps.emptyRings (s : State) : Keeps s s.emptyRings :=
  Keeps.mapChannels s _ (fun _ _ => rfl) (fun _ _ _ => Nat.zero_le _)

theorem Keeps.emptyHistory (s : State) : Keeps s s.emptyHistory :=
  ⟨fun q => ⟨q.records, q.withheld, q.frames, Nat.zero_le _⟩, fun q => q,
    fun q => ⟨q.setup, q.running, q.opened, q.shed⟩, fun q => q,
    fun q => ⟨q.block, q.interval, q.assessment, q.idle⟩, fun q => ⟨q.setup, q.each⟩,
    fun q => ⟨q.passes, q.ranges⟩, fun q => q, fun q => ⟨q.prior, q.timer, q.held, q.tag, q.rings, q.due⟩,
    fun _ _ _ _ => rfl⟩

theorem Keeps.clearDue (s : State) : Keeps s s.clearDue :=
  Keeps.mapChannels s _ (fun _ _ => rfl) (fun _ _ h => h)

/-! ### The modules at entry to STANDBY (R14, R19) -/

theorem State.endCommand_module (s : State) (m n : Module) (result : ReplyResult) (word : Option (BitVec 32)) :
    (s.endCommand m result word).module n = if n = m then (s.module m).freed else s.module n := by
  obtain ⟨b, a, _, he⟩ := s.endCommand_noted m result word
  rw [he]
  exact State.modModule_module s m n ModuleRecord.freed

theorem State.endCommand_setup (s : State) (m : Module) (result : ReplyResult) (word : Option (BitVec 32)) :
    (s.endCommand m result word).setup = s.setup := by
  obtain ⟨b, a, _, he⟩ := s.endCommand_noted m result word
  rw [he]
  rfl

/-- `t` is `s` with other modules, new records and newly pending classes. -/
def OnModules (s t : State) : Prop :=
  ∃ b a v, Offered s.builder b ∧ t = { s with builder := b, attention := a, modules := v }

theorem OnModules.refl (s : State) : OnModules s s :=
  ⟨s.builder, s.attention, s.modules, .none, rfl⟩

theorem OnModules.trans {s t u : State} (h : OnModules s t) (k : OnModules t u) : OnModules s u := by
  obtain ⟨b, a, v, ho, rfl⟩ := h
  obtain ⟨b2, a2, v2, ho2, rfl⟩ := k
  exact ⟨b2, a2, v2, ho.trans ho2, rfl⟩

theorem OnModules.foldl {α : Type} (f : State → α → State) (h : ∀ s x, OnModules s (f s x)) (l : List α) (s : State) :
    OnModules s (l.foldl f s) := by
  induction l generalizing s with
  | nil => exact .refl s
  | cons x xs ih => exact (h s x).trans (ih _)

theorem OnModules.modThen {s t : State} {m : Module} {f : ModuleRecord → ModuleRecord}
    (h : Noted (s.modModule m f) t) : OnModules s t := by
  obtain ⟨b, a, ho, rfl⟩ := h
  exact ⟨b, a, _, ho, rfl⟩

theorem OnModules.endCommand (s : State) (m : Module) (result : ReplyResult) (word : Option (BitVec 32)) :
    OnModules s (s.endCommand m result word) :=
  .modThen (s.endCommand_noted m result word)

theorem OnModules.keeps {s t : State} (h : OnModules s t) (hm : ModulesCoherent s → ModulesCoherent t) :
    Keeps s t := by
  obtain ⟨b, a, v, ho, rfl⟩ := h
  exact ⟨fun q => ⟨(q.offered ho).1, (q.offered ho).2, q.frames, q.sets⟩,
    fun q => ho.keeps (fun b body hb => hb.offer body) q,
    fun q => ⟨q.setup, q.running, q.opened, q.shed⟩, fun q => q,
    fun q => ⟨q.block, q.interval, q.assessment, q.idle⟩, hm,
    fun q => ⟨q.passes, q.ranges⟩, fun q => q, fun q => ⟨q.prior, q.timer, q.held, q.tag, q.rings, q.due⟩, fun q => q⟩

/-- A module as entry to STANDBY leaves it, its command ended. -/
def ModuleRecord.stoodBy (r : ModuleRecord) (enabled : Bool) : ModuleRecord :=
  if enabled then r.seek.freed else r.freed

theorem endCommands_module (order : List Module) (s : State) (m : Module) (hm : m ∈ order) :
    ((order.foldl (fun s m => s.endCommand m .noAnswer none) s).module m) = (s.module m).freed := by
  have after : ∀ (l : List Module) (s : State), (s.module m).command = none →
      (l.foldl (fun s m => s.endCommand m .noAnswer none) s).module m = s.module m := by
    intro l
    induction l with
    | nil => exact fun _ _ => rfl
    | cons x xs ih =>
      intro s hs
      have hx : (s.endCommand x .noAnswer none).module m = s.module m := by
        rw [State.endCommand_module]
        split
        · rename_i e
          subst e
          unfold ModuleRecord.freed
          rw [← hs]
        · rfl
      rw [List.foldl_cons, ih _ (by rw [hx]; exact hs), hx]
  induction order generalizing s with
  | nil => cases hm
  | cons x xs ih =>
    rw [List.foldl_cons]
    by_cases e : m = x
    · subst e
      rw [after xs _ (by rw [State.endCommand_module, if_pos rfl]; rfl), State.endCommand_module, if_pos rfl]
    · have hm2 : m ∈ xs := by
        cases hm with
        | head => exact absurd rfl e
        | tail _ h => exact h
      rw [ih _ hm2, State.endCommand_module, if_neg e]

theorem OnModules.seekModules (s : State) (order : List Module) : OnModules s (s.seekModules order) := by
  unfold State.seekModules
  dsimp only
  refine OnModules.trans ⟨s.builder, s.attention, _, .none, rfl⟩ (OnModules.foldl _ (fun s m => ?_) order _)
  exact .endCommand s m _ _

theorem State.seekModules_module (s : State) (order : List Module) (m : Module) (hm : m ∈ order) :
    (s.seekModules order).module m = (s.module m).stoodBy (s.setup.enables m) := by
  unfold State.seekModules
  dsimp only
  rw [endCommands_module order _ m hm, State.mapModules_module]
  unfold ModuleRecord.stoodBy
  split <;> rfl

theorem ModuleRecord.Coherent.stoodBy {r : ModuleRecord} {e : Bool} {l : Nat} (h : r.Coherent e l) :
    (r.stoodBy e).Coherent e l := by
  unfold ModuleRecord.stoodBy
  cases e with
  | true =>
    exact ⟨⟨(fun x => by cases x), (fun x => by cases x)⟩, (fun x => by cases x), fun _ => show 0 < 4 by omega,
      (fun x => by cases x), Nat.zero_le _, Nat.zero_le _, h.failureBound, h.staleBound⟩
  | false => exact h.freed

theorem Keeps.seekModules (s : State) (order : List Module) (ho : ∀ m, m ∈ order) :
    Keeps s (s.seekModules order) := by
  have hset : (s.seekModules order).setup = s.setup := by
    obtain ⟨b, a, v, _, he⟩ := OnModules.seekModules s order
    rw [he]
  refine (OnModules.seekModules s order).keeps (fun q => ⟨hset ▸ q.setup, fun m => ?_⟩)
  rw [s.seekModules_module order m (ho m), hset]
  exact (q.each m).stoodBy

/-! ### Entry to STANDBY (R171) -/

/-- The control block in STANDBY. -/
def Control.standingBy (c : Control) : Control :=
  { c with device := .standby, timerRunning := false }

theorem Across.closeForStandby (s : State) : Across s s.closeForStandby := by
  unfold State.closeForStandby
  dsimp only
  exact (Across.forceCloseEvents s _).trans (Across.foldl _ Across.standbySpans _ _)

/-- What the closings at entry to STANDBY leave of a point's spans and trackers. -/
theorem State.closeForStandby_point (s : State) (p : Point) :
    (s.closeForStandby.point p).low = .quiet ∧ (s.closeForStandby.point p).high = .quiet ∧
    ((s.point p).measured = true →
      (s.closeForStandby.point p).block = none ∧ (s.closeForStandby.point p).interval = none) ∧
    ((s.point p).measured = false → SameSpans (s.point p) (s.closeForStandby.point p)) ∧
    (s.closeForStandby.point p).assessment.isSome = (s.point p).assessment.isSome := by
  have h1 := s.forceCloseEvents_spans .recorderSupply p
  have h2 := s.forceCloseEvents_quiet .recorderSupply p
  have hb := (Across.forceCloseEvents s .recorderSupply).base p
  have hf := (Across.foldl _ Across.standbySpans (s.forceCloseEvents .recorderSupply).measuredPoints
    (s.forceCloseEvents .recorderSupply)).base p
  have hother : ∀ (s : State) (x q : Point), q ≠ x → (s.standbySpans x).point q = s.point q :=
    fun s x q h => s.standbySpans_other x q h
  have hass : ∀ (l : List Point) (s : State), ((l.foldl State.standbySpans s).point p).assessment.isSome =
      (s.point p).assessment.isSome := by
    intro l
    induction l with
    | nil => exact fun _ => rfl
    | cons x xs ih =>
      intro s
      rw [List.foldl_cons, ih]
      by_cases e : p = x
      · subst e
        exact (s.standbySpans_point p).2.2
      · rw [s.standbySpans_other x p e]
  refine ⟨hf.low h2.1, hf.high h2.2, fun hm => ?_, fun hm => ?_, ?_⟩
  · have hmem : p ∈ (s.forceCloseEvents .recorderSupply).measuredPoints := by
      rw [State.mem_measuredPoints, hb.measured]
      exact hm
    exact foldl_all State.standbySpans (fun p s => (s.point p).block = none ∧ (s.point p).interval = none)
      (fun s x => ⟨(s.standbySpans_point x).1, (s.standbySpans_point x).2.1⟩)
      (fun s x y h => by
        by_cases e : y = x
        · subst e
          exact ⟨(s.standbySpans_point y).1, (s.standbySpans_point y).2.1⟩
        · rw [s.standbySpans_other x y e]
          exact h) _ _ p hmem
  · have hmem : p ∉ (s.forceCloseEvents .recorderSupply).measuredPoints := by
      rw [State.mem_measuredPoints, hb.measured, hm]
      simp
    unfold State.closeForStandby
    dsimp only
    rw [foldl_other State.standbySpans hother p _ hmem]
    exact h1
  · unfold State.closeForStandby
    dsimp only
    rw [hass]
    exact h1.assessment

end Sys2Proof.Machine
end

