-- ==== Sys2Proof/Laws/Supply.lean ====
section
/-! SUPPORT. What START, STOP, TIME-SET and the supply operations keep (chapter 10). These change the device state
and the spans of the points together, so the spans are followed apart from the rest. -/

namespace Sys2Proof.Machine

/-- Every invariant but that of the spans. -/
structure Rest (s t : State) : Prop where
  queues : QueuesBounded s → QueuesBounded t
  chain : ChainIntact s.builder → ChainIntact t.builder
  captures : CaptureCoherent s → CaptureCoherent t
  halves : HalfWindowsBounded s → HalfWindowsBounded t
  modules : ModulesCoherent s → ModulesCoherent t
  map : MapLegal s → MapLegal t
  limits : LimitsLegal s → LimitsLegal t
  control : ∀ {d}, ControlWith d s → ControlWith d t
  formed : FramesFormed s → FramesFormed t

theorem Keeps.rest {s t : State} (h : Keeps s t) : Rest s t :=
  ⟨h.queues, h.chain, h.captures, h.halves, h.modules, h.map, h.limits, h.control,
    fun q => (formedWith_zero t).mp (h.formed ((formedWith_zero s).mpr q))⟩

theorem Rest.keeps {s t : State} (h : Rest s t) (hs : SpansExact s → SpansExact t) : Keeps s t :=
  ⟨h.queues, h.chain, h.captures, h.halves, hs, h.modules, h.map, h.limits, h.control, fun q e => h.formed (q e)⟩

theorem Rest.trans {s t u : State} (h : Rest s t) (k : Rest t u) : Rest s u :=
  ⟨k.queues ∘ h.queues, k.chain ∘ h.chain, k.captures ∘ h.captures, k.halves ∘ h.halves, k.modules ∘ h.modules,
    k.map ∘ h.map, k.limits ∘ h.limits, fun q => k.control (h.control q), k.formed ∘ h.formed⟩

theorem Rest.onControl {s : State} (c : Control) (hc : CaptureCoherent s → s.capture.isSome → c.device = .running)
    (hk : ∀ {d}, ControlWith d s → ControlWith d { s with control := c }) : Rest s { s with control := c } :=
  ⟨fun h => ⟨h.records, h.withheld, h.frames, h.sets⟩, fun h => h,
    fun h => ⟨h.setup, fun x => ⟨hc h x, (h.running x).2⟩, h.opened, h.shed⟩,
    fun h => h, fun h => ⟨h.setup, h.each⟩, fun h => ⟨h.passes, h.ranges⟩, fun h => h, hk, fun h => h⟩

theorem Across.rest {s t : State} (h : Across s t) : Rest s t := by
  have hb := h.base
  obtain ⟨b, a, v, ho, rfl⟩ := h.whole
  refine ⟨fun q => ⟨(q.offered ho).1, (q.offered ho).2, q.frames, q.sets⟩,
    fun q => ho.keeps (fun b body hb => hb.offer body) q,
    fun q => ⟨q.setup, q.running, q.opened, q.shed⟩, ?_, fun q => ⟨q.setup, q.each⟩,
    fun q => ⟨q.passes, q.ranges⟩, ?_, fun q => ⟨q.prior, q.timer, q.held, q.tag, q.rings, q.due⟩, fun q => q⟩
  · intro q x
    rw [(hb x).boundary]
    exact q x
  · intro q x
    refine ⟨by rw [(hb x).limits]; exact (q x).inForce, by rw [(hb x).pendingLimits]; exact (q x).pending, ?_⟩
    rw [(hb x).limits, (hb x).thresholds]
    exact (q x).derived

theorem Rest.mapPoints (s : State) (f : Point → PointRecord → PointRecord)
    (hb : ∀ p, (s.point p).boundary.bounded → (f p (s.point p)).boundary.bounded)
    (hl : ∀ p, (s.point p).LimitsLegal → (f p (s.point p)).LimitsLegal) : Rest s (s.mapPoints f) := by
  refine ⟨fun q => ⟨q.records, q.withheld, q.frames, q.sets⟩, fun q => q,
    fun q => ⟨q.setup, q.running, q.opened, q.shed⟩, ?_, fun q => ⟨q.setup, q.each⟩,
    fun q => ⟨q.passes, q.ranges⟩, ?_, fun q => ⟨q.prior, q.timer, q.held, q.tag, q.rings, q.due⟩, fun q => q⟩
  · intro q x
    rw [State.mapPoints_point]
    exact hb x (q x)
  · intro q x
    rw [State.mapPoints_point]
    exact hl x (q x)

theorem Rest.discardWork (s : State) : Rest s s.discardWork := by
  unfold State.discardWork
  refine (Rest.mapPoints s (fun _ pt => pt.discardWork) (fun _ _ => Boundary.fresh_bounded)
    (fun _ h => ⟨h.inForce, h.pending, h.derived⟩)).trans ?_
  exact (Keeps.mapChannels (s.mapPoints (fun _ pt => pt.discardWork)) (fun _ ch => ch.zeroTallies) (fun _ _ => rfl)
    (fun _ _ h => h)).rest

/-! ### Points through what does not touch them -/

theorem Noted.point {s t : State} (h : Noted s t) (p : Point) : t.point p = s.point p := by
  obtain ⟨b, a, _, rfl⟩ := h
  rfl

theorem OnModules.point {s t : State} (h : OnModules s t) (p : Point) : t.point p = s.point p := by
  obtain ⟨b, a, v, _, rfl⟩ := h
  rfl

theorem Noted.control {s t : State} (h : Noted s t) : t.control = s.control := by
  obtain ⟨b, a, _, rfl⟩ := h
  rfl

theorem OnModules.control {s t : State} (h : OnModules s t) : t.control = s.control := by
  obtain ⟨b, a, v, _, rfl⟩ := h
  rfl

theorem Across.control {s t : State} (h : Across s t) : t.control = s.control := by
  obtain ⟨b, a, v, _, rfl⟩ := h.whole
  rfl

theorem Across.capture {s t : State} (h : Across s t) : t.capture = s.capture := by
  obtain ⟨b, a, v, _, rfl⟩ := h.whole
  rfl

@[simp] theorem State.discardWork_control (s : State) : s.discardWork.control = s.control := by
  unfold State.discardWork
  rw [State.mapChannels_control, State.mapPoints_control]

@[simp] theorem State.emptyRings_control (s : State) : s.emptyRings.control = s.control :=
  State.mapChannels_control s _

@[simp] theorem State.emptyRings_point (s : State) (p : Point) : s.emptyRings.point p = s.point p :=
  State.mapChannels_point_same s _ p

@[simp] theorem State.emptyHistory_point (s : State) (p : Point) : s.emptyHistory.point p = s.point p :=
  rfl

@[simp] theorem State.emptyHistory_control (s : State) : s.emptyHistory.control = s.control :=
  rfl

@[simp] theorem State.endChecks_control (s : State) : s.endChecks.control = s.control :=
  rfl

@[simp] theorem State.endChecks_point (s : State) (p : Point) :
    s.endChecks.point p = { s.point p with check := none } :=
  State.mapPoints_point s p _

@[simp] theorem State.clearDue_point (s : State) (p : Point) : s.clearDue.point p = s.point p :=
  State.mapChannels_point_same s _ p

@[simp] theorem State.clearDue_control (s : State) : s.clearDue.control = s.control :=
  State.mapChannels_control s _

/-! ### Entry to STANDBY (R171) -/

/-- The state after the closings of an entry to STANDBY. -/
def State.standbyClosed (s : State) : State :=
  if s.control.prior = some .running then ({ s with control := s.control.standingBy } : State).closeForStandby
  else { s with control := s.control.standingBy }

theorem State.standbyClosed_across (s : State) :
    Across { s with control := s.control.standingBy } s.standbyClosed := by
  unfold State.standbyClosed
  split
  · exact Across.closeForStandby _
  · exact .refl _

theorem State.enterStandby_eq (s : State) (order : List Module) : s.enterStandby order =
    ((((s.standbyClosed.offerStatus .standbyEntered).raise .supply).seekModules order).endChecks.discardWork.emptyRings.emptyHistory) := by
  unfold State.enterStandby State.standbyClosed Control.standingBy
  dsimp only

theorem State.enterStandby_control (s : State) (order : List Module) :
    (s.enterStandby order).control = s.control.standingBy := by
  rw [s.enterStandby_eq order, State.emptyHistory_control, State.emptyRings_control, State.discardWork_control,
    State.endChecks_control, (OnModules.seekModules _ order).control, (Noted.statusRaise _ _ _).control, s.standbyClosed_across.control]

theorem State.enterStandby_point (s : State) (order : List Module) (p : Point) : (s.enterStandby order).point p =
    PointRecord.discardWork { s.standbyClosed.point p with check := none } := by
  rw [s.enterStandby_eq order, State.emptyHistory_point, State.emptyRings_point, State.discardWork_point,
    State.endChecks_point, (OnModules.seekModules _ order).point, (Noted.statusRaise _ _ _).point]

theorem Rest.enterStandby (s : State) (order : List Module) (hd : s.control.device = .holdup)
    (ho : ∀ m, m ∈ order) : Rest s (s.enterStandby order) := by
  rw [s.enterStandby_eq order]
  have h1 : Rest s { s with control := s.control.standingBy } := by
    refine Rest.onControl _ (fun q x => ?_) (fun q => ⟨?_, rfl, fun x => ?_, q.tag, q.rings, q.due⟩)
    · have := (q.running x).1
      rw [hd] at this
      cases this
    · have := q.prior
      rw [hd] at this
      exact this
    · have := q.held x
      rw [hd] at this
      cases this
  refine Rest.trans ?_ (Keeps.emptyHistory _).rest
  refine Rest.trans ?_ (Keeps.emptyRings _).rest
  refine Rest.trans ?_ (Rest.discardWork _)
  refine Rest.trans ?_ (Keeps.endChecks _).rest
  refine Rest.trans ?_ (Keeps.seekModules _ order ho).rest
  refine Rest.trans ?_ (Keeps.noted (Noted.statusRaise _ _ _)).rest
  exact h1.trans s.standbyClosed_across.rest

theorem State.measuring_holdup (s : State) (hd : s.control.device = .holdup) :
    s.measuring = (s.control.prior == some .running) := by
  unfold State.measuring
  rw [hd]
  rfl

theorem Keeps.enterStandby (s : State) (order : List Module) (hd : s.control.device = .holdup)
    (ho : ∀ m, m ∈ order) : Keeps s (s.enterStandby order) := by
  refine (Rest.enterStandby s order hd ho).keeps (fun q => ?_)
  have hc := s.enterStandby_control order
  have hm : (s.enterStandby order).measuring = false := by unfold State.measuring; rw [hc]; rfl
  have hk : (s.enterStandby order).keepsAssessments = (s.control.prior == some .running) := by
    unfold State.keepsAssessments
    rw [hc]
    rfl
  have ha : ∀ p, (s.enterStandby order).active p = false := fun p => by unfold State.active; rw [hm]; rfl
  have hsm := s.measuring_holdup hd
  have hsk : s.keepsAssessments = false := by unfold State.keepsAssessments; rw [hd]; rfl
  have hmeas : ∀ p, (s.standbyClosed.point p).measured = (s.point p).measured :=
    fun p => (s.standbyClosed_across.base p).measured
  have key : ∀ p, (s.standbyClosed.point p).block.isSome = false ∧ (s.standbyClosed.point p).interval.isSome = false ∧
      (s.standbyClosed.point p).assessment.isSome = (s.point p).assessment.isSome ∧
      (s.standbyClosed.point p).low = .quiet ∧ (s.standbyClosed.point p).high = .quiet := by
    intro p
    by_cases hp : s.control.prior = some .running
    · have he : s.standbyClosed = ({ s with control := s.control.standingBy } : State).closeForStandby := by
        unfold State.standbyClosed
        rw [if_pos hp]
      rw [he]
      obtain ⟨h1, h2, h3, h4, h5⟩ := ({ s with control := s.control.standingBy } : State).closeForStandby_point p
      cases hmp : (s.point p).measured with
      | true =>
        have h6 := h3 hmp
        exact ⟨by rw [h6.1]; rfl, by rw [h6.2]; rfl, h5, h1, h2⟩
      | false =>
        have h6 := h4 hmp
        have h7 : s.active p = false := by unfold State.active; rw [hmp, Bool.and_false]
        exact ⟨h6.block.trans ((q.block p).trans h7), h6.interval.trans ((q.interval p).trans h7), h5, h1, h2⟩
    · have he : s.standbyClosed = { s with control := s.control.standingBy } := by
        unfold State.standbyClosed
        rw [if_neg hp]
      rw [he]
      have h7 : s.active p = false := by
        unfold State.active
        rw [hsm]
        cases hx : s.control.prior with
        | none => rfl
        | some x =>
          cases x with
          | stopped => rfl
          | running => exact absurd hx hp
      have h8 := q.idle p h7
      exact ⟨(q.block p).trans h7, (q.interval p).trans h7, rfl, h8.low, h8.high⟩
  refine ⟨fun p => ?_, fun p => ?_, fun p => ?_, fun p _ => ?_⟩
  · rw [s.enterStandby_point order p, ha]
    exact (key p).1
  · rw [s.enterStandby_point order p, ha]
    exact (key p).2.1
  · rw [hm, hk, s.enterStandby_point order p]
    show (s.standbyClosed.point p).assessment.isSome =
      ((false || (s.control.prior == some PriorState.running)) && (s.standbyClosed.point p).measured)
    rw [(key p).2.2.1, hmeas, q.assessment p, hsm, hsk, Bool.or_false, Bool.false_or]
  · rw [s.enterStandby_point order p]
    exact ⟨rfl, rfl, rfl, (key p).2.2.2.1, (key p).2.2.2.2, rfl⟩

theorem Keeps.takeHoldupExpiry (s : State) (order : List Module) (ho : ∀ m, m ∈ order) :
    Keeps s (s.takeHoldupExpiry order) := by
  refine Keeps.iteIf (fun h => ?_) (fun _ => .refl s)
  unfold State.holdupOver at h
  simp only [Bool.and_eq_true, beq_iff_eq] at h
  exact Keeps.enterStandby s order h.1.1 ho

/-! ### Return from STANDBY (R173) -/

theorem State.openSpans_other (s : State) (t : Tick) (p q : Point) (h : q ≠ p) :
    (s.openSpans t p).point q = s.point q := by
  unfold State.openSpans
  rw [State.modPoint_point, if_neg h]

/-- A fold of openings over the measured points: each has a block and an interval, the rest is as it was. -/
theorem State.openAll_point (l : List Point) (s : State) (p : Point) :
    SameSpans (s.point p) ((l.foldl (fun s p => s.openSpans s.count p) s).point p) ∨
      (p ∈ l ∧ ((l.foldl (fun s p => s.openSpans s.count p) s).point p).block.isSome = true ∧
        ((l.foldl (fun s p => s.openSpans s.count p) s).point p).interval.isSome = true ∧
        ((l.foldl (fun s p => s.openSpans s.count p) s).point p).assessment.isSome =
          (s.point p).assessment.isSome) := by
  by_cases hp : p ∈ l
  · refine Or.inr ⟨hp, ?_⟩
    have h1 := foldl_all (fun (s : State) p => s.openSpans s.count p)
      (fun p s => (s.point p).block.isSome = true ∧ (s.point p).interval.isSome = true)
      (fun s x => by rw [State.openSpans_point]; exact ⟨rfl, rfl⟩)
      (fun s x y h => by
        by_cases e : y = x
        · subst e
          rw [State.openSpans_point]
          exact ⟨rfl, rfl⟩
        · rw [s.openSpans_other _ x y e]
          exact h) l s p hp
    refine ⟨h1.1, h1.2, ?_⟩
    clear h1 hp
    induction l generalizing s with
    | nil => rfl
    | cons x xs ih =>
      rw [List.foldl_cons, ih]
      by_cases e : p = x
      · subst e
        rw [State.openSpans_point]
      · rw [s.openSpans_other _ x p e]
  · left
    rw [foldl_other (fun (s : State) p => s.openSpans s.count p) (fun s x q h => s.openSpans_other _ x q h) p l hp s]
    exact ⟨rfl, rfl, rfl⟩

/-- A return of the supply to a device state, seen by every invariant but that of the spans. -/
theorem Rest.restoreSupply (s : State) (d : DeviceState) (hd : s.control.device = .standby)
    (hn : d = .stopped ∨ d = .running) : Rest s (s.restoreSupply d) := by
  refine Rest.trans (Rest.onControl (s.control.restored d) (fun q x => ?_) (fun q => ⟨?_, ?_, fun x => ?_, q.tag, q.rings, q.due⟩))
    (Keeps.noted (s.restoreSupply_noted d)).rest
  · have := (q.running x).1
    rw [hd] at this
    cases this
  · rcases hn with e | e <;> rw [e] <;> rfl
  · rcases hn with e | e <;> rw [e] <;> rfl
  · have := q.held x
    rw [hd] at this
    cases this

theorem State.restoreSupply_control (s : State) (d : DeviceState) :
    (s.restoreSupply d).control = s.control.restored d :=
  (s.restoreSupply_noted d).control

theorem State.restoreSupply_point (s : State) (d : DeviceState) (p : Point) :
    (s.restoreSupply d).point p = s.point p :=
  (s.restoreSupply_noted d).point p

theorem Keeps.leaveStandby (s : State) (hd : s.control.device = .standby) : Keeps s s.leaveStandby := by
  have hoff : ∀ p, s.active p = false := by
    intro p
    unfold State.active State.measuring
    rw [hd]
    rfl
  unfold State.leaveStandby
  refine Keeps.iteIf (fun hr => ?_) (fun _ => ?_)
  · have hopen : Across (s.restoreSupply .running) ((s.restoreSupply .running).measuredPoints.foldl
        (fun s2 p => s2.openSpans s2.count p) (s.restoreSupply .running)) :=
      Across.foldl _ (fun s p => Across.openSpans s s.count p) _ _
    refine ((Rest.restoreSupply s .running hd (Or.inr rfl)).trans hopen.rest).keeps (fun q => ?_)
    unfold State.resumes at hr
    simp only [Bool.and_eq_true, beq_iff_eq] at hr
    have hkeep : s.keepsAssessments = true := by
      unfold State.keepsAssessments
      rw [hd, hr.1]
      rfl
    have hsm : s.measuring = false := by
      unfold State.measuring
      rw [hd]
      rfl
    generalize ht : (s.restoreSupply .running).measuredPoints.foldl
      (fun s2 p => s2.openSpans s2.count p) (s.restoreSupply .running) = t at hopen ⊢
    have hc : t.control = s.control.restored .running := hopen.control.trans (s.restoreSupply_control .running)
    have hm : t.measuring = true := by unfold State.measuring; rw [hc]; rfl
    have hmeas : ∀ p, (t.point p).measured = (s.point p).measured := fun p => by
      rw [(hopen.base p).measured, s.restoreSupply_point]
    have ha : ∀ p, t.active p = (s.point p).measured := fun p => by
      unfold State.active
      rw [hm, hmeas, Bool.true_and]
    have hmem : ∀ p, p ∈ (s.restoreSupply .running).measuredPoints ↔ (s.point p).measured = true := fun p => by
      rw [State.mem_measuredPoints, s.restoreSupply_point]
    have key : ∀ p, (t.point p).block.isSome = (s.point p).measured ∧
        (t.point p).interval.isSome = (s.point p).measured ∧
        (t.point p).assessment.isSome = (s.point p).assessment.isSome := by
      intro p
      rcases (s.restoreSupply .running).openAll_point (s.restoreSupply .running).measuredPoints p with h | h
      · rw [ht, s.restoreSupply_point] at h
        cases hmp : (s.point p).measured with
        | false =>
          exact ⟨h.block.trans ((q.block p).trans (hoff p)), h.interval.trans ((q.interval p).trans (hoff p)), h.assessment⟩
        | true =>
          exfalso
          have h1 := foldl_all (fun (s : State) p => s.openSpans s.count p)
            (fun p s => (s.point p).block.isSome = true)
            (fun s x => by rw [State.openSpans_point]; rfl)
            (fun s x y h => by
              by_cases e : y = x
              · subst e
                rw [State.openSpans_point]
                rfl
              · rw [s.openSpans_other _ x y e]
                exact h) (s.restoreSupply .running).measuredPoints (s.restoreSupply .running) p ((hmem p).mpr hmp)
          rw [ht, h.block, q.block p, hoff p] at h1
          cases h1
      · rw [ht, s.restoreSupply_point] at h
        have hmp := (hmem p).mp h.1
        exact ⟨h.2.1.trans hmp.symm, h.2.2.1.trans hmp.symm, h.2.2.2⟩
    refine ⟨fun p => ?_, fun p => ?_, fun p => ?_, fun p hp => ?_⟩
    · rw [ha]
      exact (key p).1
    · rw [ha]
      exact (key p).2.1
    · rw [(key p).2.2, hm, hmeas, q.assessment p, hsm, hkeep]
      rfl
    · rw [ha] at hp
      have hnot : p ∉ (s.restoreSupply .running).measuredPoints := fun h => by
        rw [(hmem p).mp h] at hp
        cases hp
      rw [← ht, foldl_other (fun (s : State) p => s.openSpans s.count p) (fun s x q h => s.openSpans_other _ x q h) p _
        hnot, s.restoreSupply_point]
      exact q.idle p (hoff p)
  · have hend : Across (s.restoreSupply .stopped) (allFour.foldl (fun s2 p => s2.endAssessment p false true none)
        (s.restoreSupply .stopped)) :=
      Across.foldl _ (fun s p => Across.endAssessment s p false true none) _ _
    refine ((Rest.restoreSupply s .stopped hd (Or.inl rfl)).trans hend.rest).keeps (fun q => ?_)
    have hnone := fun p => foldl_all (fun (s : State) p => s.endAssessment p false true none)
      (fun p s => (s.point p).assessment = none)
      (fun s x => (s.endAssessment_point x false true none).2.2 rfl)
      (fun s x y h => by
        by_cases e : y = x
        · subst e
          exact (s.endAssessment_point y false true none).2.2 rfl
        · rw [s.endAssessment_other x y _ _ _ e]
          exact h) allFour (s.restoreSupply .stopped) p (mem_allFour p)
    have hspan : ∀ (l : List Point) (s : State) p,
        ((l.foldl (fun s2 p => s2.endAssessment p false true none) s).point p).block = (s.point p).block ∧
        ((l.foldl (fun s2 p => s2.endAssessment p false true none) s).point p).interval = (s.point p).interval := by
      intro l
      induction l with
      | nil => exact fun _ _ => ⟨rfl, rfl⟩
      | cons x xs ih =>
        intro s p
        have h1 := ih (s.endAssessment x false true none) p
        rw [List.foldl_cons, h1.1, h1.2]
        by_cases e : p = x
        · subst e
          have h2 := s.endAssessment_point p false true none
          exact ⟨h2.1, h2.2.1⟩
        · rw [s.endAssessment_other x p _ _ _ e]
          exact ⟨rfl, rfl⟩
    have hs := hspan allFour (s.restoreSupply .stopped)
    generalize allFour.foldl (fun s2 p => s2.endAssessment p false true none) (s.restoreSupply .stopped) = t
      at hend hnone hs ⊢
    have hc : t.control = s.control.restored .stopped := hend.control.trans (s.restoreSupply_control .stopped)
    have hm : t.measuring = false := by unfold State.measuring; rw [hc]; rfl
    have hk : t.keepsAssessments = false := by unfold State.keepsAssessments; rw [hc]; rfl
    have ha : ∀ p, t.active p = false := fun p => by unfold State.active; rw [hm]; rfl
    refine ⟨fun p => ?_, fun p => ?_, fun p => ?_, fun p _ => ?_⟩
    · rw [ha, (hs p).1, s.restoreSupply_point, q.block p, hoff p]
    · rw [ha, (hs p).2, s.restoreSupply_point, q.interval p, hoff p]
    · rw [hm, hk, hnone p]
      rfl
    · have h1 := q.idle p (hoff p)
      have h2 := hend.base p
      rw [s.restoreSupply_point] at h2
      exact ⟨h2.boundary.trans h1.boundary, h2.period.trans h1.period, h2.pairFlag.trans h1.pair, h2.low h1.low,
        h2.high h1.high, h2.check.trans h1.check⟩

theorem Keeps.takeReturnStandby (s : State) : Keeps s s.takeReturnStandby := by
  refine Keeps.iteIf (fun h => ?_) (fun _ => .refl s)
  simp only [Bool.and_eq_true, beq_iff_eq] at h
  exact Keeps.leaveStandby s h.2

end Sys2Proof.Machine
end

