-- ==== Sys2Proof/Laws/Session.lean ====
section
/-! SUPPORT. What START, STOP and TIME-SET keep (sections 10.3, 10.4). -/

namespace Sys2Proof.Machine

theorem State.withControl_point (s : State) (c : Control) (p : Point) :
    ({ s with control := c } : State).point p = s.point p :=
  rfl

theorem State.withDueNow_point (s : State) (d : DueNow) (p : Point) :
    ({ s with dueNow := d } : State).point p = s.point p :=
  rfl

/-! ### START (R163) -/

theorem PointRecord.installAtStart_legal (pt : PointRecord) (h : pt.LimitsLegal) :
    pt.installAtStart.LimitsLegal := by
  unfold PointRecord.installAtStart
  split
  · exact h
  · rename_i l hl
    exact PointRecord.install_legal pt l (h.pending l hl)

theorem PointRecord.installAtStart_boundary (pt : PointRecord) : pt.installAtStart.boundary = pt.boundary := by
  unfold PointRecord.installAtStart
  split <;> rfl

theorem PointRecord.installAtStart_spans (pt : PointRecord) : pt.installAtStart.block = pt.block ∧
    pt.installAtStart.interval = pt.interval ∧ pt.installAtStart.assessment = pt.assessment ∧
    pt.installAtStart.check = pt.check := by
  unfold PointRecord.installAtStart
  split <;> exact ⟨rfl, rfl, rfl, rfl⟩

/-- The points of an accepted START before their spans are opened. -/
def State.startPoints (s : State) : State :=
  (s.mapPoints (fun _ pt => pt.installAtStart)).mapPoints
    (fun p pt => pt.begin ((s.mapPoints (fun _ pt => pt.installAtStart)).configuredWith p pt.limits))

/-- The state of an accepted START before the spans are opened. -/
def State.startCleared (s : State) : State :=
  { (s.startPoints.mapChannels (fun _ ch => ch.begin (s.startPoints.checkedMeasured ch.entry))).emptyHistory with
    control := { s.control with device := .running } }

theorem State.beginRun_eq (s : State) :
    s.beginRun = s.startCleared.measuredPoints.foldl State.openRun s.startCleared := by
  unfold State.beginRun State.startCleared State.startPoints
  dsimp only

theorem State.startPoints_point (s : State) (p : Point) : ∃ m,
    s.startPoints.point p = (s.point p).installAtStart.begin m := by
  unfold State.startPoints
  rw [State.mapPoints_point, State.mapPoints_point]
  exact ⟨_, rfl⟩

theorem State.startCleared_point (s : State) (p : Point) : s.startCleared.point p = s.startPoints.point p := by
  unfold State.startCleared
  rw [State.withControl_point, State.emptyHistory_point, State.mapChannels_point_same]

theorem Rest.startPoints (s : State) : Rest s s.startPoints := by
  unfold State.startPoints
  refine (Rest.mapPoints s (fun _ pt => pt.installAtStart) (fun p h => ?_) (fun p h => ?_)).trans
    (Rest.mapPoints _ _ (fun _ _ => Boundary.fresh_bounded) (fun _ h => ⟨h.inForce, h.pending, h.derived⟩))
  · rw [PointRecord.installAtStart_boundary]
    exact h
  · exact PointRecord.installAtStart_legal _ h

theorem State.startPoints_control (s : State) : s.startPoints.control = s.control :=
  rfl

theorem Rest.startCleared (s : State) (hd : s.control.device = .stopped) : Rest s s.startCleared := by
  unfold State.startCleared
  generalize hu : s.startPoints.mapChannels (fun _ ch => ch.begin (s.startPoints.checkedMeasured ch.entry)) = u
  have h1 : Rest s u := by
    rw [← hu]
    exact (Rest.startPoints s).trans (Keeps.mapChannels s.startPoints
      (fun _ ch => ch.begin (s.startPoints.checkedMeasured ch.entry)) (fun _ _ => rfl) (fun _ _ _ => Nat.zero_le _)).rest
  have hc : u.control = s.control := by
    rw [← hu, State.mapChannels_control]
    rfl
  refine (h1.trans (Keeps.emptyHistory u).rest).trans (Rest.onControl (s := u.emptyHistory) _ (fun _ _ => rfl)
    (fun q => ⟨?_, ?_, fun x => ?_, q.tag, q.rings, q.due⟩))
  · have := q.prior
    rw [State.emptyHistory_control, hc, hd] at this
    exact this
  · have := q.timer
    rw [State.emptyHistory_control, hc, hd] at this
    exact this
  · have := q.held x
    rw [State.emptyHistory_control, hc, hd] at this
    cases this

theorem State.openRun_point (s : State) (p : Point) : ((s.openRun p).point p).block.isSome = true ∧
    ((s.openRun p).point p).interval.isSome = true ∧ ((s.openRun p).point p).assessment.isSome = true := by
  unfold State.openRun
  rw [State.modPoint_point, if_pos rfl]
  show ((s.openSpans s.count p).point p).block.isSome = true ∧
    ((s.openSpans s.count p).point p).interval.isSome = true ∧ _
  rw [State.openSpans_point]
  exact ⟨rfl, rfl, rfl⟩

theorem State.openRun_other (s : State) (p q : Point) (h : q ≠ p) : (s.openRun p).point q = s.point q := by
  unfold State.openRun
  rw [State.modPoint_point, if_neg h, s.openSpans_other _ p q h]

theorem Across.openRun (s : State) (p : Point) : Across s (s.openRun p) := by
  unfold State.openRun
  exact (Across.openSpans s s.count p).trans
    (Across.modPoint _ _ _ ⟨rfl, rfl, rfl, rfl, rfl, rfl, rfl, rfl, id, id⟩)

theorem Keeps.beginRun (s : State) (hd : s.control.device = .stopped) : Keeps s s.beginRun := by
  rw [s.beginRun_eq]
  have hopen : Across s.startCleared (s.startCleared.measuredPoints.foldl State.openRun s.startCleared) :=
    Across.foldl _ Across.openRun _ _
  refine ((Rest.startCleared s hd).trans hopen.rest).keeps (fun q => ?_)
  have hall := fun p hp => foldl_all State.openRun
    (fun p s => (s.point p).block.isSome = true ∧ (s.point p).interval.isSome = true ∧
      (s.point p).assessment.isSome = true)
    (fun s x => s.openRun_point x)
    (fun s x y h => by
      by_cases e : y = x
      · subst e
        exact s.openRun_point y
      · rw [s.openRun_other x y e]
        exact h) s.startCleared.measuredPoints s.startCleared p hp
  have hother := fun p hp => foldl_other State.openRun (fun s x q h => s.openRun_other x q h) p
    s.startCleared.measuredPoints hp s.startCleared
  generalize s.startCleared.measuredPoints.foldl State.openRun s.startCleared = t at hopen hall hother ⊢
  have hc : t.control = { s.control with device := .running } := hopen.control
  have hm : t.measuring = true := by unfold State.measuring; rw [hc]; rfl
  have hmeas : ∀ p, (t.point p).measured = (s.startCleared.point p).measured := fun p => (hopen.base p).measured
  have ha : ∀ p, t.active p = (s.startCleared.point p).measured := fun p => by
    unfold State.active
    rw [hm, hmeas, Bool.true_and]
  have hoff : s.measuring = false ∧ s.keepsAssessments = false := by
    unfold State.measuring State.keepsAssessments
    rw [hd]
    exact ⟨rfl, rfl⟩
  have hoffp : ∀ p, s.active p = false := fun p => by unfold State.active; rw [hoff.1]; rfl
  have hbase : ∀ p, (s.startCleared.point p).block = (s.point p).block ∧
      (s.startCleared.point p).interval = (s.point p).interval ∧
      (s.startCleared.point p).assessment = (s.point p).assessment ∧
      (s.startCleared.point p).check = (s.point p).check := by
    intro p
    obtain ⟨m, hp⟩ := s.startPoints_point p
    rw [s.startCleared_point, hp]
    exact (s.point p).installAtStart_spans
  have hidle : ∀ p, (s.startCleared.point p).Idle := by
    intro p
    have h1 := (hbase p).2.2.2.trans (q.idle p (hoffp p)).check
    obtain ⟨m, hp⟩ := s.startPoints_point p
    rw [s.startCleared_point, hp] at h1 ⊢
    exact ⟨rfl, rfl, rfl, rfl, rfl, h1⟩
  have key : ∀ p, (t.point p).block.isSome = (s.startCleared.point p).measured ∧
      (t.point p).interval.isSome = (s.startCleared.point p).measured ∧
      (t.point p).assessment.isSome = (s.startCleared.point p).measured := by
    intro p
    cases hmp : (s.startCleared.point p).measured with
    | true => exact hall p ((State.mem_measuredPoints _ _).mpr hmp)
    | false =>
      have hn : p ∉ s.startCleared.measuredPoints := fun h => by
        rw [(State.mem_measuredPoints _ _).mp h] at hmp
        cases hmp
      rw [hother p hn, (hbase p).1, (hbase p).2.1, (hbase p).2.2.1, q.block p, q.interval p, q.assessment p, hoffp p,
        hoff.1, hoff.2]
      exact ⟨rfl, rfl, rfl⟩
  refine ⟨fun p => ?_, fun p => ?_, fun p => ?_, fun p hp => ?_⟩
  · rw [ha]
    exact (key p).1
  · rw [ha]
    exact (key p).2.1
  · rw [hm, hmeas, Bool.true_or, Bool.true_and]
    exact (key p).2.2
  · rw [ha] at hp
    have hn : p ∉ s.startCleared.measuredPoints := fun h => by
      rw [(State.mem_measuredPoints _ _).mp h] at hp
      cases hp
    rw [hother p hn]
    exact hidle p

theorem Keeps.offerReply (s : State) (kind tag : Byte) (result : ReplyResult) (tail : ReplyTail) :
    Keeps s (s.offerReply kind tag result tail) :=
  .noted (Noted.offerReply s kind tag result tail)

theorem Keeps.actStart (s : State) (tag : Byte) : Keeps s (s.actStart tag) := by
  unfold State.actStart
  refine Keeps.iteIf (fun _ => .offerReply s _ _ _ _) (fun hd => ?_)
  refine Keeps.iteIf (fun _ => .offerReply s _ _ _ _) (fun _ => ?_)
  refine Keeps.iteIf (fun _ => .offerReply s _ _ _ _) (fun _ => ?_)
  have hd2 : s.control.device = .stopped := Decidable.byContradiction hd
  exact ((Keeps.beginRun s hd2).trans (.noted (Noted.offerStatus _ _))).trans (.offerReply _ _ _ _ _)

/-! ### STOP (R164) -/

theorem State.endCapture_capture (s : State) (reason : EndReason) : (s.endCapture reason).capture = none := by
  obtain ⟨b, a, _, he⟩ := s.endCapture_noted reason
  rw [he]

/-- The state that STOP closes the spans of. -/
def State.stopEvents (s : State) : State :=
  (s.forceCloseEvents .stop).endCapture .truncatedStop

theorem State.closeRun_eq (s : State) : s.closeRun = s.stopEvents.measuredPoints.foldl State.stopSpans s.stopEvents := by
  unfold State.closeRun State.stopEvents
  dsimp only

theorem State.endCapture_point (s : State) (reason : EndReason) (p : Point) :
    (s.endCapture reason).point p = s.point p :=
  (s.endCapture_noted reason).point p

theorem State.endCapture_control (s : State) (reason : EndReason) : (s.endCapture reason).control = s.control :=
  (s.endCapture_noted reason).control

theorem Across.closeRun (s : State) : Across s.stopEvents s.closeRun := by
  rw [s.closeRun_eq]
  exact Across.foldl _ Across.stopSpans _ _

theorem State.closeRun_capture (s : State) : s.closeRun.capture = none := by
  rw [(Across.closeRun s).capture]
  exact State.endCapture_capture _ _

theorem State.closeRun_control (s : State) : s.closeRun.control = s.control := by
  rw [(Across.closeRun s).control]
  unfold State.stopEvents
  rw [State.endCapture_control, (Across.forceCloseEvents s .stop).control]

@[simp] theorem State.endChecks_capture (s : State) : s.endChecks.capture = s.capture :=
  rfl

@[simp] theorem State.clearDue_capture (s : State) : s.clearDue.capture = s.capture :=
  State.mapChannels_capture s _

@[simp] theorem State.discardWork_capture (s : State) : s.discardWork.capture = s.capture := by
  unfold State.discardWork
  rw [State.mapChannels_capture, State.mapPoints_capture]

/-- The state after an accepted STOP, before its status record. -/
def State.stopped (s : State) : State :=
  { s.closeRun.quiesce with control := { s.closeRun.quiesce.control with device := .stopped } }

theorem State.quiesce_control (s : State) : s.quiesce.control = s.control := by
  have h : s.endChecks.clearDue.discardWork.control = s.control := by
    rw [State.discardWork_control, State.clearDue_control, State.endChecks_control]
  unfold State.quiesce
  generalize s.endChecks.clearDue.discardWork = u at h ⊢
  exact h

theorem State.quiesce_capture (s : State) : s.quiesce.capture = s.capture := by
  have h : s.endChecks.clearDue.discardWork.capture = s.capture := by
    rw [State.discardWork_capture, State.clearDue_capture, State.endChecks_capture]
  unfold State.quiesce
  generalize s.endChecks.clearDue.discardWork = u at h ⊢
  exact h

theorem State.quiesce_point (s : State) (p : Point) :
    s.quiesce.point p = PointRecord.discardWork { s.point p with check := none } := by
  unfold State.quiesce
  rw [State.withDueNow_point, State.discardWork_point, State.clearDue_point, State.endChecks_point]

theorem Rest.quiesce (s : State) : Rest s s.quiesce := by
  unfold State.quiesce
  exact (((Keeps.endChecks s).trans (Keeps.clearDue _)).rest.trans (Rest.discardWork _)).trans
    (Keeps.withDueNow s.endChecks.clearDue.discardWork { period := false, second := false }
      ⟨(fun x => by cases x), (fun x => by cases x)⟩).rest

theorem Rest.stopped (s : State) (hd : s.control.device = .running) : Rest s s.stopped := by
  have h1 : Rest s s.closeRun :=
    ((Across.forceCloseEvents s .stop).rest.trans (Keeps.endCapture _ _).rest).trans (Across.closeRun s).rest
  have hc : s.closeRun.quiesce.control = s.control := by rw [State.quiesce_control, s.closeRun_control]
  have hk : s.closeRun.quiesce.capture = none := by rw [State.quiesce_capture, s.closeRun_capture]
  have h2 := h1.trans (Rest.quiesce s.closeRun)
  unfold State.stopped
  generalize s.closeRun.quiesce = u at hc hk h2 ⊢
  refine h2.trans (Rest.onControl (s := u) _ (fun _ x => ?_) (fun q => ⟨?_, ?_, fun x => ?_, q.tag, q.rings, q.due⟩))
  · rw [hk] at x
    cases x
  · have := q.prior
    rw [hc, hd] at this
    rw [hc]
    exact this
  · have := q.timer
    rw [hc, hd] at this
    rw [hc]
    exact this
  · have := q.held x
    rw [hc, hd] at this
    cases this

theorem Keeps.stopped (s : State) (hd : s.control.device = .running) : Keeps s s.stopped := by
  refine (Rest.stopped s hd).keeps (fun q => ?_)
  have hpt : ∀ p, s.stopped.point p = PointRecord.discardWork { s.closeRun.point p with check := none } :=
    fun p => by
      unfold State.stopped
      rw [State.withControl_point, State.quiesce_point]
  have hst : s.stopped.control.device = .stopped := by
    unfold State.stopped
    generalize s.closeRun.quiesce = u
    rfl
  have hm : s.stopped.measuring = false := by unfold State.measuring; rw [hst]; rfl
  have hk : s.stopped.keepsAssessments = false := by unfold State.keepsAssessments; rw [hst]; rfl
  have ha : ∀ p, s.stopped.active p = false := fun p => by unfold State.active; rw [hm]; rfl
  have hsm : s.measuring = true := by unfold State.measuring; rw [hd]; rfl
  have hev : ∀ p, s.stopEvents.point p = (s.forceCloseEvents .stop).point p := fun p =>
    State.endCapture_point _ _ p
  have hquiet := fun p => s.forceCloseEvents_quiet .stop p
  have hspan := fun p => s.forceCloseEvents_spans .stop p
  have hmeas : ∀ p, (s.stopEvents.point p).measured = (s.point p).measured := fun p => by
    rw [hev, ((Across.forceCloseEvents s .stop).base p).measured]
  have key : ∀ p, (s.closeRun.point p).block.isSome = false ∧ (s.closeRun.point p).interval.isSome = false ∧
      (s.closeRun.point p).assessment.isSome = false := by
    intro p
    rw [s.closeRun_eq]
    cases hmp : (s.point p).measured with
    | true =>
      have h1 := foldl_all State.stopSpans
        (fun p s => (s.point p).block = none ∧ (s.point p).interval = none ∧ (s.point p).assessment = none)
        (fun s x => s.stopSpans_point x)
        (fun s x y h => by
          by_cases e : y = x
          · subst e
            exact s.stopSpans_point y
          · rw [s.stopSpans_other x y e]
            exact h) s.stopEvents.measuredPoints s.stopEvents p
        ((State.mem_measuredPoints _ _).mpr (by rw [hmeas, hmp]))
      rw [h1.1, h1.2.1, h1.2.2]
      exact ⟨rfl, rfl, rfl⟩
    | false =>
      have hn : p ∉ s.stopEvents.measuredPoints := fun h => by
        have := (State.mem_measuredPoints _ _).mp h
        rw [hmeas, hmp] at this
        cases this
      have hoff : s.active p = false := by unfold State.active; rw [hmp, Bool.and_false]
      rw [foldl_other State.stopSpans (fun s x q h => s.stopSpans_other x q h) p _ hn, hev, (hspan p).block,
        (hspan p).interval, (hspan p).assessment, q.block p, q.interval p, q.assessment p, hoff, hmp, Bool.and_false]
      exact ⟨rfl, rfl, rfl⟩
  have hq : ∀ p, (s.closeRun.point p).low = .quiet ∧ (s.closeRun.point p).high = .quiet := fun p => by
    have h2 := (Across.closeRun s).base p
    rw [hev] at h2
    exact ⟨h2.low (hquiet p).1, h2.high (hquiet p).2⟩
  refine ⟨fun p => ?_, fun p => ?_, fun p => ?_, fun p _ => ?_⟩
  all_goals
    have k := key p
    have hqp := hq p
    have hp := hpt p
    generalize s.closeRun.point p = x at k hqp hp
  · rw [hp, ha]
    exact k.1
  · rw [hp, ha]
    exact k.2.1
  · rw [hp, hm, hk]
    exact k.2.2
  · rw [hp]
    exact ⟨rfl, rfl, rfl, hqp.1, hqp.2, rfl⟩

theorem Keeps.actStop (s : State) (tag : Byte) : Keeps s (s.actStop tag) := by
  unfold State.actStop
  refine Keeps.iteIf (fun _ => .offerReply s _ _ _ _) (fun hd => ?_)
  have hd2 : s.control.device = .running := Decidable.byContradiction hd
  have h1 := Keeps.stopped s hd2
  unfold State.stopped at h1
  dsimp only
  generalize s.closeRun.quiesce = u at h1 ⊢
  exact (h1.trans (.noted (Noted.offerStatus _ .stopped))).trans (.offerReply _ _ _ _ _)

/-! ### TIME-SET (R166) -/

theorem Keeps.stepEpoch (s : State) (epoch : Tick) : Keeps s (s.stepEpoch epoch) :=
  Keeps.onControl (s := s) { s.control with offset := epoch - s.count, epochUnset := false } s.capture
    (fun q x => q.running x) (fun q => q.congr rfl rfl rfl)
    (fun q => ⟨q.prior, q.timer, q.held, q.tag, q.rings, q.due⟩) (fun _ h => h)

theorem PointRecord.stepTime_kept (pt : PointRecord) :
    PointKept true true pt pt.stepTime ∧ (pt.Idle → pt.stepTime.Idle) := by
  refine ⟨PointKept.ofSame rfl rfl rfl rfl rfl rfl rfl rfl rfl, fun h => ⟨h.boundary, rfl, h.pair, ?_, ?_, h.check⟩⟩
  · show pt.low.mapEvent OpenEvent.markStepped = .quiet
    rw [h.low]
    rfl
  · show pt.high.mapEvent OpenEvent.markStepped = .quiet
    rw [h.high]
    rfl

theorem Keeps.stepAll (s : State) (hm : s.measuring = true) :
    Keeps s (s.measuredPoints.foldl State.stepSpans s) := by
  have hstep : Across s (s.measuredPoints.foldl State.stepSpans s) := Across.foldl _ Across.stepSpans _ _
  refine hstep.keeps (fun q => ?_)
  have hall := fun p hp => foldl_all State.stepSpans
    (fun p s => (s.point p).block.isSome = true ∧ (s.point p).interval.isSome = true)
    (fun s x => ⟨(s.stepSpans_point x).1, (s.stepSpans_point x).2.1⟩)
    (fun s x y h => by
      by_cases e : y = x
      · subst e
        exact ⟨(s.stepSpans_point y).1, (s.stepSpans_point y).2.1⟩
      · rw [s.stepSpans_other x y e]
        exact h) s.measuredPoints s p hp
  have hother := fun p hp => foldl_other State.stepSpans (fun s x q h => s.stepSpans_other x q h) p
    s.measuredPoints hp s
  have hass : ∀ (l : List Point) (s : State) (p : Point), ((l.foldl State.stepSpans s).point p).assessment.isSome =
      (s.point p).assessment.isSome := by
    intro l
    induction l with
    | nil => exact fun _ _ => rfl
    | cons x xs ih =>
      intro s p
      rw [List.foldl_cons, ih]
      by_cases e : p = x
      · subst e
        exact (s.stepSpans_point p).2.2
      · rw [s.stepSpans_other x p e]
  have hassess := hass s.measuredPoints s
  generalize s.measuredPoints.foldl State.stepSpans s = t at hstep hall hother hassess ⊢
  have hmt : t.measuring = true := by unfold State.measuring at hm ⊢; rw [hstep.control]; exact hm
  have hmeas : ∀ p, (t.point p).measured = (s.point p).measured := fun p => (hstep.base p).measured
  have ha : ∀ p, t.active p = s.active p := fun p => State.active_eq (hmt.trans hm.symm) p (hmeas p)
  have hact : ∀ p, s.active p = (s.point p).measured := fun p => by unfold State.active; rw [hm, Bool.true_and]
  have hcase : ∀ p, ((s.point p).measured = true ∧ (t.point p).block.isSome = true ∧ (t.point p).interval.isSome = true) ∨
      ((s.point p).measured = false ∧ t.point p = s.point p) := by
    intro p
    cases hmp : (s.point p).measured with
    | true => exact Or.inl ⟨rfl, hall p ((State.mem_measuredPoints _ _).mpr hmp)⟩
    | false =>
      refine Or.inr ⟨rfl, hother p (fun h => ?_)⟩
      rw [(State.mem_measuredPoints _ _).mp h] at hmp
      cases hmp
  refine ⟨fun p => ?_, fun p => ?_, fun p => ?_, fun p hp => ?_⟩
  · rcases hcase p with h | h
    · rw [h.2.1, ha, hact, h.1]
    · rw [h.2, ha]
      exact q.block p
  · rcases hcase p with h | h
    · rw [h.2.2, ha, hact, h.1]
    · rw [h.2, ha]
      exact q.interval p
  · rw [hassess, hmt, hmeas, q.assessment p, hm, Bool.true_or]
    rfl
  · rcases hcase p with h | h
    · rw [ha, hact, h.1] at hp
      cases hp
    · rw [h.2]
      exact q.idle p (ha p ▸ hp)

theorem Keeps.stepRun (s : State) (hd : s.control.device = .running) : Keeps s s.stepRun := by
  unfold State.stepRun
  refine (Keeps.mapPoints s (fun _ pt => pt.stepTime) (fun p => (s.point p).stepTime_kept)).trans ?_
  refine Keeps.stepAll (s.mapPoints (fun _ pt => pt.stepTime)) ?_
  show s.measuring = true
  unfold State.measuring
  rw [hd]
  rfl

theorem Keeps.actTimeSet (s : State) (tag : Byte) (epoch : Tick) : Keeps s (s.actTimeSet tag epoch) := by
  unfold State.actTimeSet
  refine Keeps.iteIf (fun _ => ?_) (fun _ => .offerReply s _ _ _ _)
  have h1 : Keeps s ((s.stepEpoch epoch).offerStatus (.timeStepped s.epochNow epoch)) :=
    (Keeps.stepEpoch s epoch).trans (.noted (Noted.offerStatus _ _))
  refine Keeps.trans ?_ (.offerReply _ _ _ _ _)
  refine Keeps.iteIf (fun hd => h1.trans (Keeps.stepRun _ ?_)) (fun _ => h1)
  rw [(Noted.offerStatus _ _).control]
  exact hd

end Sys2Proof.Machine
end

