-- ==== Sys2Proof/Laws/Commands.lean ====
section
/-! SUPPORT. What the control frames keep (chapter 9). -/

namespace Sys2Proof.Machine

/-! ### SETUP (R11, R141, R155, R156) -/

theorem clampNat_ge (lo hi x : Nat) (h : lo ≤ hi) : lo ≤ clampNat lo hi x := by
  unfold clampNat
  split
  · exact Nat.le_refl _
  · split <;> omega

theorem clampNat_le (lo hi x : Nat) (h : lo ≤ hi) : clampNat lo hi x ≤ hi := by
  unfold clampNat
  split
  · exact h
  · split <;> omega

theorem clampNat_bounds (lo hi x : Nat) (h : lo ≤ hi) : lo ≤ clampNat lo hi x ∧ clampNat lo hi x ≤ hi :=
  ⟨clampNat_ge lo hi x h, clampNat_le lo hi x h⟩

/-- A SETUP entry is stored in range whatever its bytes say (R155). -/
theorem parseSetup_inRange (b : List Byte) : SetupInRange (parseSetup b) where
  interval := clampNat_bounds _ _ _ (by omega)
  assessment := clampNat_bounds _ _ _ (by omega)
  period := clampNat_bounds _ _ _ (by omega)
  missLimit := clampNat_bounds _ _ _ (by omega)
  holdup := clampNat_bounds _ _ _ (by omega)
  debounce := clampNat_bounds _ _ _ (by omega)
  pre := clampNat_le 0 1024 _ (by omega)
  post := clampNat_bounds _ _ _ (by omega)
  high := clampNat_bounds _ _ _ (by omega)
  low := by
    have h1 := clampNat_ge 1 48 (fieldAt b 18 1) (by omega)
    have h2 := clampNat_le 0 (clampNat 1 48 (fieldAt b 18 1) - 1) (fieldAt b 19 1) (Nat.zero_le _)
    show clampNat 0 (clampNat 1 48 (fieldAt b 18 1) - 1) (fieldAt b 19 1) < clampNat 1 48 (fieldAt b 18 1)
    omega
  rise := clampNat_bounds _ _ _ (by omega)
  minimum := clampNat_le 0 16777215 _ (by omega)

/-- A SETUP write acts on one module: a change of it that fits the new entry, and records (R11). -/
theorem State.reenableModule_noted (old : Setup) (s : State) (m : Module) :
    ∃ f : ModuleRecord → ModuleRecord, Noted (s.modModule m f) (State.reenableModule old s m) ∧
      ((s.module m).Coherent (old.enables m) old.missLimit → s.fits m (f (s.module m))) := by
  unfold State.reenableModule State.fits
  split
  · rename_i h
    simp only [Bool.and_eq_true, Bool.not_eq_true'] at h
    refine ⟨_, .refl _, fun q => ?_⟩
    have hdis := q.membership.mp h.2
    refine ⟨⟨fun x => ?_, fun x => by cases x⟩, (fun x => by cases x), fun _ => show 0 < 4 by omega, fun x => ?_,
      Nat.zero_le _, Nat.zero_le _, Nat.zero_le _, Nat.zero_le _⟩
    · rw [h.1] at x
      cases x
    · have := q.commanded x
      rw [hdis] at this
      cases this
  · split
    · rename_i h
      simp only [Bool.and_eq_true, Bool.not_eq_true'] at h
      refine ⟨fun r => ModuleRecord.freed { r with state := .disabled }, ?_, fun q => ?_⟩
      · have h1 := State.endCommand_noted (s.modModule m (fun r => { r with state := .disabled })) m .noAnswer none
        rw [State.modModule_twice] at h1
        exact h1
      · exact ⟨⟨fun _ => rfl, fun _ => h.1⟩, (fun x => by cases x), (fun x => by rcases x with x | x <;> cases x),
          (fun x => by cases x), q.missBound, q.runBound, q.failureBound, q.staleBound⟩
    · rename_i h1 h2
      have he : old.enables m = s.setup.enables m := by
        revert h1 h2
        cases s.setup.enables m <;> cases old.enables m <;> simp
      split
      · rename_i h
        refine ⟨ModuleRecord.lostNow, s.loseModule_noted m, fun q => ?_⟩
        refine ⟨⟨fun x => ?_, fun x => by cases x⟩, (fun x => by cases x), fun _ => show 0 < 4 by omega,
          (fun x => by cases x), q.missBound, Nat.zero_le _, q.failureBound, q.staleBound⟩
        have := q.membership.mp (he.trans x)
        rw [h.1] at this
        cases this
      · rename_i h
        refine ⟨id, ?_, fun q => ?_⟩
        · rw [State.modModule_self s m id rfl]
          exact .refl s
        · refine ⟨he ▸ q.membership, fun x => ?_, q.run, q.commanded, q.missBound, q.runBound, q.failureBound,
            q.staleBound⟩
          exact Nat.lt_of_not_le (fun y => h ⟨x, y⟩)

theorem OnModules.setup {s t : State} (h : OnModules s t) : t.setup = s.setup := by
  obtain ⟨b, a, v, _, rfl⟩ := h
  rfl

theorem State.reenableModule_other (old : Setup) (s : State) (m n : Module) (h : n ≠ m) :
    (State.reenableModule old s m).module n = s.module n := by
  obtain ⟨f, ⟨b, a, _, he⟩, _⟩ := s.reenableModule_noted old m
  rw [he]
  exact (State.modModule_module s m n f).trans (if_neg h)

theorem OnModules.reenableModule (old : Setup) (s : State) (m : Module) :
    OnModules s (State.reenableModule old s m) := by
  obtain ⟨f, h, _⟩ := s.reenableModule_noted old m
  exact .modThen h

/-- Every module that a SETUP write has gone over fits the new entry. -/
theorem reenableAll_fits (old : Setup) (u : Setup) (order : List Module) (hn : order.Nodup)
    (s : State) (hu : s.setup = u) : OnModules s (order.foldl (State.reenableModule old) s) ∧
      (∀ m, m ∉ order → (order.foldl (State.reenableModule old) s).module m = s.module m) ∧
      ∀ m ∈ order, (s.module m).Coherent (old.enables m) old.missLimit →
        ((order.foldl (State.reenableModule old) s).module m).Coherent (u.enables m) u.missLimit := by
  induction order generalizing s with
  | nil => exact ⟨.refl s, fun _ _ => rfl, fun m hm => by cases hm⟩
  | cons x xs ih =>
    have h0 := OnModules.reenableModule old s x
    obtain ⟨h1, h2, h3⟩ := ih (List.nodup_cons.mp hn).2 (State.reenableModule old s x) (h0.setup.trans hu)
    have hx := (List.nodup_cons.mp hn).1
    refine ⟨h0.trans h1, fun m hm => ?_, fun m hm q => ?_⟩
    · rw [List.foldl_cons, h2 m (fun h => hm (List.mem_cons_of_mem _ h)),
        s.reenableModule_other old x m (fun e => hm (e ▸ List.mem_cons_self))]
    · rw [List.foldl_cons]
      by_cases e : m = x
      · subst e
        rw [h2 m hx]
        obtain ⟨f, ⟨b, a, _, he⟩, hf⟩ := s.reenableModule_noted old m
        rw [he]
        have h4 : (s.modModule m f).module m = f (s.module m) := (State.modModule_module s m m f).trans (if_pos rfl)
        have h5 := hf q
        unfold State.fits at h5
        rw [hu] at h5
        exact h4 ▸ h5
      · refine h3 m ?_ ?_
        · cases hm with
          | head => exact absurd rfl e
          | tail _ h => exact h
        · rw [s.reenableModule_other old x m e]
          exact q

/-- An order of the modules takes each of them once. -/
structure EachOnce (order : List Module) : Prop where
  nodup : order.Nodup
  all : ∀ m, m ∈ order

theorem eachOnce_orderOf (k : Fin 24) : EachOnce (orderOf k) := by
  have h : ∀ k, (orderOf k).Nodup ∧ ∀ m, m ∈ orderOf k := by decide
  exact ⟨(h k).1, (h k).2⟩

theorem eachOnce_allFour : EachOnce allFour :=
  ⟨by decide, mem_allFour⟩

theorem rejudge_opened (u : Setup) (n : Nat) (sh : Shedding) (hl : u.lowMark < u.highMark)
    (h : rejudge u n sh = .opened) : n < u.highMark := by
  unfold rejudge at h
  cases sh <;> dsimp only at h <;> split at h <;> first | omega | cases h

theorem rejudge_shed (u : Setup) (n : Nat) (sh : Shedding) (hl : u.lowMark < u.highMark)
    (h : rejudge u n sh = .shed) : u.lowMark < n := by
  unfold rejudge at h
  cases sh <;> dsimp only at h <;> split at h <;> first | omega | cases h

theorem Keeps.storeSetup (s : State) (u : Setup) (order : List Module) (hu : SetupInRange u) (ho : EachOnce order)
    (hd : s.control.device = .stopped) : Keeps s (s.storeSetup u order) := by
  obtain ⟨h1, _, h3⟩ := reenableAll_fits s.setup u order ho.nodup { s with setup := u } rfl
  unfold State.storeSetup
  dsimp only
  obtain ⟨b, a, v, hb, he⟩ := h1
  have h3' : ∀ m, (s.module m).Coherent (s.setup.enables m) s.setup.missLimit →
      (v[m.val]).Coherent (u.enables m) u.missLimit := fun m q => by
    have := h3 m (ho.all m) q
    rw [he] at this
    exact this
  rw [he]
  refine ⟨fun q => ⟨(q.offered hb).1, (q.offered hb).2, q.frames, q.sets⟩,
    fun q => hb.keeps (fun b body hb => hb.offer body) q, fun q => ⟨hu, fun x => ?_, fun x => ?_, fun x => ?_⟩,
    fun q => q, fun q => ⟨q.block, q.interval, q.assessment, q.idle⟩, fun q => ⟨hu, fun m => h3' m (q.each m)⟩,
    fun q => ⟨q.passes, q.ranges⟩, fun q => q, fun q => ⟨q.prior, q.timer, q.held, q.tag, q.rings, q.due⟩, fun q => q⟩
  · have := (q.running x).1
    rw [hd] at this
    cases this
  · exact rejudge_opened u _ _ hu.low x
  · exact rejudge_shed u _ _ hu.low x

theorem Keeps.replyWrite (s : State) (tag table index : Byte) (result : ReplyResult) (entry : Option TableEntry) :
    Keeps s (s.replyWrite tag table index result entry) :=
  Keeps.offerReply s _ _ _ _

theorem Keeps.writeSetup (s : State) (tag index : Byte) (entry : List Byte) (order : List Module)
    (ho : EachOnce order) : Keeps s (s.writeSetup tag index entry order) := by
  unfold State.writeSetup
  refine Keeps.iteIf (fun _ => .replyWrite s _ _ _ _ _) (fun hd => ?_)
  refine Keeps.iteIf (fun _ => .replyWrite s _ _ _ _ _) (fun _ => ?_)
  have hd2 : s.control.device = .stopped := Decidable.byContradiction hd
  exact (Keeps.storeSetup s (parseSetup entry) order (parseSetup_inRange entry) ho hd2).trans
    (.replyWrite _ _ _ _ _ _)

/-! ### CHANNEL MAP (R21, R22) -/

theorem Keeps.storeMapEntry (s : State) (c : Channel) (e : MapEntry) (hr : e.inRange = true)
    (hp : mapPasses (s.mapWith c e) = true) : Keeps s (s.storeMapEntry c e) := by
  have hget : ∀ d : Channel, (s.storeMapEntry c e).channel d =
      if d = c then { s.channel c with entry := e, lead := .notChecked, due := false } else s.channel d := fun d =>
    State.modChannel_channel s c d _
  have hmap : mapAll (s.storeMapEntry c e).channels (fun _ ch => ch.entry) = s.mapWith c e := by
    apply Vector.ext
    intro i hi
    have e1 := mapAll_get (s.storeMapEntry c e).channels (fun _ ch => ch.entry) ⟨i, hi⟩
    have e2 := mapAll_get s.channels (fun i ch => if i = c then e else ch.entry) ⟨i, hi⟩
    have e3 := hget ⟨i, hi⟩
    unfold State.mapWith
    simp only at e1 e2
    rw [e1, e2]
    show ((s.storeMapEntry c e).channel ⟨i, hi⟩).entry = _
    rw [e3]
    split <;> rfl
  refine ⟨fun q => ⟨q.records, q.withheld, q.frames, q.sets⟩, fun q => q,
    fun q => ⟨q.setup, q.running, q.opened, q.shed⟩, fun q => q,
    fun q => ⟨q.block, q.interval, q.assessment, q.idle⟩, fun q => ⟨q.setup, q.each⟩,
    fun q => ⟨by rw [hmap]; exact hp, fun d => ?_⟩, fun q => q,
    fun q => ⟨q.prior, q.timer, q.held, q.tag, fun d => ?_, q.due⟩, fun q => q⟩
  · rw [hget]
    split
    · exact hr
    · exact q.ranges d
  · rw [hget]
    split
    · exact q.rings c
    · exact q.rings d

theorem Keeps.writeMap (s : State) (tag index : Byte) (entry : List Byte) :
    Keeps s (s.writeMap tag index entry) := by
  unfold State.writeMap
  refine Keeps.iteIf (fun _ => .replyWrite s _ _ _ _ _) (fun _ => ?_)
  split
  · exact .replyWrite s _ _ _ _ _
  · split
    · exact .replyWrite s _ _ _ _ _
    · rename_i c _ _ kind _
      dsimp only
      refine Keeps.iteIf (fun _ => .replyWrite s _ _ _ _ _) (fun hr => ?_)
      refine Keeps.iteIf (fun _ => .replyWrite s _ _ _ _ _) (fun hp => ?_)
      simp only [Bool.not_eq_true', Bool.not_eq_false] at hr hp
      exact (Keeps.storeMapEntry s c _ hr hp).trans (.replyWrite _ _ _ _ _ _)

/-! ### LIMITS (R71 to R73) -/

theorem Keeps.storeLimits (s : State) (p : Point) (l : LimitsEntry) (hl : l.valid = true) :
    Keeps s (s.storeLimits p l) := by
  unfold State.storeLimits
  refine Keeps.iteIf (fun _ => ?_) (fun _ => ?_)
  · refine Keeps.modPoint s p (fun pt => { pt with pendingLimits := some l }) ?_ ?_
    · refine ⟨rfl, rfl, fun _ => rfl, fun _ => rfl, fun _ => rfl, rfl, fun q => ⟨q.inForce, fun x e => ?_, q.derived⟩⟩
      cases e
      exact hl
    · exact fun h => ⟨h.boundary, h.period, h.pair, h.low, h.high, h.check⟩
  · refine Keeps.modPoint s p (fun pt => pt.install l) ?_ ?_
    · exact ⟨rfl, rfl, fun _ => rfl, fun _ => rfl, fun _ => rfl, rfl, fun _ => PointRecord.install_legal _ l hl⟩
    · exact fun h => ⟨h.boundary, h.period, h.pair, h.low, h.high, h.check⟩

theorem Keeps.writeLimits (s : State) (tag index : Byte) (entry : List Byte) :
    Keeps s (s.writeLimits tag index entry) := by
  unfold State.writeLimits
  refine Keeps.iteIf (fun _ => .replyWrite s _ _ _ _ _) (fun _ => ?_)
  split
  · exact .replyWrite s _ _ _ _ _
  · rename_i p _
    dsimp only
    refine Keeps.iteIf (fun _ => .replyWrite s _ _ _ _ _) (fun hv => ?_)
    refine Keeps.iteIf (fun _ => .replyWrite s _ _ _ _ _) (fun _ => ?_)
    simp only [Bool.not_eq_true', Bool.not_eq_false] at hv
    exact (Keeps.storeLimits s p _ hv).trans (.replyWrite _ _ _ _ _ _)

/-! ### ROUTING, and the tables as one (R152, R157) -/

theorem Keeps.storeRouting (s : State) (r : Routing) : Keeps s (s.storeRouting r) :=
  Keeps.unseen r _ s.dueNow s.exchange s.timerNominal s.eventTag s.pending (.refl _)

theorem Keeps.writeRouting (s : State) (tag index : Byte) (entry : List Byte) :
    Keeps s (s.writeRouting tag index entry) := by
  unfold State.writeRouting
  refine Keeps.iteIf (fun _ => .replyWrite s _ _ _ _ _) (fun _ => ?_)
  split
  · exact .replyWrite s _ _ _ _ _
  · exact (Keeps.storeRouting s _).trans (.replyWrite _ _ _ _ _ _)

theorem Keeps.actTableWrite (s : State) (tag table index : Byte) (entry : List Byte) (order : List Module)
    (ho : EachOnce order) : Keeps s (s.actTableWrite tag table index entry order) := by
  unfold State.actTableWrite State.writeRefused
  refine Keeps.iteIf (fun _ => .writeSetup s _ _ _ order ho) (fun _ => ?_)
  refine Keeps.iteIf (fun _ => .writeMap s _ _ _) (fun _ => ?_)
  refine Keeps.iteIf (fun _ => .writeLimits s _ _ _) (fun _ => ?_)
  refine Keeps.iteIf (fun _ => .writeRouting s _ _ _) (fun _ => ?_)
  exact Keeps.iteIf (fun _ => .replyWrite s _ _ _ _ _) (fun _ => .replyWrite s _ _ _ _ _)

/-! ### TRIGGER, CLOSE-ASSESSMENT, MODULE-COMMAND (R17, R113, R119) -/

theorem State.judgeTrigger_done (s : State) (point : Byte) (h : s.judgeTrigger point = .done) :
    s.control.device = .running ∧ s.capture = none ∧ s.shedding = .opened := by
  unfold State.judgeTrigger at h
  split at h
  · cases h
  · rename_i hd
    split at h
    · cases h
    · split at h
      · cases h
      · split at h
        · cases h
        · rename_i hc
          split at h
          · cases h
          · rename_i hs
            refine ⟨Decidable.byContradiction hd, by simpa using hc, ?_⟩
            cases hx : s.shedding with
            | opened => rfl
            | shed => exact absurd hx hs

theorem Keeps.startCapture (s : State) (tag : Word) (p : Point) (t : Tick) (hd : s.control.device = .running)
    (hs : s.shedding = .opened) : Keeps s (s.startCapture tag p t) :=
  have h := Keeps.onCapture s.captureQueue s.shedding (some (newCapture s tag p t)) (Or.inr (Nat.le_refl _))
    (fun q => ⟨q.setup, fun _ => ⟨hd, hs⟩, q.opened, q.shed⟩)
  KeepsBy.toKeeps (KeepsBy.trans h (Keeps.formAll _))

theorem Keeps.withEventTag (s : State) (tag : Word) : Keeps s { s with eventTag := tag } :=
  Keeps.unseen s.routing s.attention s.dueNow s.exchange s.timerNominal tag s.pending (.refl _)

theorem Keeps.actTrigger (s : State) (tag point : Byte) : Keeps s (s.actTrigger tag point) := by
  unfold State.actTrigger
  dsimp only
  split
  · exact .offerReply s _ _ _ _
  · rename_i p _
    refine Keeps.iteIf (fun h => ?_) (fun _ => .offerReply s _ _ _ _)
    have h1 := s.judgeTrigger_done point h
    refine Keeps.trans ?_ (.offerReply _ _ _ _ _)
    exact (Keeps.withEventTag s (s.eventTag + 1)).trans (Keeps.startCapture _ _ p s.count h1.1 h1.2.2)

theorem Across.keepsSame {s t : State} (h : Across s t) (hs : ∀ q, SameSpans (s.point q) (t.point q)) : Keeps s t := by
  refine h.keeps (fun q => ?_)
  have hm : t.measuring = s.measuring := by unfold State.measuring; rw [h.control]
  have hk : t.keepsAssessments = s.keepsAssessments := by unfold State.keepsAssessments; rw [h.control]
  have ha : ∀ p, t.active p = s.active p := fun p => State.active_eq hm p (h.base p).measured
  refine ⟨fun p => ?_, fun p => ?_, fun p => ?_, fun p hp => ?_⟩
  · rw [(hs p).block, ha]
    exact q.block p
  · rw [(hs p).interval, ha]
    exact q.interval p
  · rw [(hs p).assessment, hm, hk, (h.base p).measured]
    exact q.assessment p
  · have h1 := q.idle p (ha p ▸ hp)
    have h2 := h.base p
    exact ⟨h2.boundary.trans h1.boundary, h2.period.trans h1.period, h2.pairFlag.trans h1.pair, h2.low h1.low,
      h2.high h1.high, h2.check.trans h1.check⟩

theorem Keeps.closeEarlyAll (s : State) (l : List Point) : Keeps s (l.foldl State.closeEarly s) :=
  (Across.foldl State.closeEarly (fun s p => Across.endAssessment s p _ _ _) l s).keepsSame
    (foldl_sameSpans State.closeEarly
      (fun s p q => (Within.endAssessment true true true p s true false _).sameSpans q) l s)

theorem Keeps.actCloseAssessment (s : State) (tag point : Byte) : Keeps s (s.actCloseAssessment tag point) := by
  unfold State.actCloseAssessment
  refine Keeps.iteIf (fun _ => .offerReply s _ _ _ _) (fun _ => ?_)
  split
  · exact .offerReply s _ _ _ _
  · exact .offerReply s _ _ _ _
  · exact (Keeps.closeEarlyAll s _).trans (.offerReply _ _ _ _ _)

theorem State.refuseCommand_none (s : State) (m : Module) (h : s.refuseCommand (some m) = none) :
    (s.module m).state = .locked ∧ (s.module m).command = none := by
  unfold State.refuseCommand at h
  split at h
  · cases h
  · dsimp only at h
    split at h
    · cases h
    · rename_i hl
      split at h
      · cases h
      · rename_i hc
        exact ⟨Decidable.byContradiction hl, by simpa using hc⟩

theorem Keeps.actModuleCommand (s : State) (tag module : Byte) (word : BitVec 32) :
    Keeps s (s.actModuleCommand tag module word) := by
  unfold State.actModuleCommand
  split
  · exact .offerReply s _ _ _ _
  · exact .refl s
  · rename_i m h1 h2
    rw [h2] at h1
    have hl := (s.refuseCommand_none m h1).1
    exact Keeps.modModule s m _ (fun _ q => ⟨q.membership, q.misses, q.run, fun _ => hl, q.missBound, q.runBound,
      q.failureBound, q.staleBound⟩)

/-! ### Execution (R149, R150) -/

theorem Keeps.actTableRead (s : State) (tag table first count : Byte) :
    Keeps s (s.actTableRead tag table first count) :=
  Keeps.iteIf (fun _ => .offerReply s _ _ _ _) (fun _ => .offerReply s _ _ _ _)

theorem Keeps.executeFrame (s : State) (f : ControlFrame) (order : List Module) (ho : EachOnce order) :
    Keeps s (s.executeFrame f order) := by
  cases f with
  | nop _ => exact .refl s
  | ack _ classes => exact Keeps.acknowledge s classes
  | tableWrite tag table index entry => exact Keeps.actTableWrite s tag table index entry order ho
  | tableRead tag table first count => exact Keeps.actTableRead s tag table first count
  | start tag => exact Keeps.actStart s tag
  | stop tag => exact Keeps.actStop s tag
  | timeSet tag epoch => exact Keeps.actTimeSet s tag epoch
  | trigger tag point => exact Keeps.actTrigger s tag point
  | closeAssessment tag point => exact Keeps.actCloseAssessment s tag point
  | moduleCommand tag module word => exact Keeps.actModuleCommand s tag module word
  | unknown kind tag => exact .offerReply s _ _ _ _
  | badLength kind tag => exact .offerReply s _ _ _ _

/-- A change of the port that fills the held slot at most in INIT. -/
theorem Keeps.onPort (s : State) (q : Port) (h : q.held.isSome → s.port.held.isSome ∨ s.control.device = .init) :
    Keeps s { s with port := q } :=
  ⟨fun q => ⟨q.records, q.withheld, q.frames, q.sets⟩, fun q => q,
    fun q => ⟨q.setup, q.running, q.opened, q.shed⟩, fun q => q,
    fun q => ⟨q.block, q.interval, q.assessment, q.idle⟩, fun q => ⟨q.setup, q.each⟩,
    fun q => ⟨q.passes, q.ranges⟩, fun q => q,
    fun c => ⟨c.prior, c.timer, fun x => (h x).elim c.held id, c.tag, c.rings, c.due⟩, fun q => q⟩

theorem Keeps.takeFrame (s : State) (f : ControlFrame) (order : List Module) (ho : EachOnce order) :
    Keeps s (s.takeFrame f order) := by
  unfold State.takeFrame
  refine Keeps.iteIf (fun hd => ?_) (fun _ => .executeFrame s f order ho)
  exact Keeps.iteIf (fun _ => .refl s) (fun _ => Keeps.onPort s _ (fun _ => Or.inr hd))

/-! ### Exchanges (R143 to R148) -/

theorem Keeps.beginExchange (s : State) : Keeps s s.beginExchange := by
  unfold State.beginExchange
  split
  · exact .refl s
  · exact Keeps.unseen s.routing s.attention s.dueNow _ s.timerNominal s.eventTag s.pending (.refl _)

theorem Keeps.dropRecord (s : State) :
    Keeps s { s with builder := { s.builder with queue := s.builder.queue.drop 1 } } := by
  refine ⟨fun q => ⟨?_, q.withheld, q.frames, q.sets⟩, fun q => q.drop,
    fun q => ⟨q.setup, q.running, q.opened, q.shed⟩, fun q => q,
    fun q => ⟨q.block, q.interval, q.assessment, q.idle⟩, fun q => ⟨q.setup, q.each⟩,
    fun q => ⟨q.passes, q.ranges⟩, fun q => q, fun q => ⟨q.prior, q.timer, q.held, q.tag, q.rings, q.due⟩, fun q => q⟩
  show (s.builder.queue.drop 1).length ≤ 96
  have := q.records
  rw [List.length_drop]
  omega

theorem Keeps.dropFrame (s : State) : Keeps s (s.removeHead .capture) := by
  have hlen : (s.captureQueue.drop 1).length = s.captureQueue.length - 1 := by rw [List.length_drop]
  refine KeepsBy.toKeeps (KeepsBy.trans (Keeps.onCapture (s.captureQueue.drop 1)
    (reopen s.setup (s.captureQueue.drop 1).length s.shedding) s.capture (Or.inr (by omega))
    (fun q => ⟨q.setup, fun x => ?_, fun x => ?_, fun x => ?_⟩)) (Keeps.formAll _))
  · have h := q.running x
    refine ⟨h.1, ?_⟩
    show reopen _ _ _ = .opened
    rw [h.2]
    unfold reopen
    split <;> rfl
  · show (s.captureQueue.drop 1).length < s.setup.highMark
    have hl := q.setup.low
    change reopen _ _ _ = .opened at x
    unfold reopen at x
    split at x
    · omega
    · have := q.opened x
      omega
  · show s.setup.lowMark < (s.captureQueue.drop 1).length
    change reopen _ _ _ = .shed at x
    unfold reopen at x
    split at x
    · cases x
    · omega

theorem Keeps.removeHead (s : State) (choice : FrameKind) : Keeps s (s.removeHead choice) := by
  cases choice with
  | idle => exact .refl s
  | record => exact Keeps.dropRecord s
  | capture => exact Keeps.dropFrame s

theorem Keeps.withExchange (s : State) (x : Option Exchange) : Keeps s { s with exchange := x } :=
  Keeps.unseen s.routing s.attention s.dueNow x s.timerNominal s.eventTag s.pending (.refl _)

theorem Keeps.settleExchange (s : State) (x : Exchange) (sent : Nat) : Keeps s (s.settleExchange x sent) := by
  unfold State.settleExchange
  refine Keeps.iteIf (fun _ => ?_) (fun _ => Keeps.withExchange s none)
  exact ((Keeps.withExchange s none).trans (Keeps.onPort { s with exchange := none } (s.port.settle x.header)
    (fun h => Or.inl h))).trans (Keeps.removeHead _ x.choice)

theorem Keeps.judgeIncoming (s : State) (bytes : List Byte) (order : List Module) (ho : EachOnce order) :
    Keeps s (s.judgeIncoming bytes order) := by
  unfold State.judgeIncoming
  split
  · exact Keeps.onPort s _ (fun h => Or.inl h)
  · exact .takeFrame s _ order ho

theorem Keeps.endExchange (s : State) (bytes : List Byte) (order : List Module) (ho : EachOnce order) :
    Keeps s (s.endExchange bytes order) := by
  unfold State.endExchange
  split
  · exact .refl s
  · exact (Keeps.settleExchange s _ _).trans (.judgeIncoming _ bytes order ho)

end Sys2Proof.Machine
end

