-- ==== Sys2Proof/Laws/Expiry.lean ====
section
/-! SUPPORT. What reset, the completion of INIT, and the expiry of the strobe timer keep. -/

namespace Sys2Proof.Machine

/-! ### Reset (R160) -/

theorem resetRecord_chain (cause : ResetCause) : ChainIntact (State.afterReset cause).builder := by
  refine ⟨trivial, fun r h => ?_, fun r h => ?_⟩
  · cases h
    rfl
  · cases h
    intro _
    rfl

theorem State.resetBy_point (s : State) (cause : ResetCause) (p : Point) : (s.resetBy cause).point p =
    { PointRecord.reset with limits := (s.point p).limits, thresholds := (s.point p).thresholds } := by
  unfold State.resetBy
  exact mapAll_get s.points
    (fun _ pt => ({ PointRecord.reset with limits := pt.limits, thresholds := pt.thresholds } : PointRecord)) p

theorem State.resetBy_channel (s : State) (cause : ResetCause) (c : Channel) : (s.resetBy cause).channel c =
    { ChannelRecord.reset with entry := (s.channel c).entry } := by
  have h := mapAll_get s.channels (fun _ ch => ({ ChannelRecord.reset with entry := ch.entry } : ChannelRecord)) c
  unfold State.resetBy
  generalize mapAll s.channels (fun _ ch => ({ ChannelRecord.reset with entry := ch.entry } : ChannelRecord)) = v at h ⊢
  exact h

theorem State.resetBy_module (s : State) (cause : ResetCause) (m : Module) : (s.resetBy cause).module m = .reset := by
  show (Vector.replicate 4 ModuleRecord.reset)[m.val] = _
  exact Vector.getElem_replicate _

theorem Setup.default_inRange : SetupInRange Setup.default where
  interval := by decide
  assessment := by decide
  period := by decide
  missLimit := by decide
  holdup := by decide
  debounce := by decide
  pre := by decide
  post := by decide
  high := by decide
  low := by decide
  rise := by decide
  minimum := by decide

theorem PointRecord.reset_idle (pt : PointRecord) : PointRecord.Idle
    { PointRecord.reset with limits := pt.limits, thresholds := pt.thresholds } :=
  ⟨rfl, rfl, rfl, rfl, rfl, rfl⟩

theorem Keeps.resetBy (s : State) (cause : ResetCause) : KeepsBy (fun _ => .zero) s (s.resetBy cause) := by
  refine ⟨fun _ => ⟨?_, ?_, ?_, ?_⟩, fun _ => resetRecord_chain cause,
    fun _ => ⟨Setup.default_inRange, (fun x => by cases x), fun _ => ?_, (fun x => by cases x)⟩, fun _ p => ?_,
    fun _ => ⟨fun p => ?_, fun p => ?_, fun p => ?_, fun p _ => ?_⟩,
    fun _ => ⟨Setup.default_inRange, fun m => ?_⟩, fun q => ⟨?_, fun c => ?_⟩, fun q p => ?_,
    fun _ => ⟨rfl, rfl, (fun x => by cases x), rfl, fun c => ?_, (fun x => by cases x), (fun x => by cases x)⟩,
    fun _ _ _ e => by cases e⟩
  · show 1 ≤ 96
    omega
  · show 0 ≤ 255
    omega
  · show 0 ≤ 48
    omega
  · show 0 ≤ 2048
    omega
  · show 0 < 40
    omega
  · rw [State.resetBy_point]
    exact Boundary.fresh_bounded
  · rw [State.resetBy_point]
    rfl
  · rw [State.resetBy_point]
    rfl
  · rw [State.resetBy_point]
    rfl
  · rw [State.resetBy_point]
    exact (s.point p).reset_idle
  · rw [State.resetBy_module]
    refine ⟨⟨fun _ => rfl, fun _ => ?_⟩, (fun x => by cases x), fun x => ?_, (fun x => by cases x), Nat.zero_le _,
      Nat.zero_le _, Nat.zero_le _, Nat.zero_le _⟩
    · show (0 : BitVec 4).getLsbD m.val = false
      exact BitVec.getLsbD_zero
    · rcases x with x | x <;> cases x
  · have h : ∀ c : Channel, ((s.resetBy cause).channels[c.val]).entry = (s.channels[c.val]).entry := fun c => by
      have := s.resetBy_channel cause c
      unfold State.channel at this
      rw [this]
    rw [entries_congr h]
    exact q.passes
  · rw [State.resetBy_channel]
    exact q.ranges c
  · rw [State.resetBy_point]
    exact ⟨(q p).inForce, (fun _ e => by cases e), (q p).derived⟩
  · rw [State.resetBy_channel]
    exact Nat.zero_le _

/-! ### INIT_COMPLETE (R150, R161) -/

theorem State.clearTables_point (s : State) (p : Point) :
    s.clearTables.point p = { s.point p with limits := .cleared, thresholds := .zero } := by
  unfold State.clearTables
  exact mapAll_get s.points (fun _ pt => ({ pt with limits := .cleared, thresholds := .zero } : PointRecord)) p

theorem State.clearTables_channel (s : State) (c : Channel) :
    s.clearTables.channel c = { s.channel c with entry := .cleared } := by
  have h := mapAll_get s.channels (fun _ ch => ({ ch with entry := .cleared } : ChannelRecord)) c
  unfold State.clearTables
  generalize mapAll s.channels (fun _ ch => ({ ch with entry := .cleared } : ChannelRecord)) = v at h ⊢
  exact h

theorem clearedMap_passes (s : State) : mapPasses (mapAll s.clearTables.channels (fun _ ch => ch.entry)) = true := by
  have h : ∀ c : Channel, (mapAll s.clearTables.channels (fun _ ch => ch.entry))[c.val] = MapEntry.cleared := fun c => by
    rw [mapAll_get]
    have := s.clearTables_channel c
    unfold State.channel at this
    rw [this]
  unfold mapPasses
  rw [List.all_eq_true]
  intro i _
  rw [List.all_eq_true]
  intro j _
  rw [h i, h j]
  cases i == j <;> rfl

/-- The state in which the held frame of INIT is executed: tables cleared, STOPPED, the slot empty. -/
theorem Keeps.clearTables (s : State) (hd : s.control.device = .init) :
    Keeps s { s.clearTables with port := { s.port with held := none } } := by
  have hm : s.measuring = false := by unfold State.measuring; rw [hd]; rfl
  have hk : s.keepsAssessments = false := by unfold State.keepsAssessments; rw [hd]; rfl
  have ha : ∀ p, s.active p = false := fun p => by unfold State.active; rw [hm]; rfl
  refine ⟨fun q => ⟨q.records, q.withheld, q.frames, q.sets⟩, fun q => q,
    fun q => ⟨q.setup, fun x => ?_, q.opened, q.shed⟩, fun q p => ?_,
    fun q => ⟨fun p => ?_, fun p => ?_, fun p => ?_, fun p _ => ?_⟩, fun q => ⟨q.setup, q.each⟩,
    fun _ => ⟨clearedMap_passes s, fun c => ?_⟩, fun q p => ?_,
    fun q => ⟨?_, ?_, (fun x => by cases x), q.tag, fun c => ?_, q.due⟩, fun q => q⟩
  · have := (q.running x).1
    rw [hd] at this
    cases this
  · show (s.clearTables.point p).boundary.bounded
    rw [State.clearTables_point]
    exact q p
  · show (s.clearTables.point p).block.isSome = false
    rw [State.clearTables_point]
    exact (q.block p).trans (ha p)
  · show (s.clearTables.point p).interval.isSome = false
    rw [State.clearTables_point]
    exact (q.interval p).trans (ha p)
  · show (s.clearTables.point p).assessment.isSome = false
    rw [State.clearTables_point]
    show (s.point p).assessment.isSome = false
    rw [q.assessment p, hm, hk]
    rfl
  · show (s.clearTables.point p).Idle
    rw [State.clearTables_point]
    have h := q.idle p (ha p)
    exact ⟨h.boundary, h.period, h.pair, h.low, h.high, h.check⟩
  · show (s.clearTables.channel c).entry.inRange = true
    rw [State.clearTables_channel]
    rfl
  · show (s.clearTables.point p).LimitsLegal
    rw [State.clearTables_point]
    refine ⟨rfl, fun l e => (q p).pending l e, ?_⟩
    show Thresholds.zero = deriveThresholds LimitsEntry.cleared
    decide
  · have := q.prior
    rw [hd] at this
    exact this
  · have := q.timer
    rw [hd] at this
    exact this
  · show (s.clearTables.channel c).ring.length ≤ 8
    rw [State.clearTables_channel]
    exact q.rings c

theorem Keeps.completeInit (s : State) : Keeps s s.completeInit := by
  unfold State.completeInit
  refine Keeps.iteIf (fun hd => ?_) (fun _ => .refl s)
  refine Keeps.trans ?_ (Keeps.takeFailure _)
  have h := Keeps.clearTables s hd
  unfold State.executeHeld
  split
  · rename_i hn
    have he : ({ s.clearTables with port := { s.port with held := none } } : State) = s.clearTables := by
      have h1 : s.port.held = none := hn
      have h2 : ({ s.port with held := none } : Port) = s.port := by
        rw [← h1]
      rw [h2]
      rfl
    rw [he] at h
    exact h
  · exact h.trans (Keeps.executeFrame _ _ _ eachOnce_allFour)

/-! ### The expiry (R1, R2, R10, R23, R115) -/

theorem Keeps.timeoutAll (s : State) (order : List Module) : Keeps s (s.timeoutAll order) :=
  Keeps.foldl State.timeoutCommand Keeps.timeoutCommand order s

theorem Keeps.timeoutIfAt (s : State) (o : Interleaving) (first : Bool) (k : Nat) : Keeps s (s.timeoutIfAt o first k) :=
  Keeps.iteIf (fun _ => Keeps.timeoutAll s _) (fun _ => .refl s)

theorem Keeps.takeDue (s : State) (order : List Module) (ho : EachOnce order) : Keeps s (s.takeDue order) := by
  unfold State.takeDue
  dsimp only
  refine Keeps.trans ?_ (Keeps.expireLine _ _)
  refine Keeps.trans ?_ (Keeps.expireLine _ _)
  refine Keeps.trans ?_ (Keeps.timeoutAll _ allFour)
  refine Keeps.trans ?_ (Keeps.takeReturnStandby _)
  refine Keeps.trans ?_ (Keeps.takeHoldupExpiry _ order ho.all)
  exact (Keeps.takeFailure s).trans (Keeps.takeReturnHoldup _)

theorem Control.sample_kept (c : Control) (n : Nat) (sfi : SupplyLevel) : (c.sample n sfi).device = c.device ∧
    (c.sample n sfi).prior = c.prior ∧ (c.sample n sfi).timerRunning = c.timerRunning := by
  unfold Control.sample
  split
  · exact ⟨rfl, rfl, rfl⟩
  · split <;> exact ⟨rfl, rfl, rfl⟩

theorem tagOf_succ (t : Tick) (d : Byte) : tagOf t + d = tagOf (t + 1) + (d - 1) := by
  have h : tagOf (t + 1) = tagOf t + 1 := by
    unfold tagOf
    rw [BitVec.setWidth_add _ _ (by omega)]
    rfl
  rw [h, BitVec.add_assoc, BitVec.add_comm 1 (d - 1), BitVec.sub_add_cancel]

/-- A new tick begins: the strobe frame is one behind the count. -/
theorem Keeps.advance (s : State) (sfi : SupplyLevel) : KeepsBy Drift.tick s (s.advance sfi) := by
  obtain ⟨h1, h2, h3⟩ := s.control.sample_kept s.setup.debounce sfi
  refine ⟨fun q => ⟨q.records, q.withheld, q.frames, q.sets⟩, fun q => q,
    fun q => ⟨q.setup, fun x => ⟨h1.trans (q.running x).1, (q.running x).2⟩, q.opened, q.shed⟩, fun q => q,
    fun q => q.congr ?_ ?_ rfl, fun q => ⟨q.setup, q.each⟩, fun q => ⟨q.passes, q.ranges⟩, fun q => q,
    fun q => ⟨?_, ?_, fun x => h1.trans (q.held x), ?_, q.rings, fun _ => rfl, fun _ => rfl⟩, fun q => q⟩
  · show (_ || _) = (_ || _)
    show ((s.control.sample s.setup.debounce sfi).device == DeviceState.running ||
      (s.control.sample s.setup.debounce sfi).device == DeviceState.holdup &&
        (s.control.sample s.setup.debounce sfi).prior == some PriorState.running) = _
    rw [h1, h2]
  · show ((s.control.sample s.setup.debounce sfi).device == DeviceState.standby &&
        (s.control.sample s.setup.debounce sfi).prior == some PriorState.running) = _
    rw [h1, h2]
    rfl
  · show (s.control.sample s.setup.debounce sfi).prior.isSome = _
    rw [h2, q.prior]
    show _ = ((s.control.sample s.setup.debounce sfi).device == DeviceState.holdup ||
      (s.control.sample s.setup.debounce sfi).device == DeviceState.standby)
    rw [h1]
  · show (s.control.sample s.setup.debounce sfi).timerRunning =
      ((s.control.sample s.setup.debounce sfi).device == DeviceState.holdup)
    rw [h3, h1]
    exact q.timer
  · exact q.tag.trans (tagOf_succ s.count _)

theorem Keeps.lineIf (s : State) (first : Bool) (l : LineId) : Keeps s (s.lineIf first l) := by
  cases first
  · exact .refl s
  · exact Keeps.expireLine s l

theorem Keeps.beginTick (s : State) (sfi : SupplyLevel) (o : Interleaving) :
    KeepsBy Drift.tick s (s.beginTick sfi o) :=
  KeepsBy.trans (Keeps.advance s sfi) ((Keeps.lineIf _ _ _).trans (Keeps.lineIf _ _ _))

theorem Keeps.deadline (s : State) (order : List Module) : Keeps s (s.deadline order) :=
  (Keeps.countMisses s order).trans (Keeps.voidSentChecks _)

theorem History.write_le (h : History) (t : Tick) (set : SampleSet) : (h.write t set).sets.length ≤ 2048 := by
  show ((storeSet set :: h.sets).take 2048).length ≤ 2048
  rw [List.length_take]
  omega

theorem Keeps.writeHistory (s : State) (t : Tick) (set : SampleSet) :
    KeepsBy Drift.write s (s.writeHistory t set) := by
  unfold State.writeHistory
  split
  · exact ⟨fun q => ⟨q.records, q.withheld, q.frames, s.history.write_le t set⟩, fun q => q,
      fun q => ⟨q.setup, q.running, q.opened, q.shed⟩, fun q => q,
      fun q => ⟨q.block, q.interval, q.assessment, q.idle⟩, fun q => ⟨q.setup, q.each⟩,
      fun q => ⟨q.passes, q.ranges⟩, fun q => q, fun q => ⟨q.prior, q.timer, q.held, q.tag, q.rings, q.due⟩,
      fun _ e => by cases e⟩
  · exact { Keeps.refl s with control := fun q => q.retag rfl rfl, formed := fun _ e => by cases e }

/-- A choice of references: no other part of the state is touched. -/
theorem Keeps.chooseReferences (s : State) (set : SampleSet) : Keeps s (s.chooseReferences set) := by
  unfold State.chooseReferences
  refine Keeps.iteIf (fun _ => .refl s) (fun _ => ?_)
  have hpt : ∀ p, (s.mapPoints (fun p pt => { pt with reference := s.chooseReference p set })).point p =
      { s.point p with reference := s.chooseReference p set } := fun p => State.mapPoints_point s p _
  generalize hv : (s.mapPoints (fun p pt => { pt with reference := s.chooseReference p set })) = t at hpt ⊢
  have ht : t = { s with points := t.points } := by rw [← hv]; rfl
  have hc : t.control = s.control := by rw [ht]
  have hm : t.measuring = s.measuring := by unfold State.measuring; rw [hc]
  have hk : t.keepsAssessments = s.keepsAssessments := by unfold State.keepsAssessments; rw [hc]
  have ha : ∀ p, t.active p = s.active p := fun p => State.active_eq hm p (by rw [hpt])
  refine ⟨fun q => ?_, fun q => ?_, fun q => ?_, fun q p => ?_, fun q => ⟨fun p => ?_, fun p => ?_, fun p => ?_,
    fun p hp => ?_⟩, fun q => ?_, fun q => ?_, fun q p => ?_, fun q => ?_, fun q e => ?_⟩
  · rw [ht]
    exact ⟨q.records, q.withheld, q.frames, q.sets⟩
  · rw [ht]
    exact q
  · rw [ht]
    exact ⟨q.setup, q.running, q.opened, q.shed⟩
  · rw [hpt]
    exact q p
  · rw [ha, hpt]
    exact q.block p
  · rw [ha, hpt]
    exact q.interval p
  · rw [hm, hk, hpt]
    exact q.assessment p
  · rw [hpt]
    have h := q.idle p (ha p ▸ hp)
    exact ⟨h.boundary, h.period, h.pair, h.low, h.high, h.check⟩
  · rw [ht]
    exact ⟨q.setup, q.each⟩
  · rw [ht]
    exact ⟨q.passes, q.ranges⟩
  · rw [hpt]
    exact ⟨(q p).inForce, (q p).pending, (q p).derived⟩
  · rw [ht]
    exact ⟨q.prior, q.timer, q.held, q.tag, q.rings, q.due⟩
  · rw [ht]
    exact q e

/-- What `k` places of an order passed leave of a drift: the strobe frame carries the new tag once its place is
passed, no frame waits once the place of their formation is, and no marking once its own is. -/
structure Passed (o : Interleaving) (k : Nat) (d : Drift) : Prop where
  tag : o.fieldAt.val < k → d.tag = 0
  waits : o.framesAt.val < k → d.waits = false
  period : o.periodAt.val < k → d.due.period = false
  second : o.secondAt.val < k → d.due.second = false

/-- What an expiry has kept when `k` places of its order are passed. -/
def Turned (o : Interleaving) (k : Nat) (s t : State) : Prop :=
  ∃ f, KeepsBy f s t ∧ ∀ d, Passed o k (f d)

theorem KeepsBy.thenKeeps {f : Drift → Drift} {s t u : State} (h : KeepsBy f s t) (q : Keeps t u) : KeepsBy f s u :=
  show KeepsBy (id ∘ f) s u from KeepsBy.trans h q

theorem Turned.thenKeeps {o : Interleaving} {k : Nat} {s t u : State} (h : Turned o k s t) (q : Keeps t u) :
    Turned o k s u := by
  obtain ⟨f, hf, h1⟩ := h
  exact ⟨f, hf.thenKeeps q, h1⟩

/-- Something that an order puts at one of its places happens there or not. -/
theorem KeepsBy.ifAt {f g : Drift → Drift} {s t u : State} {c : Prop} [Decidable c] (hf : KeepsBy f s t)
    (hg : KeepsBy g t u) : KeepsBy (if c then g ∘ f else f) s (if c then u else t) := by
  split
  · exact KeepsBy.trans hf hg
  · exact hf

/-- What happens at a place of the order passes it. -/
theorem Turned.between {o : Interleaving} {s t : State} (k : Fin 5) (h : Turned o k.val s t) :
    Turned o (k.val + 1) s (t.between o k) := by
  obtain ⟨f, hf, h1⟩ := h
  have a := (KeepsBy.ifAt (c := o.framesAt.val = k.val)
    (hf.thenKeeps (Keeps.timeoutIfAt t o true k.val))
    (Keeps.formAll _)).thenKeeps (Keeps.timeoutIfAt _ o false k.val)
  have b := KeepsBy.ifAt (c := o.periodAt = k) a (KeepsBy.takePeriodDue _)
  have c := KeepsBy.ifAt (c := o.secondAt = k) b (KeepsBy.takeSecondDue _)
  have d := KeepsBy.ifAt (c := o.fieldAt = k) c (Keeps.issueStrobe _)
  refine ⟨_, d, fun x => ?_⟩
  have h2 := h1 x
  have e : ∀ i : Fin 5, i ≠ k → i.val < k.val + 1 → i.val < k.val := by
    intro i hi hl
    have : i.val ≠ k.val := fun y => hi (Fin.ext y)
    omega
  refine ⟨fun y => ?_, fun y => ?_, fun y => ?_, fun y => ?_⟩
  · by_cases hk : o.fieldAt = k
    · rw [if_pos hk]
      rfl
    · have h3 := h2.tag (e _ hk y)
      rw [if_neg hk]
      split <;> split <;> split <;> exact h3
  · by_cases hk : o.framesAt.val = k.val
    · rw [if_pos hk]
      split <;> split <;> split <;> rfl
    · have h3 := h2.waits (by omega)
      rw [if_neg hk]
      split <;> split <;> split <;> exact h3
  · by_cases hk : o.periodAt = k
    · rw [if_pos hk]
      split <;> split <;> split <;> rfl
    · have h3 := h2.period (e _ hk y)
      rw [if_neg hk]
      split <;> split <;> split <;> exact h3
  · by_cases hk : o.secondAt = k
    · rw [if_pos hk]
      split <;> split <;> split <;> rfl
    · have h3 := h2.second (e _ hk y)
      rw [if_neg hk]
      split <;> split <;> split <;> exact h3

theorem Turned.turn {o : Interleaving} {s u : State} (t : Tick) (set : SampleSet) (changes : Vector Bool 4)
    (p : Point) (k : Fin 5) (h : Turned o k.val s u) : Turned o (k.val + 1) s (u.turn t set changes o (p, k)) :=
  (h.between k).thenKeeps (Keeps.deliverIf _ t set changes p)

theorem orderOf_four (k : Fin 24) : ∃ a b c d, orderOf k = [a, b, c, d] := by
  revert k
  decide

/-- Whatever the order, the strobe frame is issued once and carries the new tag. -/
theorem Turned.deliverAll (s : State) (t : Tick) (set : SampleSet) (changes : Vector Bool 4) (o : Interleaving) :
    Turned o 5 s (s.deliverAll t set changes o) := by
  obtain ⟨a, b, c, d, he⟩ := orderOf_four o.pointOrder
  unfold State.deliverAll
  rw [he]
  have h0 : Turned o 0 s s :=
    ⟨id, Keeps.refl s, fun _ => ⟨(absurd · (Nat.not_lt_zero _)), (absurd · (Nat.not_lt_zero _)),
      (absurd · (Nat.not_lt_zero _)), (absurd · (Nat.not_lt_zero _))⟩⟩
  have h1 := h0.turn t set changes a 0
  have h2 := Turned.turn t set changes b 1 h1
  have h3 := Turned.turn t set changes c 2 h2
  have h4 := Turned.turn t set changes d 3 h3
  exact Turned.between 4 h4

/-- A drift that nothing is left of. -/
theorem Drift.eq_zero {d : Drift} (ht : d.tag = 0) (hw : d.waits = false) (hp : d.due.period = false)
    (hs : d.due.second = false) : d = .zero := by
  obtain ⟨t, w, p, q⟩ := d
  cases ht
  cases hw
  cases hp
  cases hs
  rfl

/-- Whatever the order, the frames that the written set brings are formed within the expiry, and no marking of the new
count value waits after it. -/
theorem Turned.formLast {o : Interleaving} {s t : State} (h : Turned o 5 s t) :
    ∃ f, KeepsBy f s (t.formLast o) ∧ ∀ d, f d = .zero := by
  obtain ⟨f, hf, h1⟩ := h
  unfold State.formLast
  split
  · refine ⟨_, KeepsBy.trans hf (KeepsBy.trans (Keeps.takeFailure t) (Keeps.formAll _)), fun d => ?_⟩
    have h2 := h1 d
    exact Drift.eq_zero (h2.tag o.fieldAt.isLt) rfl (h2.period o.periodAt.isLt) (h2.second o.secondAt.isLt)
  · rename_i hne
    have h4 : o.framesAt.val < 5 := by
      have h5 : o.framesAt.val ≠ 5 := fun x => hne (Fin.ext x)
      have := o.framesAt.isLt
      omega
    refine ⟨f, hf, fun d => ?_⟩
    have h2 := h1 d
    exact Drift.eq_zero (h2.tag o.fieldAt.isLt) (h2.waits h4) (h2.period o.periodAt.isLt) (h2.second o.secondAt.isLt)

theorem Keeps.closeSet (s : State) (t : Tick) (o : Interleaving) : KeepsBy (fun _ => .zero) s (s.closeSet t o) := by
  unfold State.closeSet
  dsimp only
  have h : KeepsBy Drift.write s (((s.nextSet s.closingSet).writeHistory t s.closingSet).chooseReferences s.closingSet) :=
    KeepsBy.trans (KeepsBy.trans (Keeps.nextSet s _) (Keeps.writeHistory _ t _)) (Keeps.chooseReferences _ _)
  obtain ⟨f, hf, hz⟩ := (Turned.deliverAll
    (((s.nextSet s.closingSet).writeHistory t s.closingSet).chooseReferences s.closingSet) t s.closingSet
    (s.referenceChanges s.closingSet) o).formLast
  have := KeepsBy.trans h hf
  rwa [show f ∘ Drift.write = fun _ => Drift.zero from funext fun d => hz _] at this

theorem Keeps.expire (s : State) (sfi : SupplyLevel) (o : Interleaving) :
    KeepsBy (fun _ => .zero) s (s.expire sfi o) := by
  have ho := eachOnce_orderOf o.moduleOrder
  unfold State.expire
  exact KeepsBy.trans (KeepsBy.trans ((KeepsBy.trans (Keeps.takeDue s _ ho) (Keeps.beginTick _ sfi o)).thenKeeps
    (Keeps.timeoutIfAt _ o true 5)) (Keeps.deadline _ _)) (Keeps.closeSet _ s.count o)

end Sys2Proof.Machine
end

