-- ==== Sys2Proof/Laws/Turns.lean ====
section
/-! SUPPORT. Which records an operation offers and which classes it raises (`Tells`), and with it what an expiry does
beside the points' turns (`AsideAt`) and in what order it takes them (`TakesInTurn`). -/

namespace Sys2Proof.Machine

/-! ### Offers in a row -/

theorem RecordBuilder.offers_append (b : RecordBuilder) (x y : List RecordBody) :
    b.offers (x ++ y) = (b.offers x).offers y := by
  simp [RecordBuilder.offers]

theorem RecordBuilder.offer_length (b : RecordBuilder) (body : RecordBody) :
    (b.offer body).queue.length = if b.admits body then b.queue.length + 1 else b.queue.length := by
  unfold RecordBuilder.offer
  split <;> simp

/-- Classes raised one after another. -/
def Attention.raises (a : Attention) (r : Routing) (now : Tick) (raised : List AttnClass) : Attention :=
  raised.foldl (fun x k => x.raise r now k) a

theorem State.foldl_raise (s : State) (raised : List AttnClass) :
    (raised.foldl State.raise s).attention = s.attention.raises s.routing s.count raised := by
  induction raised generalizing s with
  | nil => rfl
  | cons k rest ih => exact ih (s.raise k)

/-- `t` is `s` after it offered `bodies` and raised the classes of `classes`, as records and attention show it. -/
structure Tells (bodies : List RecordBody) (classes : AttnClass → Prop) (s t : State) : Prop where
  builder : t.builder = s.builder.offers bodies
  grows : s.builder.queue.length ≤ t.builder.queue.length
  routing : t.routing = s.routing
  count : t.count = s.count
  raised : ∃ raised, t.attention = s.attention.raises s.routing s.count raised ∧
    ∀ j, j ∈ raised ↔ classes j ∨ (j = .queueHigh ∧ s.builder.queue.length < 64 ∧ 64 ≤ t.builder.queue.length)

/-- A queue whose length stays does not reach the mark of QUEUE_HIGH. -/
theorem not_reached {p : Prop} {n : Nat} (h : p ∧ n < 64 ∧ 64 ≤ n) : False :=
  Nat.not_lt.mpr h.2.2 h.2.1

/-- Nothing is offered or raised. -/
theorem Tells.silent {s t : State} (hb : t.builder = s.builder) (ha : t.attention = s.attention)
    (hr : t.routing = s.routing) (hc : t.count = s.count) : Tells [] (fun _ => False) s t :=
  ⟨hb, Nat.le_of_eq (congrArg (fun b => b.queue.length) hb.symm), hr, hc, [], ha, fun j => by
    rw [hb]
    exact ⟨(fun h => by cases h), fun h => h.elim False.elim (fun x => (not_reached x).elim)⟩⟩

theorem Tells.refl (s : State) : Tells [] (fun _ => False) s s :=
  .silent rfl rfl rfl rfl

theorem Tells.trans {x y : List RecordBody} {f g : AttnClass → Prop} {s t u : State} (h : Tells x f s t)
    (k : Tells y g t u) : Tells (x ++ y) (fun j => f j ∨ g j) s u := by
  obtain ⟨r, hr, h1⟩ := h.raised
  obtain ⟨r2, hr2, h2⟩ := k.raised
  refine ⟨?_, Nat.le_trans h.grows k.grows, k.routing.trans h.routing, k.count.trans h.count, r ++ r2, ?_, fun j => ?_⟩
  · rw [k.builder, h.builder, RecordBuilder.offers_append]
  · rw [hr2, hr, h.routing, h.count]
    simp [Attention.raises]
  · have a := h.grows
    have b := k.grows
    rw [List.mem_append, h1, h2]
    constructor
    · rintro ((q | ⟨q, _, _⟩) | (q | ⟨q, _, _⟩))
      · exact .inl (.inl q)
      · exact .inr ⟨q, by omega, by omega⟩
      · exact .inl (.inr q)
      · exact .inr ⟨q, by omega, by omega⟩
    · rintro ((q | q) | ⟨q, _, _⟩)
      · exact .inl (.inl q)
      · exact .inr (.inl q)
      · by_cases hq : t.builder.queue.length < 64
        · exact .inr (.inr ⟨q, hq, by omega⟩)
        · exact .inl (.inr ⟨q, by omega, by omega⟩)

theorem Tells.mono {x : List RecordBody} {f g : AttnClass → Prop} {s t : State} (h : Tells x f s t)
    (e : ∀ j, f j ↔ g j) : Tells x g s t := by
  obtain ⟨r, hr, h1⟩ := h.raised
  exact ⟨h.builder, h.grows, h.routing, h.count, r, hr, fun j => by rw [h1, e]⟩

theorem said_append (j k : AttnClass) (x y : List RecordBody) :
    ((j = k ∧ x ≠ []) ∨ (j = k ∧ y ≠ [])) ↔ (j = k ∧ x ++ y ≠ []) := by
  cases x with
  | nil => simp
  | cons a l => exact ⟨fun h => ⟨h.elim And.left And.left, by simp⟩, fun h => .inl ⟨h.1, by simp⟩⟩

theorem Tells.offer (s : State) (body : RecordBody) : Tells [body] (fun _ => False) s (s.offer body) := by
  have hl := s.builder.offer_length body
  have hb : (s.offer body).builder = s.builder.offer body := s.offer_builder body
  have hg : s.builder.queue.length ≤ (s.offer body).builder.queue.length := by
    rw [hb, hl]
    split <;> omega
  refine ⟨hb, hg, s.offer_routing body, s.offer_count body, ?_⟩
  rw [hb, hl]
  unfold State.offer RecordBuilder.reachesHigh
  dsimp only
  by_cases ha : s.builder.admits body = true
  · rw [ha]
    by_cases h64 : s.builder.queue.length + 1 = 64
    · refine ⟨[.queueHigh], ?_, fun j => ?_⟩
      · simp [Config.classCLimit, h64]
        rfl
      · simp
        intro _
        omega
    · have h63 : ¬ s.builder.queue.length = 63 := by omega
      refine ⟨[], ?_, fun j => ?_⟩
      · simp [Config.classCLimit, h63]
        rfl
      · simp
        omega
  · have ha : s.builder.admits body = false := by simpa using ha
    rw [ha]
    exact ⟨[], rfl, fun j => ⟨(fun h => by cases h), fun h => h.elim False.elim (fun x => (not_reached x).elim)⟩⟩

theorem Tells.raise (s : State) (k : AttnClass) : Tells [] (fun j => j = k) s (s.raise k) := by
  refine ⟨rfl, Nat.le_refl _, rfl, rfl, [k], rfl, fun j => ?_⟩
  exact ⟨fun h => .inl (List.mem_singleton.mp h),
    fun h => h.elim List.mem_singleton.mpr (fun x => (not_reached x).elim)⟩

theorem Tells.offerRaise (s : State) (body : RecordBody) (k : AttnClass) :
    Tells [body] (fun j => j = k) s ((s.offer body).raise k) :=
  ((Tells.offer s body).trans (.raise _ k)).mono (fun j => by simp)

/-! ### Module commands that end -/

/-- The NO_ANSWER reply of a module's command, if it has one outstanding. -/
def State.unanswered (s : State) (m : Module) : Option RecordBody :=
  (s.module m).command.map (noAnswerReply m)

theorem Tells.endCommand (s : State) (m : Module) :
    Tells (s.unanswered m).toList (fun j => j = .replyReady ∧ s.unanswered m ≠ none) s
      (s.endCommand m .noAnswer none) := by
  unfold State.endCommand State.unanswered
  cases h : (s.module m).command with
  | none => exact (Tells.refl s).mono (fun j => by simp)
  | some k =>
    have h1 : Tells [] (fun _ => False) s (s.modModule m (fun r => { r with command := none })) :=
      .silent rfl rfl rfl rfl
    exact (h1.trans (Tells.offerRaise _ _ _)).mono (fun j => by simp)

theorem State.overdueReply_eq (s : State) (m : Module) :
    s.overdueReply m = if s.commandOverdue m then s.unanswered m else none := by
  unfold State.overdueReply State.commandOverdue State.unanswered
  cases (s.module m).command with
  | none => rfl
  | some k =>
    obtain ⟨tag, word, sent⟩ := k
    cases sent with
    | none => rfl
    | some e =>
      dsimp only [Option.map_some]
      by_cases h : 64 < (s.count - e.tick).toNat
      · have h2 : decide (Config.answerTicks < ticksFrom e.tick s.count) = true := decide_eq_true h
        rw [if_pos h, if_pos h2]
      · have h2 : ¬ decide (Config.answerTicks < ticksFrom e.tick s.count) = true := fun x => h (of_decide_eq_true x)
        rw [if_neg h]
        exact (if_neg h2).symm

theorem State.overdueReply_isSome (s : State) (m : Module) :
    (s.overdueReply m).isSome = s.commandOverdue m := by
  rw [State.overdueReply_eq]
  unfold State.unanswered State.commandOverdue
  cases (s.module m).command with
  | none => rfl
  | some k =>
    dsimp only
    split <;> simp_all

/-- The module of a timeout without its command, when it is overdue; else as before. -/
theorem State.timeoutCommand_module (s : State) (m n : Module) : (s.timeoutCommand m).module n =
    if n = m ∧ (s.overdueReply m).isSome = true then { s.module n with command := none } else s.module n := by
  rw [State.overdueReply_isSome]
  unfold State.timeoutCommand
  by_cases h : s.commandOverdue m = true
  · rw [if_pos h]
    obtain ⟨b, a, _, he⟩ := State.endCommand_noted s m .noAnswer none
    rw [he]
    show (s.modModule m ModuleRecord.freed).module n = _
    rw [State.modModule_module]
    by_cases hn : n = m
    · simp [hn, h, ModuleRecord.freed]
    · simp [hn]
  · rw [if_neg h]
    simp [h]

theorem Tells.timeoutCommand (s : State) (m : Module) : Tells (s.overdueReply m).toList
    (fun j => j = .replyReady ∧ (s.overdueReply m).toList ≠ []) s (s.timeoutCommand m) := by
  rw [State.overdueReply_eq]
  unfold State.timeoutCommand
  split
  · exact (Tells.endCommand s m).mono (fun j => by simp)
  · exact (Tells.refl s).mono (fun j => by simp)

theorem State.timeoutCommand_noted (s : State) (m : Module) : ∃ r b a, s.timeoutCommand m =
    { s with modules := r, builder := b, attention := a } := by
  unfold State.timeoutCommand
  split
  · obtain ⟨b, a, _, he⟩ := State.endCommand_noted s m .noAnswer none
    exact ⟨_, b, a, he⟩
  · exact ⟨s.modules, s.builder, s.attention, rfl⟩

theorem State.overdueReply_congr {s t : State} (m : Module) (hm : t.module m = s.module m) (hc : t.count = s.count) :
    t.overdueReply m = s.overdueReply m := by
  unfold State.overdueReply
  rw [hm, hc]

theorem filterMap_same {α β : Type} {f g : α → Option β} {l : List α} (h : ∀ x ∈ l, f x = g x) :
    l.filterMap f = l.filterMap g := by
  induction l with
  | nil => rfl
  | cons a l ih =>
    rw [List.filterMap_cons, List.filterMap_cons, h a List.mem_cons_self,
      ih (fun x hx => h x (List.mem_cons_of_mem _ hx))]

/-- What the timeouts of several modules do: the replies of the overdue commands, which end. -/
theorem State.timeoutAll_spec (order : List Module) (ho : order.Nodup) (s : State) :
    Tells (order.filterMap s.overdueReply) (fun j => j = .replyReady ∧ order.filterMap s.overdueReply ≠ []) s
      (s.timeoutAll order) ∧
    (∃ r b a, s.timeoutAll order = { s with modules := r, builder := b, attention := a }) ∧
    ∀ n, (s.timeoutAll order).module n =
      if n ∈ order ∧ (s.overdueReply n).isSome = true then { s.module n with command := none } else s.module n := by
  induction order generalizing s with
  | nil => exact ⟨(Tells.refl s).mono (fun j => by simp), ⟨_, _, _, rfl⟩, fun n => by simp [State.timeoutAll]⟩
  | cons m rest ih =>
    obtain ⟨hm, hrest⟩ := List.nodup_cons.1 ho
    obtain ⟨h1, ⟨r, b, a, h2⟩, h3⟩ := ih hrest (s.timeoutCommand m)
    obtain ⟨r0, b0, a0, h0⟩ := s.timeoutCommand_noted m
    have hc : (s.timeoutCommand m).count = s.count := by rw [h0]
    have ho : ∀ n ∈ rest, (s.timeoutCommand m).overdueReply n = s.overdueReply n := by
      intro n hn
      refine State.overdueReply_congr n ?_ hc
      rw [State.timeoutCommand_module, if_neg]
      rintro ⟨rfl, _⟩
      exact hm hn
    have hf : rest.filterMap (s.timeoutCommand m).overdueReply = rest.filterMap s.overdueReply :=
      filterMap_same ho
    rw [hf] at h1
    have hk := (Tells.timeoutCommand s m).trans h1
    refine ⟨?_, ?_, fun n => ?_⟩
    · have e : (s.overdueReply m).toList ++ rest.filterMap s.overdueReply = (m :: rest).filterMap s.overdueReply := by
        rw [List.filterMap_cons]
        cases s.overdueReply m <;> rfl
      rw [e] at hk
      rw [← e] at hk ⊢
      exact hk.mono (fun j => said_append j _ _ _)
    · refine ⟨r, b, a, ?_⟩
      show (s.timeoutCommand m).timeoutAll rest = _
      rw [h2, h0]
    · show ((s.timeoutCommand m).timeoutAll rest).module n = _
      rw [h3, State.timeoutCommand_module]
      by_cases hn : n = m
      · subst hn
        simp [hm]
      · by_cases hr : n ∈ rest
        · rw [ho n hr]
          simp [hn, hr]
        · simp [hn, hr]

/-! ### Capture frames -/

/-- The record of a capture that ended, and the classes with it. -/
structure EndsWith (s t : State) (closures : List RecordBody) : Prop where
  tells : Tells closures (fun j => j = .captureDone ∧ closures ≠ []) s t
  goesOn : s.capture = none ∨ t.capture.isSome = true → closures = []
  same : ∀ c d, s.capture = some c → t.capture = some d → d.tag = c.tag ∧ d.point = c.point ∧
    d.triggerEpoch = c.triggerEpoch ∧ d.preCount = c.preCount
  idle : s.capture = none → t.capture = none
  record : ∀ c, s.capture = some c → t.capture = none → ∃ r : ClosureRecord, closures = [.closure r] ∧
    r.tag = c.tag ∧ r.point = c.point ∧ r.triggerEpoch = c.triggerEpoch ∧ r.preCount = c.preCount ∧
    (r.reason = .complete ∨ r.reason = .truncatedShed)

theorem EndsWith.refl (s : State) : EndsWith s s [] :=
  ⟨(Tells.refl s).mono (fun j => by simp), fun _ => rfl, fun c d h k => by
    rw [h] at k
    cases k
    exact ⟨rfl, rfl, rfl, rfl⟩, id, fun c h k => by rw [h] at k; cases k⟩

theorem EndsWith.trans {s t u : State} {x y : List RecordBody} (h : EndsWith s t x) (k : EndsWith t u y) :
    EndsWith s u (x ++ y) := by
  have hx : t.capture.isSome = true → x = [] := fun e => h.goesOn (.inr e)
  refine ⟨(h.tells.trans k.tells).mono (fun j => said_append j _ _ _), ?_, ?_, fun e => k.idle (h.idle e), ?_⟩
  · rintro (e | e)
    · rw [h.goesOn (.inl e), k.goesOn (.inl (h.idle e))]
      rfl
    · have ht : t.capture.isSome = true := by
        cases ht : t.capture with
        | none => rw [k.idle ht] at e; cases e
        | some c => rfl
      rw [hx ht, k.goesOn (.inr e)]
      rfl
  · intro c d hc hd
    cases ht : t.capture with
    | none => rw [k.idle ht] at hd; cases hd
    | some e =>
      have a := h.same c e hc ht
      have b := k.same e d ht hd
      exact ⟨b.1.trans a.1, b.2.1.trans a.2.1, b.2.2.1.trans a.2.2.1, b.2.2.2.trans a.2.2.2⟩
  · intro c hc hu
    cases ht : t.capture with
    | none =>
      rw [k.goesOn (.inl ht), List.append_nil]
      exact h.record c hc ht
    | some e =>
      have a := h.same c e hc ht
      obtain ⟨r, h1, h2, h3, h4, h5, h6⟩ := k.record e ht hu
      rw [hx (by rw [ht]; rfl), List.nil_append]
      exact ⟨r, h1, h2.trans a.1, h3.trans a.2.1, h4.trans a.2.2.1, h5.trans a.2.2.2, h6⟩

/-- A capture goes on with its identity. -/
theorem EndsWith.goOn {s t : State} {c d : RunningCapture} (hc : s.capture = some c) (hd : t.capture = some d)
    (hb : t.builder = s.builder) (ha : t.attention = s.attention) (hr : t.routing = s.routing) (hn : t.count = s.count)
    (h : d.tag = c.tag ∧ d.point = c.point ∧ d.triggerEpoch = c.triggerEpoch ∧ d.preCount = c.preCount) :
    EndsWith s t [] := by
  refine ⟨(Tells.silent hb ha hr hn).mono (fun j => by simp), fun _ => rfl, ?_, ?_, ?_⟩
  · intro c2 d2 h1 h2
    rw [hc] at h1
    rw [hd] at h2
    cases h1
    cases h2
    exact h
  · intro e; rw [hc] at e; cases e
  · intro _ _ e; rw [hd] at e; cases e

/-! ### Frames are formed alike beside timeouts -/

/-- Two states with the same engine and the same of what it reads. -/
structure EngineAlike (s t : State) : Prop where
  setup : t.setup = s.setup
  channels : t.channels = s.channels
  history : t.history = s.history
  capture : t.capture = s.capture
  frames : t.captureQueue = s.captureQueue
  shedding : t.shedding = s.shedding

/-- Of two states alike an operation makes two states alike, with the same records in both. -/
def ActsAlike (f : State → State) : Prop :=
  ∀ s t, EngineAlike s t → ∃ x, EndsWith s (f s) x ∧ EndsWith t (f t) x ∧ EngineAlike (f s) (f t)

theorem ActsAlike.comp {f g : State → State} (h : ActsAlike f) (k : ActsAlike g) : ActsAlike (fun s => g (f s)) := by
  intro s t e
  obtain ⟨x, a, b, c⟩ := h s t e
  obtain ⟨y, a2, b2, c2⟩ := k _ _ c
  exact ⟨x ++ y, a.trans a2, b.trans b2, c2⟩

theorem EngineAlike.refl (s : State) : EngineAlike s s :=
  ⟨rfl, rfl, rfl, rfl, rfl, rfl⟩

theorem EndsWith.closure (s : State) (c : RunningCapture) (reason : EndReason) (hc : s.capture = some c)
    (h : reason = .complete ∨ reason = .truncatedShed) :
    EndsWith s (s.endCapture reason) [.closure (closureOf c reason)] := by
  unfold State.endCapture
  rw [hc]
  refine ⟨?_, ?_, ?_, fun _ => rfl, ?_⟩
  · have h1 := Tells.offerRaise s (.closure (closureOf c reason)) .captureDone
    exact ⟨h1.builder, h1.grows, h1.routing, h1.count, (h1.mono (fun j => by simp)).raised⟩
  · rintro (e | e)
    · rw [hc] at e; cases e
    · cases e
  · intro _ d _ e
    cases e
  · intro d hd _
    rw [hc] at hd
    cases hd
    exact ⟨_, rfl, rfl, rfl, rfl, rfl, h⟩

theorem ActsAlike.endCapture (reason : EndReason) (h : reason = .complete ∨ reason = .truncatedShed) :
    ActsAlike (fun s => s.endCapture reason) := by
  intro s t e
  have e2 : EngineAlike (s.endCapture reason) (t.endCapture reason) := by
    obtain ⟨_, _, _, _, e1⟩ := s.endCapture_eq reason
    obtain ⟨_, _, _, _, e2⟩ := t.endCapture_eq reason
    rw [e1, e2]
    exact ⟨e.setup, e.channels, e.history, rfl, e.frames, e.shedding⟩
  cases hc : s.capture with
  | none =>
    have ht : t.capture = none := e.capture.trans hc
    have hs : s.endCapture reason = s := by unfold State.endCapture; rw [hc]
    have htt : t.endCapture reason = t := by unfold State.endCapture; rw [ht]
    rw [hs, htt] at e2
    refine ⟨[], ?_, ?_, ?_⟩ <;> dsimp only
    · rw [hs]; exact .refl s
    · rw [htt]; exact .refl t
    · rw [hs, htt]; exact e2
  | some c => exact ⟨_, .closure s c reason hc h, .closure t c reason (e.capture.trans hc) h, e2⟩

theorem EndsWith.shed {s t : State} {x : List RecordBody} (h : EndsWith { s with shedding := .shed } t x) :
    EndsWith s t x :=
  ⟨⟨h.tells.builder, h.tells.grows, h.tells.routing, h.tells.count, h.tells.raised⟩, h.goesOn, h.same, h.idle, h.record⟩

theorem ActsAlike.shedIfFull : ActsAlike State.shedIfFull := by
  intro s t e
  have hc : (t.shedding = .opened ∧ t.captureQueue.length = t.setup.highMark) ↔
      (s.shedding = .opened ∧ s.captureQueue.length = s.setup.highMark) := by
    rw [e.shedding, e.frames, e.setup]
  unfold State.shedIfFull
  by_cases h : s.shedding = .opened ∧ s.captureQueue.length = s.setup.highMark
  · rw [if_pos h, if_pos (hc.mpr h)]
    obtain ⟨x, a, b, c⟩ := ActsAlike.endCapture .truncatedShed (.inr rfl) { s with shedding := .shed }
      { t with shedding := .shed } ⟨e.setup, e.channels, e.history, e.capture, e.frames, rfl⟩
    exact ⟨x, a.shed, b.shed, c⟩
  · rw [if_neg h, if_neg (fun x => h (hc.mp x))]
    exact ⟨[], .refl s, .refl t, e⟩

theorem ActsAlike.formOne : ActsAlike State.formOne := by
  intro s t e
  unfold State.formOne
  rw [e.capture]
  cases hc : s.capture with
  | none => exact ⟨[], .refl s, .refl t, e⟩
  | some c =>
    dsimp only
    have hr : t.frameReady c = s.frameReady c := by
      unfold State.frameReady
      rw [e.history, e.frames]
    rw [hr]
    split
    · have hn : nextFrame t c = nextFrame s c := by
        unfold nextFrame State.channel
        rw [e.history, e.channels]
      unfold State.formFrame
      dsimp only
      rw [hn, e.frames]
      have h1 : EngineAlike
          { s with captureQueue := s.captureQueue ++ [nextFrame s c], capture := some (c.advance (nextFrame s c)) }
          { t with captureQueue := s.captureQueue ++ [nextFrame s c], capture := some (c.advance (nextFrame s c)) } :=
        ⟨e.setup, e.channels, e.history, rfl, rfl, e.shedding⟩
      have h2 : EndsWith s
          { s with captureQueue := s.captureQueue ++ [nextFrame s c], capture := some (c.advance (nextFrame s c)) } [] :=
        .goOn hc rfl rfl rfl rfl rfl ⟨rfl, rfl, rfl, rfl⟩
      have h3 : EndsWith t
          { t with captureQueue := s.captureQueue ++ [nextFrame s c], capture := some (c.advance (nextFrame s c)) } [] :=
        .goOn (e.capture.trans hc) rfl rfl rfl rfl rfl ⟨rfl, rfl, rfl, rfl⟩
      split
      · obtain ⟨x, a, b, d⟩ := (ActsAlike.endCapture .complete (.inl rfl)).comp ActsAlike.shedIfFull _ _ h1
        exact ⟨x, h2.trans a, h3.trans b, d⟩
      · obtain ⟨x, a, b, d⟩ := ActsAlike.shedIfFull _ _ h1
        exact ⟨x, h2.trans a, h3.trans b, d⟩
    · exact ⟨[], .refl s, .refl t, e⟩

theorem ActsAlike.formFrames (n : Nat) : ActsAlike (fun s => s.formFrames n) := by
  induction n with
  | zero => exact fun s t e => ⟨[], .refl s, .refl t, e⟩
  | succ n ih => exact ActsAlike.formOne.comp ih

theorem ActsAlike.formIfAt (o : Interleaving) (k : Fin 5) : ActsAlike (fun s => s.formIfAt o k) := by
  intro s t e
  unfold State.formIfAt
  dsimp only
  split
  · exact ActsAlike.formFrames _ s t e
  · exact ⟨[], .refl s, .refl t, e⟩

/-! ### Beside the points' turns -/

theorem Formed.formIfAt (s : State) (o : Interleaving) (k : Fin 5) : Formed s (s.formIfAt o k) := by
  unfold State.formIfAt
  split
  · exact .formAll s
  · exact .refl s

/-- The due markings and the strobe: what they change, with the commands that are outstanding. -/
structure Placed (s t : State) : Prop where
  points : ∀ p, t.point p = { s.point p with check := (t.point p).check }
  channels : ∀ c, t.channel c = { s.channel c with due := (t.channel c).due }
  modules : ∀ m, t.module m = { s.module m with command := (t.module m).command, echo := (t.module m).echo } ∧
    ((t.module m).command = none ↔ (s.module m).command = none)
  rest : t = { s with
    points := t.points, channels := t.channels, modules := t.modules, strobe := t.strobe, dueNow := t.dueNow }

theorem Placed.refl (s : State) : Placed s s :=
  ⟨fun _ => rfl, fun _ => rfl, fun _ => ⟨rfl, Iff.rfl⟩, rfl⟩

theorem Placed.trans {s t u : State} (h : Placed s t) (k : Placed t u) : Placed s u := by
  refine ⟨fun p => ?_, fun c => ?_, fun m => ⟨?_, (k.modules m).2.trans (h.modules m).2⟩, ?_⟩
  · rw [k.points p, h.points p]
  · rw [k.channels c, h.channels c]
  · rw [(k.modules m).1, (h.modules m).1]
  · rw [k.rest, h.rest]

theorem Placed.ofChannels (s : State) (v : Vector ChannelRecord 24)
    (h : ∀ c : Channel, v[c.val] = { s.channel c with due := (v[c.val]).due }) : Placed s { s with channels := v } :=
  ⟨fun _ => rfl, h, fun _ => ⟨rfl, Iff.rfl⟩, rfl⟩

theorem Placed.ofModules (s : State) (v : Vector ModuleRecord 4)
    (h : ∀ m : Module, v[m.val] = { s.module m with command := (v[m.val]).command, echo := (v[m.val]).echo } ∧
      ((v[m.val]).command = none ↔ (s.module m).command = none)) : Placed s { s with modules := v } :=
  ⟨fun _ => rfl, fun _ => rfl, h, rfl⟩

theorem Placed.markDue (s : State) (period second : Bool) : Placed s (s.markDue period second) := by
  unfold State.markDue
  split
  · refine Placed.ofChannels s _ (fun c => ?_)
    rw [mapAll_get]
    show _ = _
    split <;> rfl
  · exact .refl s

theorem Placed.takePeriodDue (s : State) : Placed s s.takePeriodDue := by
  unfold State.takePeriodDue
  split
  · exact (Placed.markDue s true false).trans ⟨fun _ => rfl, fun _ => rfl, fun _ => ⟨rfl, Iff.rfl⟩, rfl⟩
  · exact .refl s

theorem Placed.takeSecondDue (s : State) : Placed s s.takeSecondDue := by
  unfold State.takeSecondDue
  split
  · exact (Placed.markDue s false true).trans ⟨fun _ => rfl, fun _ => rfl, fun _ => ⟨rfl, Iff.rfl⟩, rfl⟩
  · exact .refl s

theorem Placed.strobe (s : State) (f : StrobeFrame) : Placed s { s with strobe := f } :=
  ⟨fun _ => rfl, fun _ => rfl, fun _ => ⟨rfl, Iff.rfl⟩, rfl⟩

theorem Placed.issueStrobe (s : State) : Placed s s.issueStrobe := by
  unfold State.issueStrobe
  split
  · exact .strobe s _
  split
  · rename_i p _
    have h : Placed s (s.arbitrateChecks p s.count) := by
      refine ⟨fun q => ?_, fun _ => rfl, fun _ => ⟨rfl, Iff.rfl⟩, rfl⟩
      unfold State.arbitrateChecks
      rw [State.mapPoints_point]
      split
      · rfl
      · split <;> rfl
    exact h.trans (.strobe (s.arbitrateChecks p s.count) _)
  · split
    · rename_i m _
      have h : Placed s (s.modModule m (fun r => r.forward s.count)) := by
        refine Placed.ofModules s _ (fun n => ?_)
        rw [updAt_get]
        split
        · rename_i e
          subst e
          exact ⟨rfl, by simp [ModuleRecord.forward, State.module]⟩
        · exact ⟨rfl, Iff.rfl⟩
      exact h.trans (.strobe (s.modModule m _) _)
    · exact .strobe s _

theorem Placed.iteIf {s t : State} {c : Prop} [Decidable c] (h : Placed s t) : Placed s (if c then t else s) := by
  split
  · exact h
  · exact .refl s

/-- What the timeouts and the frames of a place do, in the order that the operand gives. -/
theorem AsideAt.records (s : State) (o : Interleaving) (k : Fin 5) :
    AsideAt o k.val s (((s.timeoutIfAt o true k.val).formIfAt o k).timeoutIfAt o false k.val) := by
  have hn : (orderOf o.moduleOrder).Nodup := by
    generalize o.moduleOrder = x
    revert x
    decide
  unfold State.timeoutIfAt
  by_cases hk : o.timeoutsAt.val = k.val
  · obtain ⟨h1, ⟨r, b, a, h2⟩, h3⟩ := State.timeoutAll_spec (orderOf o.moduleOrder) hn s
    have hall : ∀ m, m ∈ orderOf o.moduleOrder := by
      intro m
      generalize o.moduleOrder = x
      revert m x
      decide
    cases hf : o.timeoutsFirst with
    | true =>
      rw [if_neg (show ¬ (o.timeoutsAt.val = k.val ∧ true = false) from fun h => by cases h.2),
        if_pos (show o.timeoutsAt.val = k.val ∧ true = true from ⟨hk, rfl⟩)]
      have ha : EngineAlike s (s.timeoutAll (orderOf o.moduleOrder)) := by
        rw [h2]
        exact ⟨rfl, rfl, rfl, rfl, rfl, rfl⟩
      obtain ⟨x, e1, e2, e3⟩ := ActsAlike.formIfAt o k s _ ha
      obtain ⟨q, sh, c, b2, a2, _, _, _, _, h4⟩ := Formed.formIfAt (s.timeoutAll (orderOf o.moduleOrder)) o k
      have ht := h1.trans e2.tells
      obtain ⟨raised, hr, hj⟩ := ht.raised
      have hb := ht.builder
      refine ⟨fun p => ?_, fun d => ?_, fun m => ?_, ?_, ?_⟩
      · rw [h4, h2]; rfl
      · rw [h4, h2]; rfl
      · have h5 : ((s.timeoutAll (orderOf o.moduleOrder)).formIfAt o k).module m =
            (s.timeoutAll (orderOf o.moduleOrder)).module m := by rw [h4]; rfl
        rw [h5, h3]
        by_cases hm : (s.overdueReply m).isSome = true
        · rw [if_pos ⟨hall m, hm⟩]
          exact ⟨rfl, by simp [hk, hm]⟩
        · rw [if_neg (fun h => hm h.2)]
          exact ⟨rfl, by simp [hm]⟩
      · refine ⟨s.formIfAt o k, _, x, raised, rfl, e3.capture, e3.frames, e3.shedding, e1.tells.builder,
          e1.goesOn, e1.record, (if_pos hk).symm, ?_, ?_, ?_⟩
        · rw [hf]; exact hb
        · rw [State.foldl_raise]; exact hr
        · intro j
          rw [hj]
          exact or_assoc
      · rw [h4, h2]
    | false =>
      rw [if_neg (show ¬ (o.timeoutsAt.val = k.val ∧ false = true) from fun h => by cases h.2),
        if_pos (show o.timeoutsAt.val = k.val ∧ false = false from ⟨hk, rfl⟩)]
      obtain ⟨x, e1, _, _⟩ := ActsAlike.formIfAt o k s s (.refl s)
      obtain ⟨q, sh, c, b2, a2, _, _, _, _, h4⟩ := Formed.formIfAt s o k
      obtain ⟨g1, ⟨r2, b3, a3, g2⟩, g3⟩ := State.timeoutAll_spec (orderOf o.moduleOrder) hn (s.formIfAt o k)
      have hm0 : ∀ m, (s.formIfAt o k).module m = s.module m := fun m => by rw [h4]; rfl
      have hov : (s.formIfAt o k).overdueReply = s.overdueReply :=
        funext (fun m => State.overdueReply_congr m (hm0 m) e1.tells.count)
      rw [hov] at g1 g3
      have ht := e1.tells.trans g1
      obtain ⟨raised, hr, hj⟩ := ht.raised
      refine ⟨fun p => ?_, fun d => ?_, fun m => ?_, ?_, ?_⟩
      · rw [g2, h4]; rfl
      · rw [g2, h4]; rfl
      · rw [g3, hm0]
        by_cases hm : (s.overdueReply m).isSome = true
        · rw [if_pos ⟨hall m, hm⟩]
          exact ⟨rfl, by simp [hk, hm]⟩
        · rw [if_neg (fun h => hm h.2)]
          exact ⟨rfl, by simp [hm]⟩
      · refine ⟨s.formIfAt o k, _, x, raised, rfl, by rw [g2], by rw [g2], by rw [g2], e1.tells.builder,
          e1.goesOn, e1.record, (if_pos hk).symm, ?_, ?_, ?_⟩
        · rw [hf]; exact ht.builder
        · rw [State.foldl_raise]; exact hr
        · intro j
          rw [hj, or_comm (a := j = .captureDone ∧ _)]
          exact or_assoc
      · rw [g2, h4]
  · rw [if_neg (fun h => hk h.1), if_neg (fun h => hk h.1)]
    obtain ⟨x, e1, _, _⟩ := ActsAlike.formIfAt o k s s (.refl s)
    obtain ⟨q, sh, c, b2, a2, _, _, _, _, h4⟩ := Formed.formIfAt s o k
    obtain ⟨raised, hr, hj⟩ := e1.tells.raised
    refine ⟨fun p => ?_, fun d => ?_, fun m => ?_, ?_, ?_⟩
    · rw [h4]; rfl
    · rw [h4]; rfl
    · rw [h4]
      exact ⟨rfl, by simp [hk]; rfl⟩
    · refine ⟨s.formIfAt o k, [], x, raised, rfl, rfl, rfl, rfl, e1.tells.builder,
        e1.goesOn, e1.record, (if_neg hk).symm, ?_, ?_, ?_⟩
      · rw [List.nil_append, List.append_nil, ite_self]; exact e1.tells.builder
      · rw [State.foldl_raise]; exact hr
      · intro j
        rw [hj]
        simp
    · rw [h4]

theorem AsideAt.placed {o : Interleaving} {k : Nat} {s t u : State} (h : AsideAt o k s t) (q : Placed t u) :
    AsideAt o k s u := by
  have hr := q.rest
  have e : u.capture = t.capture ∧ u.captureQueue = t.captureQueue ∧ u.shedding = t.shedding ∧
      u.builder = t.builder ∧ u.attention = t.attention := by rw [hr]; exact ⟨rfl, rfl, rfl, rfl, rfl⟩
  refine ⟨fun p => ?_, fun c => ?_, fun m => ⟨?_, ?_⟩, ?_, ?_⟩
  · rw [q.points p, h.points p]
  · rw [q.channels c, h.channels c]
  · rw [(q.modules m).1, (h.modules m).1]
  · exact (q.modules m).2.trans (h.modules m).2
  · rw [e.1, e.2.1, e.2.2.1, e.2.2.2.1, e.2.2.2.2]
    exact h.noted
  · rw [hr, h.rest]

/-- What a place of the order does beside the points' turns. -/
theorem AsideAt.between (s : State) (o : Interleaving) (k : Fin 5) : AsideAt o k.val s (s.between o k) :=
  (((AsideAt.records s o k).placed (.iteIf (.takePeriodDue _))).placed (.iteIf (.takeSecondDue _))).placed
    (.iteIf (.issueStrobe _))

theorem orderOf_turns (k : Fin 24) : ∃ a b c d, orderOf k = [a, b, c, d] ∧ b ≠ a ∧ c ≠ a ∧ c ≠ b ∧ d ≠ a ∧ d ≠ b ∧
    d ≠ c ∧ ∀ p, p = a ∨ p = b ∨ p = c ∨ p = d := by
  revert k
  decide

/-- The points take the set in the order that the command gives, each in the state in which its turn finds the device. -/
theorem TakesInTurn.deliverAll (s : State) (t : Tick) (set : SampleSet) (changes : Vector Bool 4) (o : Interleaving) :
    ∃ u d : Point → State, TakesInTurn o u d 0 (orderOf o.pointOrder) s (s.deliverAll t set changes o) ∧
      ∀ p, d p = (u p).deliverIf t set changes p := by
  obtain ⟨a, b, c, e, h, hba, hca, hcb, hea, heb, hec, hall⟩ := orderOf_turns o.pointOrder
  let ua := s.between o 0
  let ub := (ua.deliverIf t set changes a).between o 1
  let uc := (ub.deliverIf t set changes b).between o 2
  let ue := (uc.deliverIf t set changes c).between o 3
  let u : Point → State := fun p => if p = a then ua else if p = b then ub else if p = c then uc else ue
  have e1 : u a = ua := if_pos rfl
  have e2 : u b = ub := by simp [u, hba]
  have e3 : u c = uc := by simp [u, hca, hcb]
  have e4 : u e = ue := by simp [u, hea, heb, hec]
  refine ⟨u, fun p => (u p).deliverIf t set changes p, ?_, fun _ => rfl⟩
  have hd : s.deliverAll t set changes o = (ue.deliverIf t set changes e).between o 4 := by
    unfold State.deliverAll
    rw [h]
    rfl
  rw [hd, h]
  refine ⟨?_, ?_, ?_, ?_, ?_⟩
  · rw [e1]
    exact AsideAt.between s o 0
  · show AsideAt o 1 ((u a).deliverIf t set changes a) (u b)
    rw [e1, e2]
    exact AsideAt.between _ o 1
  · show AsideAt o 2 ((u b).deliverIf t set changes b) (u c)
    rw [e2, e3]
    exact AsideAt.between _ o 2
  · show AsideAt o 3 ((u c).deliverIf t set changes c) (u e)
    rw [e3, e4]
    exact AsideAt.between _ o 3
  · show AsideAt o 4 ((u e).deliverIf t set changes e) _
    rw [e4]
    exact AsideAt.between _ o 4

end Sys2Proof.Machine
end

