-- ==== Sys2Proof/WellFormed.lean ====
section
/-! DEFINITION. Which operands of a command the spec's frames can carry. -/

namespace Sys2Proof

/-- A command whose operands have the sizes and ranges of the spec's frames: a sample frame of 30 bytes
(section 12.2), a 26-byte entry field (R180), an unknown kind of 0Ah or above (R180), a table code that names
no table or a read-only one (R152), a class mask without its six unused bits (R179). `exec` takes every
command, these or not (log entry 14). -/
def Instr.wellFormed : Instr → Bool
  | .reset _ => true
  | .initComplete => true
  | .strobeTimerExpiry _ _ => true
  | .leadCheckPeriodDue => true
  | .wholeSecondDue => true
  | .moduleCommandTimeout _ => true
  | .sampleFrame bytes _ => bytes.length == 30
  | .captureFrameForm => true
  | .pulseExpiry _ => true
  | .gapExpiry _ => true
  | .supplyFailure => true
  | .supplyReturnHoldup => true
  | .holdupTimerExpiry _ => true
  | .supplyReturnStandby => true
  | .exchangeBegin => true
  | .exchangeEnd _ _ => true
  | .unknownKind kind _ => decide (0x0A ≤ kind.toNat)
  | .nop _ => true
  | .ack _ classes => decide (classes.toNat < 1024)
  | .tableWriteSetup _ _ entry _ => entry.length == 26
  | .tableWriteChannelMap _ _ entry => entry.length == 26
  | .tableWriteLimits _ _ entry => entry.length == 26
  | .tableWriteRouting _ _ entry => entry.length == 26
  | .tableWriteReadOnly _ table _ => decide (4 ≤ table.toNat)
  | .tableRead _ _ _ _ => true
  | .start _ => true
  | .stop _ => true
  | .timeSet _ _ => true
  | .trigger _ _ => true
  | .closeAssessment _ _ => true
  | .moduleCommand _ _ _ => true

end Sys2Proof
end

