-- ==== Sys2Proof/Tests/Slice0.lean ====
section
/-! SUPPORT. Tests of the model: ill-formed commands, the worked examples of the spec, and for each statement with
hypotheses a state and operands that meet them (`test_meets_<statement>`), clause by clause. -/

namespace Sys2Proof.Tests
open Sys2Proof.Machine

set_option Elab.async false

/-! ### Small states -/

/-- The state a command leads to. -/
def after (c : Instr) (s : State) : State :=
  match exec c s with
  | .next t => t
  | .fault _ => s
  | .refused _ => s

/-- A device in a given state, else as after reset. -/
def dev (d : DeviceState) : State :=
  { State.reset with control := { State.reset.control with device := d } }

/-- The level of the supply. -/
def withLevel (l : SupplyLevel) (s : State) : State :=
  { s with control := { s.control with level := l } }

/-- A prior state, with the hold-up timer running from tick 0. -/
def withPrior (q : PriorState) (s : State) : State :=
  { s with control := { s.control with prior := some q, timerRunning := true } }

/-- The count at a tick. -/
def atTick (t : Tick) (s : State) : State :=
  { s with count := t }

/-- Modules AM0 and AM1 enabled. -/
def enabled (s : State) : State :=
  { s with setup := { s.setup with moduleEnable := 3 } }

/-- AM0 in a state with a good run and a miss count. -/
def am0 (st : ModuleState) (run misses : Nat) (s : State) : State :=
  (enabled s).modModule 0 (fun r => { r with state := st, goodRun := run, missCount := misses })

/-- A command of AM0, sent at a tick with echo tag 17, or waiting. -/
def commanded (sent : Option Tick) (s : State) : State :=
  s.modModule 0 (fun r => { r with
    command := some { tag := 5, word := 0xABCD, sent := sent.map (fun t => { echo := 17, tick := t }) } })

/-- A voltage channel: point 0, phase 1, slot 0 of AM0, checked, gain 8527. -/
def voltage : MapEntry :=
  { MapEntry.cleared with
    enabled := true, leadCheck := true, phase := 1, gain := 8527, level := 1000, band := 10, delay := 2 }

/-- That channel as logical channel 0, in a lead state. -/
def mapped (lead : LeadState) (s : State) : State :=
  s.modChannel 0 (fun ch => { ch with entry := voltage, lead := lead })

/-- Limits with a declared voltage of 230.50 V. -/
def limits : LimitsEntry :=
  { declared := 23050, dip := 900, swell := 1100, interruption := 10, hysteresis := 20, lowerBand := 900,
    upperBand := 1100, freqLower := 49000, freqUpper := 51000, crossing := 100 }

/-- Point 0 with those limits, measured or not. -/
def limited (measured : Bool) (s : State) : State :=
  s.modPoint 0 (fun pt => { (pt.install limits) with measured := measured })

/-- A check of channel 0 in flight at point 0, aimed at a tick. -/
def checking (target : Tick) (sent : Bool) (s : State) : State :=
  s.modPoint 0 (fun pt => { pt with
    check := some { channel := 0, module := 0, slot := 0, target := target, sent := sent } })

/-- A sample frame of AM0 with its check word: tag, check-slot marker, reply flags, echo tag, code of slot 0. -/
def am0Frame (tag marker flags echo : Byte) (code : Nat) : List Byte :=
  sealFrame ([0, tag, 0x01, marker, flags, echo, 0, 0, 0x12, 0x34] ++ beBytes 3 code ++ List.replicate 15 0)

/-- A control frame with its length and check word: kind, tag, fields. -/
def control (kind tag : Byte) (fields : List Byte) : List Byte :=
  sealFrame ([kind, tag] ++ beBytes 2 (6 + fields.length + fields.length % 2) ++ fields)

/-- An exchange of an idle frame under way. -/
def exchanging (s : State) : State :=
  { s with exchange := some { choice := .idle, header := (dev .stopped).composeHeader } }

/-- An open event. -/
def event (k : EventClass) : OpenEvent :=
  { tag := 9, eventClass := k, startTick := 3, startEpoch := 3, epochUnset := true, extreme := 20000,
    extremePhase := 1, phases := 2, windows := 1, blindWindows := 0,
    flags := { freeSeen := false, clippedSeen := false, heldSeen := false, timeStepped := false },
    captureStatus := .taken, captureTag := some 9, work := .decided .notAssessed none }

/-- A running capture of point 0 from tick 1 up to a planned end, with `stored` sets from tick 1 on. -/
def capturing (planned : Tick) (stored : Nat) (s : State) : State :=
  { s with
    history := { head := some (BitVec.ofNat 48 stored),
                 sets := List.replicate stored (Vector.replicate 4 (Vector.replicate 6 (storeSlot .blank))) }
    capture := some
      { tag := 9, point := 0, channels := [0], triggerTick := 1, triggerEpoch := 1, startTick := 1, preCount := 0,
        plannedEnd := planned, readPosition := 1, frameIndex := 0, delivered := 0, crc := 0xFFFF } }

/-- A RUNNING device that has stored `n` sets, from tick 1 to the last one closed. -/
def stored (n : Nat) : State :=
  { capturing 65 n (atTick (BitVec.ofNat 48 (n + 1)) (dev .running)) with capture := none }

/-- One sample away from a failing level. -/
def falling (s : State) : State :=
  { s with control := { s.control with runCount := 31 } }

/-- A capture frame of no interest. -/
def frame : CaptureFrame :=
  { tag := 1, point := 0, index := 0, channels := [], firstTick := 0, heldPresent := false, clippedPresent := false,
    codes := [] }

/-- A Capture Queue of `n` frames. -/
def queued (n : Nat) (s : State) : State :=
  { s with captureQueue := List.replicate n frame }

/-- An assessment in progress at point 0. -/
def assessed (s : State) : State :=
  s.modPoint 0 (fun pt => { pt with assessment := some (.fresh 0) })

/-- A window result with one usable voltage phase. -/
def result (v : Nat) : WindowResult :=
  { values := [{ channel := 0, kind := .voltage, phase := 1, value := some v, quality := .good, clipped := false,
                 opened := false, free := false }]
    tick := 500, free := false }

/-- A dip and a swell open at point 0. -/
def disturbed (s : State) : State :=
  s.modPoint 0 (fun pt => { pt with low := .dip (event .dip), high := .swell (event .swell), measured := true })

/-- Everything else of an expiry after all points; the lines' pulses and gaps after the raises. -/
def lastly : Interleaving :=
  { pointOrder := 0, moduleOrder := 0, fieldAt := 4, periodAt := 4, secondAt := 4, framesAt := 4,
    timeoutsAt := 5, timeoutsFirst := false, line0First := false, line1First := false }

/-- An exchange of the capture frame at the head of the queue under way, with no record waiting. -/
def sendingCapture (s : State) : State :=
  after .exchangeBegin { s with builder := { s.builder with queue := [] } }

/-- A current channel of point 0: logical channel 1, slot 1 of AM0, with a ring. -/
def clamped (ring : List Nat) (s : State) : State :=
  s.modChannel 1 (fun ch => { ch with
    entry := { MapEntry.cleared with enabled := true, slot := 1, kind := .current, phase := 1, gain := 8527 }
    ring := ring })

/-- The result above with a current value of logical channel 1. -/
def resultWith (v current : Nat) : WindowResult :=
  { result v with values := (result v).values ++
      [{ channel := 1, kind := .current, phase := 1, value := some current, quality := .good, clipped := false,
         opened := false, free := false }] }

/-! ### Ill-formed commands -/

theorem test_wellformed_refuses :
    Instr.wellFormed (.sampleFrame (List.replicate 29 0) true) = false ∧
    Instr.wellFormed (.unknownKind 0x09 1) = false ∧
    Instr.wellFormed (.ack 1 1024) = false ∧
    Instr.wellFormed (.tableWriteSetup 1 0 (List.replicate 25 0) 0) = false ∧
    Instr.wellFormed (.tableWriteChannelMap 1 0 (List.replicate 27 0)) = false ∧
    Instr.wellFormed (.tableWriteLimits 1 0 []) = false ∧
    Instr.wellFormed (.tableWriteRouting 1 0 (List.replicate 14 0)) = false ∧
    Instr.wellFormed (.tableWriteReadOnly 1 0x03 0) = false := by decide

theorem test_wellformed_accepts :
    Instr.wellFormed (.sampleFrame (am0Frame 7 0x80 1 17 0) true) = true ∧
    Instr.wellFormed (.unknownKind 0x0A 1) = true ∧ Instr.wellFormed (.ack 1 1023) = true ∧
    Instr.wellFormed (.tableWriteSetup 1 0 (List.replicate 26 0) 0) = true ∧
    Instr.wellFormed (.tableWriteReadOnly 1 0x04 0) = true ∧
    decodeTableWord 8 0 = none := by decide

/-! ### Worked examples of the spec -/

/-- Section 4.3: one window value. -/
theorem test_window_value :
    intRoot 8000000000000 = 2828427 ∧ scaleRoot 2828427 8527 = 23001 ∧
    scaledMean 2048000000000000 256 8527 = 23001 ∧ intRoot 0 = 0 ∧ intRoot (2 ^ 46) = 8388608 := by decide +kernel

/-- Section 4.7: thresholds of one point. -/
theorem test_thresholds : deriveThresholds limits =
    { dipStart := 20745, dipEnd := 21206, intStart := 231, intEnd := 692, swellStart := 25355, swellEnd := 24894,
      lowerBand := 20745, upperBand := 25355 } := by decide

/-- Section 4.8: reference and ratio. -/
theorem test_origin_ratio :
    ringReference [10190, 10210, 10205, 10198, 10202, 10200, 10195, 10205] = some 10200 ∧
    originRatio 15300 10200 = 384 ∧ originRatio 12000 40 = 65535 ∧ originRatio 0 0 = 256 ∧
    originRatio 1 0 = 65535 := by decide

/-- R48 and section 3.6: a crossing instant and a frequency value. -/
theorem test_frequency :
    crossingInstant 1280034 (-175000) 225000 = 327688560 ∧
    crossingInstant 1407925 (-2000) 30000 = 360428560 ∧
    frequencyValue 12800 500 327688560 360428560 = 49943 := by decide

/-- R23: the offset correction. -/
theorem test_corrected_code :
    correctedCode (BitVec.ofInt 24 (-8388000)) (BitVec.ofInt 16 1000) = -8388608 ∧
    correctedCode 412 (BitVec.ofInt 16 (-35)) = 447 := by decide

/-- Section 1.8: the third miss loses AM0, and its command ends. -/
theorem test_module_lost :
    ((after (.strobeTimerExpiry .good lastly)
      { (commanded (some 990) (am0 .locked 0 2 (atTick 1003 (dev .stopped)))) with
        setup := { State.reset.setup with moduleEnable := 3, missLimit := 3 } }).module 0).state = .lost := by
  decide +kernel

/-- Section 1.8: the fourth good frame locks AM0, its samples still unavailable. -/
theorem test_module_locked :
    ((after (.sampleFrame (am0Frame 0xF2 0 0 0 412) true) (am0 .lost 3 3 (atTick 1010 (dev .stopped)))).module 0).state =
      .locked ∧
    ((after (.sampleFrame (am0Frame 0xF2 0 0 0 412) true) (am0 .lost 3 3 (atTick 1010 (dev .stopped)))).module 0).slots[0] =
      { code := 412, held := false, clipped := true, unavailable := true } := by decide +kernel

/-- Section 9.7: exchange 1 completes, its frame is held, and at exchange 2 the slot is full. -/
theorem test_first_exchanges :
    (after .exchangeBegin State.reset).outboundBytes.length = 28 ∧
    (after (.exchangeEnd (control 0x02 1 (List.replicate 28 0)) 0) (after .exchangeBegin State.reset)).builder.queue =
      [] ∧
    (after (.exchangeEnd (control 0x02 2 (List.replicate 28 0)) 0)
      (exchanging { State.reset with port := { State.reset.port with held := some (.start 1) } })).port.overrun =
      true := by decide +kernel

/-- Section 12.2: the bytes of a sample frame, field by field. -/
theorem test_sample_frame :
    parseSampleFrame ([3, 0x41, 0x05, 0x82, 0x01, 0x11, 0xDE, 0xAD, 0xBE, 0xEF, 0xFF, 0xFF, 0xFE] ++
        List.replicate 17 0) =
      { module := 3, tag := 0x41, overrange := 0x05, markerValid := true, markerSlot := 2, replyPresent := true,
        echo := 0x11, reply := 0xDEADBEEF,
        samples := (Vector.replicate 6 0).set 0 0xFFFFFE } := by decide +kernel

/-- R179: the check word of a NOP with tag 7 written out, and the check CRC of the digits 1 to 9. -/
theorem test_check_words :
    sealFrame [0x00, 0x07, 0x00, 0x06] = [0x00, 0x07, 0x00, 0x06, 0xFF, 0xF2] ∧
    judgeControlFrame [0x00, 0x07, 0x00, 0x06, 0xFF, 0xF2] = some (.nop 7) ∧
    crc16 0xFFFF [0x31, 0x32, 0x33, 0x34, 0x35, 0x36, 0x37, 0x38, 0x39] = 0x29B1 := by decide +kernel

/-- Section 12.2: a strobe frame with a forwarded command. -/
theorem test_strobe_frame :
    (StrobeFrame.bytes { tag := 0x22, field := .forward 1 0x11 0x01020304, transmitted := true }).take 8 =
      [0x22, 0x02, 0x01, 0x11, 0x01, 0x02, 0x03, 0x04] := by decide +kernel

/-! ### States and operands that meet the hypotheses of the statements -/

theorem test_meets_InitClearsTables :
    ((dev .init).control.device = .init ∧ (dev .init).port.held = none ∧ (dev .init).control.level = .good) ∧
    (dev .standby).control.device ≠ .init := by decide

theorem test_meets_InitRunsHeldFrame :
    ({ dev .init with port := { State.reset.port with held := some (.start 7) } } : State).port.held =
      some (.start 7) ∧
    judgeControlFrame (control 0x04 7 []) = some (.start 7) ∧ (dev .init).port.held = none := by decide +kernel

theorem test_meets_ExpiryBeginsTick :
    (dev .standby).control.level = .good ∧
    ({ dev .stopped with control := { State.reset.control with runCount := 31 } } : State).setup.debounce ≤ 31 + 1 ∧
    ({ dev .stopped with control := { State.reset.control with runCount := 30 } } : State).control.runCount + 1 < 32 := by
  decide

/-- A running device with one checked channel in a lead state, one tick before a count value. -/
def dueAt (lead : LeadState) (count : Tick) : State :=
  mapped lead (limited true (atTick (count - 1) (dev .running)))

/-- The due clauses of ExpiryBeginsTick: a whole second, a period, a count value of neither; and the marking is taken
within the expiry (log entry 34). -/
theorem test_due_within_expiry :
    ((after (.strobeTimerExpiry .good lastly) (dueAt .suspect 12800)).channel 0).due = true ∧
    ((after (.strobeTimerExpiry .good lastly) (dueAt .connected 12800)).channel 0).due = false ∧
    ((after (.strobeTimerExpiry .good { lastly with periodAt := 0 }) (dueAt .connected 3840000)).channel 0).due = true ∧
    ((after (.strobeTimerExpiry .good lastly) (dueAt .suspect 12801)).channel 0).due = false ∧
    (after (.strobeTimerExpiry .good lastly) (dueAt .suspect 3840000)).dueNow = { period := false, second := false } ∧
    State.reset.setup.leadPeriod * State.reset.setup.nominal.rate = 3840000 := by decide +kernel

theorem test_meets_ExpiryCountsMiss :
    ((am0 .locked 0 6 (dev .running)).control.level = .good ∧ (am0 .locked 0 6 (dev .running)).control.device ≠ .holdup) ∧
    ((withLevel .failing (withPrior .running (atTick 63999 (dev .holdup)))).control.level = .failing ∧
      ((63999 : Tick) - 0).toNat < (withPrior .running (dev .holdup)).setup.holdupLimit * 256) ∧
    ((withLevel .failing (dev .running)).control.level = .failing ∧ 1 ≤ (dev .running).setup.holdupLimit) ∧
    ((commanded none (am0 .locked 0 7 (dev .running))).module 0).command.isSome = true ∧
    ((am0 .locked 0 6 (dev .running)).setup.enables 0 = true ∧ ((am0 .locked 0 6 (dev .running)).module 0).taken = false ∧
      ((am0 .locked 0 6 (dev .running)).module 0).missCount + 1 < (am0 .locked 0 6 (dev .running)).setup.missLimit) ∧
    ((am0 .locked 0 7 (dev .running)).module 0).missCount + 1 = (am0 .locked 0 7 (dev .running)).setup.missLimit ∧
    ((am0 .seeking 3 0 (dev .stopped)).module 0).state = .seeking ∧
    ((am0 .lost 3 8 (dev .stopped)).module 0).state = .lost ∧
    (am0 .lost 3 8 (dev .stopped)).setup.enables 2 = false ∧
    (((am0 .locked 0 0 (dev .running)).modModule 0 (fun r => { r with taken := true })).module 0).taken = true := by
  decide +kernel

theorem test_meets_ExpiryWritesHistory :
    ((am0 .locked 0 0 (dev .running)).control.level = .good ∧ (am0 .locked 0 0 (dev .running)).control.device = .running) ∧
    (((am0 .locked 0 0 (dev .running)).modModule 0 (fun r => { r with taken := true })).module 0).slots[0].unavailable =
      false ∧
    (((am0 .lost 0 0 (dev .running)).modModule 0 (fun r =>
      { r with taken := true, slots := Vector.replicate 6 .missing })).module 0).slots[5].unavailable = true ∧
    ((am0 .locked 0 6 (dev .running)).module 0).missCount + 1 < 8 ∧
    ((am0 .locked 0 7 (dev .running)).module 0).missCount + 1 = 8 ∧
    ((am0 .locked 0 7 (dev .running)).module 3).state ≠ .locked ∧
    (dev .stopped).control.device = .stopped ∧ (dev .init).control.device = .init ∧
    ((withLevel .failing (dev .running)).control.device = .running ∧ 1 ≤ (dev .running).setup.holdupLimit) ∧
    ((withPrior .running (dev .holdup)).control.prior = some .running ∧
      ((63999 : Tick) - 0).toNat < (dev .holdup).setup.holdupLimit * 256) ∧
    ((withLevel .failing (dev .standby)).control.level = .failing ∧
      (withPrior .stopped (dev .standby)).control.prior ≠ some .running ∧
      (withPrior .running (dev .standby)).setup.restart = .stayStopped) ∧
    (withPrior .stopped (dev .holdup)).control.prior ≠ some .running := by decide +kernel

/-- A running device that measures point 0 with a LOCKED module and one voltage channel. -/
def measuring : State :=
  mapped .connected (am0 .locked 4 0 (limited true (dev .running)))

/-- ExpiryWritesHistory on the delivery of the set: a measured point takes it once, with a change notice when its
reference is a new one; another point does not. -/
theorem test_meets_ExpiryWritesHistory_delivery :
    ((measuring.point 0).measured = true ∧ (measuring.point 1).measured = false ∧
      (measuring.channel 0).entry.point = (0 : Point).val) ∧
    ((after (.strobeTimerExpiry .good lastly) measuring).point 0).boundary.count = 1 ∧
    ((after (.strobeTimerExpiry .good lastly) measuring).point 0).reference = some 1 ∧
    ((after (.strobeTimerExpiry .good lastly) measuring).channel 0).current.n = 1 ∧
    ((after (.strobeTimerExpiry .good lastly) measuring).channel 0).current.held = 1 ∧
    ((after (.strobeTimerExpiry .good lastly) measuring).point 1).boundary.count = 0 ∧
    ((after (.strobeTimerExpiry .good lastly) { measuring with control := (dev .stopped).control }).point 0).boundary.count
      = 0 ∧
    measuring.chooseReference 0 measuring.closingSet ≠ (measuring.point 0).reference := by decide +kernel

/-- R19, R131, log entry 3: a command sent 65 ticks before the new tick ends among the records of the expiry, before or
after that of a module lost at the same deadline, or by its own row. -/
theorem test_timeout_order :
    ∃ s, s = ((commanded (some 0) (am0 .locked 4 0 (atTick 64 (dev .running)))).modModule 0
        (fun r => { r with taken := true })).modModule 1 (fun r => { r with state := .locked, missCount := 7 }) ∧
      ((after (.strobeTimerExpiry .good { lastly with timeoutsFirst := true }) s).builder.queue.map
        QueuedRecord.seq).length = 3 ∧
      ((after (.strobeTimerExpiry .good { lastly with timeoutsFirst := true }) s).builder.queue[1]?.map
        QueuedRecord.body) = ((after (.strobeTimerExpiry .good { lastly with timeoutsAt := 0 }) s).builder.queue[2]?.map
        QueuedRecord.body) ∧
      ((after (.strobeTimerExpiry .good { lastly with timeoutsAt := 0 }) s).module 0).command = none ∧
      ((after (.strobeTimerExpiry .good lastly) s).module 0).command.isSome = true ∧
      ((after (.moduleCommandTimeout 0) (after (.strobeTimerExpiry .good lastly) s)).module 0).command = none := by
  refine ⟨_, rfl, ?_⟩
  decide +kernel

/-- R115: the set of a HOLDUP entered from RUNNING is stored, that of a HOLDUP entered from STOPPED dropped. -/
theorem test_history_by_state :
    (after (.strobeTimerExpiry .failing lastly)
      (withLevel .failing (withPrior .running (atTick 9 (dev .holdup))))).history.head = some 9 ∧
    (after (.strobeTimerExpiry .failing lastly)
      (withLevel .failing (withPrior .stopped (atTick 9 (dev .holdup))))).history.head = none ∧
    (after (.strobeTimerExpiry .failing lastly)
      (withLevel .failing (withPrior .running (atTick 9 (dev .standby))))).history.head = none := by decide +kernel

theorem test_meets_StrobeFieldArbitrated :
    (dev .standby).control.device = .standby ∧
    (((checking 0 false (dev .running)).modPoint 2 (fun pt =>
        { pt with check := some { channel := 3, module := 1, slot := 5, target := 0, sent := false } })).point 0).aims 0 =
      true ∧
    (((checking 0 false (dev .running)).modPoint 2 (fun pt =>
        { pt with check := some { channel := 3, module := 1, slot := 5, target := 0, sent := false } })).point 2).aims 0 =
      true ∧
    ((checking 0 false (dev .running)).point 1).aims 0 = false ∧
    ((∀ p, ((commanded none (am0 .locked 0 0 (dev .running))).point p).aims 0 = false) ∧
      ((commanded none (am0 .locked 0 0 (dev .running))).module 0).waiting = true ∧
      ((commanded none (am0 .locked 0 0 (dev .running))).module 1).waiting = false) ∧
    (∀ m, ((dev .running).module m).waiting = false) := by decide +kernel

/-- Spans at point 0, with a block of `n` half-windows that makes a record. -/
def spanned (n : Nat) (s : State) : State :=
  { ((assessed s).openSpans 0 0).modPoint 0 (fun pt => { pt with block := some { Block.fresh with count := n } }) with
    setup := { s.setup with blockPoints := 1 } }

/-- StrobeFieldArbitrated on the expiry: a check aimed at the new tick, and a waiting command, go with the new strobe;
the command of a module that the deadline loses does not. The closing set opens a dip that withdraws the check, so the
place of the strobe among the points decides between CHECK and NONE. -/
theorem test_meets_StrobeFieldArbitrated_expiry :
    (StaysPowered measuring ∧ (after (.strobeTimerExpiry .good lastly) (checking 1 false measuring)).strobe.field =
      .check 0 0) ∧
    (after (.strobeTimerExpiry .good lastly) (commanded none measuring)).strobe.field = .forward 0 0 0xABCD ∧
    (after (.strobeTimerExpiry .good lastly)
      (commanded none (am0 .locked 4 7 (dev .running)))).strobe.field = .none ∧
    ∃ s, s = (checking 1 false (spanned 5 measuring)).modPoint 0 (fun pt =>
        { pt with pairFlag := true, boundary := { Boundary.fresh with count := 127 } }) ∧
      (s.point 0).low = .quiet ∧
      ((after (.strobeTimerExpiry .good lastly) s).point 0).low ≠ .quiet ∧
      (after (.strobeTimerExpiry .good lastly) s).strobe.field = .none ∧
      (after (.strobeTimerExpiry .good { lastly with fieldAt := 0 }) s).strobe.field = .check 0 0 := by
  refine ⟨⟨⟨?_, ?_⟩, ?_⟩, ?_, ?_, ⟨_, rfl, ?_⟩⟩ <;> decide +kernel

/-- ExpiryWritesHistory on the records, classes and engine of a delivery: the set opens a dip, whose capture starts and
ends with the supply failure of the same moment when the order forms the frames after it. -/
theorem test_meets_ExpiryWritesHistory_chain :
    ∃ s, s = (commanded (some 0) (spanned 5 (atTick 64 measuring))).modPoint 0 (fun pt =>
        { pt with pairFlag := true, boundary := { Boundary.fresh with count := 127 } }) ∧
      s.control.device = .running ∧ s.control.level = .good ∧
      (after (.strobeTimerExpiry .good lastly) s).eventTag = s.eventTag + 1 ∧
      (after (.strobeTimerExpiry .good lastly) s).attention.isPending .eventOnset = true ∧
      ((after (.strobeTimerExpiry .good lastly) s).capture.map RunningCapture.tag) = some (s.eventTag + 1) ∧
      (after (.strobeTimerExpiry .good { lastly with timeoutsAt := 0 }) s).attention.isPending .replyReady = true ∧
      ((after (.strobeTimerExpiry .failing { lastly with framesAt := 5 })
          { s with control := { s.control with runCount := 31 } }).builder.queue.map QueuedRecord.body).map
        RecordBody.code = [2, 2, 1] := by
  refine ⟨_, rfl, ?_⟩
  decide +kernel

theorem test_meets_DueMarksTaken :
    ({ dev .running with dueNow := { period := true, second := true } } : State).dueNow =
      { period := true, second := true } ∧
    (dev .running).dueNow = { period := false, second := false } ∧
    (∃ s, s = (mapped .suspect (am0 .locked 4 0 (dev .running))).modChannel 0 (fun ch => { ch with due := true }) ∧
      s.measuring = true ∧ (s.point 0).check = none ∧ (s.point 0).low = .quiet ∧
      (s.channel 0).entry.enabled = true ∧ (s.channel 0).due = true ∧
      (s.channel 0).entry.module = (0 : Module).val ∧ (s.module 0).state = .locked ∧ (s.channel 1).due = false ∧
      ((s.scheduleCheck 0 7).point 0).check =
        some { channel := 0, module := 0, slot := 0, target := 9, sent := false } ∧
      ((s.closeHalf 0 7 { count := 128, free := true, crossing := some .positive, tracked := false }).point 0).check =
        some { channel := 0, module := 0, slot := 0, target := 9, sent := false }) ∧
    ((checking 5 false (dev .running)).point 0).check ≠ none ∧ (dev .stopped).measuring = false ∧
    ((disturbed (dev .running)).point 0).low ≠ .quiet := by
  refine ⟨by decide, by decide, ⟨_, rfl, ?_⟩, ?_⟩ <;> decide +kernel

theorem test_meets_ModuleCommandTimesOut :
    (((commanded (some 0) (am0 .locked 0 0 (atTick 65 (dev .stopped)))).module 0).command.isSome = true ∧
      64 < ((65 : Tick) - 0).toNat) ∧
    ((64 : Tick) - 0).toNat ≤ 64 ∧
    ((commanded none (am0 .locked 0 0 (dev .stopped))).module 0).waiting = true ∧
    ((am0 .locked 0 0 (dev .stopped)).module 0).command = none := by decide +kernel

theorem test_meets_SampleFrameDiscarded :
    (am0Frame 0 0 0 0 7).length = 30 ∧
    (([4] ++ List.replicate 29 0 : List Byte).length = 30 ∧ 4 ≤ (byteAt ([4] ++ List.replicate 29 0) 0).toNat) ∧
    ((byteAt (am0Frame 0 0 0 0 7) 0).toNat = (0 : Module).val ∧ (dev .stopped).setup.enables 0 = false) ∧
    (((List.replicate 30 0 : List Byte).length = 30) ∧ intact (List.replicate 30 0) = false ∧
      (am0 .seeking 0 0 (dev .stopped)).setup.enables 0 = true) ∧
    (intact (am0Frame 0xFF 0 0 0 7) = true ∧ byteAt (am0Frame 0xFF 0 0 0 7) 1 ≠ (dev .stopped).count.setWidth 8) ∧
    (intact (am0Frame 0 0 0 0 7) = true ∧ byteAt (am0Frame 0 0 0 0 7) 1 = (dev .stopped).count.setWidth 8 ∧
      (((am0 .locked 0 0 (dev .running)).modModule 0 (fun r => { r with taken := true })).module 0).taken = true) := by
  decide +kernel

theorem test_meets_GoodFrameTaken :
    ((am0Frame 0 0x80 0 0 7).length = 30 ∧ (byteAt (am0Frame 0 0x80 0 0 7) 0).toNat = (0 : Module).val ∧
      intact (am0Frame 0 0x80 0 0 7) = true ∧ byteAt (am0Frame 0 0x80 0 0 7) 1 = (dev .stopped).count.setWidth 8 ∧
      (am0 .seeking 3 0 (dev .stopped)).setup.enables 0 = true ∧
      ((am0 .seeking 3 0 (dev .stopped)).module 0).taken = false) ∧
    ((am0 .seeking 3 0 (dev .stopped)).module 0).goodRun + 1 = 4 ∧
    ((am0 .lost 2 0 (dev .stopped)).module 0).goodRun + 1 < 4 ∧
    ((am0 .locked 255 7 (dev .stopped)).module 0).state = .locked ∧
    (parseSampleFrame (am0Frame 0 0x80 0 0 7)).marks 0 = true ∧
    (parseSampleFrame (am0Frame 0 0x86 0 0 7)).marks 5 = false := by decide +kernel

theorem test_meets_ReplyEndsCommand :
    ((am0Frame 64 0 1 17 7).length = 30 ∧ intact (am0Frame 64 0 1 17 7) = true ∧
      byteAt (am0Frame 64 0 1 17 7) 1 = (atTick 64 (dev .running)).count.setWidth 8 ∧
      ((commanded (some 0) (am0 .locked 4 0 (atTick 64 (dev .running)))).module 0).state = .locked ∧
      (commanded (some 0) (am0 .locked 4 0 (atTick 64 (dev .running)))).checkedBy 0 = none) ∧
    ((parseSampleFrame (am0Frame 64 0 1 17 7)).replyPresent = true ∧ (parseSampleFrame (am0Frame 64 0 1 17 7)).echo = 17 ∧
      ((64 : Tick) - 0).toNat ≤ 64) ∧
    ((parseSampleFrame (am0Frame 64 0 0 17 7)).replyPresent = false ∧
      (parseSampleFrame (am0Frame 65 0 1 18 7)).echo ≠ 17 ∧ 64 < ((65 : Tick) - 0).toNat) := by decide +kernel

/-- ReplyEndsCommand on a frame that answers a check as well: both records, in either order. -/
theorem test_meets_ReplyEndsCommand_check :
    ∃ s bytes, s = checking 0 true (mapped .suspect (commanded (some 0) (am0 .locked 4 0 (dev .running)))) ∧
      bytes = am0Frame 0 0x80 1 17 1010 ∧ s.checkedBy 0 = some 0 ∧ (s.module 0).state = .locked ∧
      ((after (.sampleFrame bytes true) s).module 0).command = none ∧
      ((after (.sampleFrame bytes true) s).builder.queue.map (fun r => r.body.code)) = [2, 2, 5] ∧
      ((after (.sampleFrame bytes false) s).builder.queue.map (fun r => r.body.code)) = [2, 5, 2] := by
  refine ⟨_, _, rfl, rfl, ?_⟩
  decide +kernel

theorem test_meets_CheckVerdictMovesLead :
    ((checking 0 true (mapped .suspect (am0 .locked 4 0 (dev .running)))).checkedBy 0 = some 0 ∧
      ((checking 0 true (mapped .suspect (am0 .locked 4 0 (dev .running)))).point 0).check =
        some { channel := 0, module := 0, slot := 0, target := 0, sent := true } ∧
      (am0Frame 0 0x80 0 0 1010).length = 30 ∧ intact (am0Frame 0 0x80 0 0 1010) = true) ∧
    ((parseSampleFrame (am0Frame 0 0x80 0 0 1010)).markerValid = true ∧
      (parseSampleFrame (am0Frame 0 0x80 0 0 1010)).markerSlot = 0) ∧
    voltage.suspects (parseSampleFrame (am0Frame 0 0x80 0 0 1010)).samples[0] = true ∧
    voltage.suspects (parseSampleFrame (am0Frame 0 0x80 0 0 989)).samples[0] = false ∧
    (∀ l : LeadState, ((mapped l (dev .running)).channel 0).lead = l) ∧
    (parseSampleFrame (am0Frame 0 0x00 0 0 1010)).markerValid = false ∧
    (parseSampleFrame (am0Frame 0 0x81 0 0 1010)).markerSlot ≠ 0 ∧
    (∃ s, s = checking 0 true (mapped .suspect (am0 .lost 4 8 (dev .running))) ∧
      s.checkedBy 0 = some 0 ∧ (s.module 0).state ≠ .locked ∧
      ((after (.sampleFrame (am0Frame 0 0x80 0 0 1010) true) s).point 0).check = none ∧
      ((after (.sampleFrame (am0Frame 0 0x80 0 0 1010) true) s).channel 0).lead = .suspect) ∧
    (∃ s, s = checking 0 true ((mapped .suspect (am0 .locked 4 0 (dev .running))).modChannel 0
        (fun ch => { ch with due := true })) ∧
      ((s.point 0).check.map CheckInFlight.sent) = some true ∧
      ((after (.strobeTimerExpiry .good lastly) s).point 0).check = none ∧
      ((after (.strobeTimerExpiry .good lastly) s).channel 0).due = true) ∧
    (after (.strobeTimerExpiry .good lastly) (checking 1 false (dev .running))).strobe.field = .check 0 0 := by
  refine ⟨by decide +kernel, by decide +kernel, by decide +kernel, by decide +kernel, ?_, by decide +kernel,
    by decide +kernel, ⟨_, rfl, by decide +kernel⟩, ⟨_, rfl, by decide +kernel⟩, by decide +kernel⟩
  intro l
  cases l <;> decide +kernel

theorem test_meets_CaptureFrameFormed :
    (∃ c, (capturing 65 64 (mapped .connected (dev .running))).capture = some c ∧
      (capturing 65 64 (mapped .connected (dev .running))).frameReady c = true ∧ 64 < c.remaining) ∧
    (capturing 65 64 (queued 38 (dev .running))).captureQueue.length + 1 ≠ State.reset.setup.highMark ∧
    (∃ c, (capturing 65 63 (dev .running)).capture = some c ∧
      (capturing 65 63 (dev .running)).frameReady c = false) ∧
    (dev .running).capture = none ∧ FramesFormed (capturing 65 63 (dev .running)) ∧
    (∃ h, h = (capturing 65 64 (dev .running)).history ∧ h.head = some 64 ∧
      ((64 : Tick) - 1).toNat < h.sets.length ∧ 64 ≤ ((64 : Tick) - 1).toNat + 1 ∧ (h.stretch 1 64).length = 64) :=
  ⟨⟨_, rfl, by decide +kernel, by decide +kernel⟩, by decide +kernel, ⟨_, rfl, by decide +kernel⟩, by decide,
    by intro c h; cases h; decide +kernel, ⟨_, rfl, by decide +kernel⟩⟩

theorem test_meets_CaptureEnds :
    (∃ c, (capturing 64 64 (dev .running)).capture = some c ∧ (capturing 64 64 (dev .running)).frameReady c = true ∧
      c.remaining ≤ 64) ∧
    (∃ c, (capturing 65 64 (queued 39 (dev .running))).capture = some c ∧
      (capturing 65 64 (queued 39 (dev .running))).frameReady c = true ∧ 64 < c.remaining ∧
      (capturing 65 64 (queued 39 (dev .running))).shedding = .opened ∧
      (capturing 65 64 (queued 39 (dev .running))).captureQueue.length + 1 = State.reset.setup.highMark) :=
  ⟨⟨_, rfl, by decide +kernel, by decide +kernel⟩,
    ⟨_, rfl, by decide +kernel, by decide +kernel, by decide +kernel, by decide +kernel⟩⟩

/-- Line 0 in a pulse mode with a pulse phase that began at tick 0. -/
def pulsing (phase : PulsePhase) (mark : Bool) (s : State) : State :=
  { s with
    routing := { s.routing with
      routes := Vector.replicate 10 .line0, config0 := { mode := .pulseHigh, width := .w1 } }
    attention := { s.attention with line0 := { phase := phase, followUp := mark } } }

theorem test_meets_PulseAndGapExpire :
    (((pulsing (.pulse 0) true (atTick 256 (dev .running))).attention.line .line0).phase = .pulse 0 ∧
      ((pulsing (.pulse 0) true (dev .running)).routing.config .line0).width.ticks ≤ ((256 : Tick) - 0).toNat) ∧
    (((pulsing (.gap 0) true (dev .running)).attention.line .line0).followUp = true ∧
      ((pulsing (.gap 0) false (dev .running)).attention.line .line0).followUp = false ∧
      ((pulsing (.gap 0) false (dev .running)).attention.line .line0).phase = .gap 0) ∧
    ((255 : Tick) - 0).toNat < ((pulsing (.gap 0) true (dev .running)).routing.config .line0).width.ticks ∧
    ((dev .running).attention.line .line1).phase = .idle := by decide +kernel

theorem test_meets_ClassRaised :
    ((dev .running).raise .supply).attention.isPending .supply = true ∧
    (dev .running).attention.isPending .replyReady = false ∧
    ((pulsing .idle false (dev .running)).routing.route .replyReady = lineRoute .line0 ∧
      ((pulsing .idle false (dev .running)).routing.config .line0).mode.isPulse = true ∧
      ((pulsing .idle false (dev .running)).attention.line .line0).phase = .idle ∧
      ((pulsing (.gap 0) false (dev .running)).attention.line .line0).phase ≠ .idle) ∧
    (pulsing .idle false (dev .running)).routing.route .eventOnset ≠ lineRoute .line1 ∧
    ((dev .running).routing.config .line0).mode.isPulse = false := by decide +kernel

/-- A line in a mode, with the class SUPPLY pending and routed to it. -/
def driven (mode : LineMode) (phase : PulsePhase) (s : State) : State :=
  { s with
    routing := { s.routing with routes := Vector.replicate 10 .line0, config0 := { mode := mode, width := .w1 } }
    attention := { s.attention with pendingSet := 0x100, line0 := { phase := phase, followUp := false } } }

/-- ClassRaised on the levels of a line: each mode, active and inactive, and INIT. -/
theorem test_meets_ClassRaised_levels :
    (driven .levelHigh .idle (dev .stopped)).lineHigh .line0 = true ∧
    (driven .levelLow .idle (dev .stopped)).lineHigh .line0 = false ∧
    (driven .levelLow .idle (dev .stopped)).lineHigh .line1 = false ∧
    (driven .pulseHigh (.pulse 0) (dev .stopped)).lineHigh .line0 = true ∧
    (driven .pulseHigh (.gap 0) (dev .stopped)).lineHigh .line0 = false ∧
    (driven .pulseLow (.pulse 0) (dev .stopped)).lineHigh .line0 = false ∧
    (driven .pulseLow .idle (dev .stopped)).lineHigh .line0 = true ∧
    (driven .pulseLow .idle (dev .init)).lineHigh .line0 = false := by decide +kernel

/-- SupplyFailureEntersHoldup, SupplyReturnEndsHoldup, TimerExpiryEntersStandby, SupplyReturnLeavesStandby. -/
theorem test_meets_supply_rows :
    ((withLevel .failing (dev .stopped)).control.level = .failing ∧
      (withLevel .failing (dev .running)).control.device = .running) ∧
    (capturing 65 64 (withLevel .failing (dev .running))).capture.isSome = true ∧
    ((withPrior .running (dev .holdup)).control.level = .good ∧
      (withPrior .running (dev .holdup)).control.prior = some .running ∧
      (withPrior .stopped (dev .holdup)).control.prior = some .stopped) ∧
    ((withPrior .running (atTick 64000 (dev .holdup))).control.timerRunning = true ∧
      (withPrior .running (atTick 64000 (dev .holdup))).setup.holdupLimit * 256 ≤ ((64000 : Tick) - 0).toNat ∧
      ((63999 : Tick) - 0).toNat < (dev .holdup).setup.holdupLimit * 256) ∧
    (∃ s, s = withPrior .running (atTick 64000 (commanded none (am0 .locked 4 0
          (((disturbed (assessed (limited true (dev .holdup)))).openSpans 0 0))))) ∧
      (s.point 0).measured = true ∧ (s.point 0).interval.isSome = true ∧ (s.point 0).low.event.isSome = true ∧
      (s.module 0).command.isSome = true ∧
      (after (.holdupTimerExpiry 0) s).builder.queue.length = 1 + 2 + 1 + 1 + 1 ∧
      (s.point 0).assessment = some (.fresh 0) ∧
      (Assessment.fresh 0).closedIntervals + 1 < s.setup.assessmentLength ∧
      (64000 - 0 : Tick).toNat < s.setup.intervalLength * s.setup.nominal.rate ∧
      (((after (.holdupTimerExpiry 0) s).point 0).assessment.map (fun a => (a.closedIntervals, a.dips, a.swells))) =
        some (1, 1, 1) ∧
      (((after (.holdupTimerExpiry 0) { s with setup := { s.setup with assessmentLength := 1 } }).point 0).assessment =
        some (.fresh 64000))) ∧
    (({ withPrior .running (dev .standby) with setup := { State.reset.setup with restart := .resume } } : State).setup.restart =
        .resume ∧
      (withPrior .running (dev .standby)).setup.restart = .stayStopped ∧
      ((assessed (withPrior .running (dev .standby))).point 0).assessment.isSome = true) := by
  refine ⟨?_, ?_, ?_, ?_, ⟨_, rfl, ?_⟩, ?_⟩ <;> decide +kernel

theorem test_meets_ExchangeBegins :
    (dev .stopped).exchange = none ∧ (dev .stopped).builder.queue ≠ [] ∧
    (({ dev .stopped with builder := { State.reset.builder with queue := [] } } : State).builder.queue = [] ∧
      (queued 1 (dev .stopped)).captureQueue ≠ [] ∧ (dev .stopped).captureQueue = []) ∧
    (exchanging (dev .stopped)).exchange.isSome = true := by decide +kernel

theorem test_meets_ExchangeSettles :
    judgeControlFrame [0x00, 0x07, 0x00] = none ∧ judgeControlFrame (List.replicate 28 0) = none ∧
    (∃ x, (after .exchangeBegin (dev .stopped)).exchange = some x ∧ x.choice = .record ∧
      ([0x00, 0x07, 0x00] : List Byte).length < x.header.length ∧
      x.header.length ≤ (List.replicate 28 (0 : Byte)).length) ∧
    (∃ x, (sendingCapture (queued 1 (dev .stopped))).exchange = some x ∧ x.choice = .capture ∧
      x.header.length ≤ (List.replicate 64 (0 : Byte)).length ∧ judgeControlFrame (List.replicate 64 0) = none ∧
      (sendingCapture (queued 1 (dev .stopped))).capture = none) ∧
    (∃ x, (exchanging (dev .stopped)).exchange = some x ∧ x.choice = .idle ∧
      x.header.length ≤ (List.replicate 28 (0 : Byte)).length) ∧
    (dev .stopped).exchange = none :=
  ⟨by decide +kernel, by decide +kernel, ⟨_, rfl, by decide +kernel, by decide +kernel, by decide +kernel⟩,
    ⟨_, rfl, by decide +kernel, by decide +kernel, by decide +kernel, by decide +kernel⟩,
    ⟨_, rfl, by decide +kernel, by decide +kernel⟩, by decide⟩

theorem test_meets_ControlFrameJudged :
    intact ((control 0x02 1 (List.replicate 28 0)).take 34) = true ∧ (control 0x02 1 (List.replicate 28 0)).length = 34 ∧
    judgeControlFrame (control 0x0A 1 []) = some (.unknown 0x0A 1) ∧
    judgeControlFrame (control 0x01 1 []) = some (.badLength 0x01 1) ∧
    judgeControlFrame (control 0x06 1 [1, 2, 3, 4, 5, 6]) = some (.timeSet 1 0x010203040506) ∧
    judgeControlFrame (control 0x09 1 [2, 0xDE, 0xAD, 0xBE, 0xEF, 0]) = some (.moduleCommand 1 2 0xDEADBEEF) ∧
    judgeControlFrame [0x00, 0x07, 0x00, 0x07, 0xFF, 0xF1] = none ∧
    judgeControlFrame [0x00, 0x07, 0x00, 0x06, 0xFF, 0xF3] = none := by decide +kernel

theorem test_meets_TakenFrameExecuted :
    (exchanging (dev .stopped)).exchange.isSome = true ∧ (exchanging (dev .stopped)).control.device ≠ .init ∧
    judgeControlFrame (control 0x05 1 []) = some (.stop 1) := by decide +kernel

theorem test_meets_FramesHeldInInit :
    (exchanging (dev .init)).control.device = .init ∧ (exchanging (dev .init)).exchange.isSome = true ∧
    (judgeControlFrame (control 0x00 1 []) = some (.nop 1) ∧ byteAt (control 0x00 1 []) 0 = 0x00) ∧
    (judgeControlFrame (control 0x00 1 [0, 0]) = some (.badLength 0x00 1) ∧ byteAt (control 0x00 1 [0, 0]) 0 = 0x00) ∧
    (judgeControlFrame (control 0x05 1 []) = some (.stop 1) ∧ byteAt (control 0x05 1 []) 0 ≠ 0x00) ∧
    (judgeControlFrame (control 0x01 1 []) = some (.badLength 0x01 1) ∧ byteAt (control 0x01 1 []) 0 ≠ 0x00) ∧
    (∀ tag table index, rowOf (.stop 1) 0 ≠ .tableWriteReadOnly tag table index) ∧
    (dev .init).port.held = none ∧
    ({ dev .init with port := { State.reset.port with held := some (.start 7) } } : State).port.held.isSome = true := by
  refine ⟨by decide, by decide, by decide +kernel, by decide +kernel, by decide +kernel, by decide +kernel, ?_,
    by decide, by decide⟩
  intro tag table index h
  cases h

/-- Log entry 31: a frame of kind NOP with a wrong length has no effect in INIT and is answered after it. -/
theorem test_nop_of_wrong_length :
    after (.unknownKind 0x00 1) (dev .init) = dev .init ∧
    (after (.unknownKind 0x01 1) (dev .init)).port.held = some (.badLength 0x01 1) ∧
    (after (.unknownKind 0x00 1) (dev .stopped)).builder.queue.length = 2 := by decide +kernel

/-- UnservedFramesAnswered, NopAndAck, SetupWritten, and the device states of every statement about a control frame. -/
theorem test_meets_frame_rows :
    ((dev .stopped).control.device ≠ .init ∧ (dev .running).control.device ≠ .init ∧
      (dev .holdup).control.device ≠ .init ∧ (dev .standby).control.device ≠ .init ∧
      (dev .init).control.device = .init) ∧
    (0x09 < (0x0A : Byte).toNat ∧ (0x09 : Byte).toNat ≤ 0x09 ∧ (0x00 : Byte).toNat ≤ 0x09) ∧
    (5 < (0x06 : Byte).toNat ∧ (0x03 : Byte).toNat < 4) ∧
    inMask (0x0200 : Word) (classIndex .replyReady).val = true := by decide

theorem test_meets_SetupActsOnModules :
    ((after (.tableWriteSetup 1 0 (List.replicate 26 1) 0) (dev .stopped)).setup.enables 0 = true ∧
      (dev .stopped).setup.enables 0 = false) ∧
    ((after (.tableWriteSetup 1 0 (List.replicate 26 0) 0) (am0 .locked 0 2 (dev .stopped))).setup.enables 0 = false ∧
      (am0 .locked 0 2 (dev .stopped)).setup.enables 0 = true) ∧
    ((after (.tableWriteSetup 1 0 (List.replicate 26 1) 0) (am0 .locked 0 1 (dev .stopped))).setup.missLimit ≤
        ((am0 .locked 0 1 (dev .stopped)).module 0).missCount ∧
      ((am0 .locked 0 0 (dev .stopped)).module 0).missCount <
        (after (.tableWriteSetup 1 0 (List.replicate 26 1) 0) (am0 .locked 0 0 (dev .stopped))).setup.missLimit) ∧
    (dev .stopped).shedding = .opened ∧ ({ dev .stopped with shedding := .shed } : State).shedding = .shed ∧
    ((after (.tableWriteSetup 1 0 (List.replicate 26 1) 0)
      (commanded none (am0 .locked 0 1 (dev .stopped)))).builder.queue.map (fun r => r.body.code)) = [2, 2, 5, 5] ∧
    ((after (.tableWriteSetup 1 0 (List.replicate 26 0) 0)
      (commanded none (am0 .locked 0 1 (dev .stopped)))).builder.queue.map (fun r => r.body.code)) = [2, 5, 5] := by
  decide +kernel

/-- The bytes of the enabled voltage entry above, in 26 bytes; with another phase. -/
def entryBytes (phase : Byte) : List Byte :=
  [0x03, 0, 0, 0, 0, phase] ++ List.replicate 20 0

theorem test_meets_MapEntryWritten :
    (24 ≤ (24 : Byte).toNat ∧ (23 : Byte).toNat = (23 : Channel).val) ∧
    (1 < (byteAt ([0, 0, 0, 2] ++ List.replicate 22 0) 3).toNat) ∧
    (byteAt (entryBytes 4) 3 = ChannelKind.voltage.code ∧ (parseMapEntry .voltage (entryBytes 4)).enabled = true ∧
      3 < (parseMapEntry .voltage (entryBytes 4)).phase) ∧
    ((parseMapEntry .voltage (entryBytes 3)).phase ≤ 3 ∧ 1 ≤ (parseMapEntry .voltage (entryBytes 1)).phase) ∧
    mapPasses ((dev .stopped).mapWith 23 (parseMapEntry .voltage (entryBytes 1))) = true ∧
    mapPasses ((mapped .connected (dev .stopped)).mapWith 23 (parseMapEntry .voltage (entryBytes 2))) = false := by
  decide +kernel

/-- The bytes of a LIMITS entry with a given declared voltage, in 26 bytes. -/
def limitsBytes (declared : Nat) : List Byte :=
  beBytes 3 declared ++ beBytes 2 900 ++ beBytes 2 1100 ++ beBytes 2 10 ++ beBytes 2 20 ++ beBytes 2 900 ++
    beBytes 2 1100 ++ beBytes 3 49000 ++ beBytes 3 51000 ++ beBytes 3 100 ++ [0, 0]

theorem test_meets_LimitsWritten :
    (4 ≤ (4 : Byte).toNat ∧ (3 : Byte).toNat = (3 : Point).val) ∧
    (parseLimits (limitsBytes 9999)).valid = false ∧ (parseLimits (limitsBytes 10000)).valid = true ∧
    ((parseLimits (limitsBytes 0)).valid = true ∧ (parseLimits (limitsBytes 0)).declared = 0 ∧
      ((limited true (dev .running)).point 0).measured = true) ∧
    ((limited false (dev .running)).point 0).measured = false ∧ (parseLimits (limitsBytes 23050)) = limits ∧
    (∃ s, s = (limited true (dev .running)).modPoint 0 (fun pt =>
        { pt with pendingLimits := some { limits with declared := 10000 } }) ∧
      ((s.takeResult 0 (result 20745)).point 0).low = .quiet ∧
      ((s.takeResult 0 (result 20745)).point 0).high = .quiet ∧
      ((s.takeResult 0 (result 20745)).point 0).limits.declared = 10000 ∧
      ((s.takeResult 0 (result 20744)).point 0).low ≠ .quiet ∧
      ((s.takeResult 0 (result 20744)).point 0).limits.declared = 23050) := by
  refine ⟨?_, ?_, ?_, ?_, ?_, ?_, ⟨_, rfl, ?_⟩⟩ <;> decide +kernel

theorem test_meets_RoutingWritten :
    (∃ i, i < 10 ∧ 2 < (byteAt (List.replicate 9 0 ++ [3]) i).toNat) ∧
    (3 < (byteAt (List.replicate 13 0 ++ [4]) 13).toNat) ∧
    (∀ i, i < 10 → (byteAt (List.replicate 10 2 ++ List.replicate 16 3) i).toNat ≤ 2) ∧
    (byteAt (List.replicate 10 2 ++ List.replicate 16 3) 10).toNat ≤ 3 := by
  refine ⟨⟨9, by decide, by decide⟩, by decide, ?_, by decide⟩
  decide

theorem test_meets_TableReadAnswered :
    (([1, 24, 4, 1, 4, 4] : List Nat)[(0x01 : Byte).toNat]? = some 24 ∧ 1 ≤ (24 : Byte).toNat ∧
      (0 : Byte).toNat + (24 : Byte).toNat ≤ 24) ∧
    (([1, 24, 4, 1, 4, 4] : List Nat)[(0x05 : Byte).toNat]? = some 4 ∧ 4 < (1 : Byte).toNat + (4 : Byte).toNat) ∧
    24 < (25 : Byte).toNat ∧ 5 < (6 : Byte).toNat ∧
    (∃ s, s = mapped .opened (disturbed (limited true (enabled (dev .running)))) ∧
      s.pointStatus 0 =
        { measured := true, configured := true, pendingLimits := false, low := .dip, high := .swell, lowTag := some 9
          highTag := some 9, mode := .free, halfCount := 0, reference := none
          channels := [{ channel := 0, kind := .voltage, phase := 1, lead := .opened, due := false }] } ∧
      s.pointStatus 1 =
        { measured := false, configured := false, pendingLimits := false, low := .quiet, high := .quiet
          lowTag := none, highTag := none, mode := .free, halfCount := 0, reference := none, channels := [] }) := by
  refine ⟨by decide, by decide, by decide, by decide, ⟨_, rfl, ?_⟩⟩
  decide +kernel

theorem test_meets_StartAccepted :
    (∃ p, (limited false (mapped .connected (enabled (dev .stopped)))).configuredWith p
      ((limited false (mapped .connected (enabled (dev .stopped)))).point p).limitsToCome = true) ∧
    ∀ c, ((limited false (mapped .connected (enabled (dev .stopped)))).channel c).entry.enabled = true →
      ∃ p : Point, ((limited false (mapped .connected (enabled (dev .stopped)))).channel c).entry.point = p.val ∧
        ((limited false (mapped .connected (enabled (dev .stopped)))).point p).limitsToCome.declared ≠ 0 := by
  refine ⟨⟨0, by decide +kernel⟩, ?_⟩
  decide +kernel

theorem test_meets_StartRefused :
    (∀ p, (dev .stopped).configuredWith p ((dev .stopped).point p).limitsToCome = false) ∧
    (∃ c, ∃ p : Point, ((mapped .connected (dev .stopped)).channel c).entry.enabled = true ∧
      ((mapped .connected (dev .stopped)).channel c).entry.point = p.val ∧
      ((mapped .connected (dev .stopped)).point p).limitsToCome.declared = 0) := by
  refine ⟨by decide +kernel, 0, 0, by decide +kernel, by decide +kernel, by decide +kernel⟩

theorem test_meets_StopAccepted :
    (disturbed (capturing 65 64 (dev .running))).control.device = .running ∧
    (disturbed (capturing 65 64 (dev .running))).capture.isSome = true ∧
    ((disturbed (dev .running)).point 0).low.event = some (event .dip) ∧
    ((disturbed (dev .running)).point 0).high.event = some (event .swell) ∧
    ((disturbed (dev .running)).point 0).measured = true ∧ ((disturbed (dev .running)).point 1).measured = false ∧
    (∃ s, s = spanned 5 (disturbed (dev .running)) ∧ (s.point 0).block = some { Block.fresh with count := 5 } ∧
      (s.point 0).interval.isSome = true ∧ (s.point 0).assessment.isSome = true ∧
      s.setup.blockPoints.getLsbD 0 = true ∧
      (after (.stop 1) s).builder.queue.length = 1 + 2 + 1 + 1 + 1 + 2) ∧
    (∃ s, s = spanned 0 (dev .running) ∧ (s.point 0).block = some .fresh ∧
      (after (.stop 1) s).builder.queue.length = 1 + 2) ∧
    (dev .running).setup.blockPoints.getLsbD 0 = false := by
  refine ⟨?_, ?_, ?_, ?_, ?_, ?_, ⟨_, rfl, ?_⟩, ⟨_, rfl, ?_⟩, ?_⟩ <;> decide +kernel

/-- TimeSetSteps on the spans of a measured point: with and without a block record, below and at the assessment length. -/
theorem test_meets_TimeSetSteps_spans :
    ∃ s, s = atTick 70 (spanned 5 (limited true (dev .running))) ∧ (s.point 0).measured = true ∧
      (s.point 1).measured = false ∧ (s.point 0).block = some { Block.fresh with count := 5 } ∧
      (s.point 0).interval.isSome = true ∧ (s.point 0).assessment = some (.fresh 0) ∧
      (Assessment.fresh 0).closedIntervals + 1 < s.setup.assessmentLength ∧
      (after (.timeSet 1 5000) s).builder.queue.length = 1 + 1 + 1 + 1 + 1 ∧
      ((after (.timeSet 1 5000) s).point 0).assessment.map (fun a => (a.startEpoch, a.closedIntervals, a.stepped)) =
        some (0, 1, true) ∧
      (after (.timeSet 1 5000) s).attention.isPending .intervalClosed = true ∧
      ((after (.timeSet 1 5000) { s with setup := { s.setup with assessmentLength := 1 } }).point 0).assessment =
        some (.fresh 5000) ∧
      (after (.timeSet 1 5000) (spanned 0 (limited true (dev .running)))).builder.queue.length = 1 + 1 + 1 + 1 := by
  refine ⟨_, rfl, ?_⟩
  decide +kernel

theorem test_meets_TimeSetSteps :
    ((disturbed (dev .running)).point 0).low = .dip (event .dip) ∧
    ((disturbed (dev .running)).point 0).high = .swell (event .swell) ∧
    (((dev .running).modPoint 0 (fun pt => { pt with low := .interrupt (event .interruption) })).point 0).low =
      .interrupt (event .interruption) ∧
    ((disturbed (dev .running)).point 0).measured = true := by decide +kernel

theorem test_meets_TriggerJudged :
    (4 ≤ (4 : Byte).toNat ∧ (3 : Byte).toNat = (3 : Point).val) ∧
    ((dev .running).point 3).measured = false ∧
    (((limited true (dev .running)).point 0).measured = true ∧ (limited true (dev .running)).capture = none ∧
      (limited true (dev .running)).shedding = .opened) ∧
    (capturing 65 64 (limited true (dev .running))).capture.isSome = true ∧
    ({ dev .running with shedding := .shed } : State).shedding = .shed := by decide +kernel

theorem test_meets_AssessmentClosed :
    (dev .stopped).measuring = false ∧ (dev .running).measuring = true ∧
    (withPrior .running (dev .holdup)).measuring = true ∧
    (4 ≤ (0xFE : Byte).toNat ∧ (0xFE : Byte) ≠ 0xFF) ∧
    ((dev .running).point 3).measured = false ∧
    (([0, 1, 2, 3] : List Point).filter (fun p => ((assessed (limited true (dev .running))).point p).measured) = [0] ∧
      ((assessed (limited true (dev .running))).point 0).assessment.isSome = true) := by decide +kernel

theorem test_meets_ModuleCommandJudged :
    (4 ≤ (4 : Byte).toNat ∧ (0 : Byte).toNat = (0 : Module).val) ∧
    ((dev .stopped).module 0).state ≠ .locked ∧
    (((am0 .locked 4 0 (dev .running)).module 0).state = .locked ∧
      ((am0 .locked 4 0 (dev .running)).module 0).command = none) ∧
    ((commanded none (am0 .locked 4 0 (dev .running))).module 0).command.isSome = true := by decide +kernel

/-- A Record Builder with `n` records in its queue. -/
def builderWith (n withheld : Nat) : RecordBuilder :=
  { State.reset.builder with queue := List.replicate n (resetRecord .powerOn), withheld := withheld }

theorem test_meets_RecordOffered :
    ((builderWith 95 0).queue.length < (RecordBody.event (eventRecord 0 (event .dip) 9 .normal (.upstream, none))).admission.limit ∧
      (RecordBody.event (eventRecord 0 (event .dip) 9 .normal (.upstream, none))).admission.limit ≤
        (builderWith 96 255).queue.length) ∧
    ((builderWith 87 0).queue.length < (RecordBody.status .stopped 0 true).admission.limit ∧
      (RecordBody.status .stopped 0 true).admission.limit ≤ (builderWith 88 254).queue.length) ∧
    (builderWith 88 254).withheld < 255 ∧ (builderWith 96 255).withheld = 255 := by decide +kernel

/-- Sections 12.3 to 12.5: the bytes of a record body, of an idle frame, and the fixed part of a capture body. -/
theorem test_meets_layouts :
    recordBytes 0x01020304 5 (.status .stopped 7 true) = [2, 1, 2, 3, 4, 5, 2, 0, 0, 0, 0, 0, 7, 1] ∧
    (after .exchangeBegin { dev .stopped with builder := { State.reset.builder with queue := [] } }).outboundBytes =
      [0x00, 0x00, 0x0A, 0x04, 0x00, 0x00, 0x00, 0x00, 0xF5, 0xFB] ∧
    (frame.bytes.length = 20 ∧ frame.channels.length ≤ 6 ∧ ∀ set ∈ frame.codes, set.length = frame.channels.length) ∧
    ((event .dip).windows < 2 ^ 32 ∧ ({ State.reset.setup with restart := .resume } : Setup).restart = .resume) := by
  refine ⟨?_, ?_, ⟨?_, ?_, ?_⟩, ?_⟩ <;> decide +kernel

theorem test_meets_QueueHighRaised :
    ({ dev .running with builder := builderWith 63 0 } : State).builder.queue.length = 63 ∧
    ({ dev .running with builder := builderWith 64 0 } : State).builder.queue.length = 64 ∧
    (RecordBody.block (blockRecord (dev .running) 0 .fresh)).admission = .c ∧
    (({ dev .running with builder := builderWith 64 0 } : State).removeHead .record).builder.queue.length = 63 ∧
    (({ dev .running with builder := builderWith 64 0 } : State).removeHead .record).attention = (dev .running).attention := by
  decide +kernel

/-- A channel with two full tallies, as in section 4.3, with `held` held samples in each. -/
def tallied (held unavailable : Nat) : ChannelRecord :=
  { ChannelRecord.reset with
    entry := voltage
    previous := { q := 1024000000000000, n := 128, held := held, clipped := 0, unavailable := 0 }
    current := { q := 1024000000000000, n := 128, held := held, clipped := 1, unavailable := unavailable } }

/-- A Boundary Unit in a mode with a count and a code of the set before. -/
def unit (mode : CutMode) (count : Nat) (code : Int) : Boundary :=
  { mode := mode, count := count, armedPositive := true, armedNegative := true, before := some code }

theorem test_meets_WindowValueFormed :
    (windowValue 0 (tallied 0 0) false).value = some 23001 ∧ (windowValue 0 (tallied 8 0) false).quality = .held ∧
    (16 < (tallied 9 0).previous.held + (tallied 9 0).current.held) ∧ 0 < (tallied 0 1).current.unavailable ∧
    (∃ s, s = mapped .connected (am0 .locked 4 0 (limited true (dev .running))) ∧
      (s.channel 0).entry.enabled = true ∧ (s.channel 0).entry.point = (0 : Point).val ∧
      (s.channel 0).entry.module = (0 : Module).val ∧ (s.channel 0).entry.slot = (0 : Slot).val ∧
      (s.channel 1).entry.enabled = false ∧
      ((s.point 0).boundary.step (s.point 0).limits.crossing false (s.referenceCode 0 s.closingSet)).2 = none ∧
      ((s.deliver 7 s.closingSet 0 false).channel 0).current.n = 1 ∧
      (s.point 0).pairFlag = false) ∧
    (∃ s, s = (mapped .connected (am0 .locked 4 0 (limited true (dev .running)))).modPoint 0 (fun pt =>
        { pt with boundary := unit .free 127 0, pairFlag := true }) ∧
      ((s.point 0).boundary.step (s.point 0).limits.crossing false (s.referenceCode 0 s.closingSet)).2 ≠ none ∧
      ((s.deliver 7 s.closingSet 0 false).channel 0).previous.n = 1 ∧ (s.point 0).pairFlag = true) ∧
    (Tally.zero.add 3 { code := 0, held := true, clipped := false, unavailable := false }).q = 9 ∧
    (Tally.zero.add 3 .missing).unavailable = 1 := by
  refine ⟨?_, ?_, ?_, ?_, ⟨_, rfl, ?_⟩, ⟨_, rfl, ?_⟩, ?_, ?_⟩ <;> decide +kernel

theorem test_meets_RootExact :
    (windowValue 0 (tallied 0 0) false).value = some 23001 ∧
    (∃ x ∈ (blockRecord (mapped .connected (dev .running)) 0
        { Block.fresh with count := 20, sums := (Vector.replicate 24 { q := 8, n := 2 }) }).channels,
      x.value.isSome = true) ∧
    (∃ x ∈ (intervalRecord (mapped .connected (dev .running)) 0
        { (dev .running).newInterval 0 with
          sums := Vector.replicate 24 { IntervalSum.zero with sum := 9, count := 1 } } 5 false).channels,
      x.value.isSome = true) := by
  refine ⟨by decide +kernel, ?_, ?_⟩ <;> decide +kernel

theorem test_meets_CrossingOffset :
    crossingOffset (-1) 0 = 256 ∧ crossingOffset (-1) 8388607 = 0 ∧ crossingOffset (-8388608) 0 = 256 ∧
    crossingOffset (-175000) 225000 = 112 := by decide

theorem test_meets_CrossingsArmed :
    (unit .free 0 (-1)).crossingAt (some 0) = some .positive ∧ (unit .free 0 0).crossingAt (some (-1)) = some .negative ∧
    (unit .free 0 (-1)).before = some (-1) ∧ Boundary.fresh.before = none ∧
    (∃ s, s = mapped .connected (am0 .locked 4 0 (limited true (dev .running))) ∧
      s.voltageOf 0 1 = some 0 ∧ s.voltageOf 0 2 = none ∧
      s.chooseReference 0 s.closingSet = some 1 ∧
      (mapped .opened s).chooseReference 0 s.closingSet = none ∧
      (s.referenceChanges s.closingSet)[0] = true ∧ s.control.device ≠ .init ∧ (dev .init).control.device = .init) ∧
    (StaysPowered measuring ∧ StaysPowered (dev .init) ∧ measuring.measuring = true ∧
      ((after (.strobeTimerExpiry .good lastly) measuring).point 0).period.map Period.valid = some false) := by
  refine ⟨?_, ?_, ?_, ?_, ⟨_, rfl, ?_⟩, ⟨?_, ?_⟩, ⟨?_, ?_⟩, ?_⟩ <;> decide +kernel

theorem test_meets_BoundaryCuts :
    (((unit (.track .positive) 95 (-1)).prepare false).crossingAt (some 0) = some .positive ∧ 96 ≤ 95 + 1) ∧
    (((unit (.track .positive) 94 (-1)).prepare false).crossingAt (some 0) = some .positive ∧ 94 + 1 < 96) ∧
    (((unit (.track .positive) 158 1).prepare false).crossingAt (some (-1)) = some .negative ∧ 158 + 1 < 160) ∧
    (((unit (.track .positive) 159 1).prepare false).crossingAt (some 1) = none ∧ 160 ≤ 159 + 1) ∧
    (((unit .free 31 1).prepare false).crossingAt (some (-1)) = some .negative ∧ 32 ≤ 31 + 1) ∧
    (((unit .free 30 1).prepare false).crossingAt (some (-1)) ≠ none ∧ 30 + 1 < 32) ∧
    (((unit .free 126 1).prepare false).crossingAt (some 1) = none ∧ 126 + 1 < 128) ∧
    (((unit .free 127 1).prepare false).crossingAt (some 1) = none ∧ 128 ≤ 127 + 1) := by decide

theorem test_meets_LowTrackerMoves :
    ({ values := [], tick := 5, free := false } : WindowResult).usable = [] ∧
    (result 20744).usable = [(1, 20744)] ∧
    (20744 < ((limited true (dev .running)).point 0).thresholds.dipStart ∧
      ((limited true (dev .running)).point 0).thresholds.dipStart ≤ 20745) ∧
    (230 < ((limited true (dev .running)).point 0).thresholds.intStart ∧
      ((limited true (dev .running)).point 0).thresholds.intStart ≤ 231) ∧
    (((limited true (dev .running)).point 0).thresholds.dipEnd ≤ 21206 ∧
      21205 < ((limited true (dev .running)).point 0).thresholds.dipEnd) ∧
    (((limited true (dev .running)).point 0).thresholds.intEnd ≤ 692 ∧
      691 < ((limited true (dev .running)).point 0).thresholds.intEnd) ∧
    (((limited true (dev .running)).point 0).low = .quiet ∧
      ((disturbed (dev .running)).point 0).low = .dip (event .dip)) ∧
    ((limited true (dev .running)).captureAnswer = .taken ∧
      (capturing 65 63 (dev .running)).captureAnswer ≠ .taken) ∧
    ((event .dip).work = .decided .notAssessed none ∧
      ((({ event .dip with work := .gathering [] } : OpenEvent).work) = .gathering [])) ∧
    (∃ n : OriginNote, n = { channel := 1, reference := some 10200, onset := some 13000 } ∧
      n.current none = some 13000 ∧ n.current (some (resultWith 20000 15300)) = some 15300 ∧
      n.current (some (result 20000)) = none ∧
      decideOrigin State.reset.setup [n] (some (resultWith 20000 15300)) = (.downstream, some 384) ∧
      decideOrigin State.reset.setup [n] (some (resultWith 20000 12000)) = (.downstream, some 326) ∧
      decideOrigin State.reset.setup [{ n with onset := some 12000 }] none = (.upstream, some 301) ∧
      decideOrigin State.reset.setup [{ n with reference := none }] none = (.undetermined, none)) ∧
    (∃ s, s = clamped [1, 2, 3, 4, 5, 6, 7] (limited true (dev .running)) ∧
      ((s.takeResult 0 (resultWith 20745 9)).channel 1).ring = [1, 2, 3, 4, 5, 6, 7, 9] ∧
      (((s.takeResult 0 (resultWith 20745 9)).takeResult 0 (resultWith 20745 8)).channel 1).ring =
        [2, 3, 4, 5, 6, 7, 9, 8] ∧
      ((s.takeResult 0 (resultWith 20744 9)).channel 1).ring = [1, 2, 3, 4, 5, 6, 7] ∧
      ((s.takeResult 0 (result 20745)).channel 1).ring = [1, 2, 3, 4, 5, 6, 7]) := by
  refine ⟨?_, ?_, ?_, ?_, ?_, ?_, ?_, ?_, ?_, ⟨_, rfl, ?_⟩, ⟨_, rfl, ?_⟩⟩ <;> decide +kernel

/-- LowTrackerMoves on the fields of an event: the Capture Engine's four answers, the lower of two equal phases, the
growth of an open dip, and the record and the count of one that closes. -/
theorem test_meets_LowTrackerMoves_fields :
    (([limited true (dev .holdup), capturing 65 63 (limited true (dev .running)),
        { limited true (dev .running) with shedding := .shed }, limited true (dev .running)].map (fun s =>
      ((s.lowStep 0 (result 20744)).point 0).low.event.map (fun e => (e.captureStatus, e.captureTag)))) =
      [some (.notTakenSupply, none), some (.notTakenBusy, none), some (.notTakenShed, none), some (.taken, some 1)]) ∧
    (HoldsFirst (result 20744) 20744 1 ∧ (20000 ≤ (event .dip).extreme ∧ 19999 < (event .dip).extreme)) ∧
    ((((disturbed (limited true (dev .running))).lowStep 0 (result 19999)).point 0).low.event.map (fun e =>
      (e.windows, e.extreme, e.extremePhase)) = some (2, 19999, 1)) ∧
    (∃ s, s = disturbed (assessed (limited true (dev .running))) ∧
      (((s.lowStep 0 (result 21206)).point 0).assessment.map Assessment.dips) = some 1 ∧
      (s.lowStep 0 (result 21206)).builder.queue.length = 2 ∧ ((s.lowStep 0 (result 21206)).point 0).low = .quiet) := by
  refine ⟨?_, ⟨⟨?_, ?_⟩, ?_⟩, ?_, ⟨_, rfl, ?_⟩⟩ <;> decide +kernel

/-- HighTrackerMoves on a whole window result: the low tracker opens a dip and withdraws the unsent check but not a sent
one, and a tracker that stays QUIET withdraws none. -/
theorem test_meets_HighTrackerMoves_result :
    ∃ s, s = checking 9 false measuring ∧ (s.point 0).low = .quiet ∧
      (((s.takeResult 0 (result 20000)).point 0).low ≠ .quiet ∧
        ((s.takeResult 0 (result 20000)).point 0).check = none) ∧
      ((((checking 9 true measuring).takeResult 0 (result 20000)).point 0).check.isSome = true) ∧
      (((s.takeResult 0 (result 23000)).point 0).low = .quiet ∧
        ((s.takeResult 0 (result 23000)).point 0).check = (s.point 0).check) ∧
      (((s.takeResult 0 (result 26000)).point 0).high.event.map OpenEvent.eventClass) = some .swell ∧
      ((disturbed (dev .running)).point 0).low ≠ .quiet := by
  refine ⟨_, rfl, ?_⟩
  decide +kernel

theorem test_meets_HighTrackerMoves :
    ((limited true (dev .running)).point 0).high = .quiet ∧
    (((limited true (dev .running)).point 0).thresholds.swellStart < 25356 ∧
      25355 ≤ ((limited true (dev .running)).point 0).thresholds.swellStart) ∧
    (24894 ≤ ((limited true (dev .running)).point 0).thresholds.swellEnd ∧
      ((limited true (dev .running)).point 0).thresholds.swellEnd < 24895) ∧
    ((disturbed (dev .running)).point 0).high = .swell (event .swell) ∧ (event .dip).captureStatus = .taken ∧
    (limited true (dev .running)).captureAnswer = .taken ∧
    (capturing 65 63 (dev .running)).captureAnswer ≠ .taken ∧
    ({ values := [], tick := 5, free := false } : WindowResult).usable = [] ∧
    ((((disturbed (dev .running)).highStep 0 { values := [], tick := 5, free := false } none).point 0).high.event.map
      OpenEvent.blindWindows) = some 1 ∧
    ({ event .dip with captureStatus := .notTakenBusy, captureTag := none } : OpenEvent).captureStatus ≠ .taken := by
  decide +kernel

theorem test_meets_SpansClose :
    ({ dev .running with setup := { State.reset.setup with blockPoints := 1 } } : State).setup.blockPoints.getLsbD 0 =
      true ∧
    (dev .running).setup.blockPoints.getLsbD 0 = false ∧
    ((((assessed (dev .running)).openSpans 0 0).point 0).interval.isSome = true ∧
      (((assessed (dev .running)).openSpans 0 0).point 0).assessment = some (.fresh 0)) ∧
    ((Assessment.fresh 0).closedIntervals + 1 < State.reset.setup.assessmentLength ∧
      ({ Assessment.fresh 0 with closedIntervals := 1007 } : Assessment).closedIntervals + 1 =
        State.reset.setup.assessmentLength) ∧
    (∃ q : Period, q = { first := 0, crossings := 500, span := some (327688560, 360428560), valid := true } ∧
      q.value 12800 = some 49943 ∧ (127999 : Tick).toNat - (127999 : Tick).toNat % (10 * 12800) = 0 ∧
      (128000 : Tick).toNat - (128000 : Tick).toNat % (10 * 12800) = 128000 ∧
      ({ q with valid := false } : Period).valid = false ∧ (Period.fresh 0).crossings < 2 ∧
      (((((assessed (dev .running)).openSpans 0 0).modPoint 0 (fun pt => { pt with period := some q })).advancePeriod
        0 128000).point 0).assessment.map Assessment.freqEvaluated = some 1) ∧
    closingInstant 1280034 (some (-175000)) (some 225000)
      (some { count := 128, free := false, crossing := some .positive, tracked := true }) = some 327688560 := by
  refine ⟨?_, ?_, ?_, ?_, ⟨_, rfl, ?_⟩, ?_⟩ <;> decide +kernel

/-- A half-window closed at a tick, with a window value of channel 0. -/
def half (t : Tick) : ClosedHalf :=
  { tick := t, count := 128, result := some (result 20000), disturbed := false }

/-- SpansClose on the taking of a half-window: in the base of the interval with a block that goes on and one that is
full, and in a new base, which closes the interval; and what joins a block and an interval. -/
theorem test_meets_SpansClose_taking :
    (∃ s, s = spanned 18 (dev .running) ∧ (s.point 0).block = some { Block.fresh with count := 18 } ∧
      ((s.takeHalf 0 (half 300)).point 0).block.map Block.count = some 19 ∧
      (((s.takeHalf 0 (half 300)).takeHalf 0 (half 400)).point 0).block = some .fresh ∧
      ((s.takeHalf 0 (half 300)).point 0).interval.map Interval.base = some 0 ∧
      ((s.takeHalf 0 (half 7680001)).point 0).interval.map Interval.base = some 7680000 ∧
      ((s.takeHalf 0 (half 7680001)).point 0).interval.map Interval.halfWindows = some 1 ∧
      (s.takeHalf 0 (half 7680001)).attention.isPending .intervalClosed = true) ∧
    ((spanned 0 (dev .running)).point 0).block = some .fresh ∧
    ((half 5).result.any (fun r => r.usable.isEmpty) = false ∧
      ({ half 5 with result := none } : ClosedHalf).result = none ∧
      (∃ w ∈ (result 20000).values, w.channel = 0 ∧ w.opened = false ∧ w.value = some 20000 ∧
        ∀ x ∈ (result 20000).values, x.channel = 0 → x = w) ∧
      ∀ w ∈ (result 20000).values, w.channel ≠ 1) ∧
    ((Tally.zero.unavailable = 0) ∧ (Tally.zero.add 3 .missing).unavailable ≠ 0) := by
  refine ⟨⟨_, rfl, ?_⟩, ?_, ?_, ?_⟩ <;> decide +kernel

/-- SpansClose on the closing of a half-window: without a pair flag there is no result and no disturbed mark; with it a
result that leaves a tracker open marks the block, and one that leaves both QUIET does not. -/
theorem test_meets_SpansClose_closing :
    ∃ (s : State) (k : Closing), s = spanned 5 measuring ∧
      k = { count := 128, free := true, crossing := some .positive, tracked := false } ∧
      (s.point 0).pairFlag = false ∧
      ((s.closeHalf 0 7 k).point 0).block.map (fun b => (b.count, b.disturbed, b.blind)) = some (6, false, false) ∧
      (∃ u, u = s.modPoint 0 (fun pt => { pt with pairFlag := true }) ∧ (u.point 0).pairFlag = true ∧
        ((u.closeHalf 0 7 k).point 0).block.map (fun b => (b.count, b.disturbed)) = some (6, true)) ∧
      ∃ u, u = (s.modPoint 0 (fun pt => { pt with pairFlag := true })).modChannel 0 (fun _ => tallied 0 0) ∧
        ((u.closeHalf 0 7 k).point 0).block.map (fun b => (b.count, b.disturbed, b.blind)) = some (6, false, false) := by
  refine ⟨_, _, rfl, rfl, ?_, ?_, ⟨_, rfl, ?_⟩, ⟨_, rfl, ?_⟩⟩ <;> decide +kernel

/-- SpansClose on the judging of an interval against the bands: evaluable, with and without a value. -/
theorem test_meets_SpansClose_bands :
    ∃ s r, s = mapped .connected (limited true (dev .running)) ∧
      r = { intervalRecord s 0 { s.newInterval 0 with
          sums := Vector.replicate 24 { IntervalSum.zero with sum := 8000000000000, count := 1 } } 7680000 false with
        halfWindows := 2, blindHalfWindows := 1 } ∧
      (r.flags.disturbed = false ∧ r.flags.short = false ∧ 2 * r.blindHalfWindows ≤ r.halfWindows) ∧
      s.voltageOf 0 1 = some 0 ∧ r.valueOf 0 = some 23001 ∧ s.voltageOf 0 2 = none ∧
      ((Assessment.fresh 0).takeInterval s 0 r).phases[0] = { evaluated := 1, below := 0, above := 0 } ∧
      ((Assessment.fresh 0).takeInterval s 0 { r with blindHalfWindows := 2 }).phases[0] = .zero := by
  refine ⟨_, _, rfl, rfl, ?_⟩
  decide +kernel

/-- SpansClose on a closed event: it counts by its class. -/
theorem test_meets_SpansClose_events :
    ((((assessed (dev .running)).closeEvent 0 (event .dip) 9 .normal).point 0).assessment.map Assessment.dips) = some 1 ∧
    ((((assessed (dev .running)).closeEvent 0 (event .swell) 9 .normal).point 0).assessment.map Assessment.swells) =
      some 1 := by decide +kernel

/-- A STOPPED device meets every invariant, and its step answers a next state. -/
theorem test_meets_StoresAndCapturesKept :
    QueuesBounded (dev .stopped) ∧ ChainIntact (dev .stopped).builder ∧ CaptureCoherent (dev .stopped) ∧
    FramesFormed (dev .stopped) ∧ FramesFormed (capturing 65 63 (dev .running)) ∧
    step (dev .stopped) = .next (dev .stopped) := by
  refine ⟨?_, ⟨trivial, ?_, ?_⟩, ⟨?_, ?_, ?_, ?_⟩, ?_, ?_, rfl⟩
  · constructor <;> decide +kernel
  · intro r h
    cases h
    decide +kernel
  · intro r h
    cases h
    intro _
    decide +kernel
  · constructor <;> decide +kernel
  · decide +kernel
  · decide +kernel
  · decide +kernel
  · intro c h
    cases h
  · intro c h
    cases h
    decide +kernel

theorem test_meets_TablesAndHalfWindowsKept :
    HalfWindowsBounded (dev .stopped) ∧ MapLegal (dev .stopped) ∧ LimitsLegal (limited true (dev .stopped)) ∧
    step (limited true (dev .stopped)) = .next (limited true (dev .stopped)) := by
  refine ⟨?_, ⟨by decide +kernel, by decide +kernel⟩, ?_, rfl⟩
  · intro p
    have h : ((dev .stopped).point p).boundary = .fresh := by
      revert p
      decide +kernel
    rw [h]
    unfold Boundary.bounded Boundary.fresh
    decide
  · intro p
    have h : ∀ q, ((limited true (dev .stopped)).point q).limits.valid = true ∧
        ((limited true (dev .stopped)).point q).pendingLimits = none ∧
        ((limited true (dev .stopped)).point q).thresholds =
          deriveThresholds ((limited true (dev .stopped)).point q).limits := by decide +kernel
    refine ⟨(h p).1, fun l hl => ?_, (h p).2.2⟩
    rw [(h p).2.1] at hl
    cases hl

theorem test_meets_SpansExactKept :
    SpansExact (dev .stopped) ∧ step (dev .stopped) = .next (dev .stopped) := by
  refine ⟨⟨by decide +kernel, by decide +kernel, by decide +kernel, fun p _ => ?_⟩, rfl⟩
  constructor <;> revert p <;> decide +kernel

theorem test_meets_ModulesCoherentKept :
    ModulesCoherent ((am0 .locked 4 7 (dev .stopped)).modModule 1 (fun r => { r with state := .seeking })) ∧
    step ((am0 .locked 4 7 (dev .stopped)).modModule 1 (fun r => { r with state := .seeking })) =
      .next ((am0 .locked 4 7 (dev .stopped)).modModule 1 (fun r => { r with state := .seeking })) := by
  refine ⟨⟨?_, fun m => ?_⟩, rfl⟩
  · constructor <;> decide +kernel
  · constructor <;> revert m <;> decide +kernel

theorem test_meets_ControlCoherentKept :
    ControlCoherent (withPrior .running (dev .holdup)) ∧
    step (withPrior .running (dev .holdup)) = .next (withPrior .running (dev .holdup)) := by
  refine ⟨?_, rfl⟩
  constructor <;> decide +kernel

/-! ### One step of a few commands -/

theorem test_start_stop :
    (after (.start 1) (limited false (mapped .opened (enabled (dev .stopped))))).control.device = .running ∧
    ((after (.start 1) (limited false (mapped .opened (enabled (dev .stopped))))).channel 0).due = true ∧
    ((after (.start 1) (limited false (mapped .opened (enabled (dev .stopped))))).point 0).interval.isSome = true ∧
    (after (.start 1) (dev .stopped)).control.device = .stopped ∧
    (after (.stop 1) (disturbed (capturing 65 64 (dev .running)))).control.device = .stopped ∧
    (after (.stop 1) (disturbed (capturing 65 64 (dev .running)))).builder.queue.length = 6 := by decide +kernel

theorem test_supply :
    (after .supplyFailure (withLevel .failing (dev .running))).control.prior = some .running ∧
    (after .supplyReturnHoldup (withPrior .running (dev .holdup))).control.device = .running ∧
    (after (.holdupTimerExpiry 0) (withPrior .running (atTick 64000 (dev .holdup)))).control.device = .standby ∧
    (after (.holdupTimerExpiry 0) (withPrior .running (atTick 63999 (dev .holdup)))).control.device = .holdup ∧
    (after .supplyReturnStandby (assessed (withPrior .running (dev .standby)))).builder.queue.length = 3 := by
  decide +kernel

theorem test_capture :
    (after (.trigger 1 0) (limited true (dev .running))).eventTag = 1 ∧
    ((after (.trigger 1 0) (limited true (dev .running))).capture.map RunningCapture.plannedEnd) = some 2048 ∧
    (after .captureFrameForm (capturing 65 64 (dev .running))).captureQueue.length = 1 ∧
    (after .captureFrameForm (capturing 64 64 (dev .running))).capture = none ∧
    (after .captureFrameForm (capturing 65 64 (queued 39 (dev .running)))).shedding = .shed := by decide +kernel

/-- R120, R121, first occasion: 100 pre-trigger sets are stored, so the capture that TRIGGER starts forms a frame. -/
theorem test_trigger_forms :
    (after (.trigger 1 0) (limited true (stored 100))).captureQueue.length = 1 ∧
    ((after (.trigger 1 0) (limited true (stored 100))).capture.map RunningCapture.preCount) = some 100 ∧
    ((after (.trigger 1 0) (limited true (stored 100))).capture.map RunningCapture.delivered) = some 64 := by
  decide +kernel

/-- R121, second occasion: the set of tick 64 is written at the expiry. With the fall of the supply that the expiry
samples, the entry to HOLDUP may truncate the capture first (R126, log entry 29). -/
theorem test_set_write_forms :
    (after (.strobeTimerExpiry .good lastly) (capturing 65 63 (atTick 64 (dev .running)))).captureQueue.length = 1 ∧
    (after (.strobeTimerExpiry .failing lastly) (falling (capturing 65 63 (atTick 64 (dev .running))))).captureQueue.length
      = 1 ∧
    (after (.strobeTimerExpiry .failing { lastly with framesAt := 5 })
      (falling (capturing 65 63 (atTick 64 (dev .running))))).captureQueue = [] ∧
    (after (.strobeTimerExpiry .failing { lastly with framesAt := 5 })
      (falling (capturing 65 63 (atTick 64 (dev .running))))).capture = none := by decide +kernel

/-- R121, third occasion: a full Capture Queue holds a ready frame back until a frame leaves it. -/
theorem test_removal_forms :
    (capturing 65 64 (queued 48 (dev .running))).formAll.captureQueue.length = 48 ∧
    (after (.exchangeEnd (List.replicate 64 0) 0)
      (sendingCapture (capturing 65 64 (queued 48 (dev .running))))).captureQueue.length = 48 ∧
    ((after (.exchangeEnd (List.replicate 64 0) 0)
      (sendingCapture (capturing 65 64 (queued 48 (dev .running))))).capture.map RunningCapture.frameIndex) = some 1 := by
  decide +kernel

theorem test_lines :
    (after (.pulseExpiry .line0) (pulsing (.pulse 0) true (atTick 256 (dev .running)))).attention.line0.phase =
      .gap 256 ∧
    (after (.gapExpiry .line0) (pulsing (.gap 0) true (atTick 256 (dev .running)))).attention.line0 =
      { phase := .pulse 256, followUp := false } ∧
    (pulsing (.pulse 0) true (dev .running)).lineHigh .line0 = true ∧
    (after (.ack 1 0x0100) ((dev .running).raise .supply)).attention.pendingSet = 0 := by decide +kernel

/-- R176, log entry 3: a gap ends at the new tick, whose expiry loses a module with a command and so raises two classes.
With the line last the two raises merge into one pulse; with the line first they give a pulse and a follow-up mark. -/
theorem test_line_order :
    (after (.strobeTimerExpiry .good lastly)
      (pulsing (.gap 0) false (commanded none (am0 .locked 0 7 (atTick 255 (dev .running)))))).attention.line0 =
      { phase := .gap 0, followUp := true } ∧
    (after (.gapExpiry .line0) (after (.strobeTimerExpiry .good lastly)
      (pulsing (.gap 0) false (commanded none (am0 .locked 0 7 (atTick 255 (dev .running))))))).attention.line0 =
      { phase := .pulse 256, followUp := false } ∧
    (after (.strobeTimerExpiry .good { lastly with line0First := true })
      (pulsing (.gap 0) false (commanded none (am0 .locked 0 7 (atTick 255 (dev .running)))))).attention.line0 =
      { phase := .pulse 256, followUp := true } := by decide +kernel

theorem test_tables :
    (after (.tableWriteSetup 1 0 (List.replicate 26 0) 0) (dev .stopped)).setup.postTrigger = 256 ∧
    (after (.tableWriteSetup 1 0 (List.replicate 26 0xFF) 0) (dev .stopped)).setup.lowMark = 47 ∧
    ((after (.tableWriteChannelMap 1 23 (entryBytes 3)) (dev .stopped)).channel 23).entry.phase = 3 ∧
    ((after (.tableWriteLimits 1 3 (limitsBytes 23050)) (dev .stopped)).point 3).thresholds.intStart = 231 ∧
    ((after (.tableWriteLimits 1 0 (limitsBytes 23050)) (dev .running)).point 0).pendingLimits = some limits ∧
    (after (.tableWriteRouting 1 0 (List.replicate 10 2 ++ List.replicate 16 3)) (dev .standby)).routing.config1 =
      { mode := .pulseLow, width := .w64 } := by decide +kernel

theorem test_time_set :
    (after (.timeSet 1 5000) (atTick 70 (dev .stopped))).epochNow = 5000 ∧
    (after (.timeSet 1 5000) (atTick 70 (dev .stopped))).control.epochUnset = false ∧
    (after (.timeSet 1 5000) (dev .holdup)).control.epochUnset = true := by decide +kernel

end Sys2Proof.Tests
end

section
/-! PROOFS. The bytes of a frame and the codes they spell (R179, section 12.6). -/

namespace Sys2Proof.Machine

/-! ### Fields of one, two and three bytes -/

@[simp] theorem fieldAt_one (b : List Byte) (i : Nat) : fieldAt b i 1 = (byteAt b i).toNat := by
  simp [fieldAt]

theorem fieldAt_two (b : List Byte) (i : Nat) :
    fieldAt b i 2 = (byteAt b i).toNat * 256 + (byteAt b (i + 1)).toNat := by
  simp [fieldAt]

theorem fieldAt_three (b : List Byte) (i : Nat) :
    fieldAt b i 3 =
      (byteAt b i).toNat * 65536 + (byteAt b (i + 1)).toNat * 256 + (byteAt b (i + 2)).toNat := by
  simp [fieldAt, Nat.add_assoc]

/-- Appending a byte shifts the bits before it by one byte. -/
theorem toNat_append_byte {w : Nat} (x : BitVec w) (y : Byte) : (x ++ y).toNat = x.toNat * 256 + y.toNat := by
  rw [BitVec.toNat_append, ← Nat.shiftLeft_add_eq_or_of_lt y.isLt, Nat.shiftLeft_eq]

theorem ofNat_fieldAt_two (b : List Byte) (i : Nat) :
    BitVec.ofNat 16 (fieldAt b i 2) = byteAt b i ++ byteAt b (i + 1) := by
  rw [fieldAt_two, ← toNat_append_byte, BitVec.ofNat_toNat]
  rfl

theorem ofNat_fieldAt_three (b : List Byte) (i : Nat) :
    BitVec.ofNat 24 (fieldAt b i 3) = byteAt b i ++ byteAt b (i + 1) ++ byteAt b (i + 2) := by
  have h : fieldAt b i 3 = (byteAt b i ++ byteAt b (i + 1) ++ byteAt b (i + 2)).toNat := by
    rw [fieldAt_three, toNat_append_byte, toNat_append_byte]
    omega
  rw [h, BitVec.ofNat_toNat]
  rfl

theorem clampNat_zero_eq_min (hi x : Nat) : clampNat 0 hi x = min hi x := by
  unfold clampNat
  split
  · omega
  · split <;> omega

/-! ### Names that a code spells -/

theorem channelOfNat_eq_none_iff (n : Nat) : channelOfNat n = none ↔ 24 ≤ n := by
  simp [channelOfNat]

@[simp] theorem channelOfNat_val (c : Channel) : channelOfNat c.val = some c := by
  simp [channelOfNat]

@[simp] theorem kindOfCode_code (kind : ChannelKind) : kindOfCode kind.code = some kind := by
  cases kind <;> rfl

/-- A code above 1 names no channel kind (R21). -/
theorem kindOfCode_eq_none_iff (b : Byte) : kindOfCode b = none ↔ 1 < b.toNat := by
  unfold kindOfCode
  split
  · next h => simp [h]
  · split
    · next h => simp [h]
    · next h0 h1 => simp only [true_iff]; bv_omega

end Sys2Proof.Machine
end

section
/-! PROOFS. How a taken frame goes to the held slot or to its execution (R149, R150). -/

namespace Sys2Proof.Machine

/-- In INIT with the slot empty a frame that is no NOP is held. -/
theorem State.takeFrame_init_empty (s : State) (f : ControlFrame) (order : List Module)
    (hd : s.control.device = .init) (hh : s.port.held = none) (hf : f.isNop = false) :
    s.takeFrame f order = { s with port := { s.port with held := some f } } := by
  simp [State.takeFrame, Port.hold, hd, hh, hf]

/-- Outside INIT a frame is executed. -/
theorem State.takeFrame_of_ne_init (s : State) (f : ControlFrame) (order : List Module)
    (hd : s.control.device ≠ .init) : s.takeFrame f order = s.executeFrame f order :=
  if_neg hd

theorem exec_tableWriteChannelMap (s : State) (tag index : Byte) (entry : List Byte) :
    exec (.tableWriteChannelMap tag index entry) s =
      .next (s.takeFrame (.tableWrite tag tableChannelMap index entry) allFour) := by
  rfl

theorem exec_tableWriteChannelMap_init (s : State) (tag index : Byte) (entry : List Byte)
    (hd : s.control.device = .init) (hh : s.port.held = none) :
    exec (.tableWriteChannelMap tag index entry) s =
      .next { s with port := { s.port with held := some (.tableWrite tag tableChannelMap index entry) } } := by
  rw [exec_tableWriteChannelMap, s.takeFrame_init_empty _ _ hd hh rfl]

theorem exec_tableWriteChannelMap_of_ne_init (s : State) (tag index : Byte) (entry : List Byte)
    (hd : s.control.device ≠ .init) :
    exec (.tableWriteChannelMap tag index entry) s = .next (s.writeMap tag index entry) := by
  rw [exec_tableWriteChannelMap, s.takeFrame_of_ne_init _ _ hd]
  rfl

end Sys2Proof.Machine
end

section
/-! PROOFS. A TABLE-WRITE of CHANNEL MAP (R21, R22): its tests one by one, and what an entry's bytes spell. -/

namespace Sys2Proof.Machine

/-! ### The tests of an entry -/

theorem MapEntry.inRange_iff (e : MapEntry) :
    e.inRange = true ↔
      e.enabled = false ∨ (e.module ≤ 3 ∧ e.slot ≤ 5 ∧ e.point ≤ 3 ∧ 1 ≤ e.phase ∧ e.phase ≤ 3) := by
  simp [MapEntry.inRange, and_assoc]

/-- An entry fails the range test when it is enabled with a field out of its range. -/
theorem MapEntry.inRange_eq_false (e : MapEntry) (he : e.enabled = true)
    (h : 3 < e.module ∨ 5 < e.slot ∨ 3 < e.point ∨ e.phase < 1 ∨ 3 < e.phase) : e.inRange = false := by
  rw [Bool.eq_false_iff, Ne, e.inRange_iff, he]
  rintro (h' | h')
  · cases h'
  · omega

theorem MapEntry.sharesSource_iff (e f : MapEntry) :
    e.sharesSource f = true ↔
      e.enabled = true ∧ f.enabled = true ∧ e.module = f.module ∧ e.slot = f.slot := by
  simp [MapEntry.sharesSource, and_assoc]

theorem MapEntry.sharesRole_iff (e f : MapEntry) :
    e.sharesRole f = true ↔
      e.enabled = true ∧ f.enabled = true ∧ e.point = f.point ∧ e.kind = f.kind ∧ e.phase = f.phase := by
  simp [MapEntry.sharesRole, and_assoc]

/-- The test of R22 looks at every pair of two channels. -/
theorem mapPasses_iff_pairwise (entries : Vector MapEntry 24) :
    mapPasses entries = true ↔ ∀ i j : Channel, i ≠ j →
      ¬(entries[i.val]).sharesSource entries[j.val] = true ∧ ¬(entries[i.val]).sharesRole entries[j.val] = true := by
  simp only [mapPasses, allChannels, List.all_eq_true, List.mem_finRange, true_imp_iff, Bool.or_eq_true, beq_iff_eq,
    Bool.not_eq_true', Bool.or_eq_false_iff, Bool.not_eq_true, Decidable.or_iff_not_imp_left, ne_eq]

/-- The test of R22: no two enabled entries share a source, and no two share a role. -/
theorem mapPasses_iff (entries : Vector MapEntry 24) :
    mapPasses entries = true ↔
      ∀ i j : Channel, i ≠ j → (entries[i.val]).enabled = true → (entries[j.val]).enabled = true →
        ¬((entries[i.val]).module = (entries[j.val]).module ∧ (entries[i.val]).slot = (entries[j.val]).slot) ∧
        ¬((entries[i.val]).point = (entries[j.val]).point ∧ (entries[i.val]).kind = (entries[j.val]).kind ∧
          (entries[i.val]).phase = (entries[j.val]).phase) := by
  rw [mapPasses_iff_pairwise]
  refine forall_congr' fun i => forall_congr' fun j => imp_congr_right fun _ => ?_
  rw [MapEntry.sharesSource_iff, MapEntry.sharesRole_iff]
  exact ⟨fun h hi hj => ⟨fun hs => h.1 ⟨hi, hj, hs⟩, fun hr => h.2 ⟨hi, hj, hr⟩⟩,
    fun h => ⟨fun ⟨hi, hj, hs⟩ => (h hi hj).1 hs, fun ⟨hi, hj, hr⟩ => (h hi hj).2 hr⟩⟩

/-! ### The outcome of each test, in the order of R21 -/

theorem State.writeMap_not_stopped (s : State) (tag index : Byte) (entry : List Byte)
    (hd : s.control.device ≠ .stopped) :
    s.writeMap tag index entry = s.replyWrite tag tableChannelMap index .refusedState none :=
  if_pos hd

theorem State.writeMap_bad_index (s : State) (tag index : Byte) (entry : List Byte)
    (hd : s.control.device = .stopped) (hi : 24 ≤ index.toNat) :
    s.writeMap tag index entry = s.replyWrite tag tableChannelMap index .badIndex none := by
  simp [State.writeMap, hd, (channelOfNat_eq_none_iff _).2 hi]

theorem State.writeMap_bad_kind (s : State) (tag index : Byte) (entry : List Byte)
    (hd : s.control.device = .stopped) (hi : index.toNat < 24) (hk : 1 < (byteAt entry 3).toNat) :
    s.writeMap tag index entry = s.replyWrite tag tableChannelMap index .invalidEntry none := by
  have hc : channelOfNat index.toNat = some ⟨index.toNat, hi⟩ := channelOfNat_val ⟨index.toNat, hi⟩
  simp [State.writeMap, hd, hc, (kindOfCode_eq_none_iff _).2 hk]

/-- Once state, index and kind are good, the range test and then the test of R22 decide. -/
theorem State.writeMap_of_kind (s : State) (tag index : Byte) (entry : List Byte) (c : Channel) (kind : ChannelKind)
    (hd : s.control.device = .stopped) (hi : index.toNat = c.val) (hk : byteAt entry 3 = kind.code) :
    s.writeMap tag index entry =
      if (parseMapEntry kind entry).inRange = false then s.replyWrite tag tableChannelMap index .invalidEntry none
      else if mapPasses (s.mapWith c (parseMapEntry kind entry)) = false then
        s.replyWrite tag tableChannelMap index .invalidEntry none
      else (s.storeMapEntry c (parseMapEntry kind entry)).replyWrite tag tableChannelMap index .done
        (some (.channelMap (parseMapEntry kind entry))) := by
  simp [State.writeMap, hd, hi, hk]

theorem State.writeMap_out_of_range (s : State) (tag index : Byte) (entry : List Byte) (kind : ChannelKind)
    (hd : s.control.device = .stopped) (hi : index.toNat < 24) (hk : byteAt entry 3 = kind.code)
    (hr : (parseMapEntry kind entry).inRange = false) :
    s.writeMap tag index entry = s.replyWrite tag tableChannelMap index .invalidEntry none := by
  rw [s.writeMap_of_kind tag index entry ⟨index.toNat, hi⟩ kind hd rfl hk, if_pos hr]

theorem State.writeMap_shared (s : State) (tag index : Byte) (entry : List Byte) (c : Channel) (kind : ChannelKind)
    (hd : s.control.device = .stopped) (hi : index.toNat = c.val) (hk : byteAt entry 3 = kind.code)
    (hp : mapPasses (s.mapWith c (parseMapEntry kind entry)) = false) :
    s.writeMap tag index entry = s.replyWrite tag tableChannelMap index .invalidEntry none := by
  rw [s.writeMap_of_kind tag index entry c kind hd hi hk, if_pos hp, ite_self]

theorem State.writeMap_stored (s : State) (tag index : Byte) (entry : List Byte) (c : Channel) (kind : ChannelKind)
    (hd : s.control.device = .stopped) (hi : index.toNat = c.val) (hk : byteAt entry 3 = kind.code)
    (hr : (parseMapEntry kind entry).inRange = true)
    (hp : mapPasses (s.mapWith c (parseMapEntry kind entry)) = true) :
    s.writeMap tag index entry =
      (s.storeMapEntry c (parseMapEntry kind entry)).replyWrite tag tableChannelMap index .done
        (some (.channelMap (parseMapEntry kind entry))) := by
  rw [s.writeMap_of_kind tag index entry c kind hd hi hk, if_neg (by simp [hr]), if_neg (by simp [hp])]

/-! ### The layout of an entry (section 12.6) -/

theorem parseMapEntry_eq (kind : ChannelKind) (entry : List Byte) : parseMapEntry kind entry =
    { enabled := (byteAt entry 0).getLsbD 0
      leadCheck := (byteAt entry 0).getLsbD 1
      module := (byteAt entry 1).toNat
      slot := (byteAt entry 2).toNat
      kind := kind
      point := (byteAt entry 4).toNat
      phase := (byteAt entry 5).toNat
      offset := byteAt entry 6 ++ byteAt entry 7
      gain := (byteAt entry 8).toNat * 65536 + (byteAt entry 9).toNat * 256 + (byteAt entry 10).toNat
      delay := (byteAt entry 11).toNat
      level := byteAt entry 12 ++ byteAt entry 13 ++ byteAt entry 14
      band := min 8388607
        ((byteAt entry 15).toNat * 65536 + (byteAt entry 16).toNat * 256 + (byteAt entry 17).toNat) } := by
  unfold parseMapEntry
  simp only [fieldAt_one, ofNat_fieldAt_two, ofNat_fieldAt_three, clampNat_zero_eq_min]
  simp only [fieldAt_three, Nat.reduceAdd]

/-- Settles O34: each clause is one test of R21 in its order, the test of R22, or the layout of an entry. -/
theorem mapEntryWritten : Obligations.MapEntryWritten := by
  refine ⟨?_, mapPasses_iff, parseMapEntry_eq⟩
  rintro s tag index entry kind e rfl
  have hexec : s.control.device ≠ .init →
      exec (.tableWriteChannelMap tag index entry) s = .next (s.writeMap tag index entry) :=
    exec_tableWriteChannelMap_of_ne_init s tag index entry
  refine ⟨exec_tableWriteChannelMap_init s tag index entry, fun hd => ?refused, fun hd hi => ?badIndex,
    fun hd hi hbad => ?invalid, fun c hd hi hk hr => ?judged⟩
  case refused =>
    have hne : s.control.device ≠ .init ∧ s.control.device ≠ .stopped := by
      rcases hd with hd | hd | hd <;> simp [hd]
    rw [hexec hne.1, s.writeMap_not_stopped tag index entry hne.2]
    rfl
  all_goals rw [hexec (by simp [hd])]
  case badIndex =>
    rw [s.writeMap_bad_index tag index entry hd hi]
    rfl
  case invalid =>
    rcases hbad with hk | ⟨hk, he, hr⟩
    · rw [s.writeMap_bad_kind tag index entry hd hi hk]
      rfl
    · rw [s.writeMap_out_of_range tag index entry kind hd hi hk (MapEntry.inRange_eq_false _ he hr)]
      rfl
  case judged =>
    refine ⟨fun hp => ?_, fun hp => ?_⟩
    · rw [s.writeMap_shared tag index entry c kind hd hi hk hp]
      rfl
    · rw [s.writeMap_stored tag index entry c kind hd hi hk ((MapEntry.inRange_iff _).2 hr) hp]
      rfl

end Sys2Proof.Machine
end

section
/-! PROOFS. The crossing offset (R47): a floor, judged by the multiples that lie below it. -/

namespace Sys2Proof.Machine

/-- The signs of a positive crossing turn the offset's naturals into the integers of R47. -/
theorem crossingOffset_eq_ediv {y x : Int} (hy : y < 0) (hx : 0 ≤ x) :
    (crossingOffset y x : Int) = 256 * -y / (x - y) := by
  have habs : (y.natAbs : Int) = -y := Int.ofNat_natAbs_of_nonpos (Int.le_of_lt hy)
  have hdiff : ((x - y).toNat : Int) = x - y := Int.toNat_of_nonneg (by omega)
  rw [crossingOffset, Int.natCast_ediv, Int.natCast_mul, Int.cast_ofNat_Int, habs, hdiff]

/-- A floor is at least `n` when the dividend holds `n` divisors: no fraction is left to reason about. -/
theorem le_crossingOffset_iff {y x : Int} (hy : y < 0) (hx : 0 ≤ x) (n : Nat) :
    n ≤ crossingOffset y x ↔ n * (x - y) ≤ 256 * -y := by
  rw [← Int.ofNat_le, crossingOffset_eq_ediv hy hx, Int.le_ediv_iff_mul_le (by omega)]

theorem crossingOffset_le {y x : Int} (hy : y < 0) (hx : 0 ≤ x) : crossingOffset y x ≤ 256 := by
  have h257 := le_crossingOffset_iff hy hx 257
  omega

/-- The crossing is placed at the tick of its own set exactly when the code there is 0. -/
theorem crossingOffset_eq_256_iff {y x : Int} (hy : y < 0) (hx : 0 ≤ x) : crossingOffset y x = 256 ↔ x = 0 := by
  have hle := crossingOffset_le hy hx
  have h256 := le_crossingOffset_iff hy hx 256
  omega

/-- Settles O48: the quotient, its two bounds by the multiples below it, and the ranges of its operands. -/
theorem crossingOffset_holds : Obligations.CrossingOffset := by
  intro y x hymin hy hx hxmax
  refine ⟨crossingOffset_eq_ediv hy hx, crossingOffset_le hy hx, crossingOffset_eq_256_iff hy hx, ?_⟩
  omega

end Sys2Proof.Machine
end

section
/-! PROOFS. The integer square root (R61): its binary digits bracket the root of the number, ever closer; and the
scaled roots in window values, block records and interval records. -/

namespace Sys2Proof.Machine

/-! ### The root, digit by digit -/

/-- `r` is the root of `m` but for its digits below place `b`. -/
def BracketsRoot (m b r : Nat) : Prop :=
  r * r ≤ m ∧ m < (r + 2 ^ b) * (r + 2 ^ b)

/-- One digit halves the bracket, whether it is kept or not. -/
theorem rootStep_brackets {m b r : Nat} (h : BracketsRoot m (b + 1) r) : BracketsRoot m b (rootStep m r b) := by
  obtain ⟨hle, hlt⟩ := h
  unfold rootStep
  split
  next hkept =>
    have hwidth : r + 2 ^ b + 2 ^ b = r + 2 ^ (b + 1) := by rw [Nat.pow_succ]; omega
    exact ⟨hkept, hwidth ▸ hlt⟩
  next hdropped => exact ⟨hle, Nat.lt_of_not_le hdropped⟩

theorem rootDigits_brackets {m b r : Nat} (h : BracketsRoot m b r) : BracketsRoot m 0 (rootDigits m b r) := by
  induction b generalizing r with
  | zero => exact h
  | succ b ih => exact ih (rootStep_brackets h)

/-- The places from which `intRoot` starts are enough: the root has at most half the bits of `m`, rounded up. -/
theorem zero_brackets (m : Nat) : BracketsRoot m (m.log2 / 2 + 1) 0 := by
  refine ⟨Nat.zero_le m, ?_⟩
  calc m < 2 ^ (m.log2 + 1) := Nat.lt_log2_self
    _ ≤ 2 ^ (m.log2 / 2 + 1 + (m.log2 / 2 + 1)) := Nat.pow_le_pow_right (by decide) (by omega)
    _ = (0 + 2 ^ (m.log2 / 2 + 1)) * (0 + 2 ^ (m.log2 / 2 + 1)) := by rw [Nat.zero_add, Nat.pow_add]

theorem intRoot_brackets (m : Nat) : BracketsRoot m 0 (intRoot m) :=
  rootDigits_brackets (zero_brackets m)

theorem intRoot_mul_self_le (m : Nat) : intRoot m * intRoot m ≤ m :=
  (intRoot_brackets m).1

theorem lt_intRoot_succ_mul_self (m : Nat) : m < (intRoot m + 1) * (intRoot m + 1) :=
  (intRoot_brackets m).2

theorem le_intRoot_of_mul_self_le {m r : Nat} (h : r * r ≤ m) : r ≤ intRoot m :=
  Nat.le_of_lt_succ (Nat.mul_self_lt_mul_self_iff.1 (Nat.lt_of_le_of_lt h (lt_intRoot_succ_mul_self m)))

theorem intRoot_le_of_le_mul_self {m k : Nat} (h : m ≤ k * k) : intRoot m ≤ k :=
  Nat.mul_self_le_mul_self_iff.1 (Nat.le_trans (intRoot_mul_self_le m) h)

/-! ### Where results are formed (R60, R65, R66) -/

theorem windowValue_of_value {c : Channel} {r : ChannelRecord} {free : Bool} {v : Nat}
    (h : (windowValue c r free).value = some v) :
    v = scaledMean (r.previous.q + r.current.q) (r.previous.n + r.current.n) r.entry.gain := by
  unfold windowValue at h
  cases hq : windowQuality r.previous r.current <;> simp only [hq] at h
  case unavailable => cases h
  case good => exact (Option.some.inj h).symm
  case held => exact (Option.some.inj h).symm

theorem BlockSum.mean_of_some {b : BlockSum} {mean : Nat} (h : b.mean = some mean) : mean = b.q / b.n :=
  (Option.some.inj (Option.ite_none_right_eq_some.1 h).2).symm

theorem IntervalSum.mean_of_some {a : IntervalSum} {mean : Nat} (h : a.mean = some mean) :
    mean = a.sum / a.count :=
  (Option.some.inj (Option.ite_none_right_eq_some.1 h).2).symm

theorem blockRecord_value {s : State} {p : Point} {b : Block} {x : BlockChannel} {v : Nat}
    (hx : x ∈ (blockRecord s p b).channels) (hv : x.value = some v) :
    v = s.resultOf x.channel ((b.sums[x.channel.val]).q / (b.sums[x.channel.val]).n) := by
  obtain ⟨c, -, rfl⟩ := List.mem_map.1 hx
  obtain ⟨mean, hmean, rfl⟩ := Option.map_eq_some_iff.1 hv
  rw [BlockSum.mean_of_some hmean]

theorem intervalRecord_value {s : State} {p : Point} {iv : Interval} {e : Tick} {stopped : Bool}
    {x : IntervalChannel} {v : Nat} (hx : x ∈ (intervalRecord s p iv e stopped).channels) (hv : x.value = some v) :
    v = s.resultOf x.channel ((iv.sums[x.channel.val]).sum / (iv.sums[x.channel.val]).count) := by
  obtain ⟨c, -, rfl⟩ := List.mem_map.1 hx
  obtain ⟨mean, hmean, rfl⟩ := Option.map_eq_some_iff.1 hv
  rw [IntervalSum.mean_of_some hmean]
  rfl

/-- Settles O47: the last bracket has width 1, which leaves one root; each result is a scaled root by its record's own
lemma. -/
theorem rootExact : Obligations.RootExact := by
  refine ⟨fun m => ⟨intRoot_mul_self_le m, fun r => le_intRoot_of_mul_self_le⟩, ?zero, fun m hm => ?bound,
    fun c r free v => windowValue_of_value, fun s p b x v => blockRecord_value,
    fun s p iv e stopped x v => intervalRecord_value⟩
  case zero => exact Nat.le_zero.1 (intRoot_le_of_le_mul_self (k := 0) (Nat.le_refl 0))
  case bound => exact intRoot_le_of_le_mul_self (Nat.le_trans hm (by decide))

end Sys2Proof.Machine
end

section
/-! PROOFS. The mark of the record queue (R132, R135): every class is admitted below it, so an offer raises QUEUE_HIGH
exactly at the occupancy one below. -/

namespace Sys2Proof.Machine

/-! ### Admission at and below the mark -/

theorem AdmissionClass.le_limit (k : AdmissionClass) : Config.classCLimit ≤ k.limit := by
  cases k <;> decide

theorem RecordBuilder.admits_iff (b : RecordBuilder) (body : RecordBody) :
    b.admits body = true ↔ b.queue.length < body.admission.limit :=
  decide_eq_true_iff

theorem RecordBuilder.admits_of_lt_mark {b : RecordBuilder} (body : RecordBody)
    (h : b.queue.length < Config.classCLimit) : b.admits body = true :=
  (b.admits_iff body).2 (Nat.lt_of_lt_of_le h body.admission.le_limit)

theorem RecordBuilder.refuses_c_of_mark_le {b : RecordBuilder} {body : RecordBody} (hc : body.admission = .c)
    (h : Config.classCLimit ≤ b.queue.length) : b.admits body = false := by
  rw [Bool.eq_false_iff, Ne, b.admits_iff, hc]
  exact Nat.not_lt.2 h

/-- The class of the record does not matter: one below the mark, every class is admitted. -/
theorem RecordBuilder.reachesHigh_iff (b : RecordBuilder) (body : RecordBody) :
    b.reachesHigh body = true ↔ b.queue.length + 1 = Config.classCLimit := by
  rw [RecordBuilder.reachesHigh, Bool.and_eq_true, beq_iff_eq, and_iff_right_iff_imp]
  intro h
  exact RecordBuilder.admits_of_lt_mark body (Nat.lt_of_succ_le (Nat.le_of_eq h))

/-! ### Offers that raise, and offers that do not -/

theorem State.offer_of_reachesHigh {s : State} {body : RecordBody} (h : s.builder.reachesHigh body = true) :
    s.offer body = ({ s with builder := s.builder.offer body } : State).raise .queueHigh :=
  if_pos h

theorem State.offer_of_not_reachesHigh {s : State} {body : RecordBody} (h : ¬ s.builder.reachesHigh body = true) :
    s.offer body = { s with builder := s.builder.offer body } :=
  if_neg h

theorem State.offer_queue_of_refused {s : State} {body : RecordBody} (h : s.builder.admits body = false) :
    (s.offer body).builder.queue = s.builder.queue := by
  rw [s.offer_builder, s.builder.offer_refused body h]

theorem State.offer_length_of_admitted {s : State} {body : RecordBody} (h : s.builder.admits body = true) :
    (s.offer body).builder.queue.length = s.builder.queue.length + 1 := by
  rw [s.offer_builder, s.builder.offer_length, if_pos h]

theorem State.removeHead_record (s : State) :
    s.removeHead .record = { s with builder := { s.builder with queue := s.builder.queue.tail } } := by
  rw [State.removeHead, List.drop_one]

/-- Settles O46: occupancy 63 is the one below the mark, where every class is admitted and QUEUE_HIGH is raised; at the
mark class C is refused; a removal takes the head alone. -/
theorem queueHighRaised : Obligations.QueueHighRaised := by
  refine ⟨fun s body => ⟨fun h63 => ⟨?admitted, ?raises⟩, fun hne => ?silent, fun h64 hc => ?refused⟩,
    State.removeHead_record⟩
  case admitted =>
    have hlt : s.builder.queue.length < Config.classCLimit := by rw [h63]; decide
    rw [State.offer_length_of_admitted (RecordBuilder.admits_of_lt_mark body hlt), h63]
  case raises =>
    exact State.offer_of_reachesHigh ((s.builder.reachesHigh_iff body).2 (congrArg (· + 1) h63))
  case silent =>
    exact State.offer_of_not_reachesHigh fun h => hne (Nat.succ.inj ((s.builder.reachesHigh_iff body).1 h))
  case refused =>
    exact State.offer_queue_of_refused (RecordBuilder.refuses_c_of_mark_le hc (Nat.le_of_eq h64.symm))

end Sys2Proof.Machine
end

section
/-! PROOFS. NOP and ACK (R151). -/

namespace Sys2Proof.Machine

/-! ### What an ACK does to the Attention Unit -/

theorem State.acknowledge_isPending (s : State) (classes : Word) (k : AttnClass) :
    (s.acknowledge classes).attention.isPending k =
      (s.attention.isPending k && !inMask classes (classIndex k).val) := by
  have hk : (classIndex k).val < 10 := (classIndex k).isLt
  simp [State.acknowledge, Attention.isPending, inMask, hk]

theorem State.acknowledge_line (s : State) (classes : Word) (l : LineId) :
    (s.acknowledge classes).attention.line l = s.attention.line l := by
  cases l <;> rfl

theorem State.raise_isPending (s : State) (k : AttnClass) : (s.raise k).attention.isPending k = true :=
  s.attention.raise_pends s.routing s.count k

/-- A listed class is not pending after an ACK, whatever was raised before it. -/
theorem State.acknowledge_listed (s : State) (classes : Word) (k : AttnClass)
    (hk : inMask classes (classIndex k).val = true) : (s.acknowledge classes).attention.isPending k = false := by
  rw [s.acknowledge_isPending, hk, Bool.not_true, Bool.and_false]

/-! ### Their rows -/

theorem exec_nop (s : State) (tag : Byte) : exec (.nop tag) s = .next (s.takeFrame (.nop tag) allFour) := by
  rfl

theorem exec_ack (s : State) (tag : Byte) (classes : Word) :
    exec (.ack tag classes) s = .next (s.takeFrame (.ack tag classes) allFour) := by
  rfl

/-- A NOP has no effect, whether INIT passes it over or it is executed. -/
theorem State.takeFrame_nop (s : State) (tag : Byte) (order : List Module) : s.takeFrame (.nop tag) order = s := by
  by_cases hd : s.control.device = .init
  · simp [State.takeFrame, hd, ControlFrame.isNop]
  · rw [s.takeFrame_of_ne_init _ _ hd]
    rfl

theorem exec_ack_of_ne_init (s : State) (tag : Byte) (classes : Word) (hd : s.control.device ≠ .init) :
    exec (.ack tag classes) s = .next (s.acknowledge classes) := by
  rw [exec_ack, s.takeFrame_of_ne_init _ _ hd]
  rfl

/-- Settles O31: an executed ACK is `acknowledge`, before or after a new occurrence of a listed class. -/
theorem nopAndAck : Obligations.NopAndAck := by
  refine ⟨fun s tag => ?nop, fun s tag classes hd => ?ack⟩
  case nop => rw [exec_nop, s.takeFrame_nop]
  case ack =>
    refine ⟨_, exec_ack_of_ne_init s tag classes hd, s.acknowledge_isPending classes, s.acknowledge_line classes, rfl,
      fun k hk => ⟨State.raise_isPending _ k, ?_⟩⟩
    exact ⟨_, exec_ack_of_ne_init (s.raise k) tag classes hd, (s.raise k).acknowledge_listed classes k hk⟩

end Sys2Proof.Machine
end

section
/-! PROOFS. A TABLE-WRITE of SETUP (R155): the entry that its bytes spell, and the parts of the state it may change. -/

namespace Sys2Proof.Machine

/-! ### The entry as stored -/

theorem clampNat_eq_max_min {lo hi : Nat} (h : lo ≤ hi) (x : Nat) : clampNat lo hi x = max lo (min hi x) := by
  unfold clampNat
  split
  · omega
  · split <;> omega

theorem ofNat_fieldAt_one (w : Nat) (b : List Byte) (i : Nat) :
    BitVec.ofNat w (fieldAt b i 1) = (byteAt b i).setWidth w := by
  rw [fieldAt_one, BitVec.ofNat_toNat]

/-- The fields of section 12.6; `SetupInRange` of them is `parseSetup_inRange`. -/
theorem parseSetup_eq (b : List Byte) : parseSetup b =
    { nominal := if fieldAt b 0 1 ≤ 55 then .hz50 else .hz60
      intervalLength := max 1 (min 7200 (fieldAt b 1 2))
      assessmentLength := max 1 (min 4032 (fieldAt b 3 2))
      blockPoints := (byteAt b 5).setWidth 4
      leadPeriod := max 10 (min 3600 (fieldAt b 6 2))
      missLimit := max 1 (min 64 (fieldAt b 8 1))
      moduleEnable := (byteAt b 9).setWidth 4
      holdupLimit := max 1 (min 1000 (fieldAt b 10 2))
      debounce := max 1 (min 255 (fieldAt b 12 1))
      restart := if byteAt b 13 = 0x01 then .resume else .stayStopped
      preTrigger := min 1024 (fieldAt b 14 2)
      postTrigger := max 256 (min 8192 (fieldAt b 16 2))
      highMark := max 1 (min 48 (fieldAt b 18 1))
      lowMark := min (max 1 (min 48 (fieldAt b 18 1)) - 1) (fieldAt b 19 1)
      originRise := max 1 (min 1024 (fieldAt b 20 2))
      originMinimum := min 16777215 (fieldAt b 22 3) } := by
  unfold parseSetup
  simp only [ofNat_fieldAt_one, clampNat_zero_eq_min, clampNat_eq_max_min (lo := 1) (hi := 7200) (by decide),
    clampNat_eq_max_min (lo := 1) (hi := 4032) (by decide), clampNat_eq_max_min (lo := 10) (hi := 3600) (by decide),
    clampNat_eq_max_min (lo := 1) (hi := 64) (by decide), clampNat_eq_max_min (lo := 1) (hi := 1000) (by decide),
    clampNat_eq_max_min (lo := 1) (hi := 255) (by decide), clampNat_eq_max_min (lo := 256) (hi := 8192) (by decide),
    clampNat_eq_max_min (lo := 1) (hi := 48) (by decide), clampNat_eq_max_min (lo := 1) (hi := 1024) (by decide)]

/-! ### Records and replies -/

/-- Offers, however they came about, are those of a list of records. -/
theorem Offered.exists_offers {b c : RecordBuilder} (h : Offered b c) :
    ∃ bodies : List RecordBody, c = b.offers bodies := by
  induction h with
  | none => exact ⟨[], rfl⟩
  | more body _ ih =>
    obtain ⟨bodies, rfl⟩ := ih
    exact ⟨bodies ++ [body], (b.offers_append bodies [body]).symm⟩

/-- A reply is one record and a pending REPLY_READY; of the rest it changes the Attention Unit at most (R137). -/
theorem State.offerReply_eq (s : State) (kind tag : Byte) (result : ReplyResult) (tail : ReplyTail) :
    ∃ a : Attention, a.isPending .replyReady = true ∧ s.offerReply kind tag result tail =
      { s with
        builder := s.builder.offer (.reply { kind := kind, tag := tag, result := result, tail := tail })
        attention := a } := by
  refine ⟨(s.offerReply kind tag result tail).attention, State.raise_isPending _ _, ?_⟩
  unfold State.offerReply
  rcases s.offer_eq (.reply { kind := kind, tag := tag, result := result, tail := tail }) with h | h <;> rw [h] <;> rfl

/-! ### The write -/

/-- The modules that a SETUP write goes over bring records and classes; the rest is the entry and the shedding state. -/
theorem State.storeSetup_eq (s : State) (u : Setup) (order : List Module) :
    ∃ (records : List RecordBody) (a : Attention) (v : Vector ModuleRecord 4), s.storeSetup u order =
      { s with
        setup := u, modules := v, shedding := rejudge u s.captureQueue.length s.shedding
        builder := s.builder.offers records, attention := a } := by
  obtain ⟨b, a, v, hb, he⟩ :=
    OnModules.foldl (State.reenableModule s.setup) (OnModules.reenableModule s.setup) order { s with setup := u }
  obtain ⟨records, rfl⟩ := hb.exists_offers
  refine ⟨records, a, v, ?_⟩
  unfold State.storeSetup
  rw [he]

theorem exec_tableWriteSetup (s : State) (tag index : Byte) (entry : List Byte) (order : Fin 24) :
    exec (.tableWriteSetup tag index entry order) s =
      .next (s.takeFrame (.tableWrite tag tableSetup index entry) (orderOf order)) := by
  rfl

theorem exec_tableWriteSetup_init (s : State) (tag index : Byte) (entry : List Byte) (order : Fin 24)
    (hd : s.control.device = .init) (hh : s.port.held = none) :
    exec (.tableWriteSetup tag index entry order) s =
      .next { s with port := { s.port with held := some (.tableWrite tag tableSetup index entry) } } := by
  rw [exec_tableWriteSetup, s.takeFrame_init_empty _ _ hd hh rfl]

theorem exec_tableWriteSetup_of_ne_init (s : State) (tag index : Byte) (entry : List Byte) (order : Fin 24)
    (hd : s.control.device ≠ .init) :
    exec (.tableWriteSetup tag index entry order) s = .next (s.writeSetup tag index entry (orderOf order)) := by
  rw [exec_tableWriteSetup, s.takeFrame_of_ne_init _ _ hd]
  rfl

theorem State.writeSetup_not_stopped (s : State) (tag index : Byte) (entry : List Byte) (order : List Module)
    (hd : s.control.device ≠ .stopped) :
    s.writeSetup tag index entry order = s.replyWrite tag tableSetup index .refusedState none :=
  if_pos hd

theorem State.writeSetup_bad_index (s : State) (tag index : Byte) (entry : List Byte) (order : List Module)
    (hd : s.control.device = .stopped) (hi : index ≠ 0) :
    s.writeSetup tag index entry order = s.replyWrite tag tableSetup index .badIndex none := by
  rw [State.writeSetup, if_neg (not_not_intro hd), if_pos hi]

theorem State.writeSetup_stored (s : State) (tag : Byte) (entry : List Byte) (order : List Module)
    (hd : s.control.device = .stopped) :
    s.writeSetup tag 0 entry order =
      (s.storeSetup (parseSetup entry) order).replyWrite tag tableSetup 0 .done (some (.setup (parseSetup entry))) := by
  rw [State.writeSetup, if_neg (not_not_intro hd), if_neg (not_not_intro rfl)]

/-- An accepted write as a whole: the entry, what it does to the modules and the shedding state, and its last record. -/
theorem State.writeSetup_eq (s : State) (tag : Byte) (entry : List Byte) (order : List Module)
    (hd : s.control.device = .stopped) :
    ∃ (records : List RecordBody) (a : Attention) (v : Vector ModuleRecord 4), a.isPending .replyReady = true ∧
      s.writeSetup tag 0 entry order =
        { s with
          setup := parseSetup entry, modules := v
          shedding := rejudge (parseSetup entry) s.captureQueue.length s.shedding
          builder := (s.builder.offers records).offer (.reply
            { kind := kindTableWrite, tag := tag, result := .done
              tail := .tableWrite tableSetup 0 (some (.setup (parseSetup entry))) })
          attention := a } := by
  obtain ⟨records, a, v, hstore⟩ := s.storeSetup_eq (parseSetup entry) order
  obtain ⟨a', ha, hreply⟩ := (s.storeSetup (parseSetup entry) order).offerReply_eq kindTableWrite tag .done
    (.tableWrite tableSetup 0 (some (.setup (parseSetup entry))))
  refine ⟨records, a', v, ha, ?_⟩
  rw [s.writeSetup_stored _ _ _ hd, State.replyWrite, hreply, hstore]

/-- Settles O32: the tests in their order, then the accepted write as a whole with the entry that its bytes spell. -/
theorem setupWritten : Obligations.SetupWritten := by
  intro s tag index entry order
  have hexec : s.control.device ≠ .init → exec (.tableWriteSetup tag index entry order) s =
      .next (s.writeSetup tag index entry (orderOf order)) :=
    exec_tableWriteSetup_of_ne_init s tag index entry order
  refine ⟨exec_tableWriteSetup_init s tag index entry order, fun hd => ?refused, fun hd hi => ?badIndex,
    fun hd hi => ?stored⟩
  case refused =>
    have hne : s.control.device ≠ .init ∧ s.control.device ≠ .stopped := by
      rcases hd with hd | hd | hd <;> simp [hd]
    rw [hexec hne.1, s.writeSetup_not_stopped _ _ _ _ hne.2]
    rfl
  all_goals rw [hexec (by simp [hd])]
  case badIndex =>
    rw [s.writeSetup_bad_index _ _ _ _ hd hi]
    rfl
  case stored =>
    subst hi
    obtain ⟨records, a, v, ha, hwrite⟩ := s.writeSetup_eq tag entry (orderOf order) hd
    rw [hwrite]
    exact ⟨_, records, rfl, rfl, ha, parseSetup_eq entry, parseSetup_inRange entry, rfl⟩

end Sys2Proof.Machine
end

section
/-! PROOFS. A TABLE-READ (R153): its two tests, the entries of each table, and what a POINT STATUS entry shows (R158). -/

namespace Sys2Proof.Machine

/-! ### The tests -/

/-- The tables that a code names and their sizes (section 9.3). -/
theorem tableSize_eq (table : Byte) : tableSize table = ([1, 24, 4, 1, 4, 4] : List Nat)[table.toNat]? := by
  by_cases h0 : table = tableSetup
  · rw [h0]; rfl
  by_cases h1 : table = tableChannelMap
  · rw [h1]; rfl
  by_cases h2 : table = tableLimits
  · rw [h2]; rfl
  by_cases h3 : table = tableRouting
  · rw [h3]; rfl
  by_cases h4 : table = tableModuleStatus
  · rw [h4]; rfl
  by_cases h5 : table = tablePointStatus
  · rw [h5]; rfl
  rw [tableSize, if_neg h0, if_neg h1, if_neg h2, if_neg h3, if_neg h4, if_neg h5]
  simp only [tableSetup, tableChannelMap, tableLimits, tableRouting, tableModuleStatus,
    tablePointStatus] at h0 h1 h2 h3 h4 h5
  have hcode : 6 ≤ table.toNat := by bv_omega
  exact (List.getElem?_eq_none hcode).symm

theorem tableSize_cases {table : Byte} {size : Nat} (h : tableSize table = some size) :
    (table = tableSetup ∧ size = 1) ∨ (table = tableChannelMap ∧ size = 24) ∨ (table = tableLimits ∧ size = 4) ∨
      (table = tableRouting ∧ size = 1) ∨ (table = tableModuleStatus ∧ size = 4) ∨
      (table = tablePointStatus ∧ size = 4) := by
  by_cases h0 : table = tableSetup
  · subst h0
    exact .inl ⟨rfl, (Option.some.inj h).symm⟩
  by_cases h1 : table = tableChannelMap
  · subst h1
    exact .inr (.inl ⟨rfl, (Option.some.inj h).symm⟩)
  by_cases h2 : table = tableLimits
  · subst h2
    exact .inr (.inr (.inl ⟨rfl, (Option.some.inj h).symm⟩))
  by_cases h3 : table = tableRouting
  · subst h3
    exact .inr (.inr (.inr (.inl ⟨rfl, (Option.some.inj h).symm⟩)))
  by_cases h4 : table = tableModuleStatus
  · subst h4
    exact .inr (.inr (.inr (.inr (.inl ⟨rfl, (Option.some.inj h).symm⟩))))
  by_cases h5 : table = tablePointStatus
  · subst h5
    exact .inr (.inr (.inr (.inr (.inr ⟨rfl, (Option.some.inj h).symm⟩))))
  rw [tableSize, if_neg h0, if_neg h1, if_neg h2, if_neg h3, if_neg h4, if_neg h5] at h
  cases h

theorem readPasses_of_size {table : Byte} {size : Nat} (h : tableSize table = some size) (first count : Nat) :
    readPasses table first count = true ↔ 1 ≤ count ∧ count ≤ 24 ∧ first + count ≤ size := by
  simp [readPasses, h, and_assoc]

theorem readPasses_eq_false_of_size {table : Byte} (h : tableSize table = none) (first count : Nat) :
    readPasses table first count = false := by
  simp [readPasses, h]

/-! ### The entry at an index -/

@[simp] theorem pointOfNat_val (p : Point) : pointOfNat p.val = some p := by
  simp [pointOfNat]

@[simp] theorem moduleOfNat_val (m : Module) : moduleOfNat m.val = some m := by
  simp [moduleOfNat]

theorem State.entryAt_setup (s : State) (index : Nat) : s.entryAt tableSetup index = some (.setup s.setup) := by
  rfl

theorem State.entryAt_channelMap (s : State) (c : Channel) :
    s.entryAt tableChannelMap c.val = some (.channelMap (s.channel c).entry) :=
  congrArg (Option.map fun c => TableEntry.channelMap (s.channel c).entry) (channelOfNat_val c)

theorem State.entryAt_limits (s : State) (p : Point) :
    s.entryAt tableLimits p.val = some (.limits (s.point p).limits) :=
  congrArg (Option.map fun p => TableEntry.limits (s.point p).limits) (pointOfNat_val p)

theorem State.entryAt_routing (s : State) (index : Nat) :
    s.entryAt tableRouting index = some (.routing s.routing) := by
  rfl

theorem State.entryAt_moduleStatus (s : State) (m : Module) :
    s.entryAt tableModuleStatus m.val = some (.moduleStatus (s.module m).status) :=
  congrArg (Option.map fun m => TableEntry.moduleStatus (s.module m).status) (moduleOfNat_val m)

theorem State.entryAt_pointStatus (s : State) (p : Point) :
    s.entryAt tablePointStatus p.val = some (.pointStatus (s.pointStatus p)) :=
  congrArg (Option.map fun p => TableEntry.pointStatus (s.pointStatus p)) (pointOfNat_val p)

/-- A table has an entry at every index below its size. -/
theorem State.entryAt_isSome (s : State) {table : Byte} {size index : Nat} (h : tableSize table = some size)
    (hi : index < size) : (s.entryAt table index).isSome := by
  rcases tableSize_cases h with ⟨rfl, rfl⟩ | ⟨rfl, rfl⟩ | ⟨rfl, rfl⟩ | ⟨rfl, rfl⟩ | ⟨rfl, rfl⟩ | ⟨rfl, rfl⟩
  · rw [s.entryAt_setup]; rfl
  · rw [s.entryAt_channelMap ⟨index, hi⟩]; rfl
  · rw [s.entryAt_limits ⟨index, hi⟩]; rfl
  · rw [s.entryAt_routing]; rfl
  · rw [s.entryAt_moduleStatus ⟨index, hi⟩]; rfl
  · rw [s.entryAt_pointStatus ⟨index, hi⟩]; rfl

/-! ### The entries of a reply -/

/-- Within the table no index is passed over. -/
theorem State.map_some_entriesFrom (s : State) {table : Byte} {size first count : Nat}
    (h : tableSize table = some size) (hr : first + count ≤ size) :
    (s.entriesFrom table first count).map some = (List.range count).map (fun k => s.entryAt table (first + k)) := by
  rw [State.entriesFrom, List.map_filterMap_some_eq_filter_map_isSome, List.filter_eq_self]
  intro e he
  obtain ⟨k, hk, rfl⟩ := List.mem_map.1 he
  have hlt : k < count := List.mem_range.1 hk
  exact s.entryAt_isSome h (by omega)

theorem State.entriesFrom_length (s : State) {table : Byte} {size first count : Nat}
    (h : tableSize table = some size) (hr : first + count ≤ size) :
    (s.entriesFrom table first count).length = count := by
  simpa using congrArg List.length (s.map_some_entriesFrom h hr)

theorem State.entriesFrom_getElem? (s : State) {table : Byte} {size first count i : Nat}
    (h : tableSize table = some size) (hr : first + count ≤ size) (hi : i < count) :
    (s.entriesFrom table first count)[i]? = s.entryAt table (first + i) := by
  have hmap := congrArg (fun es => es[i]?) (s.map_some_entriesFrom h hr)
  simp only [List.getElem?_map, List.getElem?_range hi, Option.map_some] at hmap
  obtain ⟨e, he, hsome⟩ := Option.map_eq_some_iff.1 hmap
  rw [he, hsome]

/-! ### What a POINT STATUS entry shows -/

theorem State.mem_channelsOf (s : State) (p : Point) (c : Channel) :
    c ∈ s.channelsOf p ↔ (s.channel c).entry.enabled = true ∧ (s.channel c).entry.point = p.val := by
  simp [State.channelsOf, State.channelIn, allChannels]

/-- The module-enable set has no member above module 3, whatever an entry names. -/
theorem Setup.inMask_moduleEnable_iff (u : Setup) (n : Nat) :
    inMask u.moduleEnable n = true ↔ ∃ m : Module, n = m.val ∧ u.enables m = true := by
  constructor
  · intro h
    exact ⟨⟨n, BitVec.lt_of_getLsbD h⟩, rfl, h⟩
  · rintro ⟨m, rfl, h⟩
    exact h

theorem State.hasVoltage_iff (s : State) (p : Point) :
    s.hasVoltage p = true ↔ ∃ (c : Channel) (m : Module),
      (s.channel c).entry.enabled = true ∧ (s.channel c).entry.point = p.val ∧
      (s.channel c).entry.kind = .voltage ∧ (s.channel c).entry.module = m.val ∧ s.setup.enables m = true := by
  simp only [State.hasVoltage, List.any_eq_true, s.mem_channelsOf, Bool.and_eq_true, beq_iff_eq,
    Setup.inMask_moduleEnable_iff, and_assoc, exists_and_left]

/-- The test of R25, spelled by entries of the map. -/
theorem State.configuredWith_iff (s : State) (p : Point) (l : LimitsEntry) :
    s.configuredWith p l = true ↔ l.declared ≠ 0 ∧ ∃ (c : Channel) (m : Module),
      (s.channel c).entry.enabled = true ∧ (s.channel c).entry.point = p.val ∧
      (s.channel c).entry.kind = .voltage ∧ (s.channel c).entry.module = m.val ∧ s.setup.enables m = true := by
  rw [State.configuredWith, Bool.and_eq_true, bne_iff_ne, s.hasVoltage_iff]

theorem CutMode.shown_eq_free_iff (m : CutMode) : m.shown = .free ↔ m = .free := by
  cases m <;> simp [CutMode.shown]

theorem State.pointStatus_low (s : State) (p : Point) {low : LowTracker} (h : (s.point p).low = low) :
    (s.pointStatus p).low = low.state ∧ (s.pointStatus p).lowTag = low.event.map OpenEvent.tag := by
  subst h
  exact ⟨rfl, rfl⟩

theorem State.pointStatus_high (s : State) (p : Point) {high : HighTracker} (h : (s.point p).high = high) :
    (s.pointStatus p).high = high.state ∧ (s.pointStatus p).highTag = high.event.map OpenEvent.tag := by
  subst h
  exact ⟨rfl, rfl⟩

/-! ### The row -/

theorem exec_tableRead (s : State) (tag table first count : Byte) :
    exec (.tableRead tag table first count) s = .next (s.takeFrame (.tableRead tag table first count) allFour) := by
  rfl

theorem exec_tableRead_init (s : State) (tag table first count : Byte) (hd : s.control.device = .init)
    (hh : s.port.held = none) :
    exec (.tableRead tag table first count) s =
      .next { s with port := { s.port with held := some (.tableRead tag table first count) } } := by
  rw [exec_tableRead, s.takeFrame_init_empty _ _ hd hh rfl]

theorem exec_tableRead_of_ne_init (s : State) (tag table first count : Byte) (hd : s.control.device ≠ .init) :
    exec (.tableRead tag table first count) s = .next (s.actTableRead tag table first count) := by
  rw [exec_tableRead, s.takeFrame_of_ne_init _ _ hd]
  rfl

theorem State.actTableRead_done (s : State) (tag : Byte) {table first count : Byte}
    (h : readPasses table first.toNat count.toNat = true) :
    s.actTableRead tag table first count = s.offerReply kindTableRead tag .done
      (.tableRead table first count (s.entriesFrom table first.toNat count.toNat)) :=
  if_pos h

theorem State.actTableRead_bad_index (s : State) (tag : Byte) {table first count : Byte}
    (h : ¬ readPasses table first.toNat count.toNat = true) :
    s.actTableRead tag table first count =
      s.offerReply kindTableRead tag .badIndex (.tableRead table first count []) :=
  if_neg h

/-- Each ground of BAD_INDEX fails one of the two tests. -/
theorem readPasses_refuses {table first count : Byte}
    (h : 5 < table.toNat ∨ count = 0 ∨ 24 < count.toNat ∨
      ∃ size, ([1, 24, 4, 1, 4, 4] : List Nat)[table.toNat]? = some size ∧ size < first.toNat + count.toNat) :
    ¬ readPasses table first.toNat count.toNat = true := by
  intro hpass
  rcases hsize : tableSize table with _ | size
  · rw [readPasses_eq_false_of_size hsize] at hpass
    cases hpass
  · obtain ⟨hlow, hhigh, hfits⟩ := (readPasses_of_size hsize _ _).1 hpass
    rcases h with h | rfl | h | ⟨size', hsize', h⟩
    · rw [tableSize_eq, List.getElem?_eq_none (Nat.succ_le_of_lt h)] at hsize
      cases hsize
    · exact absurd hlow (by decide)
    · omega
    · rw [← tableSize_eq, hsize, Option.some.injEq] at hsize'
      omega

/-- Settles O37: the tests by the sizes of the tables, each entry by the lemma of its table, and a POINT STATUS entry
field by field. -/
theorem tableReadAnswered : Obligations.TableReadAnswered := by
  intro s tag table first count
  refine ⟨exec_tableRead_init s tag table first count, fun hd size hsize hlow hhigh hfits => ?done,
    fun hd hbad => ?badIndex⟩
  all_goals rw [exec_tableRead_of_ne_init s tag table first count hd]
  case badIndex =>
    rw [s.actTableRead_bad_index tag (readPasses_refuses hbad)]
    rfl
  case done =>
    rw [← tableSize_eq] at hsize
    refine ⟨s.entriesFrom table first.toNat count.toNat, ?_, s.entriesFrom_length hsize hfits, fun i hi => ?entry⟩
    · rw [s.actTableRead_done tag ((readPasses_of_size hsize _ _).2 ⟨hlow, hhigh, hfits⟩)]
      rfl
    case entry =>
      rw [s.entriesFrom_getElem? hsize hfits hi]
      refine ⟨?_, ?_, ?_, ?_, ?_, ?pointStatus⟩
      · rintro rfl
        exact s.entryAt_setup _
      · rintro rfl c hc
        rw [← hc]
        exact s.entryAt_channelMap c
      · rintro rfl p hp
        rw [← hp]
        exact s.entryAt_limits p
      · rintro rfl
        exact s.entryAt_routing _
      · rintro rfl m hm
        rw [← hm]
        exact s.entryAt_moduleStatus m
      case pointStatus =>
        rintro rfl p hp
        rw [← hp]
        exact ⟨s.pointStatus p, s.entryAt_pointStatus p, rfl, s.configuredWith_iff p _, Option.isSome_iff_ne_none,
          s.pointStatus_low p, fun _ => s.pointStatus_low p, fun _ => s.pointStatus_low p,
          s.pointStatus_high p, fun _ => s.pointStatus_high p, CutMode.shown_eq_free_iff _, rfl, rfl, rfl⟩

end Sys2Proof.Machine
end

section
/-! PROOFS. A START that is refused (R162): its tests, and the answer to each. -/

namespace Sys2Proof.Machine

/-! ### The tests -/

theorem State.someConfigured_iff (s : State) :
    s.someConfigured = true ↔ ∃ p, s.configuredWith p (s.point p).limitsToCome = true := by
  simp only [State.someConfigured, List.any_eq_true, mem_allFour, true_and]

theorem pointOfNat_eq_some_iff (n : Nat) (p : Point) : pointOfNat n = some p ↔ n = p.val := by
  refine ⟨fun h => ?_, fun h => h ▸ pointOfNat_val p⟩
  obtain ⟨_, hp⟩ := Option.dite_none_right_eq_some.1 h
  exact congrArg Fin.val (Option.some.inj hp)

theorem State.allDeclared_iff (s : State) :
    s.allDeclared = true ↔ ∀ c, (s.channel c).entry.enabled = true →
      ∃ p : Point, (s.channel c).entry.point = p.val ∧ (s.point p).limitsToCome.declared ≠ 0 := by
  simp only [State.allDeclared, List.all_eq_true, allChannels, List.mem_finRange, true_imp_iff]
  refine forall_congr' fun c => ?_
  cases (s.channel c).entry.enabled with
  | false => simp only [Bool.not_false, Bool.true_or, Bool.false_eq_true, false_imp_iff]
  | true =>
    simp only [Bool.not_true, Bool.false_or, true_imp_iff, ← pointOfNat_eq_some_iff]
    cases pointOfNat (s.channel c).entry.point with
    | none => simp only [Bool.false_eq_true, reduceCtorEq, false_and, exists_false]
    | some p => simp only [bne_iff_ne, Option.some.injEq, exists_eq_left']

/-- One enabled entry at a point without a declared voltage fails the test: an entry names no second point. -/
theorem State.not_allDeclared_of_undeclared {s : State} {c : Channel} {p : Point}
    (henabled : (s.channel c).entry.enabled = true) (hpoint : (s.channel c).entry.point = p.val)
    (hzero : (s.point p).limitsToCome.declared = 0) : ¬ s.allDeclared = true := by
  intro hall
  obtain ⟨q, hq, hdeclared⟩ := s.allDeclared_iff.1 hall c henabled
  obtain rfl : p = q := Fin.ext (hpoint.symm.trans hq)
  exact hdeclared hzero

/-! ### The answers -/

theorem State.actStart_not_stopped (s : State) (tag : Byte) (hd : s.control.device ≠ .stopped) :
    s.actStart tag = s.offerReply kindStart tag .refusedState .empty :=
  if_pos hd

/-- Failing either test of the configuration gives the same answer. -/
theorem State.actStart_not_configured (s : State) (tag : Byte) (hd : s.control.device = .stopped)
    (h : ¬ s.someConfigured = true ∨ ¬ s.allDeclared = true) :
    s.actStart tag = s.offerReply kindStart tag .notConfigured .empty := by
  rw [State.actStart, if_neg (not_not_intro hd)]
  by_cases hsome : s.someConfigured = true
  · have hall : s.allDeclared = false := Bool.eq_false_iff.2 (h.resolve_left (not_not_intro hsome))
    rw [if_neg (by rw [hsome]; decide), if_pos (by rw [hall]; rfl)]
  · rw [if_pos (by rw [Bool.eq_false_iff.2 hsome]; rfl)]

/-! ### The row -/

theorem exec_start_of_ne_init (s : State) (tag : Byte) (hd : s.control.device ≠ .init) :
    exec (.start tag) s = .next (s.actStart tag) :=
  congrArg Host.Outcome.next (s.takeFrame_of_ne_init (.start tag) allFour hd)

/-- Settles O39: outside INIT a START is `actStart`, and each ground of refusal fails one of its tests. -/
theorem startRefused : Obligations.StartRefused := by
  intro s tag
  refine ⟨fun hd => ?refusedState, fun hd hnone => ?noneConfigured, fun hd hentry => ?undeclared⟩
  case refusedState =>
    have hne : s.control.device ≠ .init ∧ s.control.device ≠ .stopped := by
      rcases hd with hd | hd | hd <;> simp [hd]
    rw [exec_start_of_ne_init s tag hne.1, s.actStart_not_stopped tag hne.2]
    rfl
  all_goals rw [exec_start_of_ne_init s tag (by simp [hd])]
  case noneConfigured =>
    have hsome : ¬ s.someConfigured = true := by
      rw [s.someConfigured_iff]
      rintro ⟨p, hp⟩
      exact Bool.eq_false_iff.1 (hnone p) hp
    rw [s.actStart_not_configured tag hd (.inl hsome)]
    rfl
  case undeclared =>
    obtain ⟨c, p, henabled, hpoint, hzero⟩ := hentry
    rw [s.actStart_not_configured tag hd (.inr (State.not_allDeclared_of_undeclared henabled hpoint hzero))]
    rfl

end Sys2Proof.Machine
end

section
/-! PROOFS. Lists, as far as the core library leaves them to say: the package does not import Mathlib. -/

namespace Sys2Proof.Machine

theorem exists_of_cons {α : Type} {p : α → Prop} {a : α} {l : List α} :
    (∃ x ∈ a :: l, p x) ↔ p a ∨ ∃ x ∈ l, p x := by
  constructor
  · rintro ⟨x, hx, hp⟩
    rcases List.mem_cons.mp hx with rfl | hx
    · exact .inl hp
    · exact .inr ⟨x, hx, hp⟩
  · rintro (hp | ⟨x, hx, hp⟩)
    · exact ⟨a, List.mem_cons_self, hp⟩
    · exact ⟨x, List.mem_cons_of_mem a hx, hp⟩

theorem flatMap_same {α β : Type} {f g : α → List β} {l : List α} (h : ∀ x ∈ l, f x = g x) :
    l.flatMap f = l.flatMap g := by
  rw [List.flatMap_def, List.flatMap_def, List.map_congr_left h]

theorem filterMap_as_flatMap {α β : Type} (f : α → Option β) (l : List α) :
    l.filterMap f = l.flatMap (fun a => (f a).toList) := by
  induction l with
  | nil => rfl
  | cons a l ih =>
    rw [List.filterMap_cons, List.flatMap_cons, ih]
    cases f a <;> rfl

theorem nodup_one {α : Type} (a : α) : [a].Nodup :=
  List.nodup_cons.mpr ⟨List.not_mem_nil, List.nodup_nil⟩

/-- What stands before a place of a list without repetition does not stand after it. -/
theorem not_mem_drop {α : Type} {l : List α} (hl : l.Nodup) {n : Nat} {a : α} (h : a ∈ l.take n) : a ∉ l.drop n := by
  rw [← List.take_append_drop n l] at hl
  exact fun hd => (List.nodup_append.mp hl).2.2 a h a hd rfl

end Sys2Proof.Machine
end

section
/-! PROOFS. What every command keeps, and with it every step (spec 95, O55 to O59). -/

namespace Sys2Proof.Machine

/-! ### Whole commands -/

/-- Each invariant of `s` is one of `t`, when both stand between two commands: `KeepsBy` for an operation that may
pass through states in which a frame, a marking or the strobe of the tick is still to come. -/
def KeepsWhole (s t : State) : Prop := ∃ f, KeepsBy f s t ∧ f .zero = .zero

theorem Keeps.whole {s t : State} (h : Keeps s t) : KeepsWhole s t := ⟨id, h, rfl⟩

theorem KeepsBy.whole {s t : State} (h : KeepsBy (fun _ => .zero) s t) : KeepsWhole s t := ⟨_, h, rfl⟩

theorem KeepsWhole.after {s t u : State} (h : Keeps s t) (k : KeepsWhole t u) : KeepsWhole s u := by
  obtain ⟨f, hf, hz⟩ := k
  exact ⟨f, KeepsBy.trans h hf, hz⟩

theorem KeepsWhole.control {s t : State} (h : KeepsWhole s t) (hs : ControlCoherent s) : ControlCoherent t := by
  obtain ⟨f, hf, hz⟩ := h
  have ht := hf.control ((controlWith_zero s).mpr hs)
  rw [hz] at ht
  exact (controlWith_zero t).mp ht

theorem KeepsWhole.formed {s t : State} (h : KeepsWhole s t) (hs : FramesFormed s) : FramesFormed t := by
  obtain ⟨f, hf, hz⟩ := h
  have ht := hf.formed ((formedWith_zero s).mpr hs)
  rw [hz] at ht
  exact (formedWith_zero t).mp ht

/-- Every command keeps every invariant: each by the law of the operation that is its meaning. -/
theorem exec_keeps {c : Instr} {s t : State} (h : exec c s = .next t) : KeepsWhole s t := by
  have frame (f : ControlFrame) (order : List Module) (ho : EachOnce order) : KeepsWhole s (s.takeFrame f order) :=
    (Keeps.takeFrame s f order ho).whole
  cases c <;> cases h
  case reset cause => exact (Keeps.resetBy s cause).whole
  case initComplete => exact (Keeps.completeInit s).whole
  case strobeTimerExpiry sfi o => exact (Keeps.expire s sfi o).whole
  case leadCheckPeriodDue => exact (Keeps.takePeriodDue s).whole
  case wholeSecondDue => exact (Keeps.takeSecondDue s).whole
  case moduleCommandTimeout m => exact (Keeps.timeoutCommand s m).whole
  case sampleFrame bytes leadFirst => exact (Keeps.judgeSampleFrame s bytes leadFirst).whole
  case captureFrameForm => exact (Keeps.formOne s).whole
  case pulseExpiry l => exact (Keeps.expirePulse s l).whole
  case gapExpiry l => exact (Keeps.expireGap s l).whole
  case supplyFailure => exact (Keeps.takeFailure s).whole
  case supplyReturnHoldup => exact (Keeps.takeReturnHoldup s).whole
  case holdupTimerExpiry o => exact (Keeps.takeHoldupExpiry s _ (eachOnce_orderOf o).all).whole
  case supplyReturnStandby => exact (Keeps.takeReturnStandby s).whole
  case exchangeBegin => exact (Keeps.beginExchange s).whole
  case exchangeEnd bytes o => exact (Keeps.endExchange s bytes _ (eachOnce_orderOf o)).whole
  case tableWriteSetup tag index entry o => exact frame _ _ (eachOnce_orderOf o)
  case tableWriteReadOnly tag table index =>
    split
    · exact (Keeps.refl s).whole
    · exact frame _ _ eachOnce_allFour
  all_goals exact frame _ _ eachOnce_allFour

/-- A step executes the front command on the rest of the queue, or idles. -/
theorem step_keeps {s t : State} (h : step s = .next t) : KeepsWhole s t := by
  unfold step at h
  split at h
  · cases h
    exact (Keeps.refl s).whole
  · next rest _ =>
    refine .after ?_ (exec_keeps h)
    exact Keeps.unseen s.routing s.attention s.dueNow s.exchange s.timerNominal s.eventTag rest (.refl _)

/-! ### The invariants -/

/-- Settles O55: the stores, the chain and the Capture Engine are among what `step_keeps` speaks of. -/
theorem storesAndCapturesKept : Obligations.StoresAndCapturesKept := by
  intro s t h
  have hk := step_keeps h
  obtain ⟨f, hf, -⟩ := id hk
  exact ⟨hf.queues, hf.chain, hf.captures, hk.formed⟩

/-- Settles O56: so are half-windows, the channel map and the limits. -/
theorem tablesAndHalfWindowsKept : Obligations.TablesAndHalfWindowsKept := by
  intro s t h
  obtain ⟨f, hf, -⟩ := step_keeps h
  exact ⟨hf.halves, hf.map, hf.limits⟩

/-- Settles O57: so are the spans. -/
theorem spansExactKept : Obligations.SpansExactKept := by
  intro s t hs h
  obtain ⟨f, hf, -⟩ := step_keeps h
  exact hf.spans hs

/-- Settles O58: so are the modules. -/
theorem modulesCoherentKept : Obligations.ModulesCoherentKept := by
  intro s t hs h
  obtain ⟨f, hf, -⟩ := step_keeps h
  exact hf.modules hs

/-- Settles O59: Measurement Control is coherent between two commands, as no marking and no strobe is left to come. -/
theorem controlCoherentKept : Obligations.ControlCoherentKept :=
  fun _ _ hs h => (step_keeps h).control hs

end Sys2Proof.Machine
end

section
/-! PROOFS. The step as it runs a command (O1), and the device after a reset (R160: O3, O4, O60). -/

namespace Sys2Proof.Machine

/-- Settles O1: by the two cases of the queue. -/
theorem stepRunsFrontCommand : Obligations.StepRunsFrontCommand := by
  refine ⟨fun c rest s => rfl, fun s h => ?_⟩
  rw [step, h]

/-! ### After a reset -/

theorem State.resetBy_line (s : State) (cause : ResetCause) (l : LineId) :
    (s.resetBy cause).attention.line l = .idle := by
  cases l <;> rfl

/-- Both lines are low until INIT completes (R178). -/
theorem State.lineHigh_of_init {s : State} (hd : s.control.device = .init) (l : LineId) : s.lineHigh l = false := by
  rw [State.lineHigh, hd]
  rfl

theorem ModuleRecord.reset_last (k : Slot) :
    ModuleRecord.reset.last[k.val] = 0 ∧ ModuleRecord.reset.clippedBefore[k.val] = false :=
  ⟨Vector.getElem_replicate _, Vector.getElem_replicate _⟩

/-- What the reset of the model leaves is what the reset table of R160 lists. -/
theorem State.resetBy_afterReset (s : State) (cause : ResetCause) : AfterReset cause (s.resetBy cause) where
  count := rfl
  timer := rfl
  setup := rfl
  strobe := rfl
  module m := by
    rw [s.resetBy_module cause m]
    exact ⟨rfl, rfl, rfl, rfl, rfl, rfl, rfl, rfl⟩
  last m k := by
    rw [s.resetBy_module cause m]
    exact ModuleRecord.reset_last k
  channel c := by
    rw [s.resetBy_channel cause c]
    exact ⟨rfl, rfl, rfl, rfl, rfl⟩
  boundary p := by
    rw [s.resetBy_point cause p]
    rfl
  point p := by
    rw [s.resetBy_point cause p]
    exact ⟨rfl, rfl, rfl, rfl, rfl, rfl, rfl, rfl, rfl⟩
  spans p := by
    rw [s.resetBy_point cause p]
    exact ⟨rfl, rfl, rfl⟩
  eventTag := rfl
  history := rfl
  capture := rfl
  records := ⟨_, rfl, rfl⟩
  frames := ⟨rfl, rfl⟩
  port := ⟨rfl, rfl⟩
  device := ⟨rfl, rfl, rfl, rfl, rfl, rfl, rfl⟩
  attention := ⟨rfl, fun l => ⟨s.resetBy_line cause l, State.lineHigh_of_init rfl l⟩⟩

/-- Settles O4: `State.resetBy` leaves the reset table's values, and the content of the three tables. -/
theorem resetCommandRestoresDevice : Obligations.ResetCommandRestoresDevice := by
  intro cause s
  refine ⟨s.resetBy cause, rfl, s.resetBy_afterReset cause, fun c => ?_, fun p => ?_, rfl, rfl⟩
  · rw [s.resetBy_channel cause c]
  · rw [s.resetBy_point cause p]
    exact ⟨rfl, rfl⟩

/-! ### The first power-on -/

theorem State.reset_channel (c : Channel) : State.reset.channel c = .reset :=
  Vector.getElem_replicate _

theorem State.reset_point (p : Point) : State.reset.point p = .reset :=
  Vector.getElem_replicate _

theorem State.reset_module (m : Module) : State.reset.module m = .reset :=
  Vector.getElem_replicate _

/-- A power-on reset of the first state gives it again. -/
theorem State.reset_resetBy : State.reset.resetBy .powerOn = State.reset := by
  have hc : mapAll State.reset.channels (fun _ ch => { ChannelRecord.reset with entry := ch.entry }) =
      State.reset.channels := by
    refine Vector.ext fun i hi => ?_
    rw [mapAll_get _ _ ⟨i, hi⟩, show State.reset.channels[i] = .reset from State.reset_channel ⟨i, hi⟩]
  have hp : mapAll State.reset.points (fun _ pt =>
      { PointRecord.reset with limits := pt.limits, thresholds := pt.thresholds }) = State.reset.points := by
    refine Vector.ext fun i hi => ?_
    rw [mapAll_get _ _ ⟨i, hi⟩, show State.reset.points[i] = .reset from State.reset_point ⟨i, hi⟩]
  rw [State.resetBy, hc, hp]
  rfl

/-- Settles O3: the first state is what a power-on reset leaves, with the tables cleared. -/
theorem powerOnState : Obligations.PowerOnState := by
  refine ⟨State.reset_resetBy ▸ State.reset.resetBy_afterReset .powerOn, fun c => ?_, fun p => ?_, rfl, rfl⟩
  · rw [State.reset_channel]; rfl
  · rw [State.reset_point]; exact ⟨rfl, rfl⟩

/-! ### The invariants of the first state -/

theorem Setup.default_enables (m : Module) : Setup.default.enables m = false := by
  simp [Setup.enables, Setup.default, inMask]

theorem State.reset_mapLegal : MapLegal State.reset where
  passes := by
    rw [mapPasses_iff_pairwise]
    intro i j _
    simp only [mapAll_get]
    rw [show State.reset.channels[i.val].entry = MapEntry.cleared from congrArg _ (State.reset_channel i)]
    exact ⟨Bool.false_ne_true, Bool.false_ne_true⟩
  ranges c := by
    rw [State.reset_channel]
    rfl

theorem State.reset_limitsLegal : LimitsLegal State.reset := by
  intro p
  rw [State.reset_point]
  exact ⟨rfl, nofun, rfl⟩

theorem State.reset_spansExact : SpansExact State.reset where
  block p := by
    rw [State.reset_point]
    rfl
  interval p := by
    rw [State.reset_point]
    rfl
  assessment p := by
    rw [State.reset_point]
    rfl
  idle p _ := by
    rw [State.reset_point]
    exact ⟨rfl, rfl, rfl, rfl, rfl, rfl⟩

theorem State.reset_modulesCoherent : ModulesCoherent State.reset where
  setup := Setup.default_inRange
  each m := by
    rw [State.reset_module, show State.reset.setup = .default from rfl, Setup.default_enables]
    exact ⟨iff_of_true rfl rfl, nofun, nofun, nofun, by decide, by decide, by decide, by decide⟩

/-- Settles O60: State.reset holds nothing that could break an invariant. -/
theorem invariantsAtReset : Obligations.InvariantsAtReset := by
  refine ⟨⟨by decide, by decide, by decide, by decide⟩, resetRecord_chain .powerOn,
    ⟨Setup.default_inRange, nofun, fun _ => by decide, nofun⟩, nofun,
    fun p => ?_, State.reset_mapLegal, State.reset_limitsLegal, State.reset_spansExact, State.reset_modulesCoherent,
    ⟨rfl, rfl, nofun, rfl, fun c => ?_, rfl⟩⟩
  · rw [State.reset_point]
    exact Boundary.fresh_bounded
  · rw [State.reset_channel]
    exact Nat.zero_le _

end Sys2Proof.Machine
end

section
/-! PROOFS. What no operation of the device itself changes (`Stable`): the operations that an expiry of the strobe timer
is made of keep the count, the tables, the port, the epoch, the supply level and the queue of waiting commands. -/

namespace Sys2Proof.Machine

/-- What the operations of the device, those of control frames and of the supply sampling apart, leave as it was. -/
structure Stable (s t : State) : Prop where
  count : t.count = s.count
  timerNominal : t.timerNominal = s.timerNominal
  setup : t.setup = s.setup
  routing : t.routing = s.routing
  exchange : t.exchange = s.exchange
  port : t.port = s.port
  pending : t.pending = s.pending
  offset : t.control.offset = s.control.offset
  epochUnset : t.control.epochUnset = s.control.epochUnset
  level : t.control.level = s.control.level
  runCount : t.control.runCount = s.control.runCount
  entry : ∀ c, (t.channel c).entry = (s.channel c).entry
  lead : ∀ c, (t.channel c).lead = (s.channel c).lead

/-! ### Composition -/

theorem Stable.refl (s : State) : Stable s s :=
  ⟨rfl, rfl, rfl, rfl, rfl, rfl, rfl, rfl, rfl, rfl, rfl, fun _ => rfl, fun _ => rfl⟩

theorem Stable.trans {s t u : State} (h : Stable s t) (k : Stable t u) : Stable s u where
  count := k.count.trans h.count
  timerNominal := k.timerNominal.trans h.timerNominal
  setup := k.setup.trans h.setup
  routing := k.routing.trans h.routing
  exchange := k.exchange.trans h.exchange
  port := k.port.trans h.port
  pending := k.pending.trans h.pending
  offset := k.offset.trans h.offset
  epochUnset := k.epochUnset.trans h.epochUnset
  level := k.level.trans h.level
  runCount := k.runCount.trans h.runCount
  entry c := (k.entry c).trans (h.entry c)
  lead c := (k.lead c).trans (h.lead c)

theorem Stable.iteIf {s t u : State} {c : Prop} [Decidable c] (ht : Stable s t) (hu : Stable s u) :
    Stable s (if c then t else u) := by
  split
  · exact ht
  · exact hu

theorem Stable.foldl {α : Type} (f : State → α → State) (h : ∀ s x, Stable s (f s x)) (l : List α) (s : State) :
    Stable s (l.foldl f s) := by
  induction l generalizing s with
  | nil => exact .refl s
  | cons x xs ih => exact (h s x).trans (ih _)

/-! ### Changes elsewhere -/

/-- A change of modules, points, lines and records alone. -/
theorem Stable.onParts (s : State) (f : StrobeFrame) (m : Vector ModuleRecord 4) (p : Vector PointRecord 4) (tag : Word)
    (h : History) (c : Option RunningCapture) (b : RecordBuilder) (q : List CaptureFrame) (sh : Shedding)
    (a : Attention) (d : DueNow) : Stable s
      { s with strobe := f, modules := m, points := p, eventTag := tag, history := h, capture := c, builder := b,
               captureQueue := q, shedding := sh, attention := a, dueNow := d } :=
  ⟨rfl, rfl, rfl, rfl, rfl, rfl, rfl, rfl, rfl, rfl, rfl, fun _ => rfl, fun _ => rfl⟩

theorem Stable.onControl (s : State) (d : DeviceState) (q : Option PriorState) (r : Bool) (t : Tick) : Stable s
    { s with control := { s.control with device := d, prior := q, timerRunning := r, holdupStart := t } } :=
  ⟨rfl, rfl, rfl, rfl, rfl, rfl, rfl, rfl, rfl, rfl, rfl, fun _ => rfl, fun _ => rfl⟩

/-! ### What the laws say of an operation makes it stable -/

theorem Stable.noted {s t : State} (h : Noted s t) : Stable s t := by
  obtain ⟨b, a, -, rfl⟩ := h
  exact .onParts s _ _ _ _ _ _ _ _ _ _ _

theorem Stable.across {s t : State} (h : Across s t) : Stable s t := by
  obtain ⟨b, a, v, -, rfl⟩ := h.whole
  exact .onParts s _ _ _ _ _ _ _ _ _ _ _

theorem Stable.onModules {s t : State} (h : OnModules s t) : Stable s t := by
  obtain ⟨b, a, v, -, rfl⟩ := h
  exact .onParts s _ _ _ _ _ _ _ _ _ _ _

theorem Stable.formed {s t : State} (h : Formed s t) : Stable s t := by
  obtain ⟨q, sh, c, b, a, -, -, -, -, rfl⟩ := h
  exact .onParts s _ _ _ _ _ _ _ _ _ _ _

theorem Stable.placed {s t : State} (h : Placed s t) : Stable s t := by
  have hc (c : Channel) : (t.channel c).entry = (s.channel c).entry ∧ (t.channel c).lead = (s.channel c).lead := by
    rw [h.channels c]
    exact ⟨rfl, rfl⟩
  refine ⟨?_, ?_, ?_, ?_, ?_, ?_, ?_, ?_, ?_, ?_, ?_, fun c => (hc c).1, fun c => (hc c).2⟩ <;> rw [h.rest]

theorem Stable.within {b i g : Bool} {p : Point} {s t : State} (h : Within b i g p s t) : Stable s t where
  count := h.count
  timerNominal := h.timerNominal
  setup := h.setup
  routing := h.routing
  exchange := h.exchange
  port := h.port
  pending := h.pending
  offset := by rw [h.control]
  epochUnset := by rw [h.control]
  level := by rw [h.control]
  runCount := by rw [h.control]
  entry := h.entry
  lead c := (h.leads c).1

theorem Stable.modModule (s : State) (m : Module) (f : ModuleRecord → ModuleRecord) : Stable s (s.modModule m f) :=
  .onParts s _ _ _ _ _ _ _ _ _ _ _

theorem Stable.mapPoints (s : State) (f : Point → PointRecord → PointRecord) : Stable s (s.mapPoints f) :=
  .onParts s _ _ _ _ _ _ _ _ _ _ _

theorem Stable.mapChannels (s : State) (f : Channel → ChannelRecord → ChannelRecord)
    (h : ∀ c x, (f c x).entry = x.entry ∧ (f c x).lead = x.lead) : Stable s (s.mapChannels f) where
  count := s.mapChannels_count f
  timerNominal := s.mapChannels_timerNominal f
  setup := s.mapChannels_setup f
  routing := s.mapChannels_routing f
  exchange := s.mapChannels_exchange f
  port := s.mapChannels_port f
  pending := s.mapChannels_pending f
  offset := by rw [s.mapChannels_control f]
  epochUnset := by rw [s.mapChannels_control f]
  level := by rw [s.mapChannels_control f]
  runCount := by rw [s.mapChannels_control f]
  entry c := by rw [s.mapChannels_channel c f]; exact (h c _).1
  lead c := by rw [s.mapChannels_channel c f]; exact (h c _).2

/-! ### Modules -/

theorem Stable.missModule (s : State) (m : Module) : Stable s (s.missModule m) := by
  unfold State.missModule
  split
  · exact .refl s
  · exact .modModule s m _
  · exact .modModule s m _
  · dsimp only
    refine .iteIf ?_ (.modModule s m _)
    exact (Stable.modModule s m _).trans (.onModules (.modThen (State.loseModule_noted _ m)))

theorem Stable.countMisses (s : State) (order : List Module) : Stable s (s.countMisses order) :=
  .foldl _ (fun s m => .iteIf (.missModule s m) (.refl s)) order s

theorem Stable.deadline (s : State) (order : List Module) : Stable s (s.deadline order) :=
  (Stable.countMisses s order).trans (.mapPoints _ _)

theorem Stable.endCommand (s : State) (m : Module) (result : ReplyResult) (word : Option (BitVec 32)) :
    Stable s (s.endCommand m result word) :=
  .onModules (.endCommand s m result word)

theorem Stable.timeoutCommand (s : State) (m : Module) : Stable s (s.timeoutCommand m) :=
  .iteIf (.endCommand s m _ _) (.refl s)

theorem Stable.timeoutAll (s : State) (order : List Module) : Stable s (s.timeoutAll order) :=
  .foldl _ .timeoutCommand order s

theorem Stable.timeoutIfAt (s : State) (o : Interleaving) (first : Bool) (k : Nat) :
    Stable s (s.timeoutIfAt o first k) :=
  .iteIf (.timeoutAll s _) (.refl s)

/-! ### Lines -/

theorem Stable.expireLine (s : State) (l : LineId) : Stable s (s.expireLine l) :=
  have hp : Stable s (s.expirePulse l) := .iteIf (.noted (.attention s _)) (.refl s)
  hp.trans (.iteIf (.noted (.attention _ _)) (.refl _))

theorem Stable.lineIf (s : State) (first : Bool) (l : LineId) : Stable s (s.lineIf first l) :=
  .iteIf (.expireLine s l) (.refl s)

/-! ### Supply -/

theorem Stable.endCapture (s : State) (reason : EndReason) : Stable s (s.endCapture reason) :=
  (Stable.onParts s _ _ _ _ _ none _ _ _ _ _).trans (.noted (State.endCapture_noted s reason))

theorem Stable.enterHoldup (s : State) : Stable s s.enterHoldup :=
  (((Stable.onControl s .holdup (some (priorOf s.control.device)) true s.count).trans
    (.noted (.offerStatus _ _))).trans (.endCapture _ _)).trans (.noted (.raise _ _))

theorem Stable.takeFailure (s : State) : Stable s s.takeFailure :=
  .iteIf (.enterHoldup s) (.refl s)

theorem Stable.restoreSupply (s : State) (d : DeviceState) : Stable s (s.restoreSupply d) :=
  (Stable.onControl s d none false s.control.holdupStart).trans (.noted (State.restoreSupply_noted s d))

theorem Stable.takeReturnHoldup (s : State) : Stable s s.takeReturnHoldup :=
  .iteIf (.restoreSupply s _) (.refl s)

theorem Stable.discardWork (s : State) : Stable s s.discardWork :=
  (Stable.mapPoints s _).trans (.mapChannels _ _ fun _ _ => ⟨rfl, rfl⟩)

theorem Stable.enterStandby (s : State) (order : List Module) : Stable s (s.enterStandby order) := by
  rw [s.enterStandby_eq order]
  have hc : Stable s { s with control := s.control.standingBy } :=
    .onControl s .standby s.control.prior false s.control.holdupStart
  have hn := (hc.trans (.across s.standbyClosed_across)).trans (.noted (.statusRaise _ .standbyEntered .supply))
  have hm := hn.trans (.onModules (.seekModules _ order))
  have hd := (hm.trans (.mapPoints _ fun _ pt => { pt with check := none })).trans (.discardWork _)
  have hr := hd.trans (.mapChannels _ (fun _ ch => { ch with ring := [] }) fun _ _ => ⟨rfl, rfl⟩)
  exact hr.trans (.onParts _ _ _ _ _ .empty _ _ _ _ _ _)

theorem Stable.takeHoldupExpiry (s : State) (order : List Module) : Stable s (s.takeHoldupExpiry order) :=
  .iteIf (.enterStandby s order) (.refl s)

theorem Stable.leaveStandby (s : State) : Stable s s.leaveStandby := by
  unfold State.leaveStandby
  refine .iteIf ((Stable.restoreSupply s .running).trans ?_) ((Stable.restoreSupply s .stopped).trans ?_)
  · exact .foldl _ (fun s p => .across (.openSpans s s.count p)) _ _
  · exact .foldl _ (fun s p => .across (.endAssessment s p false true none)) _ _

theorem Stable.takeReturnStandby (s : State) : Stable s s.takeReturnStandby :=
  .iteIf (.leaveStandby s) (.refl s)

/-! ### The expiry -/

theorem Stable.takeDue (s : State) (order : List Module) : Stable s (s.takeDue order) :=
  have hs := ((Stable.takeFailure s).trans (.takeReturnHoldup _)).trans (.takeHoldupExpiry _ order)
  (((hs.trans (.takeReturnStandby _)).trans (.timeoutAll _ allFour)).trans (.expireLine _ .line0)).trans
    (.expireLine _ .line1)

theorem Stable.formAll (s : State) : Stable s s.formAll :=
  .formed (.formAll s)

theorem Stable.formLast (s : State) (o : Interleaving) : Stable s (s.formLast o) :=
  .iteIf ((Stable.takeFailure s).trans (.formAll _)) (.refl s)

theorem Stable.between (s : State) (o : Interleaving) (k : Fin 5) : Stable s (s.between o k) := by
  have hr : Stable s (((s.timeoutIfAt o true k.val).formIfAt o k).timeoutIfAt o false k.val) :=
    ((Stable.timeoutIfAt s o true k.val).trans (.iteIf (.formAll _) (.refl _))).trans (.timeoutIfAt _ o false k.val)
  have hp := hr.trans (.iteIf (c := o.periodAt = k) (.placed (.takePeriodDue _)) (.refl _))
  have hd := hp.trans (.iteIf (c := o.secondAt = k) (.placed (.takeSecondDue _)) (.refl _))
  exact hd.trans (.iteIf (.placed (.issueStrobe _)) (.refl _))

theorem Stable.deliverIf (s : State) (t : Tick) (set : SampleSet) (changes : Vector Bool 4) (p : Point) :
    Stable s (s.deliverIf t set changes p) :=
  .iteIf (.within (Within.deliver false s t set p _ nofun).1) (.refl s)

theorem Stable.turn (s : State) (t : Tick) (set : SampleSet) (changes : Vector Bool 4) (o : Interleaving)
    (q : Point × Fin 5) : Stable s (s.turn t set changes o q) :=
  (Stable.between s o q.2).trans (.deliverIf _ t set changes q.1)

theorem Stable.deliverAll (s : State) (t : Tick) (set : SampleSet) (changes : Vector Bool 4) (o : Interleaving) :
    Stable s (s.deliverAll t set changes o) := by
  unfold State.deliverAll
  refine .trans ?_ (.between _ o 4)
  exact .foldl _ (fun s q => .turn s t set changes o q) _ s

/-- What stands before the first turn of a point: the set leaves the modules and is stored, the references are chosen. -/
theorem Stable.beforeTurns (s : State) (t : Tick) (set : SampleSet) :
    Stable s (((s.nextSet set).writeHistory t set).chooseReferences set) := by
  have hn : Stable s (s.nextSet set) := .onParts s _ _ _ _ _ _ _ _ _ _ _
  have hw : Stable (s.nextSet set) ((s.nextSet set).writeHistory t set) :=
    .iteIf (.onParts _ _ _ _ _ _ _ _ _ _ _ _) (.refl _)
  exact (hn.trans hw).trans (.iteIf (.refl _) (.mapPoints _ _))

theorem Stable.closeSet (s : State) (t : Tick) (o : Interleaving) : Stable s (s.closeSet t o) :=
  ((Stable.beforeTurns s t s.closingSet).trans (.deliverAll _ t _ _ o)).trans (.formLast _ o)

end Sys2Proof.Machine
end

section
/-! PROOFS. Every command completes and leaves the queue of waiting commands alone (spec 95, O2). -/

namespace Sys2Proof.Machine

/-! ### Records, replies and links -/

@[simp] theorem State.offerStatus_pending (s : State) (kind : StatusKind) : (s.offerStatus kind).pending = s.pending :=
  s.offer_pending _

@[simp] theorem State.offerReply_pending (s : State) (kind tag : Byte) (result : ReplyResult) (tail : ReplyTail) :
    (s.offerReply kind tag result tail).pending = s.pending :=
  s.offer_pending _

@[simp] theorem State.replyWrite_pending (s : State) (tag table index : Byte) (result : ReplyResult)
    (entry : Option TableEntry) : (s.replyWrite tag table index result entry).pending = s.pending :=
  s.offerReply_pending _ _ _ _

theorem State.foldl_pending {α : Type} (f : State → α → State) (h : ∀ s x, (f s x).pending = s.pending) (l : List α)
    (s : State) : (l.foldl f s).pending = s.pending := by
  induction l generalizing s with
  | nil => rfl
  | cons x xs ih => rw [List.foldl_cons, ih, h]

theorem State.judgeCheck_pending (s : State) (p : Point) (code : Code) : (s.judgeCheck p code).pending = s.pending := by
  unfold State.judgeCheck
  split
  · rfl
  · dsimp only
    split
    · rfl
    · exact State.offerStatus_pending _ _

theorem State.answerCheck_pending (s : State) (m : Module) (f : SampleFrame) (locked : Bool) :
    (s.answerCheck m f locked).pending = s.pending := by
  unfold State.answerCheck
  split
  · rfl
  · split
    · rfl
    · split
      · exact s.judgeCheck_pending _ _
      · rfl

theorem State.takeReply_pending (s : State) (m : Module) (f : SampleFrame) :
    (s.takeReply m f).pending = s.pending := by
  unfold State.takeReply
  split
  · exact (Stable.endCommand s m _ _).pending
  · rfl

theorem State.takeGoodFrame_pending (s : State) (m : Module) (f : SampleFrame) (leadFirst : Bool) :
    (s.takeGoodFrame m f leadFirst).pending = s.pending := by
  unfold State.takeGoodFrame
  dsimp only
  have hl (u : State) : (if !(s.module m).state == .locked && (u.module m).state == .locked then u.reportLocked m
      else u).pending = u.pending := by
    split
    · exact u.offerStatus_pending _
    · rfl
  split
  · rw [State.takeReply_pending, State.answerCheck_pending, hl]
    rfl
  · rw [State.answerCheck_pending, State.takeReply_pending, hl]
    rfl

theorem State.judgeSampleFrame_pending (s : State) (bytes : List Byte) (leadFirst : Bool) :
    (s.judgeSampleFrame bytes leadFirst).pending = s.pending := by
  unfold State.judgeSampleFrame
  split
  · rfl
  · dsimp only
    split
    · rfl
    · split
      · rfl
      · split
        · rfl
        · exact s.takeGoodFrame_pending _ _ _

/-! ### Control frames -/

theorem State.writeSetup_pending (s : State) (tag index : Byte) (entry : List Byte) (order : List Module) :
    (s.writeSetup tag index entry order).pending = s.pending := by
  unfold State.writeSetup
  split
  · exact s.replyWrite_pending _ _ _ _ _
  · split
    · exact s.replyWrite_pending _ _ _ _ _
    · obtain ⟨records, a, v, h⟩ := s.storeSetup_eq (parseSetup entry) order
      dsimp only
      rw [State.replyWrite_pending, h]

theorem State.writeMap_pending (s : State) (tag index : Byte) (entry : List Byte) :
    (s.writeMap tag index entry).pending = s.pending := by
  unfold State.writeMap
  split
  · exact s.replyWrite_pending _ _ _ _ _
  · split
    · exact s.replyWrite_pending _ _ _ _ _
    · split
      · exact s.replyWrite_pending _ _ _ _ _
      · dsimp only
        split
        · exact s.replyWrite_pending _ _ _ _ _
        · split
          · exact s.replyWrite_pending _ _ _ _ _
          · exact State.replyWrite_pending _ _ _ _ _ _

theorem State.storeLimits_pending (s : State) (p : Point) (l : LimitsEntry) :
    (s.storeLimits p l).pending = s.pending := by
  unfold State.storeLimits
  split <;> rfl

theorem State.writeLimits_pending (s : State) (tag index : Byte) (entry : List Byte) :
    (s.writeLimits tag index entry).pending = s.pending := by
  unfold State.writeLimits
  split
  · exact s.replyWrite_pending _ _ _ _ _
  · split
    · exact s.replyWrite_pending _ _ _ _ _
    · dsimp only
      split
      · exact s.replyWrite_pending _ _ _ _ _
      · split
        · exact s.replyWrite_pending _ _ _ _ _
        · rw [State.replyWrite_pending, State.storeLimits_pending]

theorem State.writeRouting_pending (s : State) (tag index : Byte) (entry : List Byte) :
    (s.writeRouting tag index entry).pending = s.pending := by
  unfold State.writeRouting
  split
  · exact s.replyWrite_pending _ _ _ _ _
  · split
    · exact s.replyWrite_pending _ _ _ _ _
    · exact State.replyWrite_pending _ _ _ _ _ _

theorem State.actTableWrite_pending (s : State) (tag table index : Byte) (entry : List Byte) (order : List Module) :
    (s.actTableWrite tag table index entry order).pending = s.pending := by
  have hr : (s.writeRefused tag table index).pending = s.pending := by
    unfold State.writeRefused
    split <;> exact s.replyWrite_pending _ _ _ _ _
  simp only [State.actTableWrite, apply_ite State.pending, s.writeSetup_pending, s.writeMap_pending,
    s.writeLimits_pending, s.writeRouting_pending, hr, ite_self]

theorem State.beginRun_pending (s : State) : s.beginRun.pending = s.pending := by
  rw [s.beginRun_eq, State.foldl_pending State.openRun fun _ _ => rfl]
  simp only [State.startCleared, State.emptyHistory, State.startPoints, State.mapChannels_pending,
    State.mapPoints_pending]

theorem State.actStart_pending (s : State) (tag : Byte) : (s.actStart tag).pending = s.pending := by
  simp only [State.actStart, apply_ite State.pending, State.offerReply_pending, State.offerStatus_pending,
    s.beginRun_pending, ite_self]

theorem State.actStop_pending (s : State) (tag : Byte) : (s.actStop tag).pending = s.pending := by
  have he : Stable s s.stopEvents :=
    (Stable.across (.forceCloseEvents s .stop)).trans (.endCapture (s.forceCloseEvents .stop) .truncatedStop)
  have hc : s.closeRun.pending = s.pending := (he.trans (.across (.closeRun s))).pending
  have hq : s.closeRun.quiesce.pending = s.closeRun.pending := by
    simp only [State.quiesce, State.discardWork, State.endChecks, State.clearDue, State.mapChannels_pending,
      State.mapPoints_pending]
  simp only [State.actStop, apply_ite State.pending, State.offerReply_pending, State.offerStatus_pending]
  split
  · rfl
  · exact hq.trans hc

theorem State.actTimeSet_pending (s : State) (tag : Byte) (epoch : Tick) :
    (s.actTimeSet tag epoch).pending = s.pending := by
  have hr (u : State) : u.stepRun.pending = u.pending := by
    unfold State.stepRun
    rw [State.foldl_pending State.stepSpans fun s p => (Stable.across (.stepSpans s p)).pending]
    exact u.mapPoints_pending _
  simp only [State.actTimeSet, apply_ite State.pending, State.offerReply_pending, State.offerStatus_pending, hr,
    ite_self]
  split <;> rfl

theorem State.actTrigger_pending (s : State) (tag point : Byte) : (s.actTrigger tag point).pending = s.pending := by
  unfold State.actTrigger
  dsimp only
  split
  · exact s.offerReply_pending _ _ _ _
  · split
    · rw [State.offerReply_pending]
      exact (Stable.formAll _).pending
    · exact s.offerReply_pending _ _ _ _

theorem State.actCloseAssessment_pending (s : State) (tag point : Byte) :
    (s.actCloseAssessment tag point).pending = s.pending := by
  unfold State.actCloseAssessment
  split
  · exact s.offerReply_pending _ _ _ _
  · split
    · exact s.offerReply_pending _ _ _ _
    · exact s.offerReply_pending _ _ _ _
    · rw [State.offerReply_pending]
      exact State.foldl_pending _ (fun s p => (Stable.across (.endAssessment s p _ _ _)).pending) _ _

theorem State.actModuleCommand_pending (s : State) (tag module : Byte) (word : BitVec 32) :
    (s.actModuleCommand tag module word).pending = s.pending := by
  unfold State.actModuleCommand
  split
  · exact s.offerReply_pending _ _ _ _
  · rfl
  · rfl

theorem State.executeFrame_pending (s : State) (f : ControlFrame) (order : List Module) :
    (s.executeFrame f order).pending = s.pending := by
  cases f
  case nop => rfl
  case ack => rfl
  case tableWrite tag table index entry => exact s.actTableWrite_pending _ _ _ _ _
  case tableRead tag table first count =>
    exact (apply_ite State.pending _ _ _).trans (by rw [State.offerReply_pending, State.offerReply_pending, ite_self])
  case start tag => exact s.actStart_pending tag
  case stop tag => exact s.actStop_pending tag
  case timeSet tag epoch => exact s.actTimeSet_pending tag epoch
  case trigger tag point => exact s.actTrigger_pending tag point
  case closeAssessment tag point => exact s.actCloseAssessment_pending tag point
  case moduleCommand tag module word => exact s.actModuleCommand_pending tag module word
  case unknown kind tag => exact s.offerReply_pending _ _ _ _
  case badLength kind tag => exact s.offerReply_pending _ _ _ _

theorem State.takeFrame_pending (s : State) (f : ControlFrame) (order : List Module) :
    (s.takeFrame f order).pending = s.pending := by
  unfold State.takeFrame
  split
  · split <;> rfl
  · exact s.executeFrame_pending f order

/-! ### The port and INIT -/

theorem State.removeHead_pending (s : State) (choice : FrameKind) : (s.removeHead choice).pending = s.pending := by
  cases choice
  case idle => rfl
  case record => rfl
  case capture => exact (Stable.formAll _).pending

theorem State.settleExchange_pending (s : State) (x : Exchange) (sent : Nat) :
    (s.settleExchange x sent).pending = s.pending := by
  unfold State.settleExchange
  split
  · exact State.removeHead_pending _ _
  · rfl

theorem State.endExchange_pending (s : State) (bytes : List Byte) (order : List Module) :
    (s.endExchange bytes order).pending = s.pending := by
  unfold State.endExchange
  split
  · rfl
  · unfold State.judgeIncoming
    split
    · exact s.settleExchange_pending _ _
    · rw [State.takeFrame_pending, State.settleExchange_pending]

theorem State.completeInit_pending (s : State) : s.completeInit.pending = s.pending := by
  unfold State.completeInit
  split
  · rw [(Stable.takeFailure _).pending]
    unfold State.executeHeld
    split
    · rfl
    · rw [State.executeFrame_pending]
      rfl
  · rfl

/-- The lines, the timeouts and the misses that come before the set closes. -/
theorem Stable.beforeClosing (s : State) (o : Interleaving) :
    Stable s ((((s.lineIf o.line0First .line0).lineIf o.line1First .line1).timeoutIfAt o true 5).deadline
      (orderOf o.moduleOrder)) :=
  (((Stable.lineIf s _ _).trans (.lineIf _ _ _)).trans (.timeoutIfAt _ o true 5)).trans (.deadline _ _)

theorem State.advance_pending (s : State) (sfi : SupplyLevel) : (s.advance sfi).pending = s.pending :=
  rfl

theorem State.expire_pending (s : State) (sfi : SupplyLevel) (o : Interleaving) :
    (s.expire sfi o).pending = s.pending := by
  have hb := Stable.beforeClosing ((s.takeDue (orderOf o.moduleOrder)).advance sfi) o
  calc (s.expire sfi o).pending
      = ((s.takeDue (orderOf o.moduleOrder)).advance sfi).pending := (hb.trans (.closeSet _ s.count o)).pending
    _ = (s.takeDue (orderOf o.moduleOrder)).pending := State.advance_pending _ sfi
    _ = s.pending := (Stable.takeDue s _).pending

/-! ### Every command -/

/-- Settles O2: each row answers the state of its operation, which keeps the queue. -/
theorem everyCommandCompletes : Obligations.EveryCommandCompletes := by
  intro c s
  have frame (f : ControlFrame) (order : List Module) := s.takeFrame_pending f order
  cases c <;> refine ⟨_, rfl, ?_⟩
  case reset cause => rfl
  case initComplete => exact s.completeInit_pending
  case strobeTimerExpiry sfi o => exact s.expire_pending sfi o
  case leadCheckPeriodDue => exact (Stable.placed (.takePeriodDue s)).pending
  case wholeSecondDue => exact (Stable.placed (.takeSecondDue s)).pending
  case moduleCommandTimeout m => exact (Stable.timeoutCommand s m).pending
  case sampleFrame bytes leadFirst => exact s.judgeSampleFrame_pending bytes leadFirst
  case captureFrameForm => exact (Stable.formed (.formOne s)).pending
  case pulseExpiry l => exact (apply_ite State.pending _ _ _).trans (ite_self _)
  case gapExpiry l => exact (apply_ite State.pending _ _ _).trans (ite_self _)
  case supplyFailure => exact (Stable.takeFailure s).pending
  case supplyReturnHoldup => exact (Stable.takeReturnHoldup s).pending
  case holdupTimerExpiry o => exact (Stable.takeHoldupExpiry s _).pending
  case supplyReturnStandby => exact (Stable.takeReturnStandby s).pending
  case exchangeBegin =>
    unfold State.beginExchange
    split <;> rfl
  case exchangeEnd bytes o => exact s.endExchange_pending bytes _
  case tableWriteReadOnly tag table index =>
    split
    · rfl
    · exact frame _ _
  all_goals exact frame _ _

end Sys2Proof.Machine
end

section
/-! PROOFS. The attention lines (R174 to R178): pulses and gaps (O19), a raised class and the level of a line (O20). -/

namespace Sys2Proof.Machine

/-! ### The lines of the Attention Unit -/

theorem Attention.setLine_line (a : Attention) (l : LineId) (p : PulseState) : (a.setLine l p).line l = p := by
  cases l <;> rfl

theorem exec_pulseExpiry (s : State) (l : LineId) : exec (.pulseExpiry l) s = .next (s.expirePulse l) :=
  rfl

theorem exec_gapExpiry (s : State) (l : LineId) : exec (.gapExpiry l) s = .next (s.expireGap l) :=
  rfl

theorem PulseState.pulseOver_iff (p : PulseState) (w : Nat) (now : Tick) :
    p.pulseOver w now = true ↔ ∃ since, p.phase = .pulse since ∧ w ≤ (now - since).toNat := by
  obtain ⟨phase, followUp⟩ := p
  cases phase
  case idle => simp [PulseState.pulseOver]
  case gap since => simp [PulseState.pulseOver]
  case pulse since =>
    simp only [PulseState.pulseOver, ticksFrom, PulsePhase.pulse.injEq, exists_eq_left']
    exact decide_eq_true_iff

theorem PulseState.gapOver_iff (p : PulseState) (w : Nat) (now : Tick) :
    p.gapOver w now = true ↔ ∃ since, p.phase = .gap since ∧ w ≤ (now - since).toNat := by
  obtain ⟨phase, followUp⟩ := p
  cases phase
  case idle => simp [PulseState.gapOver]
  case pulse since => simp [PulseState.gapOver]
  case gap since =>
    simp only [PulseState.gapOver, ticksFrom, PulsePhase.gap.injEq, exists_eq_left']
    exact decide_eq_true_iff

/-- In a pulse mode a line is active while a pulse lasts (R176). -/
theorem State.lineActive_of_pulse {s : State} {l : LineId} (h : (s.routing.config l).mode.isPulse = true) :
    s.lineActive l = true ↔ ∃ since, (s.attention.line l).phase = .pulse since := by
  rw [State.lineActive, if_pos h]
  split <;> simp_all

theorem State.lineActive_withAttention {s : State} {l : LineId} (h : (s.routing.config l).mode.isPulse = true)
    (a : Attention) : ({ s with attention := a } : State).lineActive l = true ↔ ∃ since, (a.line l).phase = .pulse since :=
  State.lineActive_of_pulse (s := { s with attention := a }) h

/-- Settles O19: the two expiries act exactly when W ticks have run in their phase. -/
theorem pulseAndGapExpire : Obligations.PulseAndGapExpire := by
  intro s l
  refine ⟨fun since hp hw => ?pulse, fun since hg hw => ?gap, fun hn => ?pulseLasts, fun hn => ?gapLasts⟩
  case pulse =>
    have hover := (PulseState.pulseOver_iff (s.attention.line l) (s.lineWidth l) s.count).mpr ⟨since, hp, hw⟩
    refine ⟨s.expirePulse l, rfl, if_pos hover, fun hm => Bool.eq_false_iff.mpr fun ha => ?_⟩
    rw [State.expirePulse, if_pos hover, State.lineActive_withAttention hm, Attention.setLine_line] at ha
    obtain ⟨_, ha⟩ := ha
    cases ha
  case gap =>
    have hover := (PulseState.gapOver_iff (s.attention.line l) (s.lineWidth l) s.count).mpr ⟨since, hg, hw⟩
    have ht : s.expireGap l = { s with attention := s.attention.setLine l ((s.attention.line l).endGap s.count) } :=
      if_pos hover
    refine ⟨s.expireGap l, rfl, fun hf => ?followUp, fun hf => ?idle⟩
    case followUp =>
      rw [PulseState.endGap, if_pos hf] at ht
      refine ⟨ht, fun hm => ?_⟩
      rw [ht, State.lineActive_withAttention hm, Attention.setLine_line]
      exact ⟨s.count, rfl⟩
    case idle => rw [ht, PulseState.endGap, if_neg (by rw [hf]; decide)]
  case pulseLasts =>
    rw [exec_pulseExpiry, State.expirePulse, if_neg]
    rw [PulseState.pulseOver_iff]
    rintro ⟨since, hp, hw⟩
    exact Nat.not_lt.mpr hw (hn since hp)
  case gapLasts =>
    rw [exec_gapExpiry, State.expireGap, if_neg]
    rw [PulseState.gapOver_iff]
    rintro ⟨since, hp, hw⟩
    exact Nat.not_lt.mpr hw (hn since hp)

/-! ### A raised class -/

theorem Attention.raise_of_pending {a : Attention} {k : AttnClass} (h : a.isPending k = true) (r : Routing) (now : Tick) :
    a.raise r now k = a :=
  if_pos h

theorem Attention.raise_of_not_pending {a : Attention} {k : AttnClass} (h : a.isPending k = false) (r : Routing)
    (now : Tick) : a.raise r now k =
      { pendingSet := a.pendingSet ||| classMask k
        line0 := joinLine r now k .line0 a.line0, line1 := joinLine r now k .line1 a.line1 } :=
  if_neg (Bool.eq_false_iff.mp h)

theorem classMask_getLsbD (j k : AttnClass) : (classMask k).getLsbD (classIndex j).val = decide (j = k) := by
  cases j <;> cases k <;> rfl

/-- Raising joins one class to the pending set. -/
theorem Attention.raise_isPending (a : Attention) (r : Routing) (now : Tick) (j k : AttnClass) :
    (a.raise r now k).isPending j = (a.isPending j || decide (j = k)) := by
  cases h : a.isPending k
  · rw [Attention.raise_of_not_pending h]
    rw [Attention.isPending, inMask, BitVec.getLsbD_or, classMask_getLsbD]
    rfl
  · rw [Attention.raise_of_pending h]
    by_cases hj : j = k
    · rw [hj, h, Bool.true_or]
    · rw [decide_eq_false hj, Bool.or_false]

theorem Attention.raise_line {a : Attention} {k : AttnClass} (h : a.isPending k = false) (r : Routing) (now : Tick)
    (l : LineId) : (a.raise r now k).line l = joinLine r now k l (a.line l) := by
  rw [Attention.raise_of_not_pending h]
  cases l <;> rfl

theorem Routing.routesTo_iff (r : Routing) (k : AttnClass) (l : LineId) :
    r.routesTo k l = true ↔ r.route k = lineRoute l :=
  beq_iff_eq

theorem joinLine_routed {r : Routing} {k : AttnClass} {l : LineId} (h : r.route k = lineRoute l)
    (hm : (r.config l).mode.isPulse = true) (now : Tick) (p : PulseState) :
    joinLine r now k l p = requestPulse now p :=
  if_pos (by rw [(r.routesTo_iff k l).mpr h, hm]; rfl)

theorem joinLine_unrouted {r : Routing} {k : AttnClass} {l : LineId}
    (h : r.route k ≠ lineRoute l ∨ (r.config l).mode.isPulse = false) (now : Tick) (p : PulseState) :
    joinLine r now k l p = p := by
  refine if_neg fun hc => ?_
  obtain ⟨hr, hm⟩ := Bool.and_eq_true_iff.mp hc
  exact h.elim (fun h => h ((r.routesTo_iff k l).mp hr)) (fun h => by rw [h] at hm; cases hm)

theorem requestPulse_idle {p : PulseState} (h : p.phase = .idle) (now : Tick) :
    requestPulse now p = { p with phase := .pulse now } := by
  rw [requestPulse, h]

theorem requestPulse_busy {p : PulseState} (h : p.phase ≠ .idle) (now : Tick) :
    requestPulse now p = { p with followUp := true } := by
  unfold requestPulse
  split
  · exact absurd ‹_› h
  · rfl
  · rfl

/-! ### The level of a line -/

theorem mem_allClasses (k : AttnClass) : k ∈ allClasses := by
  cases k <;> decide

/-- In a level mode a line is active while a class routed to it is pending (R175). -/
theorem State.lineActive_of_level {s : State} {l : LineId} (h : (s.routing.config l).mode.isPulse = false) :
    s.lineActive l = true ↔ ∃ j, s.attention.isPending j = true ∧ s.routing.route j = lineRoute l := by
  rw [State.lineActive, if_neg (Bool.eq_false_iff.mp h), List.any_eq_true]
  simp only [mem_allClasses, true_and, Bool.and_eq_true, Routing.routesTo_iff]

theorem LineMode.isPulse_iff (m : LineMode) : m.isPulse = true ↔ m = .pulseHigh ∨ m = .pulseLow := by
  cases m <;> decide

/-- Outside INIT a pin is high when the line is at the active level of its mode (section 11.2). -/
theorem State.lineHigh_of_ne_init {s : State} (hd : s.control.device ≠ .init) (l : LineId) :
    s.lineHigh l = (s.lineActive l == (s.routing.config l).mode.activeHigh) := by
  rw [State.lineHigh, bne_iff_ne.mpr hd, Bool.true_and]

/-- Settles O20: by whether the class is pending, and by the mode of a line. -/
theorem classRaised : Obligations.ClassRaised := by
  intro s k
  refine ⟨fun h => ?pending, fun h => ⟨fun j => s.attention.raise_isPending s.routing s.count j k, fun l => ?line, rfl⟩,
    fun l => ⟨fun hm => ?level, fun hm => ?pulse, LineMode.isPulse_iff _, fun hd => State.lineHigh_of_init hd l,
      fun hd => ?driven⟩⟩
  case pending => rw [State.raise, Attention.raise_of_pending h]
  case line =>
    have hl : (s.raise k).attention.line l = _ := Attention.raise_line h s.routing s.count l
    refine ⟨fun hr => ⟨fun hp => ?_, fun hp => ?_⟩, fun hr => ?_⟩
    · rw [hl, joinLine_routed hr.1 hr.2, requestPulse_idle hp]
    · rw [hl, joinLine_routed hr.1 hr.2, requestPulse_busy hp]
    · rw [hl, joinLine_unrouted hr]
  case level => exact State.lineActive_of_level (by rcases hm with hm | hm <;> rw [hm] <;> rfl)
  case pulse => exact State.lineActive_of_pulse (by rcases hm with hm | hm <;> rw [hm] <;> rfl)
  case driven =>
    rw [State.lineHigh_of_ne_init hd]
    constructor <;> rintro (hm | hm) <;> rw [hm] <;> cases s.lineActive l <;> rfl

end Sys2Proof.Machine
end

section
/-! PROOFS. The bytes of a control frame (R148, R180: O27), and the row that a frame stands under (O28 to O30). -/

namespace Sys2Proof.Machine

/-! ### Kinds and their lengths -/

/-- The fixed lengths of the ten known kinds (R180). -/
theorem kindLength_eq (kind : Byte) :
    kindLength kind = ([6, 8, 34, 10, 6, 6, 12, 8, 8, 12] : List Nat)[kind.toNat]? := by
  by_cases h : kind.toNat < 10
  · have hk : kind = BitVec.ofNat 8 kind.toNat := by simp
    generalize kind.toNat = n at h hk
    subst hk
    exact (by decide : ∀ n < 10, kindLength (BitVec.ofNat 8 n) =
      ([6, 8, 34, 10, 6, 6, 12, 8, 8, 12] : List Nat)[n]?) n h
  · have hne (k : Byte) (hk : k.toNat < 10) : kind ≠ k := fun e => h (e ▸ hk)
    rw [List.getElem?_eq_none (Nat.not_lt.mp h), kindLength, if_neg (hne _ (by decide)), if_neg (hne _ (by decide)),
      if_neg (hne _ (by decide)), if_neg (hne _ (by decide)), if_neg (hne _ (by decide)), if_neg (hne _ (by decide)),
      if_neg (hne _ (by decide)), if_neg (hne _ (by decide)), if_neg (hne _ (by decide)), if_neg (hne _ (by decide))]

theorem kindLength_eq_none_iff (kind : Byte) : kindLength kind = none ↔ 0x09 < kind.toNat := by
  rw [kindLength_eq, List.getElem?_eq_none_iff]
  exact Iff.rfl

theorem kindLength_isSome_iff (kind : Byte) : (kindLength kind).isSome = true ↔ kind.toNat ≤ 0x09 := by
  rw [Option.isSome_iff_ne_none, ne_eq, kindLength_eq_none_iff, Nat.not_lt]

/-- An unknown frame has a kind that is not listed, one of a bad length a kind that is. -/
def ControlFrame.Coded : ControlFrame → Prop
  | .unknown kind _ => kindLength kind = none
  | .badLength kind _ => (kindLength kind).isSome = true
  | _ => True

theorem parseKnownFrame_coded (kind tag : Byte) (bytes : List Byte) : (parseKnownFrame kind tag bytes).Coded := by
  unfold parseKnownFrame
  repeat' split
  all_goals exact trivial

theorem parseKnownFrame_isNop (kind tag : Byte) (bytes : List Byte) :
    (parseKnownFrame kind tag bytes).isNop = true ↔ kind = kindNop := by
  unfold parseKnownFrame
  split
  · next hn => exact iff_of_true rfl hn
  · next hn =>
    repeat' split
    all_goals exact iff_of_false Bool.false_ne_true hn

theorem parseTakenFrame_coded (bytes : List Byte) (len : Nat) : (parseTakenFrame bytes len).Coded := by
  unfold parseTakenFrame
  split
  · assumption
  · next fixed hk =>
    split
    · exact parseKnownFrame_coded _ _ _
    · exact Option.isSome_iff_exists.mpr ⟨fixed, hk⟩

/-- The frame of a NOP, of whatever length, is one of kind 00h. -/
theorem parseTakenFrame_isNop (bytes : List Byte) (len : Nat) :
    (parseTakenFrame bytes len).isNop = true ↔ byteAt bytes 0 = kindNop := by
  unfold parseTakenFrame
  split
  · next hk =>
    refine iff_of_false nofun fun h => ?_
    rw [h] at hk
    cases hk
  · split
    · exact parseKnownFrame_isNop _ _ _
    · exact beq_iff_eq

/-! ### The judgement of the collected bytes -/

theorem controlLength_eq (bytes : List Byte) :
    controlLength bytes = (byteAt bytes 2).toNat * 256 + (byteAt bytes 3).toNat :=
  fieldAt_two bytes 2

theorem judgeControlFrame_eq_none {bytes : List Byte} {len : Nat} (hl : len = controlLength bytes)
    (h : bytes.length < 4 ∨ len < 6 ∨ 34 < len ∨ len % 2 = 1 ∨ bytes.length < len ∨ intact (bytes.take len) = false) :
    judgeControlFrame bytes = none := by
  simp only [judgeControlFrame, ← hl]
  split
  · rfl
  · split
    · rfl
    · split
      · rfl
      · next h1 h2 h3 =>
        have hi : intact (bytes.take len) = false := by
          rcases h with h | h | h | h | h | h
          · omega
          · omega
          · omega
          · omega
          · omega
          · exact h
        rw [if_neg (Bool.eq_false_iff.mp hi)]

theorem judgeControlFrame_of_good {bytes : List Byte} {len : Nat} (hl : len = controlLength bytes)
    (h4 : 4 ≤ bytes.length) (h6 : 6 ≤ len) (h34 : len ≤ 34) (he : len % 2 = 0) (hb : len ≤ bytes.length)
    (hi : intact (bytes.take len) = true) :
    judgeControlFrame bytes = some (parseTakenFrame (bytes.take len) len) := by
  simp only [judgeControlFrame, ← hl]
  rw [if_neg (by omega), if_neg (by omega), if_neg (by omega), if_pos hi]

/-- A control frame is the taken frame of the bytes that its length counts. -/
theorem judgeControlFrame_some {bytes : List Byte} {f : ControlFrame} (h : judgeControlFrame bytes = some f) :
    6 ≤ controlLength bytes ∧ f = parseTakenFrame (bytes.take (controlLength bytes)) (controlLength bytes) := by
  unfold judgeControlFrame at h
  dsimp only at h
  split at h
  · cases h
  · split at h
    · cases h
    · split at h
      · cases h
      · split at h
        · cases h
          exact ⟨by omega, rfl⟩
        · cases h

theorem byteAt_take {bytes : List Byte} {i n : Nat} (h : i < n) : byteAt (bytes.take n) i = byteAt bytes i := by
  rw [byteAt, byteAt, List.getD_eq_getElem?_getD, List.getD_eq_getElem?_getD, List.getElem?_take_of_lt h]

theorem judgeControlFrame_coded {bytes : List Byte} {f : ControlFrame} (h : judgeControlFrame bytes = some f) :
    f.Coded := by
  rw [(judgeControlFrame_some h).2]
  exact parseTakenFrame_coded _ _

theorem judgeControlFrame_isNop {bytes : List Byte} {f : ControlFrame} (h : judgeControlFrame bytes = some f) :
    f.isNop = true ↔ byteAt bytes 0 = 0x00 := by
  obtain ⟨hl, rfl⟩ := judgeControlFrame_some h
  rw [parseTakenFrame_isNop, byteAt_take (Nat.lt_of_lt_of_le (by decide) hl)]
  rfl

/-! ### Fields of four and six bytes -/

theorem ofNat_fieldAt_four (b : List Byte) (i : Nat) :
    BitVec.ofNat 32 (fieldAt b i 4) = byteAt b i ++ byteAt b (i + 1) ++ byteAt b (i + 2) ++ byteAt b (i + 3) := by
  apply BitVec.eq_of_toNat_eq
  simp only [toNat_append_byte, BitVec.toNat_ofNat, fieldAt, Nat.add_assoc, Nat.reduceAdd]
  omega

theorem ofNat_fieldAt_six (b : List Byte) (i : Nat) : BitVec.ofNat 48 (fieldAt b i 6) =
    byteAt b i ++ byteAt b (i + 1) ++ byteAt b (i + 2) ++ byteAt b (i + 3) ++ byteAt b (i + 4) ++ byteAt b (i + 5) := by
  apply BitVec.eq_of_toNat_eq
  simp only [toNat_append_byte, BitVec.toNat_ofNat, fieldAt, Nat.add_assoc, Nat.reduceAdd]
  omega

theorem fieldAt_take {bytes : List Byte} {len i n : Nat} (h : i + n ≤ len) :
    fieldAt (bytes.take len) i n = fieldAt bytes i n := by
  induction n generalizing i with
  | zero => rfl
  | succ n ih => rw [fieldAt, fieldAt, byteAt_take (by omega), ih (by omega)]

theorem kindLength_cases {kind : Byte} {len : Nat} (h : kindLength kind = some len) :
    (kind = kindNop ∧ len = 6) ∨ (kind = kindAck ∧ len = 8) ∨ (kind = kindTableWrite ∧ len = 34) ∨
      (kind = kindTableRead ∧ len = 10) ∨ (kind = kindStart ∧ len = 6) ∨ (kind = kindStop ∧ len = 6) ∨
      (kind = kindTimeSet ∧ len = 12) ∨ (kind = kindTrigger ∧ len = 8) ∨ (kind = kindCloseAssessment ∧ len = 8) ∨
      (kind = kindModuleCommand ∧ len = 12) := by
  have hlt : kind.toNat ≤ 9 := (kindLength_isSome_iff kind).mp (Option.isSome_iff_exists.mpr ⟨len, h⟩)
  have hk : kind = BitVec.ofNat 8 kind.toNat := by simp
  generalize kind.toNat = n at hlt hk
  subst hk
  match n, hlt, h with
  | 0, _, h | 1, _, h | 2, _, h | 3, _, h | 4, _, h | 5, _, h | 6, _, h | 7, _, h | 8, _, h | 9, _, h =>
    obtain rfl := Option.some.inj h
    decide
  | n + 10, hlt, _ => omega

/-- Every field lies before the end of its kind's frame, so bytes beyond the length play no part. -/
theorem parseKnownFrame_take {bytes : List Byte} {kind : Byte} {len : Nat} (h : kindLength kind = some len) (tag : Byte) :
    parseKnownFrame kind tag (bytes.take len) = parseKnownFrame kind tag bytes := by
  rcases kindLength_cases h with ⟨rfl, rfl⟩ | ⟨rfl, rfl⟩ | ⟨rfl, rfl⟩ | ⟨rfl, rfl⟩ | ⟨rfl, rfl⟩ | ⟨rfl, rfl⟩ | ⟨rfl, rfl⟩ |
    ⟨rfl, rfl⟩ | ⟨rfl, rfl⟩ | ⟨rfl, rfl⟩
  · exact Eq.refl (ControlFrame.nop tag)
  · exact congrArg (fun n => ControlFrame.ack tag (BitVec.ofNat 16 n)) (fieldAt_take (by decide))
  · have hd : ((bytes.take 34).drop 6).take 26 = (bytes.drop 6).take 26 := by
      rw [List.drop_take, List.take_take]
      rfl
    have hw : ControlFrame.tableWrite tag (byteAt (bytes.take 34) 4) (byteAt (bytes.take 34) 5)
        (((bytes.take 34).drop 6).take 26) =
        .tableWrite tag (byteAt bytes 4) (byteAt bytes 5) ((bytes.drop 6).take 26) := by
      rw [hd, byteAt_take (by decide), byteAt_take (by decide)]
    exact hw
  · have hr : ControlFrame.tableRead tag (byteAt (bytes.take 10) 4) (byteAt (bytes.take 10) 5) (byteAt (bytes.take 10) 6) =
        .tableRead tag (byteAt bytes 4) (byteAt bytes 5) (byteAt bytes 6) := by
      rw [byteAt_take (by decide), byteAt_take (by decide), byteAt_take (by decide)]
    exact hr
  · exact Eq.refl (ControlFrame.start tag)
  · exact Eq.refl (ControlFrame.stop tag)
  · exact congrArg (fun n => ControlFrame.timeSet tag (BitVec.ofNat 48 n)) (fieldAt_take (by decide))
  · exact congrArg (ControlFrame.trigger tag) (byteAt_take (by decide))
  · exact congrArg (ControlFrame.closeAssessment tag) (byteAt_take (by decide))
  · have hm : ControlFrame.moduleCommand tag (byteAt (bytes.take 12) 4) (BitVec.ofNat 32 (fieldAt (bytes.take 12) 5 4)) =
        .moduleCommand tag (byteAt bytes 4) (BitVec.ofNat 32 (fieldAt bytes 5 4)) := by
      rw [byteAt_take (by decide), fieldAt_take (by decide)]
    exact hm

/-- Settles O27: the tests of R148 in order, then the fields of R180 kind by kind. -/
theorem controlFrameJudged : Obligations.ControlFrameJudged := by
  intro bytes len hlen
  have hl : len = controlLength bytes := hlen.trans (controlLength_eq bytes).symm
  refine ⟨judgeControlFrame_eq_none hl, fun h4 h6 h34 he hb hi => ?_⟩
  rw [judgeControlFrame_of_good hl h4 h6 h34 he hb hi, parseTakenFrame, byteAt_take (by omega), byteAt_take (by omega)]
  congr 1
  split
  · next hk => rw [if_pos ((kindLength_eq_none_iff _).mp hk)]
  · next fixed hk =>
    have hle := (kindLength_isSome_iff (byteAt bytes 0)).mp (Option.isSome_iff_exists.mpr ⟨fixed, hk⟩)
    rw [if_neg (Nat.not_lt.mpr hle), ← kindLength_eq, hk]
    by_cases hf : len = fixed
    · rw [if_pos hf, if_neg (by rw [hf]; exact fun h => h rfl), parseKnownFrame_take (hf ▸ hk), parseKnownFrame,
        ofNat_fieldAt_two, ofNat_fieldAt_four, ofNat_fieldAt_six]
      rfl
    · rw [if_neg hf, if_pos fun h => hf (Option.some.inj h).symm]

/-! ### The row of a frame -/

/-- Only a SETUP write looks at the order of the modules. -/
theorem State.executeFrame_order (s : State) (f : ControlFrame) (x y : List Module)
    (h : ∀ tag index entry, f ≠ .tableWrite tag tableSetup index entry) : s.executeFrame f x = s.executeFrame f y := by
  cases f
  case tableWrite tag table index entry =>
    have hne : table ≠ tableSetup := fun e => h tag index entry (by rw [e])
    simp only [State.executeFrame, State.actTableWrite, if_neg hne]
  all_goals rfl

theorem namesWritable_iff (table : Byte) : namesWritable table = true ↔
    table = tableSetup ∨ table = tableChannelMap ∨ table = tableLimits ∨ table = tableRouting := by
  simp [namesWritable, or_assoc]

/-- Outside INIT the row of a TABLE-WRITE executes it. -/
theorem exec_writeRow (s : State) (tag table index : Byte) (entry : List Byte) (order : Fin 24)
    (hd : s.control.device ≠ .init) : exec (writeRow tag table index entry order) s =
      .next (s.actTableWrite tag table index entry (Sys2Proof.orderOf order)) := by
  unfold writeRow
  repeat' split
  · next h0 => subst h0; exact congrArg Host.Outcome.next (s.takeFrame_of_ne_init _ _ hd)
  · next h1 => subst h1; exact congrArg Host.Outcome.next (s.takeFrame_of_ne_init _ _ hd)
  · next h2 => subst h2; exact congrArg Host.Outcome.next (s.takeFrame_of_ne_init _ _ hd)
  · next h3 => subst h3; exact congrArg Host.Outcome.next (s.takeFrame_of_ne_init _ _ hd)
  · next h0 h1 h2 h3 =>
    have hw : ¬namesWritable table = true := fun hw =>
      ((namesWritable_iff table).mp hw).elim h0 fun h => h.elim h1 fun h => h.elim h2 h3
    refine congrArg Host.Outcome.next ((if_neg hw).trans ((s.takeFrame_of_ne_init _ _ hd).trans ?_))
    simp only [State.executeFrame, State.actTableWrite, if_neg h0, if_neg h1, if_neg h2, if_neg h3]

theorem exec_unknownKind (s : State) (kind tag : Byte) : exec (.unknownKind kind tag) s =
    .next (s.takeFrame (if (kindLength kind).isSome then .badLength kind tag else .unknown kind tag) allFour) :=
  rfl

/-- Outside INIT the row of a frame executes it. -/
theorem exec_rowOf (s : State) {f : ControlFrame} (hf : f.Coded) (order : Fin 24) (hd : s.control.device ≠ .init) :
    exec (rowOf f order) s = .next (s.executeFrame f (Sys2Proof.orderOf order)) := by
  have hx (g : ControlFrame) (h : ∀ tag index entry, g ≠ .tableWrite tag tableSetup index entry) :
      s.takeFrame g allFour = s.executeFrame g (Sys2Proof.orderOf order) :=
    (s.takeFrame_of_ne_init g _ hd).trans (s.executeFrame_order g _ _ h)
  cases f
  case tableWrite tag table index entry => exact exec_writeRow s tag table index entry order hd
  case unknown kind tag =>
    rw [rowOf, exec_unknownKind, show kindLength kind = none from hf]
    exact congrArg Host.Outcome.next (hx _ nofun)
  case badLength kind tag =>
    have hk : (kindLength kind).isSome = true := hf
    rw [rowOf, exec_unknownKind, if_pos hk]
    exact congrArg Host.Outcome.next (hx _ nofun)
  all_goals exact congrArg Host.Outcome.next (hx _ nofun)

/-! ### Frames in INIT -/

/-- In INIT the row of a frame acts on the held slot, as long as its operands spell the frame whole. -/
theorem exec_rowOf_init (s : State) {f : ControlFrame} (hf : f.Coded) (order : Fin 24)
    (hr : ∀ tag table index, rowOf f order ≠ .tableWriteReadOnly tag table index) (hd : s.control.device = .init) :
    exec (rowOf f order) s = .next (if f.isNop then s else { s with port := s.port.hold f }) := by
  have hx (g : ControlFrame) (order : List Module) :
      s.takeFrame g order = if g.isNop then s else { s with port := s.port.hold g } := if_pos hd
  cases f
  case tableWrite tag table index entry =>
    have hw : exec (writeRow tag table index entry order) s =
        .next (s.takeFrame (.tableWrite tag table index entry) (Sys2Proof.orderOf order)) := by
      have hne : writeRow tag table index entry order ≠ .tableWriteReadOnly tag table index := hr tag table index
      revert hne
      unfold writeRow
      by_cases h0 : table = tableSetup
      · subst h0; exact fun _ => rfl
      rw [if_neg h0]
      by_cases h1 : table = tableChannelMap
      · subst h1; exact fun _ => congrArg Host.Outcome.next ((hx _ _).trans (hx _ _).symm)
      rw [if_neg h1]
      by_cases h2 : table = tableLimits
      · subst h2; exact fun _ => congrArg Host.Outcome.next ((hx _ _).trans (hx _ _).symm)
      rw [if_neg h2]
      by_cases h3 : table = tableRouting
      · subst h3; exact fun _ => congrArg Host.Outcome.next ((hx _ _).trans (hx _ _).symm)
      rw [if_neg h3]
      exact fun hne => absurd rfl hne
    exact hw.trans (congrArg Host.Outcome.next (hx _ _))
  case unknown kind tag =>
    rw [rowOf, exec_unknownKind, show kindLength kind = none from hf]
    exact congrArg Host.Outcome.next (hx _ _)
  case badLength kind tag =>
    have hk : (kindLength kind).isSome = true := hf
    rw [rowOf, exec_unknownKind, if_pos hk]
    exact congrArg Host.Outcome.next (hx _ _)
  all_goals exact congrArg Host.Outcome.next (hx _ _)

theorem ControlFrame.isNop_iff (f : ControlFrame) :
    f.isNop = true ↔ ∃ tag, f = .nop tag ∨ f = .badLength 0x00 tag := by
  cases f
  case badLength kind tag => simp [ControlFrame.isNop, kindNop]
  all_goals simp [ControlFrame.isNop]

theorem exec_exchangeEnd (s : State) (bytes : List Byte) (order : Fin 24) {x : Exchange} (hx : s.exchange = some x) :
    exec (.exchangeEnd bytes order) s =
      .next ((s.settleExchange x bytes.length).judgeIncoming bytes (Sys2Proof.orderOf order)) := by
  have he : s.endExchange bytes (Sys2Proof.orderOf order) =
      (s.settleExchange x bytes.length).judgeIncoming bytes (Sys2Proof.orderOf order) := by
    rw [State.endExchange, hx]
  exact congrArg Host.Outcome.next he

theorem State.judgeIncoming_taken (s : State) {bytes : List Byte} {f : ControlFrame}
    (h : judgeControlFrame bytes = some f) (order : List Module) : s.judgeIncoming bytes order = s.takeFrame f order := by
  rw [State.judgeIncoming, h]

/-- What is settled of an exchange leaves Measurement Control and the held slot alone. -/
theorem State.settleExchange_kept (s : State) (x : Exchange) (sent : Nat) :
    (s.settleExchange x sent).control = s.control ∧ (s.settleExchange x sent).port.held = s.port.held := by
  unfold State.settleExchange
  split
  · cases x.choice
    case idle => exact ⟨rfl, rfl⟩
    case record => exact ⟨rfl, rfl⟩
    case capture =>
      obtain ⟨q, sh, c, b, a, -, -, -, -, h⟩ := Formed.formAll
        { s with exchange := none, port := s.port.settle x.header, captureQueue := s.captureQueue.drop 1
                 shedding := reopen s.setup (s.captureQueue.drop 1).length s.shedding }
      rw [State.removeHead, h]
      exact ⟨rfl, rfl⟩
  · exact ⟨rfl, rfl⟩

/-- Settles O28: outside INIT a taken frame is executed, as its row does. -/
theorem takenFrameExecuted : Obligations.TakenFrameExecuted := by
  intro s x bytes f order hx hd hf
  have hd' : (s.settleExchange x bytes.length).control.device ≠ .init := by
    rwa [(s.settleExchange_kept x bytes.length).1]
  rw [exec_exchangeEnd s bytes order hx, State.judgeIncoming_taken _ hf, State.takeFrame_of_ne_init _ _ _ hd',
    exec_rowOf _ (judgeControlFrame_coded hf) order hd']

theorem Port.hold_empty {q : Port} (h : q.held = none) (f : ControlFrame) : q.hold f = { q with held := some f } := by
  rw [Port.hold, h]

theorem Port.hold_full {q : Port} {g : ControlFrame} (h : q.held = some g) (f : ControlFrame) :
    q.hold f = { q with overrun := true } := by
  rw [Port.hold, h]

theorem Port.hold_discarded (q : Port) (f : ControlFrame) : (q.hold f).discarded = q.discarded := by
  unfold Port.hold
  split <;> rfl

/-- Settles O29: R150 goes by the kind of the frame and by the slot. -/
theorem framesHeldInInit : Obligations.FramesHeldInInit := by
  intro s bytes f order nop hnop hd hf
  have hkind : nop ↔ f.isNop = true := hnop.trans (judgeControlFrame_isNop hf).symm
  have hrow := exec_rowOf_init s (judgeControlFrame_coded hf) order
  refine ⟨hkind.trans f.isNop_iff, fun hn => ?nop, fun hn hr => ⟨fun hh => ?empty, fun g hh => ?full⟩,
    fun x hx => ?taken⟩
  case nop =>
    have hr : ∀ tag table index, rowOf f order ≠ .tableWriteReadOnly tag table index := by
      obtain ⟨tag, rfl | rfl⟩ := f.isNop_iff.mp (hkind.mp hn) <;> nofun
    rw [hrow hr hd, if_pos (hkind.mp hn)]
  case empty => rw [hrow hr hd, if_neg fun h => hn (hkind.mpr h), Port.hold_empty hh]
  case full => rw [hrow hr hd, if_neg fun h => hn (hkind.mpr h), Port.hold_full hh]
  case taken =>
    obtain ⟨hc, hh⟩ := s.settleExchange_kept x bytes.length
    generalize hu : s.settleExchange x bytes.length = u at hc hh ⊢
    have ht : (u.judgeIncoming bytes (Sys2Proof.orderOf order)) =
        if f.isNop then u else { u with port := u.port.hold f } := by
      rw [State.judgeIncoming_taken _ hf]
      exact if_pos (by rw [hc, hd])
    rw [exec_exchangeEnd s bytes order hx, hu, ht]
    refine ⟨_, rfl, fun hn => if_pos (hkind.mp hn), fun hn he => ?_, fun g hn hg => ?_, ?_, ?_⟩
    · rw [if_neg fun h => hn (hkind.mpr h)]
      exact ⟨congrArg Port.held (Port.hold_empty (hh.trans he) f),
        (congrArg Port.overrun (Port.hold_empty (hh.trans he) f)).trans rfl⟩
    · rw [if_neg fun h => hn (hkind.mpr h)]
      exact ⟨(congrArg Port.held (Port.hold_full (hh.trans hg) f)).trans (hh.trans hg),
        congrArg Port.overrun (Port.hold_full (hh.trans hg) f)⟩
    · split <;> rfl
    · split
      · rfl
      · exact u.port.hold_discarded f

/-! ### Frames that are not served -/

theorem State.writeRefused_eq (s : State) (tag table index : Byte) : s.writeRefused tag table index =
    s.replyWrite tag table index (if table = 0x04 ∨ table = 0x05 then .invalidEntry else .badIndex) none :=
  (apply_ite (fun result => s.replyWrite tag table index result none) _ _ _).symm

theorem exec_tableWriteReadOnly (s : State) (tag table index : Byte) (hd : s.control.device ≠ .init)
    (ht : 4 ≤ table.toNat) :
    exec (.tableWriteReadOnly tag table index) s = .next (s.replyWrite tag table index
      (if table = 0x04 ∨ table = 0x05 then .invalidEntry else .badIndex) none) := by
  have hne (k : Byte) (hk : k.toNat < 4) : table ≠ k := fun e => Nat.not_lt.mpr ht (e ▸ hk)
  have h0 : table ≠ tableSetup := hne _ (by decide)
  have h1 : table ≠ tableChannelMap := hne _ (by decide)
  have h2 : table ≠ tableLimits := hne _ (by decide)
  have h3 : table ≠ tableRouting := hne _ (by decide)
  have hw : ¬namesWritable table = true := fun hw =>
    ((namesWritable_iff table).mp hw).elim h0 fun h => h.elim h1 fun h => h.elim h2 h3
  refine congrArg Host.Outcome.next ((if_neg hw).trans ((s.takeFrame_of_ne_init _ _ hd).trans ?_))
  rw [State.executeFrame, State.actTableWrite, if_neg h0, if_neg h1, if_neg h2, if_neg h3, State.writeRefused_eq]

/-- Settles O30: by the kind, and by the table code. -/
theorem unservedFramesAnswered : Obligations.UnservedFramesAnswered := by
  intro s kind tag table index hd
  refine ⟨fun hk => ?_, fun hk => ?_, fun ht => ?_, fun ht => ?_, fun ht => ?_⟩
  · rw [exec_unknownKind, (kindLength_eq_none_iff kind).mpr hk, s.takeFrame_of_ne_init _ _ hd]
    rfl
  · rw [exec_unknownKind, if_pos ((kindLength_isSome_iff kind).mpr hk), s.takeFrame_of_ne_init _ _ hd]
    rfl
  · rw [exec_tableWriteReadOnly s tag table index hd (by omega), if_neg (by bv_omega)]
    rfl
  · rw [exec_tableWriteReadOnly s tag table index hd (by rcases ht with rfl | rfl <;> decide), if_pos ht]
    rfl
  · refine congrArg Host.Outcome.next (if_pos ((namesWritable_iff table).mpr ?_))
    simp only [tableSetup, tableChannelMap, tableLimits, tableRouting]
    bv_omega

end Sys2Proof.Machine
end

section
/-! PROOFS. The completion of INIT (R161: O5, O6), supply failure and return in HOLDUP (R168, R170: O21, O22), and the
module commands' row and answers (R17, R19: O12, O44). -/

namespace Sys2Proof.Machine

/-! ### INIT -/

theorem exec_initComplete (s : State) : exec .initComplete s = .next s.completeInit :=
  rfl

theorem exec_supplyFailure (s : State) : exec .supplyFailure s = .next s.takeFailure :=
  rfl

theorem State.completeInit_of_init {s : State} (hd : s.control.device = .init) :
    s.completeInit = s.clearTables.executeHeld.takeFailure :=
  if_pos hd

theorem State.executeHeld_none {s : State} (hh : s.port.held = none) : s.executeHeld = s := by
  rw [State.executeHeld, hh]

theorem State.executeHeld_some {s : State} {f : ControlFrame} (hh : s.port.held = some f) :
    s.executeHeld = State.executeFrame { s with port := { s.port with held := none } } f allFour := by
  rw [State.executeHeld, hh]

theorem State.takeFailure_of_good {s : State} (hl : s.control.level = .good) : s.takeFailure = s := by
  refine if_neg ?_
  rw [State.supplyFailed, hl]
  exact Bool.false_ne_true

/-- Settles O5: nothing is held and nothing fails, so only the tables and the device state change. -/
theorem initClearsTables : Obligations.InitClearsTables := by
  refine ⟨fun s hd hh hl => ?_, fun s hd => congrArg Host.Outcome.next (if_neg hd)⟩
  have ht : s.completeInit = s.clearTables := by
    rw [State.completeInit_of_init hd, State.executeHeld_none (s := s.clearTables) hh,
      State.takeFailure_of_good (s := s.clearTables) hl]
  refine ⟨s.clearTables, congrArg Host.Outcome.next ht, s.clearTables_channel, s.clearTables_point, fun k => ?_,
    fun l => ?_, rfl⟩
  · exact Vector.getElem_replicate _
  · cases l <;> rfl

/-- With the slot empty there is nothing to empty. -/
theorem State.initDone_of_empty {s : State} (hh : s.port.held = none) : s.initDone = s.clearTables := by
  have hp : ({ s.port with held := none } : Port) = s.port := by
    rw [← hh]
  rw [State.initDone, hp]
  rfl

/-- Settles O6: the completion is the clearing, the held frame, and the effect of a failing supply. -/
theorem initRunsHeldFrame : Obligations.InitRunsHeldFrame := by
  refine ⟨fun s f bytes hd hh hf => ?held, fun s hd hh => ?empty⟩
  case held =>
    have hne : s.initDone.control.device ≠ .init := nofun
    refine ⟨s.initDone.executeFrame f (Sys2Proof.orderOf 0), exec_rowOf _ (judgeControlFrame_coded hf) 0 hne, ?_⟩
    rw [exec_initComplete, exec_supplyFailure, State.completeInit_of_init hd,
      State.executeHeld_some (s := s.clearTables) hh]
    rfl
  case empty =>
    rw [exec_initComplete, exec_supplyFailure, State.completeInit_of_init hd,
      State.executeHeld_none (s := s.clearTables) hh, State.initDone_of_empty hh]

/-! ### Supply failure -/

theorem State.endCapture_of_none {s : State} (h : s.capture = none) (reason : EndReason) : s.endCapture reason = s := by
  rw [State.endCapture, h]

theorem State.endCapture_of_some {s : State} {c : RunningCapture} (h : s.capture = some c) (reason : EndReason) :
    s.endCapture reason =
      { (s.offer (.closure (closureOf c reason))).raise .captureDone with capture := none } := by
  rw [State.endCapture, h]

@[simp] theorem State.raise_attention (s : State) (k : AttnClass) :
    (s.raise k).attention = s.attention.raise s.routing s.count k :=
  rfl

/-- A class stays pending when another is raised. -/
theorem State.raise_keeps {s : State} {j : AttnClass} (h : s.attention.isPending j = true) (k : AttnClass) :
    (s.raise k).attention.isPending j = true :=
  Attention.raise_keeps _ _ _ k j h

theorem State.supplyFailed_iff (s : State) : s.supplyFailed = true ↔
    s.control.level = .failing ∧ (s.control.device = .stopped ∨ s.control.device = .running) := by
  simp [State.supplyFailed]

/-- HOLDUP as entered, before its record. -/
def State.heldUp (s : State) (prior : PriorState) : State :=
  { s with control := { s.control with
      device := .holdup, prior := some prior, timerRunning := true, holdupStart := s.count } }

theorem State.enterHoldup_eq (s : State) : s.enterHoldup =
    ((((s.heldUp (priorOf s.control.device)).offerStatus
      (.holdupEntered (priorOf s.control.device).device)).endCapture .truncatedSupply).raise .supply) :=
  rfl

/-- Settles O21: by whether a capture runs. -/
theorem supplyFailureEntersHoldup : Obligations.SupplyFailureEntersHoldup := by
  refine ⟨fun s prior hl hd => ?enters, fun s h => ?idle⟩
  case idle =>
    refine congrArg Host.Outcome.next (if_neg ?_)
    rw [State.supplyFailed_iff]
    rintro ⟨hf, hd⟩
    rcases h with h | h
    · rw [h] at hf
      cases hf
    · exact hd.elim h.1 h.2
  case enters =>
    have hp : priorOf s.control.device = prior := by
      rcases hd with ⟨h, rfl⟩ | ⟨h, rfl⟩ <;> rw [h] <;> rfl
    have hfail : s.supplyFailed = true := (s.supplyFailed_iff).mpr ⟨hl, hd.imp And.left And.left⟩
    have ht : s.takeFailure = _ := (if_pos hfail).trans s.enterHoldup_eq
    rw [hp] at ht
    generalize hu : (s.heldUp prior).offerStatus (.holdupEntered prior.device) = u at ht
    have hbuilder : u.builder = s.builder.offer (.status (.holdupEntered prior.device) s.epochNow s.control.epochUnset) := by
      rw [← hu]
      exact State.offer_builder _ _
    obtain ⟨b, a, -, hu'⟩ := Noted.offerStatus (s.heldUp prior) (.holdupEntered prior.device)
    rw [hu] at hu'
    refine ⟨s.takeFailure, exec_supplyFailure s, ?_⟩
    have hsupply : s.takeFailure.attention.isPending .supply = true := by
      rw [ht]
      exact State.raise_isPending _ _
    cases hc : s.capture with
    | none =>
      have huc : u.capture = none := by rw [hu']; exact hc
      rw [State.endCapture_of_none huc] at ht
      refine ⟨?_, ?_, fun _ => ?_, nofun, hsupply, ?_⟩
      · rw [ht, hu']; rfl
      · rw [ht]; exact huc
      · rw [ht]; exact hbuilder
      · rw [ht, hu', ← hc]; rfl
    | some c =>
      have huc : u.capture = some c := by rw [hu']; exact hc
      rw [State.endCapture_of_some huc] at ht
      obtain ⟨b2, a2, -, h2⟩ := Noted.offerRaise u (.closure (closureOf c .truncatedSupply)) .captureDone
      refine ⟨?_, ?_, nofun, fun d hd => ⟨?_, ?_⟩, hsupply, ?_⟩
      · rw [ht, h2, hu']; rfl
      · rw [ht]; rfl
      · cases hd
        rw [ht, ← hbuilder]
        exact State.offer_builder u _
      · rw [ht]
        refine State.raise_keeps ?_ _
        exact State.raise_isPending _ _
      · rw [ht, h2, hu']; rfl

/-! ### Supply return -/

theorem State.takeReturnHoldup_idle {s : State} (h : s.control.level = .failing ∨ s.control.device ≠ .holdup) :
    s.takeReturnHoldup = s := by
  refine if_neg fun hc => ?_
  obtain ⟨hl, hd⟩ := Bool.and_eq_true_iff.mp hc
  rcases h with h | h
  · rw [h] at hl
    cases hl
  · exact h (beq_iff_eq.mp hd)

/-- Settles O22: the prior state names the state to return to. -/
theorem supplyReturnEndsHoldup : Obligations.SupplyReturnEndsHoldup := by
  refine ⟨fun s prior hl hd hp => ?_, fun s h => congrArg Host.Outcome.next (State.takeReturnHoldup_idle h)⟩
  have hr : s.control.returnState = prior.device := by rw [Control.returnState, hp]
  have ht : s.takeReturnHoldup = s.restoreSupply s.control.returnState := if_pos (by rw [hl, hd]; rfl)
  rw [hr] at ht
  exact congrArg Host.Outcome.next ht

/-! ### Module commands -/

theorem State.commandOverdue_none {s : State} {m : Module} (h : (s.module m).command = none) :
    s.commandOverdue m = false := by
  rw [State.commandOverdue, h]

theorem State.commandOverdue_unsent {s : State} {m : Module} {k : ModuleCommand} (h : (s.module m).command = some k)
    (hs : k.sent = none) : s.commandOverdue m = false := by
  rw [State.commandOverdue, h]
  dsimp only
  rw [hs]

theorem State.commandOverdue_sent {s : State} {m : Module} {k : ModuleCommand} {e : SentCommand}
    (h : (s.module m).command = some k) (hs : k.sent = some e) :
    s.commandOverdue m = decide (64 < (s.count - e.tick).toNat) := by
  rw [State.commandOverdue, h]
  dsimp only
  rw [hs]
  rfl

theorem exec_moduleCommandTimeout_idle {s : State} {m : Module} (h : s.commandOverdue m = false) :
    exec (.moduleCommandTimeout m) s = .next s :=
  congrArg Host.Outcome.next (if_neg (Bool.eq_false_iff.mp h))

theorem State.endCommand_of_some {s : State} {m : Module} {k : ModuleCommand} (h : (s.module m).command = some k)
    (result : ReplyResult) (word : Option (BitVec 32)) : s.endCommand m result word =
      (s.modModule m (fun r => { r with command := none })).offerReply kindModuleCommand k.tag result
        (.moduleCommand (BitVec.ofNat 8 m.val) word) := by
  rw [State.endCommand, h]

/-- Settles O12: by what the module has outstanding. -/
theorem moduleCommandTimesOut : Obligations.ModuleCommandTimesOut := by
  intro s m
  refine ⟨fun k e hk he ht => ?_, fun k e hk he ht => ?_, fun k hk he => ?_, fun hk => ?_⟩
  · have ho : s.commandOverdue m = true := by
      rw [State.commandOverdue_sent hk he]
      exact decide_eq_true ht
    exact congrArg Host.Outcome.next ((if_pos ho).trans (State.endCommand_of_some hk _ _))
  · refine exec_moduleCommandTimeout_idle ?_
    rw [State.commandOverdue_sent hk he]
    exact decide_eq_false (Nat.not_lt.mpr ht)
  · exact exec_moduleCommandTimeout_idle (State.commandOverdue_unsent hk he)
  · exact exec_moduleCommandTimeout_idle (State.commandOverdue_none hk)

theorem moduleOfNat_eq_none {n : Nat} (h : 4 ≤ n) : moduleOfNat n = none :=
  dif_neg (Nat.not_lt.mpr h)

theorem pointOfNat_eq_none {n : Nat} (h : 4 ≤ n) : pointOfNat n = none :=
  dif_neg (Nat.not_lt.mpr h)

/-- Outside INIT the row of a MODULE-COMMAND is `actModuleCommand`. -/
theorem exec_moduleCommand_of_ne_init (s : State) (tag module : Byte) (word : BitVec 32)
    (hd : s.control.device ≠ .init) :
    exec (.moduleCommand tag module word) s = .next (s.actModuleCommand tag module word) :=
  congrArg Host.Outcome.next (s.takeFrame_of_ne_init (.moduleCommand tag module word) allFour hd)

theorem State.actModuleCommand_refused {s : State} {module : Byte} {result : ReplyResult}
    (h : s.refuseCommand (moduleOfNat module.toNat) = some result) (tag : Byte) (word : BitVec 32) :
    s.actModuleCommand tag module word = s.offerReply 0x09 tag result (.moduleCommand module none) := by
  rw [State.actModuleCommand, h]
  rfl

theorem State.actModuleCommand_accepted {s : State} {module : Byte} {m : Module}
    (hm : moduleOfNat module.toNat = some m) (h : s.refuseCommand (some m) = none) (tag : Byte) (word : BitVec 32) :
    s.actModuleCommand tag module word =
      s.modModule m (fun r => { r with command := some { tag := tag, word := word, sent := none } }) := by
  rw [State.actModuleCommand, hm, h]

/-- Settles O44: the tests of R17 in order. -/
theorem moduleCommandJudged : Obligations.ModuleCommandJudged := by
  intro s tag module word
  refine ⟨fun hd => ?unpowered, fun hd => ?served⟩
  case unpowered =>
    rw [exec_moduleCommand_of_ne_init s tag module word (by rcases hd with h | h <;> rw [h] <;> nofun)]
    exact congrArg Host.Outcome.next (State.actModuleCommand_refused (if_pos hd) tag word)
  case served =>
    have hinit : s.control.device ≠ .init := by rcases hd with h | h <;> rw [h] <;> nofun
    have hpower : ¬(s.control.device = .holdup ∨ s.control.device = .standby) := by
      rcases hd with h | h <;> rw [h] <;> decide
    rw [exec_moduleCommand_of_ne_init s tag module word hinit]
    refine ⟨fun hm => ?badIndex, fun m hm => ?_⟩
    case badIndex =>
      refine congrArg Host.Outcome.next (State.actModuleCommand_refused ?_ tag word)
      rw [moduleOfNat_eq_none hm]
      exact if_neg hpower
    have hof : moduleOfNat module.toNat = some m := by rw [hm, moduleOfNat_val]
    have hrefuse : s.refuseCommand (some m) = if (s.module m).state ≠ .locked then some .moduleNotLocked
        else if (s.module m).command.isSome then some .busy else none := if_neg hpower
    refine ⟨fun hs => ?notLocked, fun hs hc => ?busy, fun hs hc => ?accepted⟩
    case notLocked =>
      refine congrArg Host.Outcome.next (State.actModuleCommand_refused ?_ tag word)
      rw [hof, hrefuse, if_pos hs]
    case busy =>
      refine congrArg Host.Outcome.next (State.actModuleCommand_refused ?_ tag word)
      rw [hof, hrefuse, if_neg (not_not_intro hs), if_pos hc]
    case accepted =>
      refine congrArg Host.Outcome.next (State.actModuleCommand_accepted hof ?_ tag word)
      rw [hrefuse, if_neg (not_not_intro hs), if_neg (by rw [hc]; exact Bool.false_ne_true)]

end Sys2Proof.Machine
end

section
/-! PROOFS. Sample frames that are not taken (R5: O13), ROUTING writes (R157, R177: O36), TRIGGER (R119, R120: O42). -/

namespace Sys2Proof.Machine

/-! ### Sample frames -/

theorem satSucc_eq_min (top n : Nat) : satSucc top n = min top (n + 1) := by
  unfold satSucc
  split <;> omega

theorem exec_sampleFrame (s : State) (bytes : List Byte) (leadFirst : Bool) :
    exec (.sampleFrame bytes leadFirst) s = .next (s.judgeSampleFrame bytes leadFirst) :=
  rfl

/-- The module of a frame that has bytes: its first byte names one that is enabled. -/
theorem State.frameModule_eq (s : State) {bytes : List Byte} (h : bytes.length = 30) :
    s.frameModule bytes = match moduleOfNat (byteAt bytes 0).toNat with
      | none => none
      | some m => if s.setup.enables m then some m else none := by
  cases bytes with
  | nil => cases h
  | cons b rest => rfl

theorem State.frameModule_unnamed (s : State) {bytes : List Byte} (h : bytes.length = 30)
    (hm : 4 ≤ (byteAt bytes 0).toNat) : s.frameModule bytes = none := by
  rw [s.frameModule_eq h, moduleOfNat_eq_none hm]

theorem State.frameModule_named (s : State) {bytes : List Byte} (h : bytes.length = 30) {m : Module}
    (hm : (byteAt bytes 0).toNat = m.val) :
    s.frameModule bytes = if s.setup.enables m then some m else none := by
  rw [s.frameModule_eq h, hm, moduleOfNat_val]

theorem State.judgeSampleFrame_none {s : State} {bytes : List Byte} (h : s.frameModule bytes = none)
    (leadFirst : Bool) : s.judgeSampleFrame bytes leadFirst = s := by
  rw [State.judgeSampleFrame, h]

/-- The tests of R5 after the module's. -/
theorem State.judgeSampleFrame_some {s : State} {bytes : List Byte} {m : Module} (h : s.frameModule bytes = some m)
    (hl : bytes.length = 30) (leadFirst : Bool) : s.judgeSampleFrame bytes leadFirst =
      if intact bytes = false then
        s.modModule m (fun r => { r with checkFailures := satSucc 65535 r.checkFailures })
      else if byteAt bytes 1 ≠ s.count.setWidth 8 then
        s.modModule m (fun r => { r with staleFrames := satSucc 65535 r.staleFrames })
      else if (s.module m).taken then s
      else s.takeGoodFrame m (parseSampleFrame bytes) leadFirst := by
  have hi : sampleFrameIntact bytes = intact bytes := by
    rw [sampleFrameIntact, hl, beq_self_eq_true, Bool.true_and]
  rw [State.judgeSampleFrame, h]
  dsimp only
  rw [hi]
  simp only [Bool.not_eq_true']
  rfl

/-- Settles O13: the tests of R5 in order. -/
theorem sampleFrameDiscarded : Obligations.SampleFrameDiscarded := by
  intro s bytes leadFirst hl
  refine ⟨fun hm => ?_, fun m hm => ⟨fun he => ?_, fun he hi => ?_, fun he hi ht => ?_, fun he hi ht hg => ?_⟩⟩
  · rw [exec_sampleFrame, State.judgeSampleFrame_none (s.frameModule_unnamed hl hm)]
  all_goals have hn := s.frameModule_named hl hm
  · rw [if_neg (Bool.eq_false_iff.mp he)] at hn
    rw [exec_sampleFrame, State.judgeSampleFrame_none hn]
  all_goals
    rw [if_pos he] at hn
    rw [exec_sampleFrame, State.judgeSampleFrame_some hn hl]
  · rw [if_pos hi]
    simp only [satSucc_eq_min]
  · rw [if_neg (by rw [hi]; decide), if_pos ht]
    simp only [satSucc_eq_min]
  · rw [if_neg (by rw [hi]; decide), if_neg (not_not_intro ht), if_pos hg]

/-! ### ROUTING -/

theorem routeOfCode_spec (b : Byte) :
    (routeOfCode b = none ∧ 2 < b.toNat) ∨ ∃ r, routeOfCode b = some r ∧ r.code = b ∧ b.toNat ≤ 2 := by
  unfold routeOfCode
  repeat' split
  · next h0 => exact .inr ⟨_, rfl, h0.symm, by rw [h0]; decide⟩
  · next h1 => exact .inr ⟨_, rfl, h1.symm, by rw [h1]; decide⟩
  · next h2 => exact .inr ⟨_, rfl, h2.symm, by rw [h2]; decide⟩
  · exact .inl ⟨rfl, by bv_omega⟩

theorem modeOfCode_spec (b : Byte) :
    (modeOfCode b = none ∧ 3 < b.toNat) ∨ ∃ m, modeOfCode b = some m ∧ m.code = b ∧ b.toNat ≤ 3 := by
  unfold modeOfCode
  repeat' split
  · next h0 => exact .inr ⟨_, rfl, h0.symm, by rw [h0]; decide⟩
  · next h1 => exact .inr ⟨_, rfl, h1.symm, by rw [h1]; decide⟩
  · next h2 => exact .inr ⟨_, rfl, h2.symm, by rw [h2]; decide⟩
  · next h3 => exact .inr ⟨_, rfl, h3.symm, by rw [h3]; decide⟩
  · exact .inl ⟨rfl, by bv_omega⟩

theorem widthOfCode_spec (b : Byte) :
    (widthOfCode b = none ∧ 3 < b.toNat) ∨ ∃ w, widthOfCode b = some w ∧ w.code = b ∧ b.toNat ≤ 3 := by
  unfold widthOfCode
  repeat' split
  · next h0 => exact .inr ⟨_, rfl, h0.symm, by rw [h0]; decide⟩
  · next h1 => exact .inr ⟨_, rfl, h1.symm, by rw [h1]; decide⟩
  · next h2 => exact .inr ⟨_, rfl, h2.symm, by rw [h2]; decide⟩
  · next h3 => exact .inr ⟨_, rfl, h3.symm, by rw [h3]; decide⟩
  · exact .inl ⟨rfl, by bv_omega⟩

/-- A line's two bytes are refused beyond their lists, and else spell its mode and width. -/
theorem parseLine_spec (b : List Byte) {i j : Nat} (hj : j = i + 1) :
    (parseLine b i = none ∧ (3 < (byteAt b i).toNat ∨ 3 < (byteAt b j).toNat)) ∨
    ∃ c, parseLine b i = some c ∧ c.mode.code = byteAt b i ∧ c.width.code = byteAt b j ∧
      (byteAt b i).toNat ≤ 3 ∧ (byteAt b j).toNat ≤ 3 := by
  subst hj
  rcases modeOfCode_spec (byteAt b i) with ⟨hm, h3⟩ | ⟨m, hm, hmc, hm3⟩
  · exact .inl ⟨by rw [parseLine, hm], .inl h3⟩
  · rcases widthOfCode_spec (byteAt b (i + 1)) with ⟨hw, h3⟩ | ⟨w, hw, hwc, hw3⟩
    · exact .inl ⟨by rw [parseLine, hm, hw], .inr h3⟩
    · exact .inr ⟨⟨m, w⟩, by rw [parseLine, hm, hw], hmc, hwc, hm3, hw3⟩

theorem routeCodes_all (b : List Byte) :
    (((List.range 10).map (fun i => routeOfCode (byteAt b i))).all Option.isSome = true) ↔
      ∀ i, i < 10 → (byteAt b i).toNat ≤ 2 := by
  rw [List.all_map, List.all_eq_true]
  refine forall_congr' fun i => ?_
  rw [List.mem_range]
  refine imp_congr_right fun _ => ?_
  rcases routeOfCode_spec (byteAt b i) with ⟨h, h2⟩ | ⟨r, h, -, h2⟩
  · simp only [Function.comp_apply, h]
    exact iff_of_false Bool.false_ne_true (Nat.not_le.mpr h2)
  · simp only [Function.comp_apply, h]
    exact iff_of_true rfl h2

/-- A code beyond its list refuses the entry (R157). -/
theorem parseRouting_none {b : List Byte} (h : (∃ i, i < 10 ∧ 2 < (byteAt b i).toNat) ∨ 3 < (byteAt b 10).toNat ∨
    3 < (byteAt b 11).toNat ∨ 3 < (byteAt b 12).toNat ∨ 3 < (byteAt b 13).toNat) : parseRouting b = none := by
  unfold parseRouting
  dsimp only
  split
  · next hall =>
    have hall := (routeCodes_all b).mp hall
    rcases parseLine_spec b (show 11 = 10 + 1 from rfl) with ⟨h0, -⟩ | ⟨c, h0, -, -, h10, h11⟩
    · rw [h0]
    · rcases parseLine_spec b (show 13 = 12 + 1 from rfl) with ⟨h1, -⟩ | ⟨d, h1, -, -, h12, h13⟩
      · rw [h0, h1]
      · rcases h with ⟨i, hi, h2⟩ | h | h | h | h
        · exact absurd (hall i hi) (Nat.not_le.mpr h2)
        all_goals omega
  · rfl

/-- An entry whose codes are all listed spells them (R157). -/
theorem parseRouting_some {b : List Byte} (hr : ∀ i, i < 10 → (byteAt b i).toNat ≤ 2)
    (h : (byteAt b 10).toNat ≤ 3 ∧ (byteAt b 11).toNat ≤ 3 ∧ (byteAt b 12).toNat ≤ 3 ∧ (byteAt b 13).toNat ≤ 3) :
    ∃ r, parseRouting b = some r ∧ (∀ k, (r.route k).code = byteAt b (classIndex k).val) ∧
      r.config0.mode.code = byteAt b 10 ∧ r.config0.width.code = byteAt b 11 ∧
      r.config1.mode.code = byteAt b 12 ∧ r.config1.width.code = byteAt b 13 := by
  rcases parseLine_spec b (show 11 = 10 + 1 from rfl) with ⟨-, h0⟩ | ⟨c, h0, hc, hc', -⟩
  · omega
  rcases parseLine_spec b (show 13 = 12 + 1 from rfl) with ⟨-, h1⟩ | ⟨d, h1, hd, hd', -⟩
  · omega
  refine ⟨⟨Vector.ofFn fun i : Fin 10 => (routeOfCode (byteAt b i.val)).getD .none, c, d⟩, ?_, fun k => ?_,
    hc, hc', hd, hd'⟩
  · rw [parseRouting, if_pos ((routeCodes_all b).mpr hr), h0, h1]
  · rw [Routing.route, Vector.getElem_ofFn]
    rcases routeOfCode_spec (byteAt b (classIndex k).val) with ⟨-, h2⟩ | ⟨r, h, hc, -⟩
    · exact absurd (hr _ (classIndex k).isLt) (Nat.not_le.mpr h2)
    · rw [h]
      exact hc

theorem exec_tableWriteRouting_of_ne_init (s : State) (tag index : Byte) (entry : List Byte)
    (hd : s.control.device ≠ .init) :
    exec (.tableWriteRouting tag index entry) s = .next (s.writeRouting tag index entry) :=
  congrArg Host.Outcome.next (s.takeFrame_of_ne_init (.tableWrite tag tableRouting index entry) allFour hd)

theorem rerouteLine_same {c d : LineConfig} (h : d = c) (p : PulseState) : rerouteLine c d p = p :=
  if_pos h.symm

theorem rerouteLine_changed {c d : LineConfig} (h : d ≠ c) (p : PulseState) : rerouteLine c d p = .idle :=
  if_neg (Ne.symm h)

theorem State.storeRouting_line (s : State) (r : Routing) (l : LineId) :
    (s.storeRouting r).attention.line l = rerouteLine (s.routing.config l) (r.config l) (s.attention.line l) := by
  cases l <;> rfl

/-- Settles O36: the index, the codes, and the lines whose configuration the entry changes. -/
theorem routingWritten : Obligations.RoutingWritten := by
  intro s tag index entry hd
  rw [exec_tableWriteRouting_of_ne_init s tag index entry hd]
  refine ⟨fun hi => congrArg Host.Outcome.next (if_pos hi), ?_, ?_⟩
  all_goals
    rintro rfl
    rw [State.writeRouting, if_neg (not_not_intro rfl)]
  · intro h
    rw [parseRouting_none h]
    rfl
  · intro hr h10 h11 h12 h13
    obtain ⟨r, hp, hroutes, hm0, hw0, hm1, hw1⟩ := parseRouting_some hr ⟨h10, h11, h12, h13⟩
    rw [hp]
    refine ⟨_, r, rfl, hroutes, hm0, hw0, hm1, hw1, s.storeRouting r, rfl, fun l hl => ?_, fun l hl => ?_, rfl, rfl⟩
    · rw [s.storeRouting_line, rerouteLine_same hl]
    · rw [s.storeRouting_line, rerouteLine_changed hl]
      rfl

/-! ### TRIGGER -/

theorem exec_trigger_of_ne_init (s : State) (tag point : Byte) (hd : s.control.device ≠ .init) :
    exec (.trigger tag point) s = .next (s.actTrigger tag point) :=
  congrArg Host.Outcome.next (s.takeFrame_of_ne_init (.trigger tag point) allFour hd)

/-- A TRIGGER that is not DONE makes its reply alone. -/
theorem State.actTrigger_refused {s : State} {point : Byte} {result : ReplyResult}
    (h : s.judgeTrigger point = result) (hne : result ≠ .done) (tag : Byte) :
    s.actTrigger tag point = s.offerReply 0x07 tag result (.trigger none) := by
  unfold State.actTrigger
  dsimp only
  rw [h]
  split
  · rfl
  · rw [if_neg hne]
    rfl

theorem State.actTrigger_done {s : State} {point : Byte} {p : Point} (h : s.judgeTrigger point = .done)
    (hp : pointOfNat point.toNat = some p) (tag : Byte) : s.actTrigger tag point =
      (State.startCapture { s with eventTag := s.eventTag + 1 } (s.eventTag + 1) p s.count).offerReply 0x07 tag .done
        (.trigger (some (s.eventTag + 1))) := by
  unfold State.actTrigger
  dsimp only
  rw [h, hp]
  rfl

theorem State.judgeTrigger_running {s : State} (hd : s.control.device = .running) (point : Byte) :
    s.judgeTrigger point = match pointOfNat point.toNat with
      | none => .badIndex
      | some p => if !(s.point p).measured then .notConfigured else if s.capture.isSome then .busy
        else if s.shedding = .shed then .busy else .done :=
  if_neg (not_not_intro hd)

/-- What the engine starts with is what R120 says. -/
theorem newCapture_starts (s : State) (tag : Word) (p : Point) (trigger : Tick) :
    CaptureStarts s tag p trigger (newCapture s tag p trigger) where
  tag := rfl
  point := rfl
  channels := rfl
  triggerTick := rfl
  triggerEpoch := rfl
  preCount := by
    show actualPre s.history s.setup.preTrigger trigger = _
    unfold actualPre
    cases s.history.oldest <;> rfl
  startTick := rfl
  readPosition := rfl
  plannedEnd := rfl
  fresh := ⟨rfl, rfl, rfl⟩

/-- Settles O42: the tests of R119 in order, and the capture that R120 starts. -/
theorem triggerJudged : Obligations.TriggerJudged := by
  intro s tag point
  refine ⟨fun hd hh => ?held, fun hd => ?refused, fun hd hp => ?badIndex, fun p hd hp => ?named⟩
  case held => exact congrArg Host.Outcome.next (s.takeFrame_init_empty (.trigger tag point) allFour hd hh rfl)
  case refused =>
    have hne : s.control.device ≠ .init ∧ s.control.device ≠ .running := by
      rcases hd with h | h | h <;> rw [h] <;> decide
    rw [exec_trigger_of_ne_init s tag point hne.1, State.actTrigger_refused (if_pos hne.2) nofun]
  all_goals
    have hrun := State.judgeTrigger_running hd point
    rw [exec_trigger_of_ne_init s tag point (by rw [hd]; nofun)]
  case badIndex =>
    rw [pointOfNat_eq_none hp] at hrun
    rw [State.actTrigger_refused hrun nofun]
  case named =>
    have hof : pointOfNat point.toNat = some p := by rw [hp, pointOfNat_val]
    rw [hof] at hrun
    dsimp only at hrun
    refine ⟨fun hm => ?notConfigured, fun hm hb => ?busy, fun hm hc hs => ?done⟩
    case notConfigured =>
      rw [hm, if_pos (show (!false) = true from rfl)] at hrun
      rw [State.actTrigger_refused hrun nofun]
    case busy =>
      rw [hm, if_neg (by decide)] at hrun
      have hbusy : s.judgeTrigger point = .busy := by
        rcases hb with hb | hb
        · rw [hrun, if_pos hb]
        · rw [hrun, if_pos hb, ite_self]
      rw [State.actTrigger_refused hbusy nofun]
    case done =>
      rw [hm, hc, hs, if_neg (by decide), if_neg (by decide), if_neg (by decide)] at hrun
      refine ⟨newCapture s (s.eventTag + 1) p s.count, newCapture_starts s _ p s.count, ?_⟩
      rw [State.actTrigger_done hrun hof]
      rfl

end Sys2Proof.Machine
end

section
/-! PROOFS. The Boundary Unit: the crossing of a set, the arming marks and the decision (R38, R39, R41 to R45: O51). -/

namespace Sys2Proof.Machine

/-! ### A set taken by the Boundary Unit -/

/-- The crossing that a set holds (R38, R39). -/
def Boundary.crosses (b : Boundary) (changed : Bool) (x : Option Int) : Option Polarity :=
  (b.prepare changed).crossingAt x

/-- The unit as the decision on a set finds it: prepared, armed and counted. -/
def Boundary.met (b : Boundary) (h : Nat) (changed : Bool) (x : Option Int) : Boundary :=
  { (((b.prepare changed).disarm (b.crosses changed x)).arm h x) with count := b.count + 1, before := x }

theorem Boundary.step_met (b : Boundary) (h : Nat) (changed : Bool) (x : Option Int) :
    b.step h changed x = (b.met h changed x).decide changed (b.crosses changed x) := by
  unfold Boundary.step Boundary.met Boundary.crosses
  dsimp only
  rw [Boundary.arm_count, Boundary.disarm_count, Boundary.prepare_count]

@[simp] theorem Boundary.met_count (b : Boundary) (h : Nat) (changed : Bool) (x : Option Int) :
    (b.met h changed x).count = b.count + 1 :=
  rfl

theorem Boundary.met_mode (b : Boundary) (h : Nat) (changed : Bool) (x : Option Int) :
    (b.met h changed x).mode = if changed then .free else b.mode := by
  show (((b.prepare changed).disarm _).arm h x).mode = _
  rw [Boundary.arm_mode, Boundary.disarm_mode, Boundary.prepare_mode]

/-! ### The decision (R42 to R44) -/

/-- A closing without a crossing leaves FREE with a free mark. -/
theorem Boundary.decide_changed_short {b : Boundary} (h : b.count < 128) (k : Option Polarity) :
    b.decide true k = (b, none) :=
  if_neg (Nat.not_le.mpr h)

theorem Boundary.decide_changed_full {b : Boundary} (h : 128 ≤ b.count) (k : Option Polarity) :
    b.decide true k = (b.closed .free, some { count := b.count, free := true, crossing := none, tracked := false }) :=
  if_pos h

theorem Boundary.decide_track {b : Boundary} {expected : Polarity} (hm : b.mode = .track expected)
    (k : Option Polarity) : b.decide false k =
      if k = some expected ∧ 96 ≤ b.count then
        (b.closed (.track expected.opposite),
          some { count := b.count, free := false, crossing := k, tracked := true })
      else if 160 ≤ b.count then
        (b.closed .free, some { count := b.count, free := true, crossing := none, tracked := false })
      else (b, none) := by
  unfold Boundary.decide
  rw [if_neg Bool.false_ne_true, hm]
  rfl

theorem Boundary.decide_free_some {b : Boundary} (hm : b.mode = .free) (polarity : Polarity) :
    b.decide false (some polarity) =
      if 32 ≤ b.count then
        (b.closed (.track polarity.opposite),
          some { count := b.count, free := true, crossing := some polarity, tracked := false })
      else if 128 ≤ b.count then
        (b.closed .free, some { count := b.count, free := true, crossing := none, tracked := false })
      else (b, none) := by
  unfold Boundary.decide
  rw [if_neg Bool.false_ne_true, hm]
  rfl

theorem Boundary.decide_free_none {b : Boundary} (hm : b.mode = .free) : b.decide false none =
    if 128 ≤ b.count then
      (b.closed .free, some { count := b.count, free := true, crossing := none, tracked := false })
    else (b, none) := by
  unfold Boundary.decide
  rw [if_neg Bool.false_ne_true, hm]
  rfl

/-- Settles O51: the branches of the decision, by the mode, the crossing and the count. -/
theorem boundaryCuts : Obligations.BoundaryCuts := by
  intro b h x crossing hcross
  have hc : b.crosses false x = crossing := hcross.symm
  have hn : (b.met h false x).count = b.count + 1 := rfl
  rw [b.step_met h false x, b.step_met h true x, hc]
  refine ⟨fun expected hm => ?track, fun hm => ?free, fun hlt => ?notice, fun hle => ?noticeFull⟩
  case track =>
    have hmode : (b.met h false x).mode = .track expected := by rw [b.met_mode, hm]; rfl
    rw [Boundary.decide_track hmode, hn]
    refine ⟨fun he hlo => ?_, fun hno hlo => ?_, fun hne hhi => ?_⟩
    · rw [if_pos ⟨he, hlo⟩]
      exact ⟨rfl, rfl, rfl⟩
    · rw [if_neg (fun hyes => hno.elim (fun hne => hne hyes.1) (fun hlt => Nat.not_le.mpr hlt hyes.2)),
        if_neg (Nat.not_le.mpr hlo)]
      exact ⟨hmode, rfl, rfl⟩
    · rw [if_neg (fun hyes => hne hyes.1), if_pos hhi]
      exact ⟨rfl, rfl, rfl⟩
  case free =>
    have hmode : (b.met h false x).mode = .free := by rw [b.met_mode, hm]; rfl
    refine ⟨fun polarity he hlo => ?_, fun hgo => ?_, fun he hhi => ?_⟩
    · rw [he, Boundary.decide_free_some hmode, hn, if_pos hlo]
      exact ⟨rfl, rfl, rfl⟩
    · have hstay : (b.met h false x).decide false crossing = (b.met h false x, none) := by
        rcases hgo with ⟨hsome, hlt⟩ | ⟨hnone, hlt⟩
        · obtain ⟨polarity, he⟩ := Option.ne_none_iff_exists'.mp hsome
          rw [he, Boundary.decide_free_some hmode, hn, if_neg (by omega), if_neg (by omega)]
        · rw [hnone, Boundary.decide_free_none hmode, hn, if_neg (by omega)]
      rw [hstay]
      exact ⟨hmode, rfl, rfl⟩
    · rw [he, Boundary.decide_free_none hmode, hn, if_pos hhi]
      exact ⟨rfl, rfl, rfl⟩
  case notice =>
    rw [Boundary.decide_changed_short (by rw [b.met_count]; exact hlt)]
    exact ⟨b.met_mode h true x, rfl, rfl⟩
  case noticeFull =>
    rw [Boundary.decide_changed_full (by rw [b.met_count]; exact hle)]
    exact ⟨rfl, rfl, rfl⟩

/-! ### Arming (R38, R39) -/

/-- The decision keeps the arming marks and the code of the set. -/
theorem Boundary.decide_armed (b : Boundary) (changed : Bool) (k : Option Polarity) :
    (b.decide changed k).1.armedPositive = b.armedPositive ∧
      (b.decide changed k).1.armedNegative = b.armedNegative ∧ (b.decide changed k).1.before = b.before := by
  unfold Boundary.decide
  repeat' split
  all_goals exact ⟨rfl, rfl, rfl⟩

theorem Boundary.step_armed (b : Boundary) (h : Nat) (changed : Bool) (x : Option Int) :
    (b.step h changed x).1.armedPositive = (b.met h changed x).armedPositive ∧
      (b.step h changed x).1.armedNegative = (b.met h changed x).armedNegative ∧
      (b.step h changed x).1.before = x := by
  rw [b.step_met]
  exact (b.met h changed x).decide_armed changed _

theorem Boundary.prepare_of_before {b : Boundary} {y : Int} (h : b.before = some y) : b.prepare false = b := by
  rw [Boundary.prepare, if_neg Bool.false_ne_true, h]
  rfl

/-- A set without a predecessor finds both sides armed (R39). -/
theorem Boundary.prepare_fresh {b : Boundary} {changed : Bool} (h : changed = true ∨ b.before = none) :
    (b.prepare changed).armedPositive = true ∧ (b.prepare changed).armedNegative = true ∧
      (b.prepare changed).before = none := by
  unfold Boundary.prepare
  split
  · exact ⟨rfl, rfl, rfl⟩
  · next hc =>
    have hb := h.resolve_left hc
    rw [if_pos (by rw [hb]; rfl)]
    exact ⟨rfl, rfl, hb⟩

theorem Boundary.crossingAt_of_none {b : Boundary} (h : b.before = none) (x : Option Int) : b.crossingAt x = none := by
  unfold Boundary.crossingAt
  rw [h]

theorem Boundary.crossingAt_positive {b : Boundary} {y : Int} (h : b.before = some y) (z : Int) :
    b.crossingAt (some z) = some .positive ↔ b.armedPositive = true ∧ y < 0 ∧ 0 ≤ z := by
  unfold Boundary.crossingAt
  rw [h]
  dsimp only
  split
  · next hp =>
    simp only [Bool.and_eq_true, decide_eq_true_eq] at hp
    exact iff_of_true rfl ⟨hp.1.1, hp.1.2, hp.2⟩
  · next hp =>
    simp only [Bool.and_eq_true, decide_eq_true_eq] at hp
    refine iff_of_false ?_ (fun ⟨ha, hy, hz⟩ => hp ⟨⟨ha, hy⟩, hz⟩)
    split <;> nofun

theorem Boundary.crossingAt_negative {b : Boundary} {y : Int} (h : b.before = some y) (z : Int) :
    b.crossingAt (some z) = some .negative ↔ b.armedNegative = true ∧ 0 ≤ y ∧ z < 0 := by
  unfold Boundary.crossingAt
  rw [h]
  dsimp only
  split
  · next hp =>
    simp only [Bool.and_eq_true, decide_eq_true_eq] at hp
    exact iff_of_false nofun (fun ⟨_, hy, _⟩ => by omega)
  · split
    · next hq =>
      simp only [Bool.and_eq_true, decide_eq_true_eq] at hq
      exact iff_of_true rfl ⟨hq.1.1, hq.1.2, hq.2⟩
    · next hq =>
      simp only [Bool.and_eq_true, decide_eq_true_eq] at hq
      exact iff_of_false nofun (fun ⟨ha, hy, hz⟩ => hq ⟨⟨ha, hy⟩, hz⟩)

/-- A crossing disarms its own side alone. -/
theorem Boundary.disarm_armed (b : Boundary) (k : Option Polarity) :
    ((b.disarm k).armedPositive = true ↔ b.armedPositive = true ∧ k ≠ some .positive) ∧
      ((b.disarm k).armedNegative = true ↔ b.armedNegative = true ∧ k ≠ some .negative) := by
  match k with
  | none => exact ⟨(and_iff_left nofun).symm, (and_iff_left nofun).symm⟩
  | some .positive => exact ⟨iff_of_false nofun (fun h => h.2 rfl), (and_iff_left nofun).symm⟩
  | some .negative => exact ⟨(and_iff_left nofun).symm, iff_of_false nofun (fun h => h.2 rfl)⟩

theorem Boundary.arm_armed (b : Boundary) (h : Nat) (z : Int) :
    ((b.arm h (some z)).armedPositive = true ↔ b.armedPositive = true ∨ z ≤ -(h : Int)) ∧
      ((b.arm h (some z)).armedNegative = true ↔ b.armedNegative = true ∨ (h : Int) ≤ z) := by
  constructor
  all_goals
    show (_ || _) = true ↔ _
    rw [Bool.or_eq_true, decide_eq_true_eq]

theorem Boundary.arm_stays (b : Boundary) (h : Nat) (x : Option Int) :
    (b.armedPositive = true → (b.arm h x).armedPositive = true) ∧
      (b.armedNegative = true → (b.arm h x).armedNegative = true) := by
  cases x with
  | none => exact ⟨id, id⟩
  | some z => exact ⟨fun hp => (b.arm_armed h z).1.mpr (.inl hp), fun hp => (b.arm_armed h z).2.mpr (.inl hp)⟩

/-- R38: the marks after a set with a predecessor. -/
theorem Boundary.step_armed_iff {b : Boundary} {y : Int} (hb : b.before = some y) (h : Nat) (z : Int) :
    ((b.step h false (some z)).1.armedPositive = true ↔
        (b.armedPositive = true ∧ b.crossingAt (some z) ≠ some .positive) ∨ z ≤ -(h : Int)) ∧
      ((b.step h false (some z)).1.armedNegative = true ↔
        (b.armedNegative = true ∧ b.crossingAt (some z) ≠ some .negative) ∨ (h : Int) ≤ z) := by
  obtain ⟨hpos, hneg, -⟩ := b.step_armed h false (some z)
  have hcross : b.crosses false (some z) = b.crossingAt (some z) := by
    rw [Boundary.crosses, Boundary.prepare_of_before hb]
  rw [hpos, hneg, Boundary.met, hcross, Boundary.prepare_of_before hb]
  exact ⟨((b.disarm _).arm_armed h z).1.trans (or_congr (b.disarm_armed _).1 Iff.rfl),
    ((b.disarm _).arm_armed h z).2.trans (or_congr (b.disarm_armed _).2 Iff.rfl)⟩

/-- R39: a set without a predecessor holds no crossing and leaves both sides armed. -/
theorem Boundary.step_fresh {b : Boundary} {changed : Bool} (hc : changed = true ∨ b.before = none) (h : Nat)
    (x : Option Int) : b.crosses changed x = none ∧ (b.step h changed x).1.armedPositive = true ∧
      (b.step h changed x).1.armedNegative = true ∧ (b.step h changed x).1.before = x := by
  obtain ⟨hp, hn, hb⟩ := Boundary.prepare_fresh hc
  obtain ⟨hpos, hneg, hbefore⟩ := b.step_armed h changed x
  have hcross : b.crosses changed x = none := Boundary.crossingAt_of_none hb x
  rw [hpos, hneg, Boundary.met, hcross]
  exact ⟨rfl, ((b.prepare changed).arm_stays h x).1 hp, ((b.prepare changed).arm_stays h x).2 hn, hbefore⟩

/-! ### The reference (R27) -/

/-- The voltage channel of a phase is an enabled entry of it, and there is none when no entry is. -/
theorem State.voltageOf_spec (s : State) (p : Point) (phase : Nat) :
    (∀ c, s.voltageOf p phase = some c →
      (s.channel c).entry.enabled = true ∧ (s.channel c).entry.point = p.val ∧
      (s.channel c).entry.kind = .voltage ∧ (s.channel c).entry.phase = phase) ∧
    (s.voltageOf p phase = none → ∀ c, (s.channel c).entry.enabled = true → (s.channel c).entry.point = p.val →
      (s.channel c).entry.kind = .voltage → (s.channel c).entry.phase ≠ phase) := by
  refine ⟨fun c hc => ?_, fun hn c he hp hk hphase => ?_⟩
  · obtain ⟨he, hp⟩ := (s.mem_channelsOf p c).mp (List.mem_of_find?_eq_some hc)
    have hfound := List.find?_some hc
    rw [Bool.and_eq_true, beq_iff_eq, beq_iff_eq] at hfound
    exact ⟨he, hp, hfound⟩
  · have hnot := List.find?_eq_none.mp hn c ((s.mem_channelsOf p c).mpr ⟨he, hp⟩)
    rw [Bool.and_eq_true, beq_iff_eq, beq_iff_eq] at hnot
    exact hnot ⟨hk, hphase⟩

theorem moduleOfNat_eq_some_iff (n : Nat) (m : Module) : moduleOfNat n = some m ↔ n = m.val := by
  unfold moduleOfNat
  split
  · next h => rw [Option.some.injEq, Fin.ext_iff]
  · next h => exact iff_of_false nofun (fun he => h (he ▸ m.isLt))

theorem slotOfNat_eq_some_iff (n : Nat) (k : Slot) : slotOfNat n = some k ↔ n = k.val := by
  unfold slotOfNat
  split
  · next h => rw [Option.some.injEq, Fin.ext_iff]
  · next h => exact iff_of_false nofun (fun he => h (he ▸ k.isLt))

/-- The sample of an entry that names a module and a slot. -/
theorem sampleOf_named (set : SampleSet) {e : MapEntry} {m : Module} {k : Slot} (hm : e.module = m.val)
    (hk : e.slot = k.val) : sampleOf set e = (set[m.val])[k.val] := by
  rw [sampleOf, (moduleOfNat_eq_some_iff _ m).mpr hm, (slotOfNat_eq_some_iff _ k).mpr hk]

/-- A slot that an entry does not name is missing, which is unavailable. -/
theorem sampleOf_available {set : SampleSet} {e : MapEntry} (h : (sampleOf set e).unavailable = false) :
    ∃ (m : Module) (k : Slot), e.module = m.val ∧ e.slot = k.val ∧ (set[m.val])[k.val].unavailable = false := by
  unfold sampleOf at h
  split at h
  · next m k hm hk =>
    exact ⟨m, k, (moduleOfNat_eq_some_iff _ m).mp hm, (slotOfNat_eq_some_iff _ k).mp hk, h⟩
  · cases h

theorem State.qualifies_iff (s : State) (p : Point) (set : SampleSet) (phase : Nat) :
    s.qualifies p set phase = true ↔ ∃ (c : Channel) (m : Module) (k : Slot), s.voltageOf p phase = some c ∧
      (s.channel c).entry.module = m.val ∧ (s.channel c).entry.slot = k.val ∧
      (set[m.val])[k.val].unavailable = false ∧ (s.channel c).lead ≠ .opened := by
  unfold State.qualifies
  cases hv : s.voltageOf p phase with
  | none => exact iff_of_false Bool.false_ne_true (fun ⟨_, _, _, h, _⟩ => nomatch h)
  | some c =>
    dsimp only
    rw [Bool.and_eq_true, Bool.not_eq_true', bne_iff_ne]
    constructor
    · rintro ⟨hu, hl⟩
      obtain ⟨m, k, hm, hk, hu⟩ := sampleOf_available hu
      exact ⟨c, m, k, rfl, hm, hk, hu, hl⟩
    · rintro ⟨d, m, k, hd, hm, hk, hu, hl⟩
      cases hd
      exact ⟨by rw [sampleOf_named set hm hk, hu], hl⟩

/-- R27: the reference is the lowest phase that qualifies. -/
theorem State.chooseReference_spec (s : State) (p : Point) (set : SampleSet) {fits : Nat → Prop}
    (hf : ∀ phase, fits phase ↔ s.qualifies p set phase = true) :
    (∀ phase, s.chooseReference p set = some phase ↔
      1 ≤ phase ∧ phase ≤ 3 ∧ fits phase ∧ ∀ lower, 1 ≤ lower → lower < phase → ¬fits lower) ∧
    (s.chooseReference p set = none ↔ ∀ phase, 1 ≤ phase → phase ≤ 3 → ¬fits phase) := by
  have three (P : Nat → Prop) : (∀ n, 1 ≤ n → n ≤ 3 → P n) ↔ P 1 ∧ P 2 ∧ P 3 :=
    ⟨fun h => ⟨h 1 (by omega) (by omega), h 2 (by omega) (by omega), h 3 (by omega) (by omega)⟩,
      fun ⟨h1, h2, h3⟩ n hlo hhi => by
        obtain rfl | rfl | rfl : n = 1 ∨ n = 2 ∨ n = 3 := by omega
        · exact h1
        · exact h2
        · exact h3⟩
  have hnone : s.chooseReference p set = none ↔ ∀ phase, 1 ≤ phase → phase ≤ 3 → ¬fits phase := by
    rw [State.chooseReference, List.find?_eq_none, three]
    simp only [List.forall_mem_cons, List.not_mem_nil, false_implies, implies_true, and_true, hf]
  refine ⟨fun phase => ?_, hnone⟩
  constructor
  · intro h
    have hq := List.find?_some h
    have hmem := List.mem_of_find?_eq_some h
    have hrange : 1 ≤ phase ∧ phase ≤ 3 := by
      simp only [List.mem_cons, List.not_mem_nil, or_false] at hmem
      omega
    refine ⟨hrange.1, hrange.2, (hf phase).mpr hq, fun lower hlo hlt hfit => ?_⟩
    have hlower := (hf lower).mp hfit
    unfold State.chooseReference at h
    simp only [List.find?_cons] at h
    obtain rfl | ⟨rfl, rfl⟩ | ⟨rfl, rfl⟩ :
        lower = 1 ∨ (lower = 2 ∧ phase = 3) ∨ (lower = 2 ∧ phase = 3) := by omega
    · rw [hlower] at h
      cases h
      omega
    all_goals
      rw [hlower] at h
      split at h <;> cases h
  · rintro ⟨hlo, hhi, hfit, hleast⟩
    have hq := (hf phase).mp hfit
    have hno (lower : Nat) (h1 : 1 ≤ lower) (h2 : lower < phase) : s.qualifies p set lower = false :=
      Bool.eq_false_iff.mpr (fun h => hleast lower h1 h2 ((hf lower).mpr h))
    unfold State.chooseReference
    simp only [List.find?_cons]
    obtain rfl | rfl | rfl : phase = 1 ∨ phase = 2 ∨ phase = 3 := by omega
    · rw [hq]
    · rw [hno 1 (by omega) (by omega), hq]
    · rw [hno 1 (by omega) (by omega), hno 2 (by omega) (by omega), hq]

end Sys2Proof.Machine
end

section
/-! PROOFS. What a tracker's move leaves unchanged (chapter 5): everything but its own point's trackers and assessment, the
event tag, the Capture Engine, the Record Builder and the Attention Unit. -/

namespace Sys2Proof.Machine

/-! ### A changed point and its neighbours -/

theorem State.modPoint_here (s : State) (p : Point) (f : PointRecord → PointRecord) :
    (s.modPoint p f).point p = f (s.point p) :=
  (s.modPoint_point p p f).trans (if_pos rfl)

theorem State.modPoint_beside (s : State) {p q : Point} (f : PointRecord → PointRecord) (h : q ≠ p) :
    (s.modPoint p f).point q = s.point q :=
  (s.modPoint_point p q f).trans (if_neg h)

theorem State.modPoint_self (s : State) (p : Point) (f : PointRecord → PointRecord) (h : f (s.point p) = s.point p) :
    s.modPoint p f = s := by
  rw [State.modPoint, updAt_self _ _ _ h]

/-- A point record but for its trackers and its assessment. -/
def PointRecord.tracking (x : PointRecord) (low : LowTracker) (high : HighTracker) (a : Option Assessment) : PointRecord :=
  { x with low := low, high := high, assessment := a }

/-- What a tracker's move changes at most; `l` and `h` say which of the two trackers may move. -/
structure Tracked (l h : Bool) (p : Point) (s t : State) : Prop where
  whole : t = { s with
    points := t.points, eventTag := t.eventTag, capture := t.capture, captureQueue := t.captureQueue
    shedding := t.shedding, builder := t.builder, attention := t.attention }
  others : ∀ q, q ≠ p → t.point q = s.point q
  here : t.point p = (s.point p).tracking (t.point p).low (t.point p).high (t.point p).assessment
  low : l = false → (t.point p).low = (s.point p).low
  high : h = false → (t.point p).high = (s.point p).high

theorem Tracked.refl (l h : Bool) (p : Point) (s : State) : Tracked l h p s s :=
  ⟨rfl, fun _ _ => rfl, rfl, fun _ => rfl, fun _ => rfl⟩

theorem Tracked.trans {l h : Bool} {p : Point} {s t u : State} (a : Tracked l h p s t) (b : Tracked l h p t u) :
    Tracked l h p s u where
  whole := b.whole.trans (congrArg (fun x : State => { x with
    points := u.points, eventTag := u.eventTag, capture := u.capture, captureQueue := u.captureQueue
    shedding := u.shedding, builder := u.builder, attention := u.attention }) a.whole)
  others q hq := (b.others q hq).trans (a.others q hq)
  here := b.here.trans (by rw [a.here]; rfl)
  low e := (b.low e).trans (a.low e)
  high e := (b.high e).trans (a.high e)

theorem Tracked.weaken {l h : Bool} {p : Point} {s t : State} (a : Tracked l h p s t) : Tracked true true p s t :=
  { a with low := nofun, high := nofun }

/-- The move of one tracker of the point. -/
theorem Tracked.modPoint {l h : Bool} {p : Point} (s : State) (f : PointRecord → PointRecord)
    (hf : f (s.point p) = (s.point p).tracking (f (s.point p)).low (f (s.point p)).high (f (s.point p)).assessment)
    (hl : l = false → (f (s.point p)).low = (s.point p).low)
    (hh : h = false → (f (s.point p)).high = (s.point p).high) : Tracked l h p s (s.modPoint p f) where
  whole := rfl
  others _ hq := s.modPoint_beside f hq
  here := by rw [s.modPoint_here]; exact hf
  low e := by rw [s.modPoint_here]; exact hl e
  high e := by rw [s.modPoint_here]; exact hh e

/-- Records, classes, the event tag and the Capture Engine. -/
theorem Tracked.beside (l h : Bool) (p : Point) (s : State) (tag : Word) (c : Option RunningCapture)
    (q : List CaptureFrame) (sh : Shedding) (b : RecordBuilder) (a : Attention) : Tracked l h p s
      { s with eventTag := tag, capture := c, captureQueue := q, shedding := sh, builder := b, attention := a } :=
  ⟨rfl, fun _ _ => rfl, rfl, fun _ => rfl, fun _ => rfl⟩

theorem Tracked.raise (l h : Bool) (p : Point) (s : State) (k : AttnClass) : Tracked l h p s (s.raise k) :=
  Tracked.beside l h p s _ _ _ _ _ _

theorem Tracked.noted {l h : Bool} {p : Point} {s t : State} (hn : Noted s t) : Tracked l h p s t := by
  obtain ⟨b, a, -, rfl⟩ := hn
  exact Tracked.beside l h p s _ _ _ _ _ _

/-- An onset's capture request, with the event tag that it carries. -/
theorem Tracked.requestCapture (l h : Bool) (p : Point) (s : State) (n tag : Word) (q : Point) (t : Tick) :
    Tracked l h p s (({ s with eventTag := n } : State).requestCapture tag q t) := by
  unfold State.requestCapture
  split
  · obtain ⟨r, sh, c, b, a, -, -, -, -, he⟩ :=
      Formed.formAll { s with eventTag := n, capture := some (newCapture { s with eventTag := n } tag q t) }
    rw [State.startCapture, he]
    exact Tracked.beside l h p s _ _ _ _ _ _
  · exact Tracked.beside l h p s _ _ _ _ _ _

theorem Tracked.closeEvent (l h : Bool) (p : Point) (s : State) (e : OpenEvent) (t : Tick) (cause : EndCause) :
    Tracked l h p s (s.closeEvent p e t cause) :=
  (Tracked.noted (Noted.offerRaise s _ _)).trans (Tracked.modPoint _ _ rfl (fun _ => rfl) (fun _ => rfl))

theorem Tracked.openLow (p : Point) (s : State) (r : WindowResult) (k : EventClass) (v : Nat × Nat) :
    Tracked true false p s (s.openLow p r k v) :=
  ((Tracked.requestCapture true false p s _ _ p r.tick).trans
    (Tracked.modPoint _ _ rfl nofun (fun _ => rfl))).trans (Tracked.raise true false p _ _)

theorem Tracked.openHigh (p : Point) (s : State) (r : WindowResult) (v : Nat × Nat) (low : Option OpenEvent) :
    Tracked false true p s (s.openHigh p r v low) := by
  cases low with
  | some e =>
    exact ((Tracked.beside false true p s _ _ _ _ _ _).trans
      (Tracked.modPoint _ _ rfl (fun _ => rfl) nofun)).trans (Tracked.raise false true p _ _)
  | none =>
    exact ((Tracked.requestCapture false true p s _ _ p r.tick).trans
      (Tracked.modPoint _ _ rfl (fun _ => rfl) nofun)).trans (Tracked.raise false true p _ _)

theorem Tracked.lowContinue (p : Point) (s : State) (r : WindowResult) (e : OpenEvent) (v w : Nat × Nat) :
    Tracked true false p s (s.lowContinue p r e v w) := by
  unfold State.lowContinue
  dsimp only
  split
  · exact (Tracked.closeEvent true false p s _ _ _).trans (Tracked.modPoint _ _ rfl nofun (fun _ => rfl))
  · exact Tracked.modPoint _ _ rfl nofun (fun _ => rfl)

theorem Tracked.lowStep (p : Point) (s : State) (r : WindowResult) : Tracked true false p s (s.lowStep p r) := by
  unfold State.lowStep
  split
  · exact Tracked.modPoint _ _ rfl nofun (fun _ => rfl)
  · dsimp only
    split
    · exact Tracked.lowContinue p s r _ _ _
    · split
      · exact Tracked.openLow p s r _ _
      · exact Tracked.openLow p s r _ _
      all_goals exact Tracked.refl true false p s

theorem Tracked.highStep (p : Point) (s : State) (r : WindowResult) (low : Option OpenEvent) :
    Tracked false true p s (s.highStep p r low) := by
  unfold State.highStep
  dsimp only
  split
  · exact Tracked.modPoint _ _ rfl (fun _ => rfl) nofun
  · split
    · split
      · exact Tracked.openHigh p s r _ low
      · exact Tracked.refl false true p s
    · split
      · exact (Tracked.closeEvent false true p s _ _ _).trans (Tracked.modPoint _ _ rfl (fun _ => rfl) nofun)
      · exact Tracked.modPoint _ _ rfl (fun _ => rfl) nofun

/-! ### What a window result does beside the trackers (R32, R74, R90) -/

/-- Both trackers of a point after a window result (R63). -/
def State.trackBoth (s : State) (p : Point) (r : WindowResult) : State :=
  (s.lowStep p r).highStep p r (if (s.point p).low.isQuiet then ((s.lowStep p r).point p).low.event else none)

/-- The check that a result withdraws when the low tracker leaves QUIET. -/
def State.withdrawAt (s : State) (p : Point) (wasQuiet : Bool) : State :=
  if wasQuiet && !(s.point p).low.isQuiet then s.modPoint p PointRecord.withdraw else s

theorem State.takeResult_eq (s : State) (p : Point) (r : WindowResult) : s.takeResult p r =
    if (s.point p).low.isQuiet && ((s.trackBoth p r).point p).low.isQuiet then
      (((s.trackBoth p r).withdrawAt p (s.point p).low.isQuiet).installPending p).joinRings p r
    else ((s.trackBoth p r).withdrawAt p (s.point p).low.isQuiet).installPending p :=
  rfl

theorem Tracked.trackBoth (p : Point) (s : State) (r : WindowResult) : Tracked true true p s (s.trackBoth p r) :=
  (Tracked.lowStep p s r).weaken.trans (Tracked.highStep p _ r _).weaken

theorem LowTracker.isQuiet_iff (l : LowTracker) : l.isQuiet = true ↔ l = .quiet := by
  cases l
  · exact iff_of_true rfl rfl
  all_goals exact iff_of_false Bool.false_ne_true nofun

theorem HighTracker.isQuiet_iff (h : HighTracker) : h.isQuiet = true ↔ h = .quiet := by
  cases h
  · exact iff_of_true rfl rfl
  · exact iff_of_false Bool.false_ne_true nofun

theorem State.bothQuiet_iff (s : State) (p : Point) :
    s.bothQuiet p = true ↔ (s.point p).low = .quiet ∧ (s.point p).high = .quiet := by
  rw [State.bothQuiet, Bool.and_eq_true, LowTracker.isQuiet_iff, HighTracker.isQuiet_iff]

end Sys2Proof.Machine
end

section
/-! PROOFS. What a window result does after both trackers: the withdrawn check, the installed limits, the rings (R32, R70 to
R74, R90), and LIMITS writes (O35). -/

namespace Sys2Proof.Machine

/-! ### The withdrawn check (R32) -/

theorem PointRecord.withdraw_eq (pt : PointRecord) : pt.withdraw = { pt with check := pt.withdraw.check } := by
  unfold PointRecord.withdraw
  split
  · rfl
  · split <;> rfl

theorem PointRecord.withdraw_none {pt : PointRecord} (h : pt.check = none) : pt.withdraw.check = none := by
  rw [PointRecord.withdraw, h]
  exact h

theorem PointRecord.withdraw_some {pt : PointRecord} {k : CheckInFlight} (h : pt.check = some k) :
    pt.withdraw.check = if k.sent then some k else none := by
  rw [PointRecord.withdraw, h]
  dsimp only
  split
  · exact h
  · rfl

theorem State.withdrawAt_eq (s : State) (p : Point) (w : Bool) : s.withdrawAt p w = s.modPoint p (fun pt =>
    { pt with check := if w && !(s.point p).low.isQuiet then (s.point p).withdraw.check else (s.point p).check }) := by
  unfold State.withdrawAt
  split
  · exact s.modPoint_congr p (s.point p).withdraw_eq
  · exact (s.modPoint_self p _ rfl).symm

theorem State.withdrawAt_left {s : State} {p : Point} (hl : (s.point p).low ≠ .quiet) :
    ((s.withdrawAt p true).point p).check = (s.point p).withdraw.check := by
  rw [s.withdrawAt_eq, s.modPoint_here]
  exact if_pos (by rw [Bool.true_and, Bool.not_eq_true', Bool.eq_false_iff]
                   exact fun h => hl ((LowTracker.isQuiet_iff _).mp h))

theorem State.withdrawAt_stays {s : State} {p : Point} {w : Bool}
    (h : w = false ∨ (s.point p).low = .quiet ∨ (s.point p).check = none) :
    ((s.withdrawAt p w).point p).check = (s.point p).check := by
  rw [s.withdrawAt_eq, s.modPoint_here]
  show ite _ _ _ = _
  rcases h with hw | hl | hc
  · rw [hw]
    exact if_neg Bool.false_ne_true
  · rw [hl]
    exact if_neg (by cases w <;> exact Bool.false_ne_true)
  · rw [PointRecord.withdraw_none hc, hc, ite_self]

/-! ### The installed limits (R74) -/

theorem State.installPending_some {s : State} {p : Point} {l : LimitsEntry} (hlow : (s.point p).low = .quiet)
    (hhigh : (s.point p).high = .quiet) (hl : (s.point p).pendingLimits = some l) :
    s.installPending p = (s.modPoint p (fun pt => pt.install l)).offerStatus (.limitsInstalled p) := by
  rw [State.installPending, if_pos ((s.bothQuiet_iff p).mpr ⟨hlow, hhigh⟩), hl]

theorem State.installPending_none {s : State} {p : Point} (h : (s.point p).low ≠ .quiet ∨ (s.point p).high ≠ .quiet ∨
    (s.point p).pendingLimits = none) : s.installPending p = s := by
  unfold State.installPending
  split
  · next hq =>
    obtain ⟨hlow, hhigh⟩ := (s.bothQuiet_iff p).mp hq
    rcases h with h | h | h
    · exact absurd hlow h
    · exact absurd hhigh h
    · rw [h]
  · rfl

/-- What the installation of pending limits changes at most. -/
structure Installs (p : Point) (s t : State) : Prop where
  here : t.point p = { s.point p with
    limits := (t.point p).limits, thresholds := (t.point p).thresholds, pendingLimits := (t.point p).pendingLimits }
  others : ∀ q, q ≠ p → t.point q = s.point q
  records : ∃ installed : List RecordBody, installed.length ≤ 1 ∧ t.builder = s.builder.offers installed
  classes : ∀ k, s.attention.isPending k = true → t.attention.isPending k = true
  whole : t = { s with points := t.points, builder := t.builder, attention := t.attention }

theorem Noted.points {s t : State} (h : Noted s t) : t.points = s.points := by
  obtain ⟨b, a, -, rfl⟩ := h
  rfl

theorem State.offerStatus_builder (s : State) (kind : StatusKind) :
    (s.offerStatus kind).builder = s.builder.offer (.status kind s.epochNow s.control.epochUnset) :=
  s.offer_builder _

theorem State.offerStatus_keeps (s : State) (kind : StatusKind) {k : AttnClass} (h : s.attention.isPending k = true) :
    (s.offerStatus kind).attention.isPending k = true := by
  rcases s.offer_eq (.status kind s.epochNow s.control.epochUnset) with he | he
  · rw [State.offerStatus, he]
    exact h
  · rw [State.offerStatus, he]
    exact State.raise_keeps (s := { s with builder := _ }) h .queueHigh

theorem Installs.installPending (s : State) (p : Point) : Installs p s (s.installPending p) := by
  cases hl : (s.point p).pendingLimits with
  | none =>
    rw [State.installPending_none (.inr (.inr hl))]
    exact ⟨rfl, fun _ _ => rfl, ⟨[], Nat.zero_le 1, rfl⟩, fun _ h => h, rfl⟩
  | some l =>
    by_cases hq : s.bothQuiet p = true
    · obtain ⟨hlow, hhigh⟩ := (s.bothQuiet_iff p).mp hq
      rw [State.installPending_some hlow hhigh hl]
      have hn := Noted.offerStatus (s.modPoint p (fun pt => pt.install l)) (.limitsInstalled p)
      refine ⟨?_, fun q h => ?_, ⟨[_], Nat.le_refl 1, State.offerStatus_builder _ _⟩,
        fun k h => State.offerStatus_keeps _ _ h, ?_⟩
      · rw [hn.point, s.modPoint_here]
        rfl
      · rw [hn.point, s.modPoint_beside _ h]
      · obtain ⟨b, a, -, he⟩ := hn
        rw [he]
        rfl
    · rw [State.installPending, if_neg hq]
      exact ⟨rfl, fun _ _ => rfl, ⟨[], Nat.zero_le 1, rfl⟩, fun _ h => h, rfl⟩

/-! ### The rings (R90) -/

theorem pushRing_short {ring : List Nat} (h : ring.length < 8) (v : Nat) : pushRing ring v = ring ++ [v] := by
  rw [pushRing, show ring.length + 1 - Config.ringSize = 0 from Nat.sub_eq_zero_of_le h]
  rfl

theorem pushRing_full {ring : List Nat} (h : ring.length = 8) (v : Nat) : pushRing ring v = ring.tail ++ [v] := by
  rw [pushRing, show ring.length + 1 - Config.ringSize = 1 by rw [h]; rfl]
  cases ring with
  | nil => cases h
  | cons x xs => rfl

theorem State.joinRings_channel (s : State) (p : Point) (r : WindowResult) (c : Channel) :
    (s.joinRings p r).channel c = { s.channel c with ring := ((s.joinRings p r).channel c).ring } := by
  rw [State.joinRings, s.mapChannels_channel]
  split
  · split <;> rfl
  · rfl

theorem State.joinRings_joins {s : State} {p : Point} {r : WindowResult} {c : Channel}
    (h : (s.channel c).entry.enabled = true ∧ (s.channel c).entry.point = p.val ∧ (s.channel c).entry.kind = .current)
    {v : Nat} (hv : r.valueOf c = some v) : ((s.joinRings p r).channel c).ring = pushRing (s.channel c).ring v := by
  rw [State.joinRings, s.mapChannels_channel]
  rw [if_pos (by rw [h.1, h.2.1, h.2.2, beq_self_eq_true, beq_self_eq_true]; rfl), hv]

theorem State.joinRings_stays {s : State} {p : Point} {r : WindowResult} {c : Channel}
    (h : ¬((s.channel c).entry.enabled = true ∧ (s.channel c).entry.point = p.val ∧
      (s.channel c).entry.kind = .current) ∨ r.valueOf c = none) : (s.joinRings p r).channel c = s.channel c := by
  rw [State.joinRings, s.mapChannels_channel]
  split
  · next hc =>
    rw [Bool.and_eq_true, Bool.and_eq_true, beq_iff_eq, beq_iff_eq] at hc
    rw [h.resolve_left (fun hn => hn ⟨hc.1.1, hc.1.2, hc.2⟩)]
  · rfl

/-! ### A window result, whole -/

/-- The state before the rings: trackers moved, check withdrawn, limits installed. -/
def State.installedAt (s : State) (p : Point) (r : WindowResult) : State :=
  ((s.trackBoth p r).withdrawAt p (s.point p).low.isQuiet).installPending p

theorem State.takeResult_installed (s : State) (p : Point) (r : WindowResult) : s.takeResult p r =
    if (s.point p).low.isQuiet && ((s.trackBoth p r).point p).low.isQuiet then (s.installedAt p r).joinRings p r
    else s.installedAt p r :=
  s.takeResult_eq p r

/-- All but the channels is as before the rings. -/
theorem State.takeResult_beside (s : State) (p : Point) (r : WindowResult) :
    s.takeResult p r = { s.installedAt p r with channels := (s.takeResult p r).channels } := by
  rw [s.takeResult_installed]
  split <;> rfl

theorem State.takeResult_points (s : State) (p q : Point) (r : WindowResult) :
    (s.takeResult p r).point q = (s.installedAt p r).point q := by
  rw [s.takeResult_beside p r]
  rfl

theorem State.installedAt_installs (s : State) (p : Point) (r : WindowResult) :
    Installs p ((s.trackBoth p r).withdrawAt p (s.point p).low.isQuiet) (s.installedAt p r) :=
  Installs.installPending _ p

/-- The point after a result: that of the trackers, but for its check and its limits. -/
theorem State.takeResult_here (s : State) (p : Point) (r : WindowResult) :
    (s.takeResult p r).point p = { (s.trackBoth p r).point p with
      check := ((s.takeResult p r).point p).check, limits := ((s.takeResult p r).point p).limits
      thresholds := ((s.takeResult p r).point p).thresholds
      pendingLimits := ((s.takeResult p r).point p).pendingLimits } := by
  have hi := (s.installedAt_installs p r).here
  rw [State.withdrawAt_eq, State.modPoint_here] at hi
  rw [s.takeResult_points, hi]

theorem State.takeResult_trackers (s : State) (p : Point) (r : WindowResult) :
    ((s.takeResult p r).point p).low = ((s.trackBoth p r).point p).low ∧
      ((s.takeResult p r).point p).high = ((s.trackBoth p r).point p).high := by
  rw [s.takeResult_here]
  exact ⟨rfl, rfl⟩

theorem State.takeResult_check (s : State) (p : Point) (r : WindowResult) : ((s.takeResult p r).point p).check =
    (((s.trackBoth p r).withdrawAt p (s.point p).low.isQuiet).point p).check := by
  rw [s.takeResult_points, (s.installedAt_installs p r).here]

/-- The limits that the trackers leave alone. -/
theorem State.trackBoth_limits (s : State) (p : Point) (r : WindowResult) :
    ((s.trackBoth p r).point p).limits = (s.point p).limits ∧
      ((s.trackBoth p r).point p).thresholds = (s.point p).thresholds ∧
      ((s.trackBoth p r).point p).pendingLimits = (s.point p).pendingLimits ∧
      ((s.trackBoth p r).point p).check = (s.point p).check := by
  rw [(Tracked.trackBoth p s r).here]
  exact ⟨rfl, rfl, rfl, rfl⟩

/-! ### LIMITS (R70 to R74) -/

theorem permille_eq (declared figure : Nat) : permille declared figure = (declared * figure + 500) / 1000 := by
  unfold permille divRound
  omega

theorem parseLimits_eq (entry : List Byte) : parseLimits entry =
    { declared := fieldAt entry 0 3, dip := fieldAt entry 3 2, swell := fieldAt entry 5 2
      interruption := fieldAt entry 7 2, hysteresis := min 100 (fieldAt entry 9 2)
      lowerBand := fieldAt entry 11 2, upperBand := fieldAt entry 13 2
      freqLower := fieldAt entry 15 3, freqUpper := fieldAt entry 18 3
      crossing := min 1048576 (fieldAt entry 21 3) } := by
  unfold parseLimits
  simp only [clampNat_zero_eq_min]

theorem LimitsEntry.valid_iff (l : LimitsEntry) : l.valid = true ↔ l.declared = 0 ∨
    (10000 ≤ l.declared ∧ l.declared ≤ 100000 ∧ 100 ≤ l.dip ∧ l.dip ≤ 990 ∧ 1010 ≤ l.swell ∧ l.swell ≤ 2000 ∧
      10 ≤ l.interruption ∧ l.interruption < l.dip ∧ l.hysteresis ≤ 100 ∧ l.lowerBand ≤ 999 ∧
      1001 ≤ l.upperBand ∧ l.upperBand ≤ 2000 ∧ l.freqLower < l.freqUpper ∧ l.freqUpper ≤ 16777215 ∧
      l.crossing ≤ 1048576) := by
  unfold LimitsEntry.valid
  simp only [Bool.or_eq_true, Bool.and_eq_true, decide_eq_true_eq, and_assoc]

theorem exec_tableWriteLimits_of_ne_init (s : State) (tag index : Byte) (entry : List Byte)
    (hd : s.control.device ≠ .init) :
    exec (.tableWriteLimits tag index entry) s = .next (s.writeLimits tag index entry) :=
  congrArg Host.Outcome.next (s.takeFrame_of_ne_init (.tableWrite tag tableLimits index entry) allFour hd)

theorem State.writeLimits_not_served {s : State} (hd : s.control.device ≠ .stopped) (hr : s.control.device ≠ .running)
    (tag index : Byte) (entry : List Byte) :
    s.writeLimits tag index entry = s.replyWrite tag tableLimits index .refusedState none :=
  if_pos ⟨hd, hr⟩

theorem State.writeLimits_bad_index {s : State} (hd : s.control.device = .stopped ∨ s.control.device = .running)
    (tag : Byte) {index : Byte} (hi : 4 ≤ index.toNat) (entry : List Byte) :
    s.writeLimits tag index entry = s.replyWrite tag tableLimits index .badIndex none := by
  rw [State.writeLimits, if_neg (fun h => hd.elim h.1 h.2), pointOfNat_eq_none hi]

/-- The tests of an entry that names a point. -/
theorem State.writeLimits_named {s : State} (hd : s.control.device = .stopped ∨ s.control.device = .running)
    (tag : Byte) {index : Byte} {p : Point} (hp : index.toNat = p.val) (entry : List Byte) :
    s.writeLimits tag index entry =
      if (parseLimits entry).valid = false then s.replyWrite tag tableLimits index .invalidEntry none
      else if s.control.device = .running ∧ (s.point p).measured = true ∧ (parseLimits entry).declared = 0 then
        s.replyWrite tag tableLimits index .invalidEntry none
      else (s.storeLimits p (parseLimits entry)).replyWrite tag tableLimits index .done
        (some (.limits (parseLimits entry))) := by
  rw [State.writeLimits, if_neg (fun h => hd.elim h.1 h.2), hp, pointOfNat_val]
  simp only [Bool.not_eq_true']

/-! ### Pending limits at a window result (R74) -/

theorem Offered.trackBoth (s : State) (p : Point) (r : WindowResult) :
    Offered s.builder (s.trackBoth p r).builder :=
  (Within.lowStep true true p s r).builder.trans (Within.highStep true true p _ r _).builder

theorem State.trackBoth_kept (s : State) (p : Point) (r : WindowResult) :
    (s.trackBoth p r).count = s.count ∧ (s.trackBoth p r).control = s.control := by
  rw [(Tracked.trackBoth p s r).whole]
  exact ⟨rfl, rfl⟩

/-- A result that leaves both trackers QUIET installs what is pending. -/
theorem State.takeResult_installs {s : State} {p : Point} {r : WindowResult} {l : LimitsEntry}
    (hlow : ((s.takeResult p r).point p).low = .quiet) (hhigh : ((s.takeResult p r).point p).high = .quiet)
    (hl : (s.point p).pendingLimits = some l) :
    ((s.takeResult p r).point p).limits = l ∧ ((s.takeResult p r).point p).thresholds = deriveThresholds l ∧
      ((s.takeResult p r).point p).pendingLimits = none ∧ ∃ before : List RecordBody, (s.takeResult p r).builder =
        (s.builder.offers before).offer (.status (.limitsInstalled p) s.epochNow s.control.epochUnset) := by
  obtain ⟨hlow', hhigh'⟩ := s.takeResult_trackers p r
  obtain ⟨-, -, hpend, -⟩ := s.trackBoth_limits p r
  obtain ⟨hcount, hcontrol⟩ := s.trackBoth_kept p r
  obtain ⟨before, hb⟩ := (Offered.trackBoth s p r).exists_offers
  have hx : s.installedAt p r = (((s.trackBoth p r).withdrawAt p (s.point p).low.isQuiet).modPoint p
      (fun pt => pt.install l)).offerStatus (.limitsInstalled p) := by
    refine State.installPending_some ?_ ?_ ?_
    all_goals rw [State.withdrawAt_eq, State.modPoint_here]
    · exact hlow'.symm.trans hlow
    · exact hhigh'.symm.trans hhigh
    · exact hpend.trans hl
  have hpoint : (s.takeResult p r).point p =
      (((s.trackBoth p r).withdrawAt p (s.point p).low.isQuiet).point p).install l := by
    rw [s.takeResult_points, hx, (Noted.offerStatus _ _).point, State.modPoint_here]
  refine ⟨by rw [hpoint]; rfl, by rw [hpoint]; rfl, by rw [hpoint]; rfl, before, ?_⟩
  rw [s.takeResult_beside p r, hx]
  show (State.offerStatus _ _).builder = _
  rw [State.offerStatus_builder, State.withdrawAt_eq, ← hb]
  show (s.trackBoth p r).builder.offer (.status _ ((s.trackBoth p r).count + (s.trackBoth p r).control.offset)
    (s.trackBoth p r).control.epochUnset) = _
  rw [hcount, hcontrol]
  rfl

theorem State.takeResult_limits_stay {s : State} {p : Point} {r : WindowResult}
    (h : ((s.takeResult p r).point p).low ≠ .quiet ∨ ((s.takeResult p r).point p).high ≠ .quiet ∨
      (s.point p).pendingLimits = none) :
    ((s.takeResult p r).point p).limits = (s.point p).limits ∧
      ((s.takeResult p r).point p).thresholds = (s.point p).thresholds ∧
      ((s.takeResult p r).point p).pendingLimits = (s.point p).pendingLimits := by
  obtain ⟨hlow', hhigh'⟩ := s.takeResult_trackers p r
  obtain ⟨hlim, hth, hpend, -⟩ := s.trackBoth_limits p r
  have hx : s.installedAt p r = (s.trackBoth p r).withdrawAt p (s.point p).low.isQuiet := by
    refine State.installPending_none ?_
    rw [State.withdrawAt_eq, State.modPoint_here]
    exact h.imp (fun hl e => hl (hlow'.trans e)) (Or.imp (fun hh e => hh (hhigh'.trans e)) (fun hn => hpend.trans hn))
  rw [s.takeResult_points, hx, State.withdrawAt_eq, State.modPoint_here]
  exact ⟨hlim, hth, hpend⟩

/-- Settles O35: the tests of R71 in order, the layout, the ranges and the thresholds, and the installation (R74). -/
theorem limitsWritten : Obligations.LimitsWritten := by
  refine ⟨?write, parseLimits_eq, LimitsEntry.valid_iff, fun l => ?derived, ?install⟩
  case write =>
    rintro s tag index entry l rfl
    refine ⟨fun hd => ?held, fun hd hi => ?badIndex, fun hd hi hv => ?invalid, fun p hp hv => ?named⟩
    case held =>
      have hne (d : DeviceState) (h1 : d ≠ .holdup) (h2 : d ≠ .standby) : s.control.device ≠ d :=
        fun h => hd.elim (fun h' => h1 (h.symm.trans h')) (fun h' => h2 (h.symm.trans h'))
      rw [exec_tableWriteLimits_of_ne_init s tag index entry (hne .init nofun nofun),
        State.writeLimits_not_served (hne .stopped nofun nofun) (hne .running nofun nofun)]
      rfl
    all_goals
      have hrow (hd : s.control.device = .stopped ∨ s.control.device = .running) :=
        exec_tableWriteLimits_of_ne_init s tag index entry (by rcases hd with h | h <;> rw [h] <;> nofun)
    case badIndex =>
      rw [hrow hd, State.writeLimits_bad_index hd tag hi]
      rfl
    case invalid =>
      rw [hrow hd, State.writeLimits_named hd tag (p := ⟨index.toNat, hi⟩) rfl, if_pos hv]
      rfl
    case named =>
      have hvalid : ¬(parseLimits entry).valid = false := by rw [hv]; nofun
      refine ⟨fun hd => ?_, fun hd hm hz => ?_, fun hd hm => ?_⟩
      · rw [hrow (.inl hd), State.writeLimits_named (.inl hd) tag hp, if_neg hvalid,
          if_neg (fun h => by rw [hd] at h; nomatch h.1), State.storeLimits, if_neg (by rw [hd]; nofun)]
        rfl
      · rw [hrow (.inr hd), State.writeLimits_named (.inr hd) tag hp, if_neg hvalid, if_pos ⟨hd, hm, hz⟩]
        rfl
      · rw [hrow (.inr hd), State.writeLimits_named (.inr hd) tag hp, if_neg hvalid,
          if_neg (fun h => hm.elim (fun hf => by rw [hf] at h; nomatch h.2.1) (fun hz => hz h.2.2)),
          State.storeLimits, if_pos hd]
        rfl
  case derived =>
    unfold deriveThresholds
    simp only [permille_eq]
  case install =>
    rintro s t p r rfl
    exact ⟨fun l hlow hhigh hl => State.takeResult_installs hlow hhigh hl, State.takeResult_limits_stay⟩

end Sys2Proof.Machine
end

section
/-! PROOFS. Window results and events, for both trackers: usable phases and their extremes (R76), the event that opens and
the one that goes on (R80 to R82, R84), the record of one that closes (R86, R111), the capture request (R85, R118). -/

namespace Sys2Proof.Machine

/-! ### Usable phases (R76) -/

theorem WindowValue.usable_iff (w : WindowValue) :
    w.usable = true ↔ w.kind = .voltage ∧ w.quality ≠ .unavailable ∧ w.opened = false := by
  rw [WindowValue.usable, Bool.and_eq_true, Bool.and_eq_true, beq_iff_eq, bne_iff_ne, Bool.not_eq_true', and_assoc]

theorem WindowResult.mem_usable (r : WindowResult) (phase v : Nat) : (phase, v) ∈ r.usable ↔ ∃ w ∈ r.values,
    w.kind = .voltage ∧ w.quality ≠ .unavailable ∧ w.opened = false ∧ w.phase = phase ∧ w.value = some v := by
  rw [WindowResult.usable, List.mem_filterMap]
  refine exists_congr fun w => and_congr_right fun _ => ?_
  rw [WindowValue.phaseValue]
  split
  · next h =>
    obtain ⟨hk, hq, ho⟩ := w.usable_iff.mp h
    rw [Option.map_eq_some_iff]
    constructor
    · rintro ⟨x, hx, he⟩
      cases he
      exact ⟨hk, hq, ho, rfl, hx⟩
    · rintro ⟨-, -, -, rfl, hv⟩
      exact ⟨v, hv, rfl⟩
  · next h => exact iff_of_false nofun (fun ⟨hk, hq, ho, _⟩ => h (w.usable_iff.mpr ⟨hk, hq, ho⟩))

theorem showsClipped_iff (r : WindowResult) : r.seen.clippedSeen = true ↔ ShowsClipped r := by
  show (r.values.any fun w => w.usable && w.clipped) = true ↔ _
  rw [List.any_eq_true]
  refine exists_congr fun w => and_congr_right fun _ => ?_
  rw [Bool.and_eq_true, w.usable_iff, and_assoc, and_assoc]

theorem showsHeld_iff (r : WindowResult) : r.seen.heldSeen = true ↔ ShowsHeld r := by
  show (r.values.any fun w => w.usable && w.quality == .held) = true ↔ _
  rw [List.any_eq_true]
  refine exists_congr fun w => and_congr_right fun _ => ?_
  rw [Bool.and_eq_true, w.usable_iff, beq_iff_eq]
  exact ⟨fun ⟨⟨hk, _, ho⟩, hh⟩ => ⟨hk, hh, ho⟩, fun ⟨hk, hh, ho⟩ => ⟨⟨hk, by rw [hh]; nofun, ho⟩, hh⟩⟩

/-! ### The least and the greatest value -/

/-- A choice of the better of two, folded over a list, is an element of it that is as good as any. -/
theorem foldl_best {α : Type} {f : α → α → α} {R : α → α → Prop} (hrefl : ∀ x, R x x)
    (htrans : ∀ x y z, R x y → R y z → R x z) (hpick : ∀ x y, f x y = x ∨ f x y = y)
    (hleft : ∀ x y, R (f x y) x) (hright : ∀ x y, R (f x y) y) (rest : List α) (x : α) :
    rest.foldl f x ∈ x :: rest ∧ ∀ y ∈ x :: rest, R (rest.foldl f x) y := by
  induction rest generalizing x with
  | nil => exact ⟨List.mem_singleton_self x, fun y hy => by rw [List.mem_singleton.mp hy]; exact hrefl x⟩
  | cons z zs ih =>
    obtain ⟨hmem, hbest⟩ := ih (f x z)
    have hhead : R (zs.foldl f (f x z)) (f x z) := hbest _ List.mem_cons_self
    refine ⟨?_, fun y hy => ?_⟩
    · rcases List.mem_cons.mp hmem with he | he
      · rcases hpick x z with hp | hp
        · exact List.mem_cons.mpr (.inl (he.trans hp))
        · exact List.mem_cons.mpr (.inr (List.mem_cons.mpr (.inl (he.trans hp))))
      · exact List.mem_cons.mpr (.inr (List.mem_cons.mpr (.inr he)))
    · rcases List.mem_cons.mp hy with rfl | hy
      · exact htrans _ _ _ hhead (hleft y z)
      · rcases List.mem_cons.mp hy with rfl | hy
        · exact htrans _ _ _ hhead (hright x y)
        · exact hbest y (List.mem_cons_of_mem _ hy)

/-- No larger value, and the lower phase of equal ones. -/
def NotAbove (x y : Nat × Nat) : Prop :=
  x.2 < y.2 ∨ (x.2 = y.2 ∧ x.1 ≤ y.1)

/-- No smaller value, and the lower phase of equal ones. -/
def NotBelow (x y : Nat × Nat) : Prop :=
  y.2 < x.2 ∨ (x.2 = y.2 ∧ x.1 ≤ y.1)

theorem lowestFrom_spec (x : Nat × Nat) (rest : List (Nat × Nat)) :
    lowestFrom x rest ∈ x :: rest ∧ ∀ y ∈ x :: rest, NotAbove (lowestFrom x rest) y := by
  refine foldl_best (fun x => .inr ⟨rfl, Nat.le_refl _⟩) ?_ ?_ ?_ ?_ rest x
  · unfold NotAbove
    omega
  all_goals
    intro x y
    unfold lowerOf
    split
  · exact .inl rfl
  · exact .inr rfl
  all_goals
    unfold NotAbove
    omega

theorem highestFrom_spec (x : Nat × Nat) (rest : List (Nat × Nat)) :
    highestFrom x rest ∈ x :: rest ∧ ∀ y ∈ x :: rest, NotBelow (highestFrom x rest) y := by
  refine foldl_best (fun x => .inr ⟨rfl, Nat.le_refl _⟩) ?_ ?_ ?_ ?_ rest x
  · unfold NotBelow
    omega
  all_goals
    intro x y
    unfold higherOf
    split
  · exact .inl rfl
  · exact .inr rfl
  all_goals
    unfold NotBelow
    omega

/-- The least value of the usable phases is the one that the tracker takes, with the lowest phase that holds it. -/
theorem lowestFrom_eq {r : WindowResult} {u : Nat × Nat} {us : List (Nat × Nat)} (hu : r.usable = u :: us) {vmin : Nat}
    (hmem : ∃ x ∈ r.usable, x.2 = vmin) (hle : ∀ x ∈ r.usable, vmin ≤ x.2) :
    (lowestFrom u us).2 = vmin ∧ HoldsFirst r vmin (lowestFrom u us).1 := by
  obtain ⟨hin, hbest⟩ := lowestFrom_spec u us
  rw [← hu] at hin hbest
  obtain ⟨x, hx, rfl⟩ := hmem
  have hval : (lowestFrom u us).2 = x.2 := by
    have h1 := hle _ hin
    have h2 := hbest x hx
    unfold NotAbove at h2
    omega
  refine ⟨hval, by rw [← hval]; exact hin, fun y hy he => ?_⟩
  have := hbest y hy
  unfold NotAbove at this
  omega

theorem highestFrom_eq {r : WindowResult} {u : Nat × Nat} {us : List (Nat × Nat)} (hu : r.usable = u :: us) {vmax : Nat}
    (hmem : ∃ x ∈ r.usable, x.2 = vmax) (hle : ∀ x ∈ r.usable, x.2 ≤ vmax) :
    (highestFrom u us).2 = vmax ∧ HoldsFirst r vmax (highestFrom u us).1 := by
  obtain ⟨hin, hbest⟩ := highestFrom_spec u us
  rw [← hu] at hin hbest
  obtain ⟨x, hx, rfl⟩ := hmem
  have hval : (highestFrom u us).2 = x.2 := by
    have h1 := hle _ hin
    have h2 := hbest x hx
    unfold NotBelow at h2
    omega
  refine ⟨hval, by rw [← hval]; exact hin, fun y hy he => ?_⟩
  have := hbest y hy
  unfold NotBelow at this
  omega

/-- A result with a usable phase lists it. -/
theorem WindowResult.usable_cons {r : WindowResult} {P : Nat × Nat → Prop} (h : ∃ x ∈ r.usable, P x) :
    ∃ u us, r.usable = u :: us := by
  obtain ⟨x, hx, -⟩ := h
  exact List.exists_cons_of_ne_nil (List.ne_nil_of_mem hx)

/-! ### The phases involved -/

theorem bitOf_getLsbD {n : Nat} (h : n < 4) (i : Nat) : (BitVec.ofNat 4 (2 ^ i)).getLsbD n = decide (i = n) := by
  rw [BitVec.getLsbD_ofNat, decide_eq_true h, Bool.true_and, Nat.testBit_two_pow]

theorem foldl_phaseSet (test : Nat → Bool) {n : Nat} (h : n < 4) (us : List (Nat × Nat)) (m : BitVec 4) :
    (us.foldl (fun m u => if test u.2 then m ||| BitVec.ofNat 4 (2 ^ u.1) else m) m).getLsbD n = true ↔
      m.getLsbD n = true ∨ ∃ u ∈ us, u.1 = n ∧ test u.2 = true := by
  induction us generalizing m with
  | nil => exact ⟨.inl, fun h => h.elim id (fun ⟨_, hu, _⟩ => nomatch hu)⟩
  | cons u us ih =>
    rw [List.foldl_cons, ih, exists_of_cons, ← or_assoc]
    refine or_congr_left ?_
    split
    · next ht => rw [BitVec.getLsbD_or, Bool.or_eq_true, bitOf_getLsbD h, decide_eq_true_eq, and_iff_left ht]
    · next ht => exact ⟨.inl, fun h => h.elim id (fun hu => absurd hu.2 ht)⟩

theorem phaseSet_getLsbD (us : List (Nat × Nat)) (test : Nat → Bool) {n : Nat} (h : n < 4) :
    (phaseSet us test).getLsbD n = true ↔ ∃ u ∈ us, u.1 = n ∧ test u.2 = true := by
  rw [phaseSet, foldl_phaseSet test h]
  exact or_iff_right (by rw [BitVec.ofNat_eq_ofNat, BitVec.getLsbD_zero]; exact Bool.false_ne_true)

/-! ### Events that open and go on -/

/-- A new event is as R80 says. -/
theorem newEvent_opens (s : State) (k : EventClass) (r : WindowResult) {x : Nat × Nat} {reached : Nat}
    {involved : Nat → Prop} [DecidablePred involved] (hx : x.2 = reached ∧ HoldsFirst r reached x.1)
    (status : CaptureStatus) (tag : Option Word) (work : OriginWork) :
    EventOpens s r reached involved
      (newEvent s (s.eventTag + 1) k r x (phaseSet r.usable (fun v => decide (involved v))) status tag work) where
  tag := rfl
  startTick := rfl
  startEpoch := rfl
  epochUnset := rfl
  windows := ⟨rfl, rfl⟩
  extreme := hx.1
  extremePhase := hx.2
  phases n hn := (phaseSet_getLsbD r.usable _ hn).trans (by simp only [decide_eq_true_eq])
  free := rfl
  clipped := showsClipped_iff r
  held := showsHeld_iff r
  stepped := rfl

/-- The updates of R82 and R84: the extreme moves to `x` when that lies `further`. -/
def OpenEvent.grow (e : OpenEvent) (r : WindowResult) (x : Nat × Nat) (further : Bool) (phases : BitVec 4)
    (k : EventClass) (work : OriginWork) : OpenEvent :=
  { e with
    windows := e.windows + 1
    extreme := if further then x.2 else e.extreme
    extremePhase := if further then x.1 else e.extremePhase
    phases := e.phases ||| phases
    flags := e.flags.join r.seen
    eventClass := k
    work := work }

theorem OpenEvent.grow_grows (e : OpenEvent) (r : WindowResult) {x : Nat × Nat} {value : Nat} {further : Prop}
    [Decidable further] {involved : Nat → Prop} [DecidablePred involved] (hx : x.2 = value ∧ HoldsFirst r value x.1)
    (k : EventClass) (work : OriginWork) : EventGrows r value further involved e
      (e.grow r x (decide further) (phaseSet r.usable (fun v => decide (involved v))) k work) where
  windows := rfl
  moved h := by
    show ite _ _ _ = _ ∧ HoldsFirst r value (ite _ _ _)
    rw [if_pos (decide_eq_true h), if_pos (decide_eq_true h)]
    exact hx
  stayed h := by
    show ite _ _ _ = _ ∧ ite _ _ _ = _
    rw [if_neg (by rw [decide_eq_true_eq]; exact h), if_neg (by rw [decide_eq_true_eq]; exact h)]
    exact ⟨rfl, rfl⟩
  phases n hn := by
    show (e.phases ||| _).getLsbD n = true ↔ _
    rw [BitVec.getLsbD_or, Bool.or_eq_true, phaseSet_getLsbD r.usable _ hn]
    simp only [decide_eq_true_eq]
  free := rfl
  clipped := by
    show (_ || r.seen.clippedSeen) = true ↔ _
    rw [Bool.or_eq_true, showsClipped_iff]
  held := by
    show (_ || r.seen.heldSeen) = true ↔ _
    rw [Bool.or_eq_true, showsHeld_iff]
  stepped := Bool.or_false _
  kept := rfl

/-! ### Events that close -/

theorem SameEngine.refl (s : State) : SameEngine s s :=
  ⟨rfl, rfl, rfl, rfl⟩

theorem Assessment.countEvent_eq (a : Assessment) (k : EventClass) : a.countEvent k = { a with
    dips := if k = .dip then min 65535 (a.dips + 1) else a.dips
    interruptions := if k = .interruption then min 65535 (a.interruptions + 1) else a.interruptions
    swells := if k = .swell then min 65535 (a.swells + 1) else a.swells } := by
  cases k <;> simp only [Assessment.countEvent, satSucc_eq_min] <;> rfl

/-- What the closing of an event says and counts (R86, R111). -/
theorem State.closeEvent_eq (s : State) (p : Point) (e : OpenEvent) (t : Tick) (cause : EndCause) :
    (s.closeEvent p e t cause).builder =
        s.builder.offer (.event (eventRecord p e t cause (e.judge s.setup none))) ∧
      (s.closeEvent p e t cause).attention.isPending .eventEnd = true ∧
      (s.closeEvent p e t cause).point p = { s.point p with
        assessment := (s.point p).assessment.map (fun a => a.countEvent e.eventClass) } := by
  refine ⟨s.offer_builder _, State.raise_isPending _ _, ?_⟩
  rw [State.closeEvent, State.modPoint_here, (Noted.offerRaise s _ _).point]

theorem countsEvent_map (k : EventClass) (a : Option Assessment) :
    CountsEvent k a (a.map (fun a => a.countEvent k)) := by
  refine ⟨fun h => by rw [h]; rfl, fun x hx => ?_⟩
  rw [hx, Option.map_some, x.countEvent_eq k]

theorem eventRecord_closes (p : Point) (r : WindowResult) (e : OpenEvent) (j : Origin × Option Nat) :
    ClosesNormal p r e (eventRecord p e r.tick .normal j) :=
  ⟨rfl, rfl, rfl, ⟨rfl, rfl⟩, rfl, ⟨rfl, rfl⟩, rfl, ⟨rfl, rfl⟩, rfl, rfl, ⟨rfl, rfl⟩⟩

/-! ### Capture requests (R85, R118) -/

theorem State.captureAnswer_eq (s : State) : s.captureAnswer =
    (if s.control.device = .holdup then .notTakenSupply
      else if s.capture.isSome then .notTakenBusy
      else if s.shedding = .shed then .notTakenShed
      else .taken) :=
  rfl

/-- A request that is taken starts a capture, which forms frames at once; one that is not leaves the engine. -/
theorem State.requestCapture_eq (s : State) (tag : Word) (p : Point) (t : Tick) :
    (s.captureAnswer = .taken → ({ s with eventTag := tag } : State).requestCapture tag p t =
      ({ s with eventTag := tag, capture := some (newCapture s tag p t) } : State).formAll) ∧
    (s.captureAnswer ≠ .taken → ({ s with eventTag := tag } : State).requestCapture tag p t =
      { s with eventTag := tag }) :=
  ⟨fun h => if_pos h, fun h => if_neg h⟩

end Sys2Proof.Machine
end

section
/-! PROOFS. The low tracker at a window result, the origin work and the rings (R68, R69, R76 to R82, R85, R86, R90 to R93: O52). -/

namespace Sys2Proof.Machine

/-! ### The rows of R81 -/

theorem State.lowStep_blind {s : State} {p : Point} {r : WindowResult} (hu : r.usable = []) : s.lowStep p r =
    s.modPoint p (fun pt => { pt with low := pt.low.mapEvent (fun e => e.growBlind.settle s.setup r) }) := by
  rw [State.lowStep, hu]

theorem State.lowStep_open {s : State} {p : Point} {r : WindowResult} {u : Nat × Nat} {us : List (Nat × Nat)}
    {e : OpenEvent} (hu : r.usable = u :: us) (he : (s.point p).low.event = some e) :
    s.lowStep p r = s.lowContinue p r e (lowestFrom u us) (highestFrom u us) := by
  rw [State.lowStep, hu]
  dsimp only
  rw [he]

theorem State.lowStep_onset {s : State} {p : Point} {r : WindowResult} {u : Nat × Nat} {us : List (Nat × Nat)}
    (hu : r.usable = u :: us) (hq : (s.point p).low = .quiet)
    (h : (lowestFrom u us).2 < (s.point p).thresholds.dipStart) : s.lowStep p r =
      s.openLow p r (if (highestFrom u us).2 < (s.point p).thresholds.intStart then .interruption else .dip)
        (lowestFrom u us) := by
  rw [State.lowStep, hu]
  dsimp only
  rw [hq]
  by_cases hi : (highestFrom u us).2 < (s.point p).thresholds.intStart
  · have hm : lowMove (s.point p).thresholds .quiet (lowestFrom u us).2 (highestFrom u us).2 = .openInterruption :=
      if_pos ⟨h, hi⟩
    rw [if_pos hi, hm]
    rfl
  · have hm : lowMove (s.point p).thresholds .quiet (lowestFrom u us).2 (highestFrom u us).2 = .openDip :=
      (if_neg (fun x => hi x.2)).trans (if_pos h)
    rw [if_neg hi, hm]
    rfl

theorem State.lowStep_stays {s : State} {p : Point} {r : WindowResult} {u : Nat × Nat} {us : List (Nat × Nat)}
    (hu : r.usable = u :: us) (hq : (s.point p).low = .quiet)
    (h : ¬(lowestFrom u us).2 < (s.point p).thresholds.dipStart) : s.lowStep p r = s := by
  rw [State.lowStep, hu]
  dsimp only
  rw [hq]
  have hm : lowMove (s.point p).thresholds .quiet (lowestFrom u us).2 (highestFrom u us).2 = .stay :=
    (if_neg (fun x => h x.1)).trans (if_neg h)
  rw [hm]
  rfl

/-! ### An onset (R79, R80, R85) -/

/-- The tracker that an onset leaves. -/
def lowTrackerOf (k : EventClass) (e : OpenEvent) : LowTracker :=
  match k with
  | .interruption => .interrupt e
  | .dip => .dip e
  | .swell => .dip e

theorem State.openLow_eq (s : State) (p : Point) (r : WindowResult) (k : EventClass) (v : Nat × Nat) :
    s.openLow p r k v = (((({ s with eventTag := s.eventTag + 1 } : State).requestCapture (s.eventTag + 1) p
      r.tick).modPoint p (fun pt => { pt with low := lowTrackerOf k (lowOnset s p r k v) })).raise .eventOnset) := by
  cases k <;> rfl

theorem State.requestCapture_tag (s : State) (n tag : Word) (p : Point) (t : Tick) :
    (({ s with eventTag := n } : State).requestCapture tag p t).eventTag = n := by
  unfold State.requestCapture
  split
  · obtain ⟨r, sh, c, b, a, -, -, -, -, he⟩ :=
      Formed.formAll { s with eventTag := n, capture := some (newCapture { s with eventTag := n } tag p t) }
    rw [State.startCapture, he]
  · rfl

/-- The move of a tracker and a raised class leave the engine. -/
theorem SameEngine.modRaise (s : State) (p : Point) (f : PointRecord → PointRecord) (k : AttnClass) :
    SameEngine s ((s.modPoint p f).raise k) :=
  ⟨rfl, rfl, rfl, rfl⟩

theorem State.openLow_spec (s : State) (p : Point) (r : WindowResult) (k : EventClass) (v : Nat × Nat) :
    ((s.openLow p r k v).point p).low = lowTrackerOf k (lowOnset s p r k v) ∧
      (s.openLow p r k v).eventTag = s.eventTag + 1 ∧
      (s.openLow p r k v).attention.isPending .eventOnset = true ∧
      (s.captureAnswer = .taken → SameEngine
        ({ s with eventTag := s.eventTag + 1
                  capture := some (newCapture s (s.eventTag + 1) p r.tick) } : State).formAll (s.openLow p r k v)) ∧
      (s.captureAnswer ≠ .taken → SameEngine s (s.openLow p r k v)) := by
  rw [s.openLow_eq p r k v]
  obtain ⟨htaken, hleft⟩ := s.requestCapture_eq (s.eventTag + 1) p r.tick
  refine ⟨?_, s.requestCapture_tag _ _ _ _, State.raise_isPending _ _, fun h => ?_, fun h => ?_⟩
  · show (State.point (State.modPoint _ _ _) p).low = _
    rw [State.modPoint_here]
  · rw [htaken h]
    exact SameEngine.modRaise _ p _ _
  · rw [hleft h]
    obtain ⟨hc, hf, hs, hb⟩ := SameEngine.modRaise { s with eventTag := s.eventTag + 1 } p
      (fun pt => { pt with low := lowTrackerOf k (lowOnset s p r k v) }) .eventOnset
    exact ⟨hc, hf, hs, hb⟩

/-! ### An open event (R82, R86, R91) -/

/-- The open event as a result that is not blind leaves it, with a class of its own. -/
def State.lowGrown (s : State) (p : Point) (r : WindowResult) (e : OpenEvent) (v : Nat × Nat) (k : EventClass) :
    OpenEvent :=
  e.grow r v (decide (v.2 < e.extreme))
    (phaseSet r.usable (fun x => decide (x < (s.point p).thresholds.dipStart))) k
    (.decided (e.judge s.setup (some r)).1 (e.judge s.setup (some r)).2)

theorem OpenEvent.growLow_eq (s : State) (p : Point) (r : WindowResult) (e : OpenEvent) (v : Nat × Nat) :
    (e.growLow (s.point p).thresholds r v).settle s.setup r = s.lowGrown p r e v e.eventClass := by
  unfold State.lowGrown OpenEvent.grow
  simp only [decide_eq_true_eq]
  rfl

theorem State.lowContinue_eq {s : State} {p : Point} {r : WindowResult} {e : OpenEvent} {v w : Nat × Nat} {m : LowMove}
    (hm : lowMove (s.point p).thresholds (s.point p).low.state v.2 w.2 = m) : s.lowContinue p r e v w =
      (if m = .close then s.closeEvent p (s.lowGrown p r e v e.eventClass) r.tick .normal else s).modPoint p
        (fun pt => { pt with low := pt.low.move m (s.lowGrown p r e v e.eventClass) }) := by
  rw [State.lowContinue, e.growLow_eq s p r v, hm]

/-- The row that closes the event (R81, R86, R111). -/
theorem State.lowContinue_close {s : State} {p : Point} {r : WindowResult} {e : OpenEvent} {v w : Nat × Nat}
    (hm : lowMove (s.point p).thresholds (s.point p).low.state v.2 w.2 = .close) :
    ((s.lowContinue p r e v w).point p).low = .quiet ∧
      (s.lowContinue p r e v w).attention.isPending .eventEnd = true ∧
      CountsEvent e.eventClass (s.point p).assessment ((s.lowContinue p r e v w).point p).assessment ∧
      ∃ rec, (s.lowContinue p r e v w).builder = s.builder.offer (.event rec) ∧
        ClosesNormal p r (s.lowGrown p r e v e.eventClass) rec ∧
        (rec.origin, rec.ratio) = e.judge s.setup (some r) := by
  rw [State.lowContinue_eq hm, if_pos rfl]
  obtain ⟨hb, ha, hp⟩ := s.closeEvent_eq p (s.lowGrown p r e v e.eventClass) r.tick .normal
  refine ⟨?_, ha, ?_, _, hb, eventRecord_closes p r _ _, rfl⟩
  · rw [State.modPoint_here]
    rfl
  · rw [State.modPoint_here, hp]
    exact countsEvent_map e.eventClass _

/-- The rows that keep the event open. -/
theorem State.lowContinue_stay {s : State} {p : Point} {r : WindowResult} {e : OpenEvent} {v w : Nat × Nat}
    {m : LowMove} (hm : lowMove (s.point p).thresholds (s.point p).low.state v.2 w.2 = m) (hne : m ≠ .close) :
    ((s.lowContinue p r e v w).point p).low = (s.point p).low.move m (s.lowGrown p r e v e.eventClass) ∧
      SameEngine s (s.lowContinue p r e v w) ∧
      ((s.lowContinue p r e v w).point p).assessment = (s.point p).assessment := by
  rw [State.lowContinue_eq hm, if_neg hne, State.modPoint_here]
  exact ⟨rfl, ⟨rfl, rfl, rfl, rfl⟩, rfl⟩

/-! ### Origin (R68, R69, R91 to R93) -/

theorem ringReference_spec (ring : List Nat) : (ring.length < 8 → ringReference ring = none) ∧
    (ring.length = 8 → ringReference ring = some (ring.sum / 8)) :=
  ⟨fun h => if_neg (Nat.not_le.mpr h), fun h => if_pos (Nat.le_of_eq h.symm)⟩

theorem originRatio_spec (onset reference : Nat) :
    (0 < reference → originRatio onset reference = min 65535 (onset * 256 / reference)) ∧
    (reference = 0 → 0 < onset → originRatio onset reference = 65535) ∧ originRatio 0 0 = 256 := by
  refine ⟨fun h => if_pos h, ?_, rfl⟩
  rintro rfl ho
  exact (if_neg (Nat.lt_irrefl 0)).trans (if_pos ho)

theorem OriginNote.current_spec (n : OriginNote) : n.current none = n.onset ∧
    (∀ r a b, n.onset = some a → r.valueOf n.channel = some b → n.current (some r) = some (max a b)) ∧
    ∀ r, n.onset = none ∨ r.valueOf n.channel = none → n.current (some r) = none := by
  refine ⟨?_, fun r a b ha hb => ?_, fun r h => ?_⟩
  all_goals unfold OriginNote.current
  · cases n.onset <;> rfl
  · rw [ha]
    dsimp only
    rw [hb]
  · rcases h with h | h
    · rw [h]
    · cases n.onset with
      | none => rfl
      | some a =>
        dsimp only
        rw [h]

/-- A note without a reference or without a current leaves the cells open. -/
theorem originCells_none {notes : List OriginNote} {next : Option WindowResult}
    (h : ∃ n ∈ notes, n.reference = none ∨ n.current next = none) : originCells notes next = none := by
  induction notes with
  | nil => obtain ⟨n, hn, -⟩ := h; cases hn
  | cons x xs ih =>
    rw [originCells, List.foldr_cons]
    split
    · next r i cells hr hi hcells =>
      rcases exists_of_cons.mp h with (h | h) | h
      · rw [hr] at h; cases h
      · rw [hi] at h; cases h
      · exact absurd (ih h) (by rw [show originCells xs next = some cells from hcells]; nofun)
    · rfl

theorem originCells_some {notes : List OriginNote} {next : Option WindowResult} {f g : OriginNote → Nat}
    (h : ∀ n ∈ notes, n.reference = some (f n) ∧ n.current next = some (g n)) :
    originCells notes next = some (notes.map (fun n => (f n, g n))) := by
  induction notes with
  | nil => rfl
  | cons x xs ih =>
    obtain ⟨⟨hr, hi⟩, hrest⟩ := List.forall_mem_cons.mp h
    have hcells := ih hrest
    rw [originCells] at hcells
    rw [originCells, List.foldr_cons, hcells, hr, hi]
    rfl

/-- The greatest of the ratios of a list, when it is not empty. -/
theorem foldl_max_spec (l : List Nat) (x : Nat) : (l.foldl max x = x ∨ l.foldl max x ∈ l) ∧ x ≤ l.foldl max x ∧
    ∀ y ∈ l, y ≤ l.foldl max x := by
  induction l generalizing x with
  | nil => exact ⟨.inl rfl, Nat.le_refl x, nofun⟩
  | cons z zs ih =>
    obtain ⟨hmem, hx, hall⟩ := ih (max x z)
    rw [List.foldl_cons]
    refine ⟨?_, by omega, List.forall_mem_cons.mpr ⟨by omega, hall⟩⟩
    rcases hmem with he | hm
    · rcases Nat.le_total x z with hle | hle
      · exact .inr (List.mem_cons.mpr (.inl (by omega)))
      · exact .inl (by omega)
    · exact .inr (List.mem_cons_of_mem z hm)

theorem marksRise_iff (u : Setup) (cell : Nat × Nat) :
    marksRise u cell = true ↔ 256 + u.originRise ≤ originRatio cell.2 cell.1 ∧ u.originMinimum ≤ cell.2 := by
  rw [marksRise, Bool.and_eq_true, decide_eq_true_eq, decide_eq_true_eq]

theorem decideOrigin_undetermined {u : Setup} {notes : List OriginNote} {next : Option WindowResult}
    (h : ∃ n ∈ notes, n.reference = none ∨ n.current next = none) :
    decideOrigin u notes next = (.undetermined, none) := by
  obtain ⟨n, hn, -⟩ := id h
  rw [decideOrigin, if_neg (List.ne_nil_of_mem hn), originCells_none h]

theorem decideOrigin_decided {u : Setup} {notes : List OriginNote} {next : Option WindowResult} {f g : OriginNote → Nat}
    (hne : notes ≠ []) (h : ∀ n ∈ notes, n.reference = some (f n) ∧ n.current next = some (g n)) :
    ∃ ratio, (∃ n ∈ notes, ratio = originRatio (g n) (f n)) ∧ (∀ n ∈ notes, originRatio (g n) (f n) ≤ ratio) ∧
      ((∃ n ∈ notes, 256 + u.originRise ≤ originRatio (g n) (f n) ∧ u.originMinimum ≤ g n) →
        decideOrigin u notes next = (.downstream, some ratio)) ∧
      ((∀ n ∈ notes, originRatio (g n) (f n) < 256 + u.originRise ∨ g n < u.originMinimum) →
        decideOrigin u notes next = (.upstream, some ratio)) := by
  have hd : decideOrigin u notes next =
      if (notes.map (fun n => (f n, g n))).any (marksRise u) then
        (.downstream, some ((notes.map (fun n => originRatio (g n) (f n))).foldl max 0))
      else (.upstream, some ((notes.map (fun n => originRatio (g n) (f n))).foldl max 0)) := by
    rw [decideOrigin, if_neg hne, originCells_some h]
    dsimp only
    rw [List.map_map]
    rfl
  obtain ⟨hmem, -, hall⟩ := foldl_max_spec (notes.map (fun n => originRatio (g n) (f n))) 0
  refine ⟨_, ?_, fun n hn => hall _ (List.mem_map_of_mem hn), fun hrise => ?_, fun hno => ?_⟩
  · rcases hmem with hz | hm
    · obtain ⟨n, hn⟩ := List.exists_mem_of_ne_nil notes hne
      have := hall _ (List.mem_map_of_mem hn)
      exact ⟨n, hn, by omega⟩
    · obtain ⟨n, hn, he⟩ := List.mem_map.mp hm
      exact ⟨n, hn, he.symm⟩
  · obtain ⟨n, hn, hr⟩ := hrise
    rw [hd, if_pos (List.any_eq_true.mpr ⟨_, List.mem_map_of_mem hn, (marksRise_iff u _).mpr hr⟩)]
  · rw [hd, if_neg]
    intro hany
    obtain ⟨cell, hcell, hr⟩ := List.any_eq_true.mp hany
    obtain ⟨n, hn, rfl⟩ := List.mem_map.mp hcell
    have hr := (marksRise_iff u _).mp hr
    rcases hno n hn with h1 | h1
    · exact absurd hr.1 (Nat.not_le.mpr h1)
    · exact absurd hr.2 (Nat.not_le.mpr h1)

/-! ### The low tracker at a result -/

/-- A blind result (R77). -/
theorem State.lowStep_blind_spec {s : State} {p : Point} {r : WindowResult} (hu : r.usable = []) :
    ((s.lowStep p r).point p).low.state = (s.point p).low.state ∧
      s.lowStep p r = { s with points := (s.lowStep p r).points } ∧
      ∀ e, (s.point p).low.event = some e → ((s.lowStep p r).point p).low.event = some { e with
        blindWindows := e.blindWindows + 1
        work := .decided (e.judge s.setup (some r)).1 (e.judge s.setup (some r)).2 } := by
  rw [State.lowStep_blind hu, State.modPoint_here]
  refine ⟨?_, rfl, fun e he => ?_⟩
  · cases (s.point p).low <;> rfl
  · revert he
    cases (s.point p).low with
    | quiet => exact nofun
    | dip x => exact fun he => by cases he; rfl
    | interrupt x => exact fun he => by cases he; rfl

/-- The onset of an event at a result (R79 to R81, R85, R91). -/
theorem State.lowStep_opens {s : State} {p : Point} {r : WindowResult} {vmin vmax : Nat} {u : Nat × Nat}
    {us : List (Nat × Nat)} (hu : r.usable = u :: us)
    (hmin : (lowestFrom u us).2 = vmin ∧ HoldsFirst r vmin (lowestFrom u us).1) (hmax : (highestFrom u us).2 = vmax)
    (hq : (s.point p).low = .quiet) (h : vmin < (s.point p).thresholds.dipStart) :
    ∃ e, ((s.lowStep p r).point p).low =
        (if vmax < (s.point p).thresholds.intStart then .interrupt e else .dip e) ∧
      EventOpens s r vmin (fun v => v < (s.point p).thresholds.dipStart) e ∧ (s.lowStep p r).eventTag = e.tag ∧
      e.eventClass = (if vmax < (s.point p).thresholds.intStart then .interruption else .dip) ∧
      e.captureStatus = s.captureAnswer ∧
      e.captureTag = (if s.captureAnswer = .taken then some e.tag else none) ∧
      (s.captureAnswer = .taken → ∃ c : RunningCapture, CaptureStarts s e.tag p r.tick c ∧
        SameEngine ({ s with eventTag := e.tag, capture := some c } : State).formAll (s.lowStep p r)) ∧
      (s.captureAnswer ≠ .taken → SameEngine s (s.lowStep p r)) ∧
      e.work = .gathering ((s.currentsOf p).map (fun c =>
        { channel := c, reference := ringReference (s.channel c).ring, onset := r.valueOf c })) ∧
      (s.lowStep p r).attention.isPending .eventOnset = true := by
  rw [State.lowStep_onset hu hq (by rw [hmin.1]; exact h), hmax]
  obtain ⟨hlow, htag, honset, htaken, hleft⟩ := s.openLow_spec p r
    (if vmax < (s.point p).thresholds.intStart then .interruption else .dip) (lowestFrom u us)
  refine ⟨lowOnset s p r (if vmax < (s.point p).thresholds.intStart then .interruption else .dip) (lowestFrom u us),
    ?_, newEvent_opens s _ r hmin _ _ _, htag, rfl, rfl, rfl,
    fun ht => ⟨_, newCapture_starts s _ p r.tick, htaken ht⟩, hleft, rfl, honset⟩
  rw [hlow]
  by_cases hi : vmax < (s.point p).thresholds.intStart
  · rw [if_pos hi, if_pos hi]
    rfl
  · rw [if_neg hi, if_neg hi]
    rfl

/-- An open event at a result (R81, R82, R86, R91). -/
theorem State.lowStep_continues {s : State} {p : Point} {r : WindowResult} {vmin vmax : Nat} {u : Nat × Nat}
    {us : List (Nat × Nat)} (hu : r.usable = u :: us)
    (hmin : (lowestFrom u us).2 = vmin ∧ HoldsFirst r vmin (lowestFrom u us).1) (hmax : (highestFrom u us).2 = vmax)
    {th : Thresholds} (hth : th = (s.point p).thresholds) {e : OpenEvent} (he : (s.point p).low.event = some e) :
    ∃ e' : OpenEvent,
      EventGrows r vmin (vmin < e.extreme) (fun v => v < th.dipStart) e e' ∧
      e'.work = .decided (e.judge s.setup (some r)).1 (e.judge s.setup (some r)).2 ∧
      (∀ closes : Prop,
        (closes ↔ th.dipEnd ≤ vmin ∧ ((s.point p).low = .interrupt e ∨ th.intStart ≤ vmax)) →
        (closes → ((s.lowStep p r).point p).low = .quiet ∧ e'.eventClass = e.eventClass ∧
          (s.lowStep p r).attention.isPending .eventEnd = true ∧
          CountsEvent e.eventClass (s.point p).assessment ((s.lowStep p r).point p).assessment ∧
          ∃ rec, (s.lowStep p r).builder = s.builder.offer (.event rec) ∧ ClosesNormal p r e' rec ∧
            (rec.origin, rec.ratio) = e.judge s.setup (some r)) ∧
        (¬closes → SameEngine s (s.lowStep p r) ∧
          ((s.lowStep p r).point p).assessment = (s.point p).assessment)) ∧
      ((s.point p).low = .dip e →
        (vmax < th.intStart → ((s.lowStep p r).point p).low = .interrupt e' ∧ e'.eventClass = .interruption) ∧
        (th.intStart ≤ vmax → vmin < th.dipEnd →
          ((s.lowStep p r).point p).low = .dip e' ∧ e'.eventClass = e.eventClass)) ∧
      ((s.point p).low = .interrupt e →
        (vmin < th.dipEnd → th.intEnd ≤ vmax →
          ((s.lowStep p r).point p).low = .dip e' ∧ e'.eventClass = e.eventClass) ∧
        (vmin < th.dipEnd → vmax < th.intEnd →
          ((s.lowStep p r).point p).low = .interrupt e' ∧ e'.eventClass = e.eventClass)) := by
  subst hth
  have hgrows (k : EventClass) : EventGrows r vmin (vmin < e.extreme)
      (fun v => v < (s.point p).thresholds.dipStart) e (s.lowGrown p r e (lowestFrom u us) k) := by
    unfold State.lowGrown
    rw [hmin.1]
    exact e.grow_grows r hmin k _
  rw [State.lowStep_open hu he]
  have hrow (m : LowMove) (hm : lowMove (s.point p).thresholds (s.point p).low.state vmin vmax = m) :
      lowMove (s.point p).thresholds (s.point p).low.state (lowestFrom u us).2 (highestFrom u us).2 = m := by
    rw [hmin.1, hmax]
    exact hm
  cases hl : (s.point p).low with
  | quiet => rw [hl] at he; cases he
  | dip x =>
    have hx : x = e := by rw [hl] at he; exact Option.some.inj he
    subst hx
    have hstate : (s.point p).low.state = .dip := by rw [hl]; rfl
    by_cases hi : vmax < (s.point p).thresholds.intStart
    · have hm := hrow .deepen (by rw [hstate]; exact if_pos hi)
      obtain ⟨hlow, heng, hass⟩ := State.lowContinue_stay (r := r) (e := x) hm nofun
      refine ⟨s.lowGrown p r x (lowestFrom u us) .interruption, hgrows _, rfl, fun closes hc => ⟨fun h => ?_, fun _ => ⟨heng, hass⟩⟩,
        fun _ => ⟨fun _ => ⟨hlow, rfl⟩, fun h => absurd hi (Nat.not_lt.mpr h)⟩, nofun⟩
      rcases (hc.mp h).2 with h | h
      · cases h
      · exact absurd hi (Nat.not_lt.mpr h)
    · refine ⟨s.lowGrown p r x (lowestFrom u us) x.eventClass, hgrows _, rfl, fun closes hc => ⟨fun h => ?_, fun h => ?_⟩,
        fun _ => ⟨fun h => absurd h hi, fun _ hlt => ?_⟩, nofun⟩
      · have hm := hrow .close (by rw [hstate]; exact (if_neg hi).trans (if_pos (hc.mp h).1))
        obtain ⟨hlow, hend, hcount, hrec⟩ := State.lowContinue_close (r := r) (e := x) hm
        exact ⟨hlow, rfl, hend, hcount, hrec⟩
      · have hlt : ¬(s.point p).thresholds.dipEnd ≤ vmin := fun hle => h (hc.mpr ⟨hle, .inr (Nat.not_lt.mp hi)⟩)
        have hm := hrow .stay (by rw [hstate]; exact (if_neg hi).trans (if_neg hlt))
        exact (State.lowContinue_stay (r := r) (e := x) hm nofun).2
      · have hm := hrow .stay (by rw [hstate]; exact (if_neg hi).trans (if_neg (Nat.not_le.mpr hlt)))
        exact ⟨(State.lowContinue_stay (r := r) (e := x) hm nofun).1.trans (by rw [hl]; rfl), rfl⟩
  | interrupt x =>
    have hx : x = e := by rw [hl] at he; exact Option.some.inj he
    subst hx
    have hstate : (s.point p).low.state = .interrupt := by rw [hl]; rfl
    have hstay (m : LowMove) (hlt : vmin < (s.point p).thresholds.dipEnd)
        (hm : (if (s.point p).thresholds.intEnd ≤ vmax then LowMove.relax else .stay) = m) :=
      hrow m (by rw [hstate]; exact (if_neg (Nat.not_le.mpr hlt)).trans hm)
    refine ⟨s.lowGrown p r x (lowestFrom u us) x.eventClass, hgrows _, rfl, fun closes hc => ⟨fun h => ?_, fun h => ?_⟩,
      nofun, fun _ => ⟨fun hlt hle => ?_, fun hlt hgt => ?_⟩⟩
    · have hm := hrow .close (by rw [hstate]; exact if_pos (hc.mp h).1)
      obtain ⟨hlow, hend, hcount, hrec⟩ := State.lowContinue_close (r := r) (e := x) hm
      exact ⟨hlow, rfl, hend, hcount, hrec⟩
    · have hlt : vmin < (s.point p).thresholds.dipEnd :=
        Nat.not_le.mp (fun hle => h (hc.mpr ⟨hle, .inl rfl⟩))
      exact (State.lowContinue_stay (r := r) (e := x) (hstay _ hlt rfl) (by split <;> nofun)).2
    · exact ⟨(State.lowContinue_stay (r := r) (e := x) (hstay .relax hlt (if_pos hle)) nofun).1.trans
        (by rw [hl]; rfl), rfl⟩
    · exact ⟨(State.lowContinue_stay (r := r) (e := x) (hstay .stay hlt (if_neg (Nat.not_le.mpr hgt))) nofun).1.trans
        (by rw [hl]; rfl), rfl⟩

/-! ### The rings -/

theorem State.installedAt_channel (s : State) (p : Point) (r : WindowResult) (c : Channel) :
    (s.installedAt p r).channel c = s.channel c := by
  have hi : (s.installedAt p r).channels = (s.trackBoth p r).channels := by
    rw [(s.installedAt_installs p r).whole, State.withdrawAt_eq]
    rfl
  have ht : (s.trackBoth p r).channels = s.channels := by rw [(Tracked.trackBoth p s r).whole]
  rw [State.channel, hi, ht]
  rfl

/-- R90: the values of a result that leaves the low tracker QUIET join the rings. -/
theorem State.takeResult_rings (s : State) (p : Point) (r : WindowResult) (c : Channel) {joins : Prop}
    (hj : joins ↔ (s.point p).low = .quiet ∧ ((s.takeResult p r).point p).low = .quiet ∧
      (s.channel c).entry.enabled = true ∧ (s.channel c).entry.point = p.val ∧ (s.channel c).entry.kind = .current) :
    (∀ v, joins → r.valueOf c = some v →
      ((s.channel c).ring.length < 8 → ((s.takeResult p r).channel c).ring = (s.channel c).ring ++ [v]) ∧
      ((s.channel c).ring.length = 8 → ((s.takeResult p r).channel c).ring = (s.channel c).ring.tail ++ [v])) ∧
    (¬joins ∨ r.valueOf c = none → ((s.takeResult p r).channel c).ring = (s.channel c).ring) := by
  have hch := s.installedAt_channel p r c
  have hcond : ((s.point p).low.isQuiet && ((s.trackBoth p r).point p).low.isQuiet) = true ↔
      (s.point p).low = .quiet ∧ ((s.takeResult p r).point p).low = .quiet := by
    rw [Bool.and_eq_true, LowTracker.isQuiet_iff, LowTracker.isQuiet_iff, (s.takeResult_trackers p r).1]
  constructor
  · intro v hjoins hv
    obtain ⟨hq, hq', hentry⟩ := hj.mp hjoins
    have hring : ((s.takeResult p r).channel c).ring = pushRing (s.channel c).ring v := by
      rw [s.takeResult_installed, if_pos (hcond.mpr ⟨hq, hq'⟩), ← hch]
      exact State.joinRings_joins (by rw [hch]; exact hentry) hv
    exact ⟨fun h => hring.trans (pushRing_short h v), fun h => hring.trans (pushRing_full h v)⟩
  · intro h
    rw [s.takeResult_installed]
    split
    · next hc =>
      obtain ⟨hq, hq'⟩ := hcond.mp hc
      rw [State.joinRings_stays, hch]
      rw [hch]
      exact h.imp_left (fun hn hentry => hn (hj.mpr ⟨hq, hq', hentry⟩))
    · rw [hch]

/-- Settles O52: the rows of R81 at a result, by the usable phases and the state of the tracker. -/
theorem lowTrackerMoves : Obligations.LowTrackerMoves := by
  refine ⟨WindowResult.mem_usable, ?tracker, fun e u next => ⟨fun notes hn => ?_, fun origin ratio hd => ?_⟩,
    ringReference_spec, originRatio_spec, OriginNote.current_spec,
    fun u notes next => ⟨rfl, decideOrigin_undetermined, fun f g hne h => decideOrigin_decided hne h⟩,
    fun s p r c joins hj => s.takeResult_rings p r c hj⟩
  case tracker =>
    rintro s p r answer rfl
    have ht := Tracked.lowStep p s r
    refine ⟨?_, ht.others, ht.whole, State.lowStep_blind_spec, ?_⟩
    · have hhigh := ht.high rfl
      have hhere := ht.here
      rw [hhigh] at hhere
      exact hhere
    · rintro vmin vmax th rfl hmin hmax hall
      obtain ⟨u, us, hu⟩ := WindowResult.usable_cons hmin
      have hlo := lowestFrom_eq hu hmin (fun x hx => (hall x hx).1)
      have hhi := highestFrom_eq hu hmax (fun x hx => (hall x hx).2)
      refine ⟨fun hq => ⟨State.lowStep_opens hu hlo hhi.1 hq, fun hle => State.lowStep_stays hu hq ?_⟩,
        fun e he => State.lowStep_continues hu hlo hhi.1 rfl he⟩
      rw [hlo.1]
      exact Nat.not_lt.mpr hle
  all_goals unfold OpenEvent.judge
  · rw [hn]
  · rw [hd]

end Sys2Proof.Machine
end

section
/-! PROOFS. The high tracker at a window result, and what a result does whole (R32, R63, R77, R81, R83 to R86: O53). -/

namespace Sys2Proof.Machine

/-! ### The rows of R83 -/

theorem State.highStep_blind {s : State} {p : Point} {r : WindowResult} (hu : r.usable = []) (low : Option OpenEvent) :
    s.highStep p r low = s.modPoint p (fun pt => { pt with high := pt.high.mapEvent OpenEvent.growBlind }) := by
  rw [State.highStep, hu]

theorem State.highStep_onset {s : State} {p : Point} {r : WindowResult} {u : Nat × Nat} {us : List (Nat × Nat)}
    (hu : r.usable = u :: us) (hq : (s.point p).high = .quiet)
    (h : (s.point p).thresholds.swellStart < (highestFrom u us).2) (low : Option OpenEvent) :
    s.highStep p r low = s.openHigh p r (highestFrom u us) low := by
  rw [State.highStep, hu]
  dsimp only
  rw [hq]
  exact if_pos h

theorem State.highStep_stays {s : State} {p : Point} {r : WindowResult} {u : Nat × Nat} {us : List (Nat × Nat)}
    (hu : r.usable = u :: us) (hq : (s.point p).high = .quiet)
    (h : ¬(s.point p).thresholds.swellStart < (highestFrom u us).2) (low : Option OpenEvent) :
    s.highStep p r low = s := by
  rw [State.highStep, hu]
  dsimp only
  rw [hq]
  exact if_neg h

/-- The open swell as a result that is not blind leaves it (R84). -/
def State.highGrown (s : State) (p : Point) (r : WindowResult) (e : OpenEvent) (v : Nat × Nat) : OpenEvent :=
  e.grow r v (decide (e.extreme < v.2))
    (phaseSet r.usable (fun x => decide ((s.point p).thresholds.swellStart < x))) e.eventClass e.work

theorem OpenEvent.growHigh_eq (s : State) (p : Point) (r : WindowResult) (e : OpenEvent) (v : Nat × Nat) :
    e.growHigh (s.point p).thresholds r v = s.highGrown p r e v := by
  unfold State.highGrown OpenEvent.grow
  simp only [decide_eq_true_eq]
  rfl

theorem State.highStep_open {s : State} {p : Point} {r : WindowResult} {u : Nat × Nat} {us : List (Nat × Nat)}
    {e : OpenEvent} (hu : r.usable = u :: us) (he : (s.point p).high = .swell e) (low : Option OpenEvent) :
    s.highStep p r low = if (highestFrom u us).2 ≤ (s.point p).thresholds.swellEnd then
        (s.closeEvent p (s.highGrown p r e (highestFrom u us)) r.tick .normal).modPoint p
          (fun pt => { pt with high := .quiet })
      else s.modPoint p (fun pt => { pt with high := .swell (s.highGrown p r e (highestFrom u us)) }) := by
  rw [State.highStep, hu]
  dsimp only
  rw [he]
  dsimp only
  rw [e.growHigh_eq s p r]

/-! ### An onset (R83, R85) -/

/-- The swell that opens at a result, with the capture status and tag that it takes. -/
def highOnset (s : State) (p : Point) (r : WindowResult) (v : Nat × Nat) (status : CaptureStatus)
    (tag : Option Word) : OpenEvent :=
  newEvent s (s.eventTag + 1) .swell r v
    (phaseSet r.usable (fun x => decide ((s.point p).thresholds.swellStart < x))) status tag (.decided .notAssessed none)

/-- An onset without a low event of the same result asks for a capture. -/
theorem State.openHigh_none (s : State) (p : Point) (r : WindowResult) (v : Nat × Nat) : s.openHigh p r v none =
    (((({ s with eventTag := s.eventTag + 1 } : State).requestCapture (s.eventTag + 1) p r.tick).modPoint p
      (fun pt => { pt with high := .swell (highOnset s p r v s.captureAnswer
        (captureTagOf s.captureAnswer (s.eventTag + 1))) })).raise .eventOnset) :=
  rfl

/-- One with such an event takes its status and its capture tag. -/
theorem State.openHigh_some (s : State) (p : Point) (r : WindowResult) (v : Nat × Nat) (low : OpenEvent) :
    s.openHigh p r v (some low) = (((({ s with eventTag := s.eventTag + 1 } : State).modPoint p
      (fun pt => { pt with high := .swell (highOnset s p r v (sharedStatus low.captureStatus)
        low.sharedTag) })).raise .eventOnset)) :=
  rfl

theorem sharedStatus_spec (low : OpenEvent) :
    (low.captureStatus = .taken → sharedStatus low.captureStatus = .shared ∧ low.sharedTag = low.captureTag) ∧
      (low.captureStatus ≠ .taken → sharedStatus low.captureStatus = low.captureStatus ∧ low.sharedTag = none) :=
  ⟨fun h => ⟨if_pos h, if_pos h⟩, fun h => ⟨if_neg h, if_neg h⟩⟩

/-- The onset of a swell at a result. -/
theorem State.highStep_opens {s : State} {p : Point} {r : WindowResult} {vmax : Nat} {u : Nat × Nat}
    {us : List (Nat × Nat)} (hu : r.usable = u :: us)
    (hmax : (highestFrom u us).2 = vmax ∧ HoldsFirst r vmax (highestFrom u us).1) (hq : (s.point p).high = .quiet)
    (h : (s.point p).thresholds.swellStart < vmax) (low : Option OpenEvent) :
    ∃ e, ((s.highStep p r low).point p).high = .swell e ∧
      EventOpens s r vmax (fun v => (s.point p).thresholds.swellStart < v) e ∧ (s.highStep p r low).eventTag = e.tag ∧
      e.eventClass = .swell ∧ e.work = .decided .notAssessed none ∧
      (s.highStep p r low).attention.isPending .eventOnset = true ∧
      (low = none → e.captureStatus = s.captureAnswer ∧
        e.captureTag = (if s.captureAnswer = .taken then some e.tag else none) ∧
        (s.captureAnswer = .taken → ∃ c : RunningCapture, CaptureStarts s e.tag p r.tick c ∧
          SameEngine ({ s with eventTag := e.tag, capture := some c } : State).formAll (s.highStep p r low)) ∧
        (s.captureAnswer ≠ .taken → SameEngine s (s.highStep p r low))) ∧
      (∀ l, low = some l → l.captureStatus = .taken →
        e.captureStatus = .shared ∧ e.captureTag = l.captureTag) ∧
      (∀ l, low = some l → l.captureStatus ≠ .taken →
        e.captureStatus = l.captureStatus ∧ e.captureTag = none) ∧
      (∀ l, low = some l → SameEngine s (s.highStep p r low)) := by
  rw [State.highStep_onset hu hq (by rw [hmax.1]; exact h)]
  have hopens (status : CaptureStatus) (tag : Option Word) : EventOpens s r vmax
      (fun v => (s.point p).thresholds.swellStart < v) (highOnset s p r (highestFrom u us) status tag) :=
    newEvent_opens s .swell r hmax status tag _
  have htracker (x : State) (e : OpenEvent) :
      (((x.modPoint p (fun pt => { pt with high := .swell e })).raise .eventOnset).point p).high = .swell e := by
    show ((x.modPoint p _).point p).high = _
    rw [State.modPoint_here]
  cases low with
  | none =>
    rw [s.openHigh_none]
    obtain ⟨htaken, hleft⟩ := s.requestCapture_eq (s.eventTag + 1) p r.tick
    refine ⟨highOnset s p r (highestFrom u us) s.captureAnswer (captureTagOf s.captureAnswer (s.eventTag + 1)),
      htracker _ _, hopens _ _, s.requestCapture_tag _ _ _ _, rfl, rfl, State.raise_isPending _ _,
      fun _ => ⟨rfl, rfl, fun ht => ⟨newCapture s (s.eventTag + 1) p r.tick, newCapture_starts s _ p r.tick, ?_⟩,
        fun hl => ?_⟩, fun _ h _ => (nomatch h), fun _ h _ => (nomatch h), fun _ h => (nomatch h)⟩
    · rw [htaken ht]
      exact SameEngine.modRaise _ p _ _
    · rw [hleft hl]
      obtain ⟨hc, hf, hs, hb⟩ := SameEngine.modRaise { s with eventTag := s.eventTag + 1 } p
        (fun pt => { pt with high := .swell (highOnset s p r (highestFrom u us) s.captureAnswer
          (captureTagOf s.captureAnswer (s.eventTag + 1))) }) .eventOnset
      exact ⟨hc, hf, hs, hb⟩
  | some l =>
    rw [s.openHigh_some]
    refine ⟨highOnset s p r (highestFrom u us) (sharedStatus l.captureStatus) l.sharedTag,
      htracker _ _, hopens _ _, rfl, rfl, rfl, State.raise_isPending _ _, fun h => (nomatch h), ?_, ?_, ?_⟩
    · rintro x hx ht
      cases hx
      exact (sharedStatus_spec l).1 ht
    · rintro x hx ht
      cases hx
      exact (sharedStatus_spec l).2 ht
    · rintro x hx
      exact ⟨rfl, rfl, rfl, rfl⟩

/-- An open swell at a result (R84, R86). -/
theorem State.highStep_continues {s : State} {p : Point} {r : WindowResult} {vmax : Nat} {u : Nat × Nat}
    {us : List (Nat × Nat)} (hu : r.usable = u :: us)
    (hmax : (highestFrom u us).2 = vmax ∧ HoldsFirst r vmax (highestFrom u us).1) {e : OpenEvent}
    (he : (s.point p).high = .swell e) (low : Option OpenEvent) :
    ∃ e' : OpenEvent,
      EventGrows r vmax (e.extreme < vmax) (fun v => (s.point p).thresholds.swellStart < v) e e' ∧
      e'.eventClass = e.eventClass ∧ e'.work = e.work ∧
      (vmax ≤ (s.point p).thresholds.swellEnd → ((s.highStep p r low).point p).high = .quiet ∧
        (s.highStep p r low).attention.isPending .eventEnd = true ∧
        CountsEvent e.eventClass (s.point p).assessment ((s.highStep p r low).point p).assessment ∧
        ∃ rec, (s.highStep p r low).builder = s.builder.offer (.event rec) ∧ ClosesNormal p r e' rec ∧
          (∀ origin ratio, e.work = .decided origin ratio → rec.origin = origin ∧ rec.ratio = ratio)) ∧
      ((s.point p).thresholds.swellEnd < vmax → ((s.highStep p r low).point p).high = .swell e' ∧
        SameEngine s (s.highStep p r low) ∧
        ((s.highStep p r low).point p).assessment = (s.point p).assessment) := by
  rw [State.highStep_open hu he, hmax.1]
  refine ⟨s.highGrown p r e (highestFrom u us), ?_, rfl, rfl, fun hle => ?_, fun hlt => ?_⟩
  · unfold State.highGrown
    rw [hmax.1]
    exact e.grow_grows r hmax e.eventClass e.work
  · rw [if_pos hle]
    obtain ⟨hb, ha, hp⟩ := s.closeEvent_eq p (s.highGrown p r e (highestFrom u us)) r.tick .normal
    refine ⟨?_, ha, ?_, _, hb, eventRecord_closes p r _ _, fun origin ratio hw => ?_⟩
    · rw [State.modPoint_here]
    · rw [State.modPoint_here, hp]
      exact countsEvent_map e.eventClass _
    · have hj : (s.highGrown p r e (highestFrom u us)).judge s.setup none = (origin, ratio) := by
        show e.judge s.setup none = _
        rw [OpenEvent.judge, hw]
      rw [hj]
      exact ⟨rfl, rfl⟩
  · rw [if_neg (Nat.not_le.mpr hlt), State.modPoint_here]
    exact ⟨rfl, ⟨rfl, rfl, rfl, rfl⟩, rfl⟩

/-- A blind result adds to an open swell's blind windows alone (R77). -/
theorem State.highStep_blind_spec {s : State} {p : Point} {r : WindowResult} (hu : r.usable = [])
    (low : Option OpenEvent) : ((s.point p).high = .quiet → s.highStep p r low = s) ∧
      ∀ e, (s.point p).high = .swell e → s.highStep p r low = s.modPoint p (fun pt =>
        { pt with high := .swell { e with blindWindows := e.blindWindows + 1 } }) := by
  rw [State.highStep_blind hu]
  refine ⟨fun hq => s.modPoint_self p _ ?_, fun e he => s.modPoint_congr p ?_⟩
  · show ({ s.point p with high := (s.point p).high.mapEvent OpenEvent.growBlind } : PointRecord) = s.point p
    rw [hq, HighTracker.mapEvent, ← hq]
  · show ({ s.point p with high := (s.point p).high.mapEvent OpenEvent.growBlind } : PointRecord) = _
    rw [he]
    rfl

/-! ### A result, whole (R32, R63) -/

theorem State.trackBoth_of_low {s : State} {p : Point} {r : WindowResult} {low : Option OpenEvent}
    (hq : (s.point p).low = .quiet → low = ((s.lowStep p r).point p).low.event)
    (hn : (s.point p).low ≠ .quiet → low = none) : (s.lowStep p r).highStep p r low = s.trackBoth p r := by
  unfold State.trackBoth
  by_cases h : (s.point p).low = .quiet
  · rw [hq h, h]
    rfl
  · rw [hn h, if_neg (fun hc => h ((LowTracker.isQuiet_iff _).mp hc))]

/-- What a result changes beside the trackers: the check, the limits and the rings. -/
theorem State.takeResult_whole (s : State) (p : Point) (r : WindowResult) : s.takeResult p r =
    { s.trackBoth p r with
      points := (s.takeResult p r).points, channels := (s.takeResult p r).channels
      builder := (s.takeResult p r).builder, attention := (s.takeResult p r).attention } := by
  have hi : s.installedAt p r = { s.trackBoth p r with
      points := (s.installedAt p r).points, builder := (s.installedAt p r).builder
      attention := (s.installedAt p r).attention } := by
    refine (s.installedAt_installs p r).whole.trans ?_
    rw [State.withdrawAt_eq]
    rfl
  have hp : (s.takeResult p r).points = (s.installedAt p r).points := by rw [s.takeResult_beside p r]
  have hb : (s.takeResult p r).builder = (s.installedAt p r).builder := by rw [s.takeResult_beside p r]
  have ha : (s.takeResult p r).attention = (s.installedAt p r).attention := by rw [s.takeResult_beside p r]
  rw [hp, hb, ha]
  exact (s.takeResult_beside p r).trans
    (congrArg (fun x : State => { x with channels := (s.takeResult p r).channels }) hi)

theorem State.takeResult_others (s : State) {p q : Point} (r : WindowResult) (h : q ≠ p) :
    (s.takeResult p r).point q = s.point q := by
  rw [s.takeResult_points, (s.installedAt_installs p r).others q h, State.withdrawAt_eq, State.modPoint_beside _ _ h]
  exact (Tracked.trackBoth p s r).others q h

theorem State.takeResult_channel (s : State) (p : Point) (r : WindowResult) (c : Channel) :
    (s.takeResult p r).channel c = { s.channel c with ring := ((s.takeResult p r).channel c).ring } := by
  rw [s.takeResult_installed]
  split
  · rw [State.joinRings_channel, s.installedAt_channel]
  · rw [s.installedAt_channel]

/-- The records and classes of a result: those of the trackers, and at most the installation. -/
theorem State.takeResult_records (s : State) (p : Point) (r : WindowResult) :
    (∃ installed : List RecordBody, installed.length ≤ 1 ∧
      (s.takeResult p r).builder = (s.trackBoth p r).builder.offers installed) ∧
    ∀ k, (s.trackBoth p r).attention.isPending k = true → (s.takeResult p r).attention.isPending k = true := by
  have hi := s.installedAt_installs p r
  have hb : (s.takeResult p r).builder = (s.installedAt p r).builder := by rw [s.takeResult_beside p r]
  have ha : (s.takeResult p r).attention = (s.installedAt p r).attention := by rw [s.takeResult_beside p r]
  rw [hb, ha]
  have hr := hi.records
  have hc := hi.classes
  rw [State.withdrawAt_eq] at hr hc
  exact ⟨hr, hc⟩

/-- R32: what becomes of the point's check. -/
theorem State.takeResult_check_spec (s : State) (p : Point) (r : WindowResult) :
    ((s.point p).low = .quiet → ((s.takeResult p r).point p).low ≠ .quiet → ∀ k, (s.point p).check = some k →
      (k.sent = false → ((s.takeResult p r).point p).check = none) ∧
      (k.sent = true → ((s.takeResult p r).point p).check = some k)) ∧
    ((s.point p).low ≠ .quiet ∨ ((s.takeResult p r).point p).low = .quiet ∨ (s.point p).check = none →
      ((s.takeResult p r).point p).check = (s.point p).check) := by
  obtain ⟨hlow, -⟩ := s.takeResult_trackers p r
  obtain ⟨-, -, -, hcheck⟩ := s.trackBoth_limits p r
  rw [s.takeResult_check]
  constructor
  · intro hq hl k hk
    rw [hlow] at hl
    rw [hq, LowTracker.isQuiet, State.withdrawAt_left hl, PointRecord.withdraw_some (hcheck.trans hk)]
    exact ⟨fun h => if_neg (by rw [h]; exact Bool.false_ne_true), fun h => if_pos h⟩
  · intro h
    rw [State.withdrawAt_stays, hcheck]
    rw [hcheck]
    refine h.imp (fun hl => ?_) (Or.imp_left (fun he => hlow.symm.trans he))
    exact Bool.eq_false_iff.mpr (fun hc => hl ((LowTracker.isQuiet_iff _).mp hc))

/-- Settles O53: the rows of R83 at a result, and the result as a whole. -/
theorem highTrackerMoves : Obligations.HighTrackerMoves := by
  refine ⟨fun s p r low hu => State.highStep_blind_spec hu low, ?whole, ?tracker⟩
  case whole =>
    rintro s u t p r low hq hn rfl rfl
    rw [State.trackBoth_of_low hq hn]
    obtain ⟨hleft, hstays⟩ := s.takeResult_check_spec p r
    obtain ⟨hrec, hcls⟩ := s.takeResult_records p r
    exact ⟨s.takeResult_here p r, hleft, hstays, fun q h => s.takeResult_others r h, s.takeResult_channel p r, hrec,
      hcls, s.takeResult_whole p r⟩
  case tracker =>
    rintro s p r low vmax th answer rfl hmax hall rfl
    have ht := Tracked.highStep p s r low
    obtain ⟨u, us, hu⟩ := WindowResult.usable_cons hmax
    have hhi := highestFrom_eq hu hmax hall
    refine ⟨?_, ht.others, ht.whole, fun hq => ⟨fun h => State.highStep_opens hu hhi hq h low,
      fun h => State.highStep_stays hu hq ?_ low⟩, fun e he => State.highStep_continues hu hhi he low⟩
    · have hlow := ht.low rfl
      have hhere := ht.here
      rw [hlow] at hhere
      exact hhere
    · rw [hhi.1]
      exact Nat.not_lt.mpr h

end Sys2Proof.Machine
end

section
/-! PROOFS. Operations that close or open what a point has in progress: the records they offer, the classes they raise and
the point they leave (`Speaks`), one after another and over the points (`PointOp`). -/

namespace Sys2Proof.Machine

/-! ### Classes that a `Tells` raises -/

theorem Attention.raises_isPending (a : Attention) (r : Routing) (now : Tick) (raised : List AttnClass) (j : AttnClass) :
    (a.raises r now raised).isPending j = (a.isPending j || decide (j ∈ raised)) := by
  induction raised generalizing a with
  | nil => rw [decide_eq_false List.not_mem_nil, Bool.or_false]; rfl
  | cons k rest ih =>
    rw [show a.raises r now (k :: rest) = (a.raise r now k).raises r now rest from rfl, ih, a.raise_isPending, Bool.or_assoc,
      ← Bool.decide_or]
    simp only [List.mem_cons]

/-- A class is pending after it when it was before, when it is raised, or when the queue reached its mark. -/
theorem Tells.isPending_iff {x : List RecordBody} {f : AttnClass → Prop} {s t : State} (h : Tells x f s t)
    (j : AttnClass) : t.attention.isPending j = true ↔ s.attention.isPending j = true ∨ f j ∨
      (j = .queueHigh ∧ s.builder.queue.length < 64 ∧ 64 ≤ t.builder.queue.length) := by
  obtain ⟨raised, ha, hr⟩ := h.raised
  rw [ha, Attention.raises_isPending, Bool.or_eq_true, decide_eq_true_eq, hr]

theorem Tells.raises {x : List RecordBody} {f : AttnClass → Prop} {s t : State} (h : Tells x f s t) {j : AttnClass}
    (hj : f j) : t.attention.isPending j = true :=
  (h.isPending_iff j).mpr (.inr (.inl hj))

theorem Tells.keeps {x : List RecordBody} {f : AttnClass → Prop} {s t : State} (h : Tells x f s t) {j : AttnClass}
    (hj : s.attention.isPending j = true) : t.attention.isPending j = true :=
  (h.isPending_iff j).mpr (.inl hj)

/-- A class that is not raised, and is not the queue's own, stays as it was. -/
theorem Tells.leaves {x : List RecordBody} {f : AttnClass → Prop} {s t : State} (h : Tells x f s t) {j : AttnClass}
    (hj : ¬f j) (hq : j ≠ .queueHigh) : t.attention.isPending j = s.attention.isPending j := by
  rw [Bool.eq_iff_iff, h.isPending_iff]
  exact ⟨fun h => h.elim id (fun h => h.elim (fun h => absurd h hj) (fun h => absurd h.1 hq)), .inl⟩

/-! ### One point -/

/-- `t` is `s` after it offered `bodies`, raised `classes`, and made point `p` the record `y`. -/
structure Speaks (p : Point) (bodies : List RecordBody) (classes : AttnClass → Prop) (y : PointRecord) (s t : State) :
    Prop where
  across : Across s t
  others : ∀ q, q ≠ p → t.point q = s.point q
  here : t.point p = y
  tells : Tells bodies classes s t

theorem Speaks.refl (p : Point) (s : State) : Speaks p [] (fun _ => False) (s.point p) s s :=
  ⟨.refl s, fun _ _ => rfl, rfl, .refl s⟩

theorem Speaks.trans {p : Point} {x x' : List RecordBody} {f g : AttnClass → Prop} {y z : PointRecord} {s t u : State}
    (h : Speaks p x f y s t) (k : Speaks p x' g z t u) : Speaks p (x ++ x') (fun j => f j ∨ g j) z s u :=
  ⟨h.across.trans k.across, fun q hq => (k.others q hq).trans (h.others q hq), k.here, h.tells.trans k.tells⟩

theorem Speaks.mono {p : Point} {x : List RecordBody} {f g : AttnClass → Prop} {y : PointRecord} {s t : State}
    (h : Speaks p x f y s t) (e : ∀ j, f j ↔ g j) : Speaks p x g y s t :=
  { h with tells := h.tells.mono e }

theorem Speaks.modPoint (p : Point) (s : State) (f : PointRecord → PointRecord)
    (h : PointBase (s.point p) (f (s.point p))) :
    Speaks p [] (fun _ => False) (f (s.point p)) s (s.modPoint p f) :=
  ⟨.modPoint s p f h, fun _ hq => s.modPoint_beside f hq, s.modPoint_here p f, .silent rfl rfl rfl rfl⟩

/-- A change of the point after what was said of it. -/
theorem Speaks.thenPoint {p : Point} {x : List RecordBody} {f : AttnClass → Prop} {y : PointRecord} {s t : State}
    (h : Speaks p x f y s t) (g : PointRecord → PointRecord) (hg : PointBase y (g y)) :
    Speaks p x f (g y) s (t.modPoint p g) := by
  have hm := Speaks.modPoint p t g (by rw [h.here]; exact hg)
  rw [h.here] at hm
  have ht := h.trans hm
  rw [List.append_nil] at ht
  exact ht.mono (fun j => or_iff_left id)

theorem Speaks.offer (p : Point) (s : State) (body : RecordBody) :
    Speaks p [body] (fun _ => False) (s.point p) s (s.offer body) :=
  ⟨.noted (.offer s body), fun q _ => (Noted.offer s body).point q, (Noted.offer s body).point p, .offer s body⟩

theorem Speaks.offerRaise (p : Point) (s : State) (body : RecordBody) (k : AttnClass) :
    Speaks p [body] (fun j => j = k) (s.point p) s ((s.offer body).raise k) :=
  ⟨.noted (.offerRaise s body k), fun q _ => (Noted.offerRaise s body k).point q,
    (Noted.offerRaise s body k).point p, .offerRaise s body k⟩

/-! ### What the records of a point are formed from -/

/-- What `Across` leaves alone of what the records and spans of a point are formed from. -/
theorem Across.kept {s t : State} (h : Across s t) :
    t.setup = s.setup ∧ t.control = s.control ∧ t.count = s.count ∧ t.channels = s.channels := by
  obtain ⟨b, a, v, -, rfl⟩ := h.whole
  exact ⟨rfl, rfl, rfl, rfl⟩

theorem Across.epochNow {s t : State} (h : Across s t) : t.epochNow = s.epochNow := by
  obtain ⟨b, a, v, -, rfl⟩ := h.whole
  rfl

theorem Across.epochOf {s t : State} (h : Across s t) (e : Tick) : t.epochOf e = s.epochOf e := by
  obtain ⟨b, a, v, -, rfl⟩ := h.whole
  rfl

theorem Across.blockRecord {s t : State} (h : Across s t) (p : Point) (b : Block) :
    blockRecord t p b = blockRecord s p b := by
  obtain ⟨b, a, v, -, rfl⟩ := h.whole
  rfl

theorem Across.intervalRecord {s t : State} (h : Across s t) (p : Point) (iv : Interval) (e : Tick) (stopped : Bool) :
    intervalRecord t p iv e stopped = intervalRecord s p iv e stopped := by
  obtain ⟨b, a, v, -, rfl⟩ := h.whole
  rfl

theorem Across.summaryRecord {s t : State} (h : Across s t) (p : Point) (a : Assessment) (early stopped : Bool) :
    summaryRecord t p a early stopped = summaryRecord s p a early stopped := by
  obtain ⟨b, a, v, -, rfl⟩ := h.whole
  rfl

theorem Across.takeInterval {s t : State} (h : Across s t) (p : Point) (a : Assessment) (r : IntervalRecord) :
    a.takeInterval t p r = a.takeInterval s p r := by
  have hth := (h.base p).thresholds
  obtain ⟨b, a, v, -, rfl⟩ := h.whole
  unfold Assessment.takeInterval
  rw [hth]
  rfl

theorem Across.newInterval {s t : State} (h : Across s t) (e : Tick) : t.newInterval e = s.newInterval e := by
  obtain ⟨b, a, v, -, rfl⟩ := h.whole
  rfl

/-! ### An operation that is applied to points -/

/-- What an operation on a point says, raises and leaves, as a function of the point's record `x`. -/
structure PointOp (f : State → Point → State) (say : State → Point → PointRecord → List RecordBody)
    (cls : State → Point → PointRecord → AttnClass → Prop) (new : State → Point → PointRecord → PointRecord) :
    Prop where
  acts : ∀ s p, Speaks p (say s p (s.point p)) (cls s p (s.point p)) (new s p (s.point p)) s (f s p)
  same : ∀ {s t : State}, Across s t → ∀ p x, say t p x = say s p x ∧ cls t p x = cls s p x ∧ new t p x = new s p x

theorem PointOp.comp {f g : State → Point → State} {say say' cls cls' new new'} (h : PointOp f say cls new)
    (k : PointOp g say' cls' new') : PointOp (fun s p => g (f s p) p)
      (fun s p x => say s p x ++ say' s p (new s p x)) (fun s p x j => cls s p x j ∨ cls' s p (new s p x) j)
      (fun s p x => new' s p (new s p x)) where
  acts s p := by
    have hf := h.acts s p
    have hg := k.acts (f s p) p
    rw [hf.here] at hg
    obtain ⟨hs, hc, hn⟩ := k.same hf.across p (new s p (s.point p))
    rw [hs, hc, hn] at hg
    exact hf.trans hg
  same ha p x := by
    obtain ⟨hs, hc, hn⟩ := h.same ha p x
    obtain ⟨hs', hc', hn'⟩ := k.same ha p (new _ p x)
    rw [hs, hc, hn, hs', hc', hn']
    exact ⟨rfl, rfl, rfl⟩

/-- The operation over points that are all different: each says, raises and leaves what it would alone. -/
theorem PointOp.foldl {f : State → Point → State} {say cls new} (h : PointOp f say cls new) {l : List Point}
    (hl : l.Nodup) (s : State) : Across s (l.foldl f s) ∧
      (∀ p ∈ l, (l.foldl f s).point p = new s p (s.point p)) ∧ (∀ p, p ∉ l → (l.foldl f s).point p = s.point p) ∧
      Tells (l.flatMap (fun p => say s p (s.point p))) (fun j => ∃ p ∈ l, cls s p (s.point p) j) s (l.foldl f s) := by
  induction l generalizing s with
  | nil => exact ⟨.refl s, nofun, fun _ _ => rfl, (Tells.refl s).mono (fun j => ⟨False.elim, fun ⟨_, hp, _⟩ => nomatch hp⟩)⟩
  | cons p ps ih =>
    obtain ⟨hp, hps⟩ := List.nodup_cons.mp hl
    have hf := h.acts s p
    obtain ⟨hacross, hin, hout, htells⟩ := ih hps (f s p)
    have hpoint (q : Point) (hq : q ∈ ps) : (f s p).point q = s.point q :=
      hf.others q (fun e => hp (e ▸ hq))
    refine ⟨hf.across.trans hacross, List.forall_mem_cons.mpr ⟨?_, fun q hq => ?_⟩, fun q hq => ?_, ?_⟩
    · exact (hout p hp).trans hf.here
    · rw [List.foldl_cons, hin q hq, hpoint q hq]
      exact (h.same hf.across q _).2.2
    · rw [List.mem_cons, not_or] at hq
      exact (hout q hq.2).trans (hf.others q hq.1)
    · have hsay : ps.flatMap (fun q => say (f s p) q ((f s p).point q)) = ps.flatMap (fun q => say s q (s.point q)) := by
        refine flatMap_same (fun q hq => ?_)
        rw [hpoint q hq]
        exact (h.same hf.across q _).1
      have hcls (q : Point) (hq : q ∈ ps) : cls (f s p) q ((f s p).point q) = cls s q (s.point q) := by
        rw [hpoint q hq]
        exact (h.same hf.across q _).2.1
      rw [hsay] at htells
      refine (hf.tells.trans htells).mono (fun j => ?_)
      rw [exists_of_cons]
      refine or_congr_right ⟨fun ⟨q, hq, hc⟩ => ⟨q, hq, ?_⟩, fun ⟨q, hq, hc⟩ => ⟨q, hq, ?_⟩⟩
      · rwa [hcls q hq] at hc
      · rwa [hcls q hq]

theorem nodup_allFour : (allFour : List Point).Nodup := by decide

theorem State.measuredPoints_nodup (s : State) : s.measuredPoints.Nodup :=
  nodup_allFour.filter _

/-! ### Events -/

/-- The records of the open events of a point that are closed by force (R86 to R88). -/
def forcedRecords (cause : EndCause) (s : State) (p : Point) (x : PointRecord) : List RecordBody :=
  (x.low.event.toList ++ x.high.event.toList).map (fun e =>
    .event (eventRecord p e s.count cause (e.judge s.setup none)))

/-- The assessment after the events of a list were counted in it (R111). -/
def countEvents (a : Option Assessment) (events : List OpenEvent) : Option Assessment :=
  events.foldl (fun a e => a.map (fun x => x.countEvent e.eventClass)) a

theorem Speaks.closeIfOpen (p : Point) (s : State) (e : Option OpenEvent) (cause : EndCause) :
    Speaks p (e.toList.map (fun e => .event (eventRecord p e s.count cause (e.judge s.setup none))))
      (fun j => j = .eventEnd ∧ e ≠ none)
      { s.point p with assessment := countEvents (s.point p).assessment e.toList } s (s.closeIfOpen p e cause) := by
  cases e with
  | none => exact (Speaks.refl p s).mono (fun j => ⟨False.elim, fun h => h.2 rfl⟩)
  | some e =>
    exact ((Speaks.offerRaise p s _ .eventEnd).thenPoint
      (fun pt => { pt with assessment := pt.assessment.map (fun a => a.countEvent e.eventClass) })
      ⟨rfl, rfl, rfl, rfl, rfl, rfl, rfl, rfl, id, id⟩).mono
      (fun j => (and_iff_left (Option.some_ne_none e)).symm)

/-- One of two events is there exactly when there is something to say of them. -/
theorem forced_iff (j : AttnClass) (low high : Option OpenEvent) (g : OpenEvent → RecordBody) :
    ((j = .eventEnd ∧ low ≠ none) ∨ (j = .eventEnd ∧ high ≠ none)) ↔
      (j = .eventEnd ∧ (low.toList ++ high.toList).map g ≠ []) := by
  rw [← and_or_left]
  refine and_congr_right fun _ => ?_
  cases low <;> cases high <;> simp

theorem pointOp_forceClose (cause : EndCause) : PointOp (fun s p => s.forceClosePoint cause p) (forcedRecords cause)
    (fun s p x j => j = .eventEnd ∧ forcedRecords cause s p x ≠ [])
    (fun _ _ x => { x with
      low := .quiet, high := .quiet
      assessment := countEvents x.assessment (x.low.event.toList ++ x.high.event.toList) }) where
  acts s p := by
    have h1 := Speaks.closeIfOpen p s (s.point p).low.event cause
    have h2 := Speaks.closeIfOpen p (s.closeIfOpen p (s.point p).low.event cause)
      ((s.closeIfOpen p (s.point p).low.event cause).point p).high.event cause
    obtain ⟨hsetup, -, hcount, -⟩ := h1.across.kept
    rw [h1.here, hsetup, hcount] at h2
    have h := (h1.trans h2).thenPoint (fun pt => { pt with low := .quiet, high := .quiet })
      ⟨rfl, rfl, rfl, rfl, rfl, rfl, rfl, rfl, fun _ => rfl, fun _ => rfl⟩
    have hfold : countEvents (countEvents (s.point p).assessment (s.point p).low.event.toList)
        (s.point p).high.event.toList =
        countEvents (s.point p).assessment ((s.point p).low.event.toList ++ (s.point p).high.event.toList) :=
      List.foldl_append.symm
    rw [← List.map_append] at h
    rw [hfold] at h
    rw [State.forceClosePoint, h1.here]
    exact h.mono (fun j => forced_iff j _ _ _)
  same ha p x := by
    obtain ⟨hsetup, -, hcount, -⟩ := ha.kept
    unfold forcedRecords
    rw [hsetup, hcount]
    exact ⟨rfl, rfl, rfl⟩

/-! ### Blocks -/

/-- The record of a block that closes, when one is created (R101). -/
def blockRecords (s : State) (p : Point) (b : Block) : List RecordBody :=
  if s.control.device == .running && inMask s.setup.blockPoints p.val then [.block (blockRecord s p b)] else []

/-- The point after a block closed: a new block, and the mean squares in the interval. -/
def PointRecord.closedBlock (x : PointRecord) (b : Block) : PointRecord :=
  { x with block := some .fresh, interval := x.interval.map (fun iv => iv.takeBlock b) }

theorem Speaks.closeBlock (p : Point) (s : State) (b : Block) :
    Speaks p (blockRecords s p b) (fun _ => False) ((s.point p).closedBlock b) s (s.closeBlock p b) := by
  unfold State.closeBlock blockRecords
  dsimp only
  split
  · exact (Speaks.offer p s _).thenPoint (fun pt => pt.closedBlock b) ⟨rfl, rfl, rfl, rfl, rfl, rfl, rfl, rfl, id, id⟩
  · exact Speaks.modPoint p s (fun pt => pt.closedBlock b) ⟨rfl, rfl, rfl, rfl, rfl, rfl, rfl, rfl, id, id⟩

/-- The record of a block that is closed short: none when the block holds nothing (R99). -/
def shortRecords (s : State) (p : Point) (x : PointRecord) : List RecordBody :=
  match x.block with
  | none => []
  | some b => if b.count = 0 then [] else blockRecords s p b

/-- The point after its block was closed short. -/
def PointRecord.shortened (x : PointRecord) : PointRecord :=
  match x.block with
  | none => x
  | some b => if b.count = 0 then { x with block := some .fresh } else x.closedBlock b

theorem pointOp_closeBlockShort : PointOp State.closeBlockShort shortRecords (fun _ _ _ _ => False)
    (fun _ _ x => x.shortened) where
  acts s p := by
    unfold State.closeBlockShort shortRecords PointRecord.shortened
    cases (s.point p).block with
    | none => exact Speaks.refl p s
    | some b =>
      dsimp only
      split
      · exact Speaks.modPoint p s (fun pt => { pt with block := some .fresh })
          ⟨rfl, rfl, rfl, rfl, rfl, rfl, rfl, rfl, id, id⟩
      · exact Speaks.closeBlock p s b
  same ha p x := by
    obtain ⟨hsetup, hcontrol, -, -⟩ := ha.kept
    refine ⟨?_, rfl, rfl⟩
    unfold shortRecords blockRecords
    simp only [hsetup, hcontrol, ha.blockRecord]

/-! ### Assessments -/

/-- The summary of an assessment that ends (R112). -/
def summaryRecords (early stopped : Bool) (s : State) (p : Point) (x : PointRecord) : List RecordBody :=
  x.assessment.toList.map (fun a => .summary (summaryRecord s p a early stopped))

/-- The point after its assessment ended, if it had one. -/
def PointRecord.reassessed (x : PointRecord) (next : Option Assessment) : PointRecord :=
  match x.assessment with
  | none => x
  | some _ => { x with assessment := next }

theorem pointOp_endAssessment (early stopped : Bool) {next : State → Option Assessment}
    (hn : ∀ {s t : State}, Across s t → next t = next s) :
    PointOp (fun s p => s.endAssessment p early stopped (next s)) (summaryRecords early stopped)
      (fun _ _ x j => j = .assessmentClosed ∧ x.assessment ≠ none) (fun s _ x => x.reassessed (next s)) where
  acts s p := by
    unfold State.endAssessment summaryRecords PointRecord.reassessed
    cases (s.point p).assessment with
    | none => exact (Speaks.refl p s).mono (fun j => ⟨False.elim, fun h => h.2 rfl⟩)
    | some a =>
      exact ((Speaks.offerRaise p s _ .assessmentClosed).thenPoint (fun pt => { pt with assessment := next s })
        ⟨rfl, rfl, rfl, rfl, rfl, rfl, rfl, rfl, id, id⟩).mono (fun j => (and_iff_left (Option.some_ne_none a)).symm)
  same ha p x := by
    refine ⟨?_, rfl, by rw [hn ha]⟩
    unfold summaryRecords
    simp only [ha.summaryRecord]

/-! ### Intervals -/

/-- The point after its interval closed, before its assessment may end (R104, R110). -/
def PointRecord.closedInterval (x : PointRecord) (s : State) (p : Point) (iv : Interval) (e : Tick)
    (stopped : Bool) : PointRecord :=
  { x with
    interval := none
    assessment := x.assessment.map (fun a => a.takeInterval s p (intervalRecord s p iv e stopped)) }

/-- The assessment of a record has reached its length (R104). -/
def PointRecord.full (x : PointRecord) (length : Nat) : Bool :=
  match x.assessment with
  | none => false
  | some a => decide (length ≤ a.closedIntervals)

theorem State.assessmentFull_eq (s : State) (p : Point) :
    s.assessmentFull p = (s.point p).full s.setup.assessmentLength :=
  rfl

/-- The assessment that a closed interval ends. -/
def PointRecord.ended (x : PointRecord) (u : Setup) (stopped : Bool) : Bool :=
  !stopped && x.full u.assessmentLength

/-- The records of an interval that closes: its own, and the summary of the assessment that it fills (R104, R112). -/
def intervalRecords (e : State → Tick) (stopped : Bool) (s : State) (p : Point) (x : PointRecord) : List RecordBody :=
  match x.interval with
  | none => []
  | some iv => .interval (intervalRecord s p iv (e s) stopped) ::
      (if (x.closedInterval s p iv (e s) stopped).ended s.setup stopped then
        summaryRecords false false s p (x.closedInterval s p iv (e s) stopped) else [])

/-- The point after its interval closed. -/
def PointRecord.intervalClosed (e : State → Tick) (stopped : Bool) (s : State) (p : Point) (x : PointRecord) :
    PointRecord :=
  match x.interval with
  | none => x
  | some iv =>
    if (x.closedInterval s p iv (e s) stopped).ended s.setup stopped then
      (x.closedInterval s p iv (e s) stopped).reassessed (some (.fresh (s.epochOf (e s))))
    else x.closedInterval s p iv (e s) stopped

/-- The state in which the record of a closed interval has been offered. -/
def State.intervalOffered (s : State) (p : Point) (iv : Interval) (e : Tick) (stopped : Bool) : State :=
  ((s.modPoint p (fun pt => pt.closedInterval s p iv e stopped)).offer
    (.interval (intervalRecord s p iv e stopped))).raise .intervalClosed

theorem State.closeInterval_some {s : State} {p : Point} {iv : Interval} (h : (s.point p).interval = some iv) (e : Tick)
    (stopped : Bool) : s.closeInterval p e stopped =
      if !stopped && (s.intervalOffered p iv e stopped).assessmentFull p then
        (s.intervalOffered p iv e stopped).endAssessment p false false
          (some (.fresh ((s.intervalOffered p iv e stopped).epochOf e)))
      else s.intervalOffered p iv e stopped := by
  rw [State.closeInterval, h]
  rfl

theorem Speaks.intervalOffered (p : Point) (s : State) (iv : Interval) (e : Tick) (stopped : Bool) :
    Speaks p [.interval (intervalRecord s p iv e stopped)] (fun j => j = .intervalClosed)
      ((s.point p).closedInterval s p iv e stopped) s (s.intervalOffered p iv e stopped) := by
  have h1 := Speaks.modPoint p s (fun pt => pt.closedInterval s p iv e stopped)
    ⟨rfl, rfl, rfl, rfl, rfl, rfl, rfl, rfl, id, id⟩
  have h2 := h1.trans (Speaks.offerRaise p _ (.interval (intervalRecord s p iv e stopped)) .intervalClosed)
  rw [h1.here] at h2
  exact h2.mono (fun j => or_iff_right id)

theorem PointRecord.ended_some {x : PointRecord} {u : Setup} {stopped : Bool} (h : x.ended u stopped = true) :
    x.assessment ≠ none := by
  intro hn
  rw [PointRecord.ended, PointRecord.full, hn, Bool.and_false] at h
  cases h

theorem summaryRecords_same {s t : State} (ha : Across s t) (early stopped : Bool) (p : Point) (x : PointRecord) :
    summaryRecords early stopped t p x = summaryRecords early stopped s p x := by
  unfold summaryRecords
  simp only [ha.summaryRecord]

theorem pointOp_closeInterval (stopped : Bool) {e : State → Tick} (he : ∀ {s t : State}, Across s t → e t = e s) :
    PointOp (fun s p => s.closeInterval p (e s) stopped) (intervalRecords e stopped)
      (fun s p x j => (j = .intervalClosed ∧ x.interval ≠ none) ∨ (j = .assessmentClosed ∧ ∃ iv, x.interval = some iv ∧
        (x.closedInterval s p iv (e s) stopped).ended s.setup stopped = true))
      (PointRecord.intervalClosed e stopped) where
  acts s p := by
    unfold intervalRecords PointRecord.intervalClosed
    cases hiv : (s.point p).interval with
    | none =>
      rw [show s.closeInterval p (e s) stopped = s by rw [State.closeInterval, hiv]]
      exact (Speaks.refl p s).mono
        (fun j => ⟨False.elim, fun h => h.elim (fun h => h.2 rfl) (fun ⟨_, _, h, _⟩ => nomatch h)⟩)
    | some iv =>
      rw [State.closeInterval_some hiv]
      dsimp only
      have h2 := Speaks.intervalOffered p s iv (e s) stopped
      have hfull : (!stopped && (s.intervalOffered p iv (e s) stopped).assessmentFull p) =
          ((s.point p).closedInterval s p iv (e s) stopped).ended s.setup stopped := by
        rw [State.assessmentFull_eq, h2.here, h2.across.kept.1]
        rfl
      rw [hfull, h2.across.epochOf]
      have hrule (j : AttnClass) : j = .intervalClosed ↔ (j = .intervalClosed ∧ some iv ≠ none) :=
        (and_iff_left (Option.some_ne_none iv)).symm
      by_cases hc : ((s.point p).closedInterval s p iv (e s) stopped).ended s.setup stopped = true
      · rw [if_pos hc, if_pos hc, if_pos hc]
        have h3 := (pointOp_endAssessment false false (next := fun _ => some (.fresh (s.epochOf (e s))))
          (fun _ => rfl)).acts (s.intervalOffered p iv (e s) stopped) p
        rw [h2.here, summaryRecords_same h2.across] at h3
        refine (h2.trans h3).mono (fun j => or_congr (hrule j) (and_congr_right fun _ => ?_))
        exact iff_of_true (PointRecord.ended_some hc) ⟨iv, rfl, hc⟩
      · rw [if_neg hc, if_neg hc, if_neg hc]
        refine h2.mono (fun j => (hrule j).trans (or_iff_left ?_).symm)
        rintro ⟨-, x, hx, he⟩
        cases hx
        exact hc he
  same {s t} ha p x := by
    obtain ⟨hsetup, -, -, -⟩ := ha.kept
    have hclosed (iv : Interval) :
        x.closedInterval t p iv (e s) stopped = x.closedInterval s p iv (e s) stopped := by
      unfold PointRecord.closedInterval
      simp only [ha.intervalRecord, ha.takeInterval]
    refine ⟨?_, ?_, ?_⟩
    · unfold intervalRecords summaryRecords
      simp only [hclosed, hsetup, he ha, ha.intervalRecord, ha.summaryRecord]
    · simp only [hsetup, he ha, hclosed]
    · unfold PointRecord.intervalClosed
      simp only [hclosed, hsetup, he ha, ha.epochOf]

/-! ### Opening -/

theorem pointOp_openSpans : PointOp (fun s p => s.openSpans s.count p) (fun _ _ _ => []) (fun _ _ _ _ => False)
    (fun s _ x => { x with block := some .fresh, interval := some (s.newInterval s.count) }) where
  acts s p := Speaks.modPoint p s (fun pt => { pt with block := some .fresh, interval := some (s.newInterval s.count) })
    ⟨rfl, rfl, rfl, rfl, rfl, rfl, rfl, rfl, id, id⟩
  same ha p x := by
    obtain ⟨-, -, hcount, -⟩ := ha.kept
    rw [hcount, ha.newInterval]
    exact ⟨rfl, rfl, rfl⟩

/-- A change of the point alone. -/
theorem pointOp_modPoint {g : State → PointRecord → PointRecord} (hg : ∀ s x, PointBase x (g s x))
    (hs : ∀ {s t : State}, Across s t → g t = g s) : PointOp (fun s p => s.modPoint p (g s)) (fun _ _ _ => [])
      (fun _ _ _ _ => False) (fun s _ x => g s x) where
  acts s p := Speaks.modPoint p s (g s) (hg s _)
  same ha p x := ⟨rfl, rfl, by rw [hs ha]⟩

end Sys2Proof.Machine
end

section
/-! PROOFS. Blocks, intervals, assessments and frequency periods, one operation at a time (R48 to R52, R65, R66, R97 to R104,
R110, R111): the parts of O54 that speak of one operation each. -/

namespace Sys2Proof.Machine

/-! ### A closed block (R66, R101) -/

theorem blockRecords_created {s : State} {p : Point} (hd : s.control.device = .running)
    (hp : s.setup.blockPoints.getLsbD p.val = true) (b : Block) :
    blockRecords s p b = [.block (blockRecord s p b)] :=
  if_pos (by rw [hd, show inMask s.setup.blockPoints p.val = true from hp]; rfl)

theorem blockRecords_none {s : State} {p : Point}
    (h : s.control.device ≠ .running ∨ s.setup.blockPoints.getLsbD p.val = false) (b : Block) :
    blockRecords s p b = [] := by
  refine if_neg ?_
  rw [Bool.and_eq_true, beq_iff_eq]
  rintro ⟨hd, hp⟩
  rcases h with h | h
  · exact h hd
  · exact Bool.false_ne_true (h.symm.trans hp)

theorem blockRecord_short_iff (s : State) (p : Point) (b : Block) :
    (blockRecord s p b).short = true ↔ b.count < s.setup.nominal.blockLength :=
  decide_eq_true_iff

theorem State.closeBlock_spec (s : State) (p : Point) (b : Block) :
    (s.closeBlock p b).builder = s.builder.offers (blockRecords s p b) ∧
      (s.closeBlock p b).point p = (s.point p).closedBlock b :=
  ⟨(Speaks.closeBlock p s b).tells.builder, (Speaks.closeBlock p s b).here⟩

theorem State.closeBlockShort_empty {s : State} {p : Point} {b : Block} (h : (s.point p).block = some b)
    (hc : b.count = 0) : s.closeBlockShort p = s.modPoint p (fun pt => { pt with block := some .fresh }) := by
  rw [State.closeBlockShort, h]
  exact if_pos hc

theorem State.closeBlockShort_full {s : State} {p : Point} {b : Block} (h : (s.point p).block = some b)
    (hc : b.count ≠ 0) : s.closeBlockShort p = s.closeBlock p b := by
  rw [State.closeBlockShort, h]
  exact if_neg hc

theorem BlockSum.mean_zero {b : BlockSum} (h : b.n = 0) : b.mean = none :=
  if_neg (by rw [h]; exact Nat.lt_irrefl 0)

theorem BlockSum.mean_some {b : BlockSum} (h : b.n ≠ 0) : b.mean = some (b.q / b.n) :=
  if_pos (Nat.pos_of_ne_zero h)

theorem Interval.takeBlock_sums (iv : Interval) (b : Block) (c : Channel) :
    (b.sums[c.val].n = 0 → (iv.takeBlock b).sums[c.val] = iv.sums[c.val]) ∧
    (b.sums[c.val].n ≠ 0 → (iv.takeBlock b).sums[c.val] = { iv.sums[c.val] with
      sum := iv.sums[c.val].sum + b.sums[c.val].q / b.sums[c.val].n, count := iv.sums[c.val].count + 1 }) := by
  unfold Interval.takeBlock
  dsimp only
  rw [mapAll_get]
  exact ⟨fun h => by rw [BlockSum.mean_zero h], fun h => by rw [BlockSum.mean_some h]⟩

/-! ### A closed interval (R104, R110) -/

theorem intervalRecord_short_iff (s : State) (p : Point) (iv : Interval) (e : Tick) (stopped : Bool) :
    (intervalRecord s p iv e stopped).flags.short = true ↔
      (e - iv.coverageStart).toNat < s.setup.intervalLength * s.setup.nominal.rate :=
  decide_eq_true_iff

/-- Whether a closed interval ends the assessment. -/
theorem PointRecord.closedInterval_ended {x : PointRecord} {a : Assessment} (ha : x.assessment = some a) (s : State)
    (p : Point) (iv : Interval) (e : Tick) :
    (x.closedInterval s p iv e false).ended s.setup false = true ↔ s.setup.assessmentLength ≤ a.closedIntervals + 1 := by
  unfold PointRecord.ended PointRecord.full PointRecord.closedInterval
  rw [ha]
  exact decide_eq_true_iff

/-- The interval's record and, with the assessment it fills, the summary. -/
theorem State.closeInterval_spec {s : State} {p : Point} {iv : Interval} {a : Assessment}
    (hiv : (s.point p).interval = some iv) (ha : (s.point p).assessment = some a) (e : Tick) :
    ((s.closeInterval p e false).point p).interval = none ∧
      (s.closeInterval p e false).attention.isPending .intervalClosed = true ∧
      (a.closedIntervals + 1 < s.setup.assessmentLength →
        (s.closeInterval p e false).builder = s.builder.offer (.interval (intervalRecord s p iv e false)) ∧
        ((s.closeInterval p e false).point p).assessment =
          some (a.takeInterval s p (intervalRecord s p iv e false))) ∧
      (s.setup.assessmentLength ≤ a.closedIntervals + 1 →
        ((s.closeInterval p e false).point p).assessment = some (.fresh (s.epochOf e)) ∧
        (s.closeInterval p e false).attention.isPending .assessmentClosed = true ∧
        (s.closeInterval p e false).builder = (s.builder.offer (.interval (intervalRecord s p iv e false))).offer
          (.summary (summaryRecord s p (a.takeInterval s p (intervalRecord s p iv e false)) false false))) := by
  have hop := (pointOp_closeInterval false (e := fun _ => e) (fun _ => rfl)).acts s p
  have hended := PointRecord.closedInterval_ended ha s p iv e
  have hpoint := hop.here
  have hbuilder := hop.tells.builder
  unfold PointRecord.intervalClosed at hpoint
  unfold intervalRecords at hbuilder
  rw [hiv] at hpoint hbuilder
  dsimp only at hpoint hbuilder
  have hclosed : ((s.point p).closedInterval s p iv e false).assessment =
      some (a.takeInterval s p (intervalRecord s p iv e false)) := by
    unfold PointRecord.closedInterval
    rw [ha]
    rfl
  refine ⟨?_, hop.tells.raises (.inl ⟨rfl, by rw [hiv]; exact Option.some_ne_none iv⟩), fun hlt => ?_, fun hle => ?_⟩
  · rw [hpoint]
    split
    · unfold PointRecord.reassessed
      split <;> rfl
    · rfl
  · have hn : ¬((s.point p).closedInterval s p iv e false).ended s.setup false = true :=
      fun h => Nat.not_le.mpr hlt (hended.mp h)
    rw [if_neg hn] at hpoint hbuilder
    rw [hpoint]
    exact ⟨hbuilder, hclosed⟩
  · have hy := hended.mpr hle
    rw [if_pos hy] at hpoint hbuilder
    refine ⟨?_, hop.tells.raises (.inr ⟨rfl, iv, hiv, hy⟩), ?_⟩
    · rw [hpoint, PointRecord.reassessed, hclosed]
    · rw [hbuilder, summaryRecords, hclosed]
      rfl

theorem IntervalRecord.evaluable_iff (r : IntervalRecord) : r.evaluable = true ↔
    r.flags.disturbed = false ∧ r.flags.short = false ∧ 2 * r.blindHalfWindows ≤ r.halfWindows := by
  rw [IntervalRecord.evaluable, Bool.and_eq_true, Bool.and_eq_true, Bool.not_eq_true', Bool.not_eq_true',
    decide_eq_true_eq, and_assoc]

/-- R110: the counts of a phase, by its value. -/
theorem Assessment.takeInterval_phase (s : State) (p : Point) (a : Assessment) (r : IntervalRecord) (i : Fin 3) :
    (r.evaluable = false ∨ (∀ c, s.voltageOf p (i.val + 1) = some c → r.valueOf c = none) →
      (a.takeInterval s p r).phases[i.val] = a.phases[i.val]) ∧
    ∀ c v, r.evaluable = true → s.voltageOf p (i.val + 1) = some c → r.valueOf c = some v →
      (a.takeInterval s p r).phases[i.val] =
        { evaluated := a.phases[i.val].evaluated + 1
          below := a.phases[i.val].below + (if v < (s.point p).thresholds.lowerBand then 1 else 0)
          above := a.phases[i.val].above + (if (s.point p).thresholds.upperBand < v then 1 else 0) } := by
  have hget : (a.takeInterval s p r).phases[i.val] = (a.phases[i.val]).take (s.point p).thresholds r.evaluable
      (s.phaseValue p r (i.val + 1)) := mapAll_get _ _ i
  rw [hget]
  constructor
  · intro h
    unfold PhaseCounts.take
    split
    · rfl
    · next v hv =>
      rcases h with h | h
      · rw [h]
        rfl
      · unfold State.phaseValue at hv
        split at hv
        · cases hv
        · next c hc => rw [h c hc] at hv; cases hv
  · intro c v he hc hv
    rw [State.phaseValue, hc]
    dsimp only
    rw [hv, he, PhaseCounts.take, if_pos rfl, PhaseCounts.judge]
    congr 1 <;> split <;> rfl

/-! ### A half-window that joins (R100, R102) -/

theorem ClosedHalf.blind_eq (h : ClosedHalf) : h.blind = h.result.any (fun r => r.usable.isEmpty) := by
  unfold ClosedHalf.blind
  cases h.result <;> rfl

theorem Block.join_sums (b : Block) (start : Tick) (tallies : Vector (Option Tally) 24) (h : ClosedHalf)
    (c : Channel) :
    (∀ y, tallies[c.val] = some y → y.unavailable = 0 →
      (b.join start tallies h).sums[c.val] = { q := b.sums[c.val].q + y.q, n := b.sums[c.val].n + y.n }) ∧
    (tallies[c.val] = none ∨ (∃ y, tallies[c.val] = some y ∧ y.unavailable ≠ 0) →
      (b.join start tallies h).sums[c.val] = b.sums[c.val]) := by
  unfold Block.join
  dsimp only
  rw [mapAll_get]
  refine ⟨fun y hy hu => ?_, fun hn => ?_⟩
  · rw [hy]
    exact if_pos hu
  · rcases hn with hn | ⟨y, hy, hu⟩
    · rw [hn]
    · rw [hy]
      exact if_neg hu

theorem lesserOf_eq (least : Option Nat) (v : Nat) :
    lesserOf least v = some (match least with | none => v | some x => min x v) := by
  cases least with
  | none => rfl
  | some x =>
    refine congrArg some ?_
    dsimp only
    split <;> omega

theorem greaterOf_eq (greatest : Option Nat) (v : Nat) :
    greaterOf greatest v = some (match greatest with | none => v | some x => max x v) := by
  cases greatest with
  | none => rfl
  | some x =>
    refine congrArg some ?_
    dsimp only
    split <;> omega

/-- A count that goes on by one under a condition. -/
theorem countIf (n : Nat) (c : Prop) [Decidable c] : (if c then n + 1 else n) = n + (if c then 1 else 0) := by
  split <;> rfl

/-- R102: a window value in its channel's accumulators. -/
theorem IntervalSum.add_spec (a : IntervalSum) (w : WindowValue) :
    (a.add w).held = a.held + (if w.quality = .held then 1 else 0) ∧
      (a.add w).clipped = a.clipped + (if w.clipped then 1 else 0) ∧
      (a.add w).opened = a.opened + (if w.opened then 1 else 0) ∧
      (a.add w).sum = a.sum ∧ (a.add w).count = a.count ∧
      (w.opened = true ∨ w.value = none → (a.add w).least = a.least ∧ (a.add w).greatest = a.greatest) ∧
      ∀ v, w.opened = false → w.value = some v →
        (a.add w).least = some (match a.least with | none => v | some x => min x v) ∧
        (a.add w).greatest = some (match a.greatest with | none => v | some x => max x v) := by
  refine ⟨countIf _ _, countIf _ _, countIf _ _, rfl, rfl, fun h => ?_, fun v ho hv => ?_⟩
  all_goals
    unfold IntervalSum.add
    dsimp only
  · rcases h with h | h
    · rw [h]
      cases w.value <;> exact ⟨rfl, rfl⟩
    · rw [h]
      exact ⟨rfl, rfl⟩
  · rw [hv, ho]
    exact ⟨lesserOf_eq a.least v, greaterOf_eq a.greatest v⟩

theorem ClosedHalf.windowOf_none {h : ClosedHalf} {r : WindowResult} {c : Channel} (hr : h.result = some r)
    (hn : ∀ w ∈ r.values, w.channel ≠ c) : h.windowOf c = none := by
  unfold ClosedHalf.windowOf
  rw [hr]
  exact List.find?_eq_none.mpr (fun w hw hc => hn w hw (beq_iff_eq.mp hc))

theorem ClosedHalf.windowOf_some {h : ClosedHalf} {r : WindowResult} {c : Channel} {w : WindowValue}
    (hr : h.result = some r) (hw : w ∈ r.values) (hc : w.channel = c)
    (hu : ∀ x ∈ r.values, x.channel = c → x = w) : h.windowOf c = some w := by
  unfold ClosedHalf.windowOf
  rw [hr]
  dsimp only
  cases hf : r.values.find? (fun w => w.channel == c) with
  | none => exact absurd (beq_iff_eq.mpr hc) (List.find?_eq_none.mp hf w hw)
  | some x =>
    have hx := List.find?_some hf
    rw [hu x (List.mem_of_find?_eq_some hf) (beq_iff_eq.mp hx)]

theorem Interval.join_sum_none {iv : Interval} {h : ClosedHalf} {c : Channel} (hw : h.windowOf c = none) :
    (iv.join h).sums[c.val] = iv.sums[c.val] := by
  unfold Interval.join
  dsimp only
  rw [mapAll_get, hw]

theorem Interval.join_sum_some {iv : Interval} {h : ClosedHalf} {c : Channel} {w : WindowValue}
    (hw : h.windowOf c = some w) : (iv.join h).sums[c.val] = (iv.sums[c.val]).add w := by
  unfold Interval.join
  dsimp only
  rw [mapAll_get, hw]

/-! ### A half-window that is taken (R97 to R100) -/

theorem multipleBelow_le (len e : Nat) : multipleBelow len e ≤ e :=
  Nat.sub_le e _

theorem multipleBelow_fixed (len e : Nat) : multipleBelow len (multipleBelow len e) = multipleBelow len e := by
  unfold multipleBelow
  rw [Nat.sub_mod_eq_zero_of_mod_eq (Nat.mod_mod e len).symm, Nat.sub_zero]

/-- A multiple of the interval length below an epoch value is its own base. -/
theorem intervalBase_fixed (u : Setup) (t : Tick) :
    (BitVec.ofNat 48 (intervalBase u t)).toNat = intervalBase u t ∧
      intervalBase u (BitVec.ofNat 48 (intervalBase u t)) = intervalBase u t := by
  have hlt : intervalBase u t < 2 ^ 48 := Nat.lt_of_le_of_lt (multipleBelow_le _ _) t.isLt
  have hn : (BitVec.ofNat 48 (intervalBase u t)).toNat = intervalBase u t := by
    rw [BitVec.toNat_ofNat, Nat.mod_eq_of_lt hlt]
  refine ⟨hn, ?_⟩
  unfold intervalBase at hn ⊢
  rw [hn]
  exact multipleBelow_fixed _ _

theorem State.baseMoves_iff {s : State} {p : Point} {iv : Interval} (h : (s.point p).interval = some iv) (base : Nat) :
    s.baseMoves p base = true ↔ iv.base ≠ base := by
  rw [State.baseMoves, h]
  exact bne_iff_ne

/-- The half-window in an unchanged base. -/
theorem State.takeHalf_stays {s : State} {p : Point} {h : ClosedHalf}
    (hb : ¬s.baseMoves p (intervalBase s.setup (s.epochOf h.tick)) = true) : s.takeHalf p h =
      (s.joinBlock p h).modPoint p (fun pt => { pt with interval := pt.interval.map (fun iv => iv.join h) }) := by
  rw [State.takeHalf, if_neg hb]

theorem State.takeHalf_moves {s : State} {p : Point} {h : ClosedHalf}
    (hb : s.baseMoves p (intervalBase s.setup (s.epochOf h.tick)) = true) : s.takeHalf p h =
      ((s.changeBase p (intervalBase s.setup (s.epochOf h.tick))).joinBlock p h).modPoint p
        (fun pt => { pt with interval := pt.interval.map (fun iv => iv.join h) }) := by
  rw [State.takeHalf, if_pos hb]

theorem Across.changeBase (s : State) (p : Point) (base : Nat) : Across s (s.changeBase p base) :=
  ((Across.closeBlockShort s p).trans (Across.closeInterval _ p _ false)).trans (Across.openSpans _ _ p)

/-- The spans that a new base opens (R98, R99). -/
theorem State.changeBase_eq (s : State) (p : Point) (t : Tick) {base : Nat} {start : Tick}
    (hbase : base = intervalBase s.setup (s.epochOf t)) (hstart : start = BitVec.ofNat 48 base - s.control.offset) :
    s.changeBase p base = ((s.closeBlockShort p).closeInterval p start false).modPoint p (fun pt => { pt with
      block := some .fresh
      interval := some
        { base := base, coverageStart := start, coverageEpoch := BitVec.ofNat 48 base, halfWindows := 0
          blindHalfWindows := 0, disturbed := false, timeStepped := false, epochUnset := s.control.epochUnset
          sums := Vector.replicate 24 .zero, frequency := .zero } }) := by
  have ha : Across s ((s.closeBlockShort p).closeInterval p start false) :=
    (Across.closeBlockShort s p).trans (Across.closeInterval _ p _ false)
  have hepoch : s.epochOf start = BitVec.ofNat 48 base := by
    rw [hstart, State.epochOf, BitVec.sub_add_cancel]
  have hb : intervalBase s.setup (s.epochOf start) = base := by
    rw [hepoch, hbase]
    exact (intervalBase_fixed s.setup _).2
  have hnew : s.newInterval start =
      { base := base, coverageStart := start, coverageEpoch := BitVec.ofNat 48 base, halfWindows := 0
        blindHalfWindows := 0, disturbed := false, timeStepped := false, epochUnset := s.control.epochUnset
        sums := Vector.replicate 24 .zero, frequency := .zero } := by
    rw [State.newInterval, hb, hepoch]
  rw [State.changeBase, ← hstart, State.openSpans, ha.newInterval, hnew]

/-- A half-window in a new base is taken as one of that base, once the spans have changed. -/
theorem State.takeHalf_changeBase {s : State} {p : Point} {h : ClosedHalf} {iv : Interval} {base : Nat} {start : Tick}
    (hiv : (s.point p).interval = some iv) (hbase : base = intervalBase s.setup (s.epochOf h.tick))
    (hne : iv.base ≠ base) (hstart : start = BitVec.ofNat 48 base - s.control.offset) :
    s.takeHalf p h = (s.changeBase p base).takeHalf p h := by
  have ha := Across.changeBase s p base
  have hb : intervalBase (s.changeBase p base).setup ((s.changeBase p base).epochOf h.tick) = base := by
    rw [ha.kept.1, ha.epochOf, hbase]
  have hstay : ¬(s.changeBase p base).baseMoves p
      (intervalBase (s.changeBase p base).setup ((s.changeBase p base).epochOf h.tick)) = true := by
    have hopen : ((s.changeBase p base).point p).interval = some
        { base := base, coverageStart := start, coverageEpoch := BitVec.ofNat 48 base, halfWindows := 0
          blindHalfWindows := 0, disturbed := false, timeStepped := false, epochUnset := s.control.epochUnset
          sums := Vector.replicate 24 .zero, frequency := .zero } := by
      rw [s.changeBase_eq p h.tick hbase hstart, State.modPoint_here]
    rw [hb]
    exact fun hm => (State.baseMoves_iff hopen base).mp hm rfl
  rw [State.takeHalf_stays hstay, State.takeHalf_moves, ← hbase]
  rw [← hbase]
  exact (State.baseMoves_iff hiv base).mpr hne

theorem State.closedTallies_eq (s : State) (p : Point) : s.closedTallies p = Vector.ofFn (fun c : Channel =>
    if (s.channel c).entry.enabled = true ∧ (s.channel c).entry.point = p.val then some (s.channel c).previous
    else none) := by
  refine Vector.ext fun i hi => ?_
  have hget := mapAll_get s.channels
    (fun _ ch => if ch.entry.enabled && ch.entry.point == p.val then some ch.previous else none) ⟨i, hi⟩
  rw [Vector.getElem_ofFn]
  refine hget.trans ?_
  simp only [Bool.and_eq_true, beq_iff_eq]
  rfl

theorem State.joinBlock_some {s : State} {p : Point} {b : Block} (hb : (s.point p).block = some b) (h : ClosedHalf) :
    s.joinBlock p h =
      if b.count + 1 = s.setup.nominal.blockLength then
        s.closeBlock p (b.join (s.epochOf (h.tick - BitVec.ofNat 48 h.count + 1)) (s.closedTallies p) h)
      else s.modPoint p (fun pt => { pt with
        block := some (b.join (s.epochOf (h.tick - BitVec.ofNat 48 h.count + 1)) (s.closedTallies p) h) }) := by
  rw [State.joinBlock, hb]
  rfl

/-- R100, R102: a half-window of the base in progress. -/
theorem State.takeHalf_joins {s : State} {p : Point} {h : ClosedHalf} {iv : Interval} {b joined : Block}
    (hiv : (s.point p).interval = some iv) (hb : (s.point p).block = some b)
    (hbase : iv.base = intervalBase s.setup (s.epochOf h.tick))
    (hj : joined = b.join (h.tick - BitVec.ofNat 48 h.count + 1 + s.control.offset)
      (Vector.ofFn (fun c : Channel =>
        if (s.channel c).entry.enabled = true ∧ (s.channel c).entry.point = p.val then some (s.channel c).previous
        else none)) h) :
    (b.count + 1 ≠ s.setup.nominal.blockLength →
      s.takeHalf p h = s.modPoint p (fun pt => { pt with block := some joined, interval := some (iv.join h) })) ∧
    (b.count + 1 = s.setup.nominal.blockLength →
      s.takeHalf p h = (s.closeBlock p joined).modPoint p (fun pt =>
        { pt with interval := some ((iv.takeBlock joined).join h) })) := by
  have hstay : ¬s.baseMoves p (intervalBase s.setup (s.epochOf h.tick)) = true :=
    fun hm => (State.baseMoves_iff hiv _).mp hm hbase
  have hjoin : b.join (s.epochOf (h.tick - BitVec.ofNat 48 h.count + 1)) (s.closedTallies p) h = joined := by
    rw [hj, s.closedTallies_eq]
    rfl
  rw [State.takeHalf_stays hstay, State.joinBlock_some hb, hjoin]
  refine ⟨fun hn => ?_, fun hy => ?_⟩
  · rw [if_neg hn, State.modPoint_modPoint]
    refine s.modPoint_congr p ?_
    dsimp only
    rw [hiv]
    rfl
  · rw [if_pos hy]
    refine State.modPoint_congr _ p ?_
    have hi : ((s.closeBlock p joined).point p).interval = some (iv.takeBlock joined) := by
      rw [(s.closeBlock_spec p joined).2, PointRecord.closedBlock, hiv]
      rfl
    rw [hi]
    rfl

/-! ### Frequency periods (R49 to R52, R103, R111) -/

theorem State.advancePeriod_none {s : State} {p : Point} (h : (s.point p).period = none) (t : Tick) :
    s.advancePeriod p t = s.modPoint p (fun pt => { pt with period := some (.fresh (s.periodFirst t)) }) := by
  rw [State.advancePeriod, h]

theorem State.advancePeriod_same {s : State} {p : Point} {q : Period} (h : (s.point p).period = some q) {t : Tick}
    (hq : q.first = s.periodFirst t) : s.advancePeriod p t = s := by
  rw [State.advancePeriod, h]
  exact if_pos hq

/-- A period ends at the first set of another one; what it counts is its value, when it has one. -/
theorem State.advancePeriod_other {s : State} {p : Point} {q : Period} (h : (s.point p).period = some q) {t : Tick}
    (hq : q.first ≠ s.periodFirst t) : s.advancePeriod p t = s.modPoint p (fun pt =>
      { (match q.value s.setup.nominal.rate with
          | none => pt
          | some v => pt.countFrequency v) with period := some (.fresh (s.periodFirst t)) }) := by
  rw [State.advancePeriod, h]
  exact if_neg hq

theorem Period.value_none {q : Period} (h : q.valid = false ∨ q.crossings < 2 ∨ q.span = none) (rate : Nat) :
    q.value rate = none := by
  unfold Period.value
  split
  · rfl
  · next i j hs =>
    refine if_neg ?_
    rw [Bool.and_eq_true, decide_eq_true_eq]
    rintro ⟨hv, hc⟩
    rcases h with h | h | h
    · exact Bool.false_ne_true (h.symm.trans hv)
    · omega
    · cases hs.symm.trans h

theorem Period.value_some {q : Period} {i j : Instant} (hv : q.valid = true) (hc : 2 ≤ q.crossings)
    (hs : q.span = some (i, j)) (rate : Nat) : q.value rate =
      some ((2 * ((q.crossings - 1) * rate * 256 * 1000) + (j - i).toNat) / (2 * (j - i).toNat)) := by
  rw [Period.value, hs, hv]
  exact if_pos (by rw [Bool.true_and, decide_eq_true_eq]; exact hc)

theorem LimitsEntry.outOfBand_iff (l : LimitsEntry) (v : Nat) :
    l.outOfBand v = true ↔ v < l.freqLower ∨ l.freqUpper < v := by
  rw [LimitsEntry.outOfBand, Bool.or_eq_true, decide_eq_true_eq, decide_eq_true_eq]

theorem FrequencySum.add_eq (f : FrequencySum) (v : Nat) (out : Bool) : f.add v out =
    { valid := f.valid + 1, sum := f.sum + v, least := lesserOf f.least v, greatest := greaterOf f.greatest v
      outOfBand := f.outOfBand + (if out then 1 else 0) } := by
  rw [FrequencySum.add, countIf]

theorem Assessment.addFrequency_eq (a : Assessment) (out : Bool) : a.addFrequency out =
    { a with freqEvaluated := a.freqEvaluated + 1, freqOutside := a.freqOutside + (if out then 1 else 0) } := by
  rw [Assessment.addFrequency, countIf]

/-- R51, R52, R103, R111: a period with a value hands it to the interval and the assessment. -/
theorem State.advancePeriod_counts {s : State} {p : Point} {q : Period} (h : (s.point p).period = some q) {t : Tick}
    (hq : q.first ≠ s.periodFirst t) {f : Nat} (hf : q.value s.setup.nominal.rate = some f) :
    s.advancePeriod p t = s.modPoint p (fun pt => { pt with
      period := some { first := s.periodFirst t, crossings := 0, span := none, valid := true }
      interval := pt.interval.map (fun iv => { iv with frequency :=
        { valid := iv.frequency.valid + 1, sum := iv.frequency.sum + f
          least := lesserOf iv.frequency.least f, greatest := greaterOf iv.frequency.greatest f
          outOfBand := iv.frequency.outOfBand + (if (s.point p).limits.outOfBand f then 1 else 0) } })
      assessment := pt.assessment.map (fun a => { a with
        freqEvaluated := a.freqEvaluated + 1
        freqOutside := a.freqOutside + (if (s.point p).limits.outOfBand f then 1 else 0) }) }) := by
  rw [State.advancePeriod_other h hq, hf]
  refine s.modPoint_congr p ?_
  simp only [PointRecord.countFrequency, FrequencySum.add_eq, Assessment.addFrequency_eq]
  rfl

/-- R50: what a set does to the period in progress. -/
theorem Period.act_spec (q : Period) (free changed : Bool) :
    ((q.act none free changed).crossings = q.crossings ∧ (q.act none free changed).span = q.span) ∧
    (∀ i, (q.act (some i) free changed).crossings = q.crossings + 1 ∧
      (q.span = none → (q.act (some i) free changed).span = some (i, i)) ∧
      ∀ a b, q.span = some (a, b) → (q.act (some i) free changed).span = some (a, i)) ∧
    ∀ instant, (q.act instant free changed).first = q.first ∧
      ((q.act instant free changed).valid = true ↔ q.valid = true ∧ free = false ∧ changed = false) := by
  have hspan (i : Instant) : (q.record i).span = match q.span with
      | none => some (i, i)
      | some (first, _) => some (first, i) := rfl
  unfold Period.act
  refine ⟨?_, fun i => ?_, fun instant => ?_⟩
  · dsimp only
    split <;> exact ⟨rfl, rfl⟩
  · dsimp only
    have hs : (if (free || changed) = true then { q.record i with valid := false } else q.record i).span =
        (q.record i).span := by split <;> rfl
    rw [hs, hspan]
    refine ⟨by split <;> rfl, fun h => by rw [h], fun a b h => by rw [h]⟩
  · cases free <;> cases changed <;> cases instant <;> simp [Period.record]

end Sys2Proof.Machine
end

section
/-! PROOFS. The closing of a half-window and the delivery of a set, as operations on a point (R23, R31, R45, R48, R56, R57,
R63, R94, R97). -/

namespace Sys2Proof.Machine

/-! ### Operations that touch the spans of a point alone -/

/-- A point record but for its block, interval and assessment. -/
def PointRecord.spanning (x : PointRecord) (b : Option Block) (i : Option Interval) (a : Option Assessment) : PointRecord :=
  { x with block := b, interval := i, assessment := a }

/-- `t` differs from `s` in records, classes and the spans of point `p`. -/
structure Spanned (p : Point) (s t : State) : Prop where
  across : Across s t
  others : ∀ q, q ≠ p → t.point q = s.point q
  here : t.point p = (s.point p).spanning (t.point p).block (t.point p).interval (t.point p).assessment

theorem Spanned.refl (p : Point) (s : State) : Spanned p s s :=
  ⟨.refl s, fun _ _ => rfl, rfl⟩

theorem Spanned.trans {p : Point} {s t u : State} (h : Spanned p s t) (k : Spanned p t u) : Spanned p s u :=
  ⟨h.across.trans k.across, fun q hq => (k.others q hq).trans (h.others q hq), k.here.trans (by rw [h.here]; rfl)⟩

theorem Spanned.speaks {p : Point} {x : List RecordBody} {f : AttnClass → Prop} {y : PointRecord} {s t : State}
    (h : Speaks p x f y s t) (hy : y = (s.point p).spanning y.block y.interval y.assessment) : Spanned p s t :=
  ⟨h.across, h.others, by rw [h.here]; exact hy⟩

theorem Spanned.modPoint (p : Point) (s : State) (f : PointRecord → PointRecord)
    (h : f (s.point p) = (s.point p).spanning (f (s.point p)).block (f (s.point p)).interval
      (f (s.point p)).assessment) : Spanned p s (s.modPoint p f) :=
  ⟨.modPoint s p f (by rw [h]; exact ⟨rfl, rfl, rfl, rfl, rfl, rfl, rfl, rfl, id, id⟩),
    fun _ hq => s.modPoint_beside f hq, by rw [s.modPoint_here]; exact h⟩

theorem Spanned.closeBlock (p : Point) (s : State) (b : Block) : Spanned p s (s.closeBlock p b) :=
  .speaks (Speaks.closeBlock p s b) rfl

theorem Spanned.closeBlockShort (p : Point) (s : State) : Spanned p s (s.closeBlockShort p) := by
  refine .speaks (pointOp_closeBlockShort.acts s p) ?_
  unfold PointRecord.shortened
  split
  · rfl
  · split <;> rfl

theorem PointRecord.reassessed_spanning (x : PointRecord) (next : Option Assessment) :
    x.reassessed next = x.spanning x.block x.interval (x.reassessed next).assessment := by
  unfold PointRecord.reassessed
  split <;> rfl

theorem Spanned.closeInterval (p : Point) (s : State) (e : Tick) (stopped : Bool) :
    Spanned p s (s.closeInterval p e stopped) := by
  refine .speaks ((pointOp_closeInterval stopped (e := fun _ => e) (fun _ => rfl)).acts s p) ?_
  unfold PointRecord.intervalClosed
  split
  · rfl
  · split
    · rw [PointRecord.reassessed_spanning]
      rfl
    · rfl

theorem Spanned.openSpans (p : Point) (s : State) (t : Tick) : Spanned p s (s.openSpans t p) :=
  .modPoint p s _ rfl

theorem Spanned.changeBase (p : Point) (s : State) (base : Nat) : Spanned p s (s.changeBase p base) :=
  ((Spanned.closeBlockShort p s).trans (Spanned.closeInterval p _ _ false)).trans (Spanned.openSpans p _ _)

theorem Spanned.joinBlock (p : Point) (s : State) (h : ClosedHalf) : Spanned p s (s.joinBlock p h) := by
  cases hb : (s.point p).block with
  | none =>
    rw [State.joinBlock, hb]
    exact .refl p s
  | some b =>
    rw [State.joinBlock_some hb]
    split
    · exact Spanned.closeBlock p s _
    · exact Spanned.modPoint p s _ rfl

theorem Spanned.takeHalf (p : Point) (s : State) (h : ClosedHalf) : Spanned p s (s.takeHalf p h) := by
  by_cases hb : s.baseMoves p (intervalBase s.setup (s.epochOf h.tick)) = true
  · rw [State.takeHalf_moves hb]
    exact ((Spanned.changeBase p s _).trans (Spanned.joinBlock p _ h)).trans (Spanned.modPoint p _ _ rfl)
  · rw [State.takeHalf_stays hb]
    exact (Spanned.joinBlock p s h).trans (Spanned.modPoint p _ _ rfl)

/-! ### The closing of a half-window (R31, R57, R63, R97) -/

/-- The state after the trackers took the result of a closing, if there is one. -/
def State.tracked (s : State) (p : Point) (t : Tick) (k : Closing) : State :=
  (s.rotate p k.free).takeIfResult p (s.windowResult p t k.free)

/-- What the Aggregator takes of a closing. -/
def State.halfOf (s : State) (p : Point) (t : Tick) (k : Closing) : ClosedHalf :=
  { tick := t, count := k.count, result := s.windowResult p t k.free
    disturbed := (s.windowResult p t k.free).isSome && !(s.tracked p t k).bothQuiet p }

theorem State.closeHalf_eq (s : State) (p : Point) (t : Tick) (k : Closing) : s.closeHalf p t k =
    if k.crossing = some .positive then ((s.tracked p t k).takeHalf p (s.halfOf p t k)).scheduleCheck p t
    else (s.tracked p t k).takeHalf p (s.halfOf p t k) :=
  rfl

theorem State.windowResult_none {s : State} {p : Point} (h : (s.point p).pairFlag = false) (t : Tick) (free : Bool) :
    s.windowResult p t free = none :=
  if_neg (by rw [h]; exact Bool.false_ne_true)

theorem State.windowResult_some {s : State} {p : Point} (h : (s.point p).pairFlag = true) (t : Tick) (free : Bool) :
    s.windowResult p t free = some
      { values := (s.channelsOf p).map (fun c => windowValue c (s.channel c) (free || (s.point p).previousFree))
        tick := t, free := free || (s.point p).previousFree } :=
  if_pos h

theorem State.tracked_none {s : State} {p : Point} (h : (s.point p).pairFlag = false) (t : Tick) (k : Closing) :
    s.tracked p t k = s.rotate p k.free := by
  rw [State.tracked, State.windowResult_none h]
  rfl

/-- The result of a closing is the one with its tick, its mark and its values. -/
theorem State.windowResult_eq {s : State} {p : Point} (h : (s.point p).pairFlag = true) {t : Tick} {free : Bool}
    {r : WindowResult} (ht : r.tick = t) (hf : r.free = (free || (s.point p).previousFree))
    (hv : r.values = (s.channelsOf p).map (fun c => windowValue c (s.channel c) r.free)) :
    s.windowResult p t free = some r := by
  rw [State.windowResult_some h, ← hf, ← hv, ← ht]

theorem State.rotateTallies_point (s : State) (p q : Point) : (s.rotateTallies p).point q = s.point q :=
  State.mapChannels_point_same s _ q

theorem State.rotate_point (s : State) (p : Point) (free : Bool) :
    (s.rotate p free).point p = { s.point p with previousFree := free, pairFlag := true } := by
  rw [State.rotate, State.modPoint_here, State.rotateTallies_point]

theorem State.rotate_beside (s : State) {p q : Point} (free : Bool) (h : q ≠ p) :
    (s.rotate p free).point q = s.point q :=
  (State.modPoint_beside _ _ h).trans (s.rotateTallies_point p q)

/-- The point of a check that is scheduled. -/
theorem State.scheduleCheck_here (s : State) (p : Point) (t : Tick) : (s.scheduleCheck p t).point p =
    { s.point p with check := ((s.scheduleCheck p t).point p).check } := by
  unfold State.scheduleCheck
  split
  · split
    · rfl
    · rw [State.modPoint_here]
  · rfl

theorem State.scheduleCheck_beside (s : State) {p q : Point} (t : Tick) (h : q ≠ p) :
    (s.scheduleCheck p t).point q = s.point q := by
  unfold State.scheduleCheck
  split
  · split
    · rfl
    · exact s.modPoint_beside _ h
  · rfl

theorem State.scheduleCheck_whole (s : State) (p : Point) (t : Tick) :
    s.scheduleCheck p t = { s with points := (s.scheduleCheck p t).points } := by
  unfold State.scheduleCheck
  split
  · split <;> rfl
  · rfl

/-- The fields of a point that a closing leaves as they are. -/
structure HalfKept (x y : PointRecord) : Prop where
  boundary : y.boundary = x.boundary
  period : y.period = x.period
  measured : y.measured = x.measured
  reference : y.reference = x.reference

theorem HalfKept.trans {x y z : PointRecord} (h : HalfKept x y) (k : HalfKept y z) : HalfKept x z :=
  ⟨k.1.trans h.1, k.2.trans h.2, k.3.trans h.3, k.4.trans h.4⟩

/-- The point after the trackers took the result of a closing. -/
theorem State.tracked_point (s : State) (p : Point) (t : Tick) (k : Closing) :
    HalfKept (s.point p) ((s.tracked p t k).point p) ∧ ((s.tracked p t k).point p).pairFlag = true ∧
      ((s.tracked p t k).point p).previousFree = k.free := by
  unfold State.tracked State.takeIfResult
  split
  · rw [State.rotate_point]
    exact ⟨⟨rfl, rfl, rfl, rfl⟩, rfl, rfl⟩
  · rw [State.takeResult_here, (Tracked.trackBoth p _ _).here, State.rotate_point]
    exact ⟨⟨rfl, rfl, rfl, rfl⟩, rfl, rfl⟩

/-- The point after a closing: that of the trackers, but for its spans and its check. -/
theorem State.closeHalf_here (s : State) (p : Point) (t : Tick) (k : Closing) : (s.closeHalf p t k).point p =
    { ((s.tracked p t k).point p).spanning ((s.closeHalf p t k).point p).block ((s.closeHalf p t k).point p).interval
      ((s.closeHalf p t k).point p).assessment with check := ((s.closeHalf p t k).point p).check } := by
  have h := (Spanned.takeHalf p (s.tracked p t k) (s.halfOf p t k)).here
  rw [s.closeHalf_eq p t k]
  split
  · rw [State.scheduleCheck_here, h]
    rfl
  · rw [h]
    rfl

theorem State.closeHalf_kept (s : State) (p : Point) (t : Tick) (k : Closing) :
    HalfKept (s.point p) ((s.closeHalf p t k).point p) := by
  refine (s.tracked_point p t k).1.trans ?_
  rw [s.closeHalf_here]
  exact ⟨rfl, rfl, rfl, rfl⟩

theorem State.closeHalf_trackers (s : State) (p : Point) (t : Tick) (k : Closing) :
    ((s.closeHalf p t k).point p).low = ((s.tracked p t k).point p).low ∧
      ((s.closeHalf p t k).point p).high = ((s.tracked p t k).point p).high ∧
      ((s.closeHalf p t k).point p).pairFlag = true ∧ ((s.closeHalf p t k).point p).previousFree = k.free := by
  obtain ⟨-, hpair, hfree⟩ := s.tracked_point p t k
  rw [s.closeHalf_here]
  exact ⟨rfl, rfl, hpair, hfree⟩

/-! ### The channels of a closing (R57, R90) -/

theorem State.rotate_channel_of {s : State} {p : Point} {c : Channel}
    (h : (s.channel c).entry.enabled = true ∧ (s.channel c).entry.point = p.val) (free : Bool) :
    (s.rotate p free).channel c = { s.channel c with previous := (s.channel c).current, current := .zero } := by
  show ((s.rotateTallies p).modPoint p _).channel c = _
  rw [State.modPoint_channel_other, State.rotateTallies, State.mapChannels_channel]
  exact if_pos (by rw [h.1, h.2, beq_self_eq_true]; rfl)

theorem State.rotate_channel_beside {s : State} {p : Point} {c : Channel}
    (h : ¬((s.channel c).entry.enabled = true ∧ (s.channel c).entry.point = p.val)) (free : Bool) :
    (s.rotate p free).channel c = s.channel c := by
  show ((s.rotateTallies p).modPoint p _).channel c = _
  rw [State.modPoint_channel_other, State.rotateTallies, State.mapChannels_channel]
  exact if_neg (by rw [Bool.and_eq_true, beq_iff_eq]; exact h)

/-- A result leaves the channels of other points alone. -/
theorem State.takeResult_channel_beside {s : State} {p : Point} {c : Channel} (r : WindowResult)
    (h : ¬((s.channel c).entry.enabled = true ∧ (s.channel c).entry.point = p.val)) :
    (s.takeResult p r).channel c = s.channel c := by
  rw [s.takeResult_channel, (s.takeResult_rings p r c (joins := False)
    ⟨False.elim, fun ⟨_, _, he, hp, _⟩ => h ⟨he, hp⟩⟩).2 (.inl not_false)]

theorem State.closeHalf_channels (s : State) (p : Point) (t : Tick) (k : Closing) :
    (s.closeHalf p t k).channels = (s.tracked p t k).channels := by
  have h := (Spanned.takeHalf p (s.tracked p t k) (s.halfOf p t k)).across.kept.2.2.2
  rw [s.closeHalf_eq p t k]
  split
  · rw [State.scheduleCheck_whole]
    exact h
  · exact h

/-- R57: the tallies of a channel of the point are rotated; the channels of other points stay. -/
theorem State.closeHalf_channel (s : State) (p : Point) (t : Tick) (k : Closing) (c : Channel) :
    ((s.channel c).entry.enabled = true ∧ (s.channel c).entry.point = p.val →
      ((s.closeHalf p t k).channel c).previous = (s.channel c).current ∧
      ((s.closeHalf p t k).channel c).current = .zero) ∧
    (¬((s.channel c).entry.enabled = true ∧ (s.channel c).entry.point = p.val) →
      (s.closeHalf p t k).channel c = s.channel c) := by
  have hch : (s.closeHalf p t k).channel c = (s.tracked p t k).channel c := by
    rw [State.channel, s.closeHalf_channels]
    rfl
  rw [hch]
  unfold State.tracked State.takeIfResult
  constructor
  · intro h
    split
    · rw [State.rotate_channel_of h]
      exact ⟨rfl, rfl⟩
    · rw [State.takeResult_channel, State.rotate_channel_of h]
      exact ⟨rfl, rfl⟩
  · intro h
    split
    · exact State.rotate_channel_beside h _
    · rw [State.takeResult_channel_beside, State.rotate_channel_beside h]
      rw [State.rotate_channel_beside h]
      exact h

/-! ### The delivery of a set (R23, R56) -/

theorem State.advancePeriod_modPoint (s : State) (p : Point) (t : Tick) : ∃ f : PointRecord → PointRecord,
    s.advancePeriod p t = s.modPoint p f ∧ ∀ x, f x = { x with
      period := (f x).period, interval := (f x).interval, assessment := (f x).assessment } := by
  cases h : (s.point p).period with
  | none => exact ⟨_, State.advancePeriod_none h t, fun _ => rfl⟩
  | some q =>
    by_cases hq : q.first = s.periodFirst t
    · exact ⟨id, (State.advancePeriod_same h hq).trans (s.modPoint_self p id rfl).symm, fun _ => rfl⟩
    · refine ⟨_, State.advancePeriod_other h hq, fun x => ?_⟩
      cases q.value s.setup.nominal.rate <;> rfl

/-- The point that takes a set, before the Boundary Unit: its period, interval and assessment may have counted. -/
theorem State.advancePeriod_here (s : State) (p : Point) (t : Tick) : (s.advancePeriod p t).point p = { s.point p with
    period := ((s.advancePeriod p t).point p).period, interval := ((s.advancePeriod p t).point p).interval
    assessment := ((s.advancePeriod p t).point p).assessment } := by
  obtain ⟨f, hf, hx⟩ := s.advancePeriod_modPoint p t
  rw [hf, State.modPoint_here]
  exact hx _

theorem State.addSamples_channel_of {s : State} {p : Point} {c : Channel}
    (h : (s.channel c).entry.enabled = true ∧ (s.channel c).entry.point = p.val) (set : SampleSet) :
    (s.addSamples p set).channel c = { s.channel c with
      current := (s.channel c).current.add
        (correctedCode (sampleOf set (s.channel c).entry).code (s.channel c).entry.offset)
        (sampleOf set (s.channel c).entry) } := by
  rw [State.addSamples, State.mapChannels_channel]
  exact if_pos (by rw [h.1, h.2, beq_self_eq_true]; rfl)

theorem State.addSamples_channel_beside {s : State} {p : Point} {c : Channel}
    (h : ¬((s.channel c).entry.enabled = true ∧ (s.channel c).entry.point = p.val)) (set : SampleSet) :
    (s.addSamples p set).channel c = s.channel c := by
  rw [State.addSamples, State.mapChannels_channel]
  exact if_neg (by rw [Bool.and_eq_true, beq_iff_eq]; exact h)

theorem State.addSamples_channel (s : State) (p : Point) (set : SampleSet) (c : Channel) :
    (s.addSamples p set).channel c = { s.channel c with current := ((s.addSamples p set).channel c).current } := by
  by_cases h : (s.channel c).entry.enabled = true ∧ (s.channel c).entry.point = p.val
  · rw [State.addSamples_channel_of h]
  · rw [State.addSamples_channel_beside h]

theorem State.beforeCut_point (s : State) (t : Tick) (set : SampleSet) (p q : Point) :
    (s.beforeCut t set p).point q = (s.advancePeriod p t).point q :=
  State.mapChannels_point_same _ _ q

/-- Before the Boundary Unit decides, the channels have taken their samples. -/
theorem State.beforeCut_channel (s : State) (t : Tick) (set : SampleSet) (p : Point) (c : Channel) :
    (s.beforeCut t set p).channel c = (s.addSamples p set).channel c := by
  obtain ⟨f, hf, -⟩ := s.advancePeriod_modPoint p t
  have hc : (s.advancePeriod p t).channels = s.channels := by rw [hf]; rfl
  unfold State.beforeCut State.addSamples
  rw [State.mapChannels_channel, State.mapChannels_channel, State.channel, hc]
  rfl

theorem State.voltageOf_congr {s t : State} (h : ∀ c, (t.channel c).entry = (s.channel c).entry) (p : Point)
    (phase : Nat) : t.voltageOf p phase = s.voltageOf p phase := by
  unfold State.voltageOf State.channelsOf State.channelIn
  simp only [h]

theorem State.referenceCode_congr {s t : State} {p : Point} (h : ∀ c, (t.channel c).entry = (s.channel c).entry)
    (hr : (t.point p).reference = (s.point p).reference) (set : SampleSet) :
    t.referenceCode p set = s.referenceCode p set := by
  unfold State.referenceCode
  simp only [hr, h, State.voltageOf_congr h]

/-- The decision of the Boundary Unit rests on the state before the delivery. -/
theorem State.cutOf_eq (s : State) (t : Tick) (set : SampleSet) (p : Point) (changed : Bool) :
    s.cutOf t set p changed =
      (s.point p).boundary.step (s.point p).limits.crossing changed (s.referenceCode p set) := by
  have hp := (s.beforeCut_point t set p p).trans (s.advancePeriod_here p t)
  have hcode : (s.beforeCut t set p).referenceCode p set = s.referenceCode p set := by
    refine State.referenceCode_congr (fun c => ?_) (by rw [hp]) set
    rw [s.beforeCut_channel, s.addSamples_channel]
  rw [State.cutOf, hcode, hp]

/-- The instant that a delivery may record (R48, R50). -/
def State.instantOf (s : State) (t : Tick) (set : SampleSet) (p : Point) (changed : Bool) : Option Instant :=
  closingInstant t ((s.point p).boundary.prepare changed).before (s.referenceCode p set) (s.cutOf t set p changed).2

/-- The state that a delivery reaches before it closes a half-window. -/
def State.decided (s : State) (t : Tick) (set : SampleSet) (p : Point) (changed : Bool) : State :=
  (s.beforeCut t set p).modPoint p (fun pt =>
    { pt with
      boundary := (s.cutOf t set p changed).1
      period := pt.period.map (fun q =>
        q.act (s.instantOf t set p changed) (closedFree (s.cutOf t set p changed).2) changed) })

theorem State.deliver_decided (s : State) (t : Tick) (set : SampleSet) (p : Point) (changed : Bool) :
    ((s.cutOf t set p changed).2 = none → s.deliver t set p changed = s.decided t set p changed) ∧
    ∀ k, (s.cutOf t set p changed).2 = some k →
      s.deliver t set p changed = (s.decided t set p changed).closeHalf p t k := by
  have hp := (s.beforeCut_point t set p p).trans (s.advancePeriod_here p t)
  have hcode : (s.beforeCut t set p).referenceCode p set = s.referenceCode p set := by
    refine State.referenceCode_congr (fun c => ?_) (by rw [hp]) set
    rw [s.beforeCut_channel, s.addSamples_channel]
  have hinstant : closingInstant t (((s.beforeCut t set p).point p).boundary.prepare changed).before
      ((s.beforeCut t set p).referenceCode p set) (s.cutOf t set p changed).2 = s.instantOf t set p changed := by
    rw [hcode, hp]
    rfl
  have hdecided : s.decided t set p changed = (s.beforeCut t set p).modPoint p (fun pt =>
      { pt with
        boundary := (s.cutOf t set p changed).1
        period := pt.period.map (fun q => q.act
          (closingInstant t (((s.beforeCut t set p).point p).boundary.prepare changed).before
            ((s.beforeCut t set p).referenceCode p set) (s.cutOf t set p changed).2)
          (closedFree (s.cutOf t set p changed).2) changed) }) := by
    rw [hinstant]
    rfl
  rw [hdecided]
  constructor
  · intro h
    unfold State.deliver
    dsimp only
    split
    · rfl
    · next hk => exact absurd (hk.symm.trans h) nofun
  · intro k h
    unfold State.deliver
    dsimp only
    split
    · next hk => exact absurd (hk.symm.trans h) nofun
    · next k' hk => rw [Option.some.inj (hk.symm.trans h)]; rfl

theorem State.decided_here (s : State) (t : Tick) (set : SampleSet) (p : Point) (changed : Bool) :
    (s.decided t set p changed).point p = { (s.advancePeriod p t).point p with
      boundary := (s.cutOf t set p changed).1
      period := ((s.advancePeriod p t).point p).period.map (fun q =>
        q.act (s.instantOf t set p changed) (closedFree (s.cutOf t set p changed).2) changed) } := by
  rw [State.decided, State.modPoint_here, s.beforeCut_point]

theorem State.decided_beside (s : State) (t : Tick) (set : SampleSet) {p q : Point} (changed : Bool) (h : q ≠ p) :
    (s.decided t set p changed).point q = s.point q := by
  obtain ⟨f, hf, -⟩ := s.advancePeriod_modPoint p t
  rw [State.decided, State.modPoint_beside _ _ h, s.beforeCut_point, hf, State.modPoint_beside _ _ h]

theorem State.decided_channel (s : State) (t : Tick) (set : SampleSet) (p : Point) (changed : Bool) (c : Channel) :
    (s.decided t set p changed).channel c = (s.addSamples p set).channel c :=
  (State.modPoint_channel_other _ p _ c).trans (s.beforeCut_channel t set p c)

/-- A delivery leaves the boundary and the period of its decision, and the reference. -/
theorem State.deliver_kept (s : State) (t : Tick) (set : SampleSet) (p : Point) (changed : Bool) :
    HalfKept ((s.decided t set p changed).point p) ((s.deliver t set p changed).point p) := by
  obtain ⟨hnone, hsome⟩ := s.deliver_decided t set p changed
  cases h : (s.cutOf t set p changed).2 with
  | none =>
    rw [hnone h]
    exact ⟨rfl, rfl, rfl, rfl⟩
  | some k =>
    rw [hsome k h]
    exact State.closeHalf_kept _ p t k

theorem State.deliver_boundary (s : State) (t : Tick) (set : SampleSet) (p : Point) (changed : Bool) :
    ((s.deliver t set p changed).point p).boundary =
      ((s.point p).boundary.step (s.point p).limits.crossing changed (s.referenceCode p set)).1 := by
  rw [(s.deliver_kept t set p changed).boundary, s.decided_here, s.cutOf_eq]

theorem State.deliver_period (s : State) (t : Tick) (set : SampleSet) (p : Point) (changed : Bool) :
    ((s.deliver t set p changed).point p).period = ((s.advancePeriod p t).point p).period.map (fun q =>
      q.act (s.instantOf t set p changed) (closedFree (s.cutOf t set p changed).2) changed) := by
  rw [(s.deliver_kept t set p changed).period, s.decided_here]

end Sys2Proof.Machine
end

section
/-! PROOFS. The closing of a half-window hands it to the Aggregator, and a delivery acts on the period (R47, R48, R50, R57,
R63, R94, R97): O54. -/

namespace Sys2Proof.Machine

theorem LowTracker.isQuiet_ne (l : LowTracker) : l.isQuiet = false ↔ l ≠ .quiet := by
  rw [← Bool.not_eq_true, l.isQuiet_iff]

theorem HighTracker.isQuiet_ne (h : HighTracker) : h.isQuiet = false ↔ h ≠ .quiet := by
  rw [← Bool.not_eq_true, h.isQuiet_iff]

/-- A half-window is disturbed by a result that leaves a tracker out of QUIET (R94). -/
theorem State.disturbed_iff (u : State) (p : Point) (result : Option WindowResult) :
    (result.isSome && !u.bothQuiet p) = true ↔
      result ≠ none ∧ ((u.point p).low ≠ .quiet ∨ (u.point p).high ≠ .quiet) := by
  rw [Bool.and_eq_true, Option.isSome_iff_ne_none, Bool.not_eq_true', State.bothQuiet, Bool.and_eq_false_iff,
    LowTracker.isQuiet_ne, HighTracker.isQuiet_ne]

/-- The Aggregator takes what a closing hands over: count, result and disturbed mark (R94, R97). -/
theorem State.closeHalf_of {s u : State} {p : Point} {t : Tick} {k : Closing} {result : Option WindowResult}
    {disturbed : Bool} (hnone : (s.point p).pairFlag = false → result = none ∧ u = s.rotate p k.free)
    (hsome : (s.point p).pairFlag = true → ∃ r : WindowResult, result = some r ∧ r.tick = t ∧
      r.free = (k.free || (s.point p).previousFree) ∧
      r.values = (s.channelsOf p).map (fun c => windowValue c (s.channel c) r.free) ∧
      u = (s.rotate p k.free).takeResult p r)
    (hd : disturbed = true ↔ result ≠ none ∧ ((u.point p).low ≠ .quiet ∨ (u.point p).high ≠ .quiet)) :
    s.closeHalf p t k =
      (if k.crossing = some .positive then
        (u.takeHalf p { tick := t, count := k.count, result := result, disturbed := disturbed }).scheduleCheck p t
      else u.takeHalf p { tick := t, count := k.count, result := result, disturbed := disturbed }) := by
  have htaken : result = s.windowResult p t k.free ∧ u = s.tracked p t k := by
    cases hp : (s.point p).pairFlag with
    | false =>
      obtain ⟨hr, hu⟩ := hnone hp
      exact ⟨hr.trans (State.windowResult_none hp t k.free).symm, hu.trans (State.tracked_none hp t k).symm⟩
    | true =>
      obtain ⟨r, hr, ht, hf, hv, hu⟩ := hsome hp
      have hw := State.windowResult_eq hp ht hf hv
      refine ⟨hr.trans hw.symm, hu.trans ?_⟩
      rw [State.tracked, hw]
      rfl
  obtain ⟨hresult, hstate⟩ := htaken
  have hdisturbed : disturbed = (result.isSome && !u.bothQuiet p) :=
    Bool.eq_iff_iff.mpr (hd.trans (u.disturbed_iff p result).symm)
  rw [s.closeHalf_eq, hdisturbed, hresult, hstate]
  rfl

/-! ### The instant of a delivery (R47, R48, R50) -/

/-- The instant of a crossing in the 56-bit arithmetic of R47. -/
theorem crossingInstant_eq (t : Tick) (y z : Int) :
    crossingInstant t y z = BitVec.ofNat 56 ((t - 1).toNat * 256 + crossingOffset y z) := by
  refine BitVec.eq_of_toNat_eq ?_
  rw [crossingInstant, BitVec.toNat_add, BitVec.toNat_shiftLeft, BitVec.toNat_setWidth, BitVec.toNat_ofNat,
    BitVec.toNat_ofNat, Nat.shiftLeft_eq]
  have hlt := (t - 1).isLt
  omega

theorem closingInstant_iff (t : Tick) (before x : Option Int) (cut : Option Closing) (i : Instant) :
    closingInstant t before x cut = some i ↔ ∃ (k : Closing) (y z : Int), cut = some k ∧ k.tracked = true ∧
      k.crossing = some .positive ∧ before = some y ∧ x = some z ∧
      i = BitVec.ofNat 56 ((t - 1).toNat * 256 + crossingOffset y z) := by
  constructor
  · intro h
    unfold closingInstant at h
    split at h
    · next k y z =>
      split at h
      · next hk =>
        rw [Bool.and_eq_true, beq_iff_eq] at hk
        exact ⟨k, y, z, rfl, hk.1, hk.2, rfl, rfl, (Option.some.inj h).symm.trans (crossingInstant_eq t y z)⟩
      · cases h
    · cases h
  · rintro ⟨k, y, z, rfl, ht, hc, rfl, rfl, rfl⟩
    rw [← crossingInstant_eq]
    refine if_pos ?_
    rw [ht, hc]
    rfl

theorem closedFree_eq (cut : Option Closing) : closedFree cut = cut.any (fun k => k.free) := by
  cases cut <;> rfl

/-- The period in progress after a delivery: that of the set, acted on by the decision (R48 to R50). -/
theorem State.deliver_instant (s : State) (t : Tick) (set : SampleSet) (p : Point) (changed : Bool) {b : Boundary}
    {x : Option Int} {cut : Option Closing} (hb : b = (s.point p).boundary) (hx : x = s.referenceCode p set)
    (hcut : cut = (b.step (s.point p).limits.crossing changed x).2) :
    ∃ instant : Option Instant,
      ((s.deliver t set p changed).point p).period = (((s.advancePeriod p t).point p).period).map (fun q =>
        q.act instant (cut.any (fun k => k.free)) changed) ∧
      (∀ i, instant = some i ↔ ∃ (k : Closing) (y z : Int), cut = some k ∧ k.tracked = true ∧
        k.crossing = some .positive ∧ (b.prepare changed).before = some y ∧ x = some z ∧
        i = BitVec.ofNat 56 ((t - 1).toNat * 256 + crossingOffset y z)) := by
  subst hb hx
  have hc : (s.cutOf t set p changed).2 = cut := by rw [s.cutOf_eq, hcut]
  refine ⟨s.instantOf t set p changed, ?_, fun i => ?_⟩
  · rw [s.deliver_period, hc, closedFree_eq]
  · rw [State.instantOf, hc]
    exact closingInstant_iff _ _ _ _ i

/-! ### O54 -/

theorem State.closeBlock_clauses (s : State) (p : Point) (b : Block) :
    ((s.closeBlock p b).point p).block = some .fresh ∧
    (s.control.device = .running → s.setup.blockPoints.getLsbD p.val = true →
      ∃ r : BlockRecord, (s.closeBlock p b).builder = s.builder.offer (.block r) ∧ r.point = p ∧
        r.halfWindows = b.count ∧ r.disturbed = b.disturbed ∧ r.blind = b.blind ∧
        (r.short = true ↔ b.count < s.setup.nominal.blockLength)) ∧
    (s.control.device ≠ .running ∨ s.setup.blockPoints.getLsbD p.val = false →
      (s.closeBlock p b).builder = s.builder) ∧
    ((s.closeBlock p b).point p).interval = (s.point p).interval.map (fun iv => iv.takeBlock b) := by
  obtain ⟨hbuilder, hpoint⟩ := s.closeBlock_spec p b
  rw [hbuilder, hpoint]
  refine ⟨rfl, fun hd hp => ?_, fun h => ?_, rfl⟩
  · rw [blockRecords_created hd hp]
    exact ⟨blockRecord s p b, rfl, rfl, rfl, rfl, rfl, blockRecord_short_iff s p b⟩
  · rw [blockRecords_none h]
    rfl

/-- Settles O54: each operation on the spans by its own lemma; a closing by `State.closeHalf_of`, a delivery by
`State.deliver_instant`. -/
theorem spansClose : Obligations.SpansClose := by
  unfold Obligations.SpansClose
  refine ⟨fun s p b => ?_, fun iv b c => ?_, fun s p iv a e hiv ha => ?_, fun s p a r evaluable he => ?_,
    fun s p e endTick cause => ?_, fun s p h iv b joined base start hiv hb hbase => ?_,
    fun s u p t k result disturbed hnone hsome hd => State.closeHalf_of hnone hsome hd, fun b start tallies h c => ?_,
    fun iv h c => ?_, fun s p t e len first he hlen hfirst => ?_, fun q free changed => q.act_spec free changed,
    fun s t set p changed b x cut hb hx hcut => s.deliver_instant t set p changed hb hx hcut⟩
  case refine_1 =>
    obtain ⟨hblock, hcreated, hnone, hinterval⟩ := s.closeBlock_clauses p b
    exact ⟨hblock, hcreated, hnone, hinterval, fun h hc => State.closeBlockShort_empty h hc,
      fun h hc => State.closeBlockShort_full h hc⟩
  case refine_2 =>
    obtain ⟨hzero, hsome⟩ := iv.takeBlock_sums b c
    exact ⟨rfl, hzero, hsome, rfl⟩
  case refine_3 =>
    obtain ⟨hinterval, hraised, hgoes, hends⟩ := State.closeInterval_spec hiv ha e
    refine ⟨hinterval, hraised, intervalRecord s p iv e false, rfl, rfl, rfl, rfl, rfl,
      intervalRecord_short_iff s p iv e false, hgoes, fun hle => ?_⟩
    obtain ⟨hfresh, hclosed, hbuilder⟩ := hends hle
    exact ⟨hfresh, hclosed, _, rfl, rfl, hbuilder⟩
  case refine_4 =>
    have heval : evaluable ↔ r.evaluable = true := he.trans r.evaluable_iff.symm
    refine ⟨rfl, fun i => ?_⟩
    obtain ⟨hstays, hcounts⟩ := Assessment.takeInterval_phase s p a r i
    exact ⟨fun h => hstays (h.imp_left fun hn => Bool.eq_false_iff.mpr fun ht => hn (heval.mpr ht)),
      fun c v ht => hcounts c v (heval.mp ht)⟩
  case refine_5 =>
    obtain ⟨-, -, hpoint⟩ := s.closeEvent_eq p e endTick cause
    rw [hpoint]
    simp only [Assessment.countEvent_eq, satSucc_eq_min]
  case refine_6 =>
    refine ⟨fun hne hstart => ⟨State.takeHalf_changeBase hiv hbase hne hstart,
      s.changeBase_eq p h.tick hbase hstart⟩, fun heq hj => ?_⟩
    exact State.takeHalf_joins hiv hb (heq.trans hbase) hj
  case refine_7 =>
    obtain ⟨hsome, hnone⟩ := b.join_sums start tallies h c
    exact ⟨rfl, rfl, rfl, congrArg (b.blind || ·) h.blind_eq, hsome, hnone⟩
  case refine_8 =>
    refine ⟨rfl, ?_, rfl, fun hr => Interval.join_sum_none (by rw [ClosedHalf.windowOf, hr]),
      fun r hr hn => Interval.join_sum_none (ClosedHalf.windowOf_none hr hn), fun r w hr hw hc hu => ?_, rfl⟩
    · rw [← h.blind_eq]
      exact countIf iv.blindHalfWindows _
    · rw [Interval.join_sum_some (ClosedHalf.windowOf_some hr hw hc hu)]
      exact (iv.sums[c.val]).add_spec w
  case refine_9 =>
    have hf : first = s.periodFirst t := by rw [hfirst, he, hlen]; rfl
    rw [hf]
    refine ⟨fun hn => State.advancePeriod_none hn t, fun q hq =>
      ⟨fun h => State.advancePeriod_same hq h, fun h hv => ?_, fun i j h hv hc hs => ?_⟩⟩
    · rw [State.advancePeriod_other hq h, Period.value_none hv]
      rfl
    · exact ⟨_, rfl, _, LimitsEntry.outOfBand_iff _ _,
        State.advancePeriod_counts hq h (Period.value_some hv hc hs _)⟩

end Sys2Proof.Machine
end

section
/-! PROOFS. Window values, corrected codes, tallies, and the delivery of a set (R23, R56 to R63): O49. The Boundary Unit in a
delivery (R28, R39, R44). -/

namespace Sys2Proof.Machine

/-! ### Window values (R58 to R62) -/

theorem windowQuality_unavailable {x y : Tally}
    (h : 0 < x.unavailable ∨ 0 < y.unavailable ∨ 16 < x.held + y.held) : windowQuality x y = .unavailable := by
  unfold windowQuality
  split
  · rfl
  · next hn => exact if_pos (h.elim (fun h => absurd (.inl h) hn) (·.elim (fun h => absurd (.inr h) hn) id))

theorem windowQuality_available {x y : Tally} (hx : x.unavailable = 0) (hy : y.unavailable = 0)
    (hh : x.held + y.held ≤ 16) : windowQuality x y = if x.held + y.held = 0 then .good else .held := by
  unfold windowQuality
  rw [if_neg (by omega), if_neg (show ¬Config.heldLimit < _ from Nat.not_lt.mpr hh)]
  split <;> split
  · omega
  · rfl
  · rfl
  · omega

theorem windowValue_none {c : Channel} {r : ChannelRecord} (h : windowQuality r.previous r.current = .unavailable)
    (free : Bool) : (windowValue c r free).quality = .unavailable ∧ (windowValue c r free).value = none := by
  refine ⟨h, ?_⟩
  unfold windowValue
  dsimp only
  rw [h]

theorem windowValue_some {c : Channel} {r : ChannelRecord} (h : windowQuality r.previous r.current ≠ .unavailable)
    (free : Bool) : (windowValue c r free).value =
      some (scaledMean (r.previous.q + r.current.q) (r.previous.n + r.current.n) r.entry.gain) := by
  unfold windowValue
  dsimp only
  split
  · next hq => exact absurd hq h
  · rfl
  · rfl

theorem windowValue_spec (c : Channel) (r : ChannelRecord) (free : Bool) :
    (0 < r.previous.unavailable ∨ 0 < r.current.unavailable ∨ 16 < r.previous.held + r.current.held →
      (windowValue c r free).quality = .unavailable ∧ (windowValue c r free).value = none) ∧
    (r.previous.unavailable = 0 → r.current.unavailable = 0 → r.previous.held + r.current.held ≤ 16 →
      (windowValue c r free).quality = (if r.previous.held + r.current.held = 0 then .good else .held) ∧
      ∃ root, root * root ≤ (r.previous.q + r.current.q) / (r.previous.n + r.current.n) ∧
        (r.previous.q + r.current.q) / (r.previous.n + r.current.n) < (root + 1) * (root + 1) ∧
        (windowValue c r free).value = some (min 16777215 ((root * r.entry.gain + 524288) / 1048576))) ∧
    ((windowValue c r free).clipped = true ↔ 0 < r.previous.clipped ∨ 0 < r.current.clipped) ∧
    ((windowValue c r free).opened = true ↔ r.lead = .opened) ∧
    (windowValue c r free).free = free ∧ (windowValue c r free).channel = c ∧
    (windowValue c r free).kind = r.entry.kind ∧ (windowValue c r free).phase = r.entry.phase := by
  refine ⟨fun h => windowValue_none (windowQuality_unavailable h) free, fun hx hy hh => ?_, ?_, beq_iff_eq, rfl, rfl,
    rfl, rfl⟩
  · have hq := windowQuality_available hx hy hh
    refine ⟨hq, intRoot _, intRoot_mul_self_le _, lt_intRoot_succ_mul_self _, windowValue_some ?_ free⟩
    rw [hq]
    split <;> exact Quality.noConfusion
  · unfold windowValue
    dsimp only
    rw [Bool.or_eq_true, decide_eq_true_eq, decide_eq_true_eq]

/-! ### Corrected codes and tallies (R23, R56) -/

theorem clampInt_eq {lo hi : Int} (h : lo ≤ hi) (x : Int) : clampInt lo hi x = max lo (min hi x) := by
  unfold clampInt
  split
  · omega
  · split <;> omega

theorem correctedCode_eq (code : Code) (offset : BitVec 16) :
    correctedCode code offset = max (-8388608) (min 8388607 (code.toInt - offset.toInt)) :=
  clampInt_eq (by decide) _

theorem Tally.add_spec (y : Tally) (x : Int) (v : SlotValue) :
    (v.unavailable = true → y.add x v = { y with unavailable := y.unavailable + 1 }) ∧
    (v.unavailable = false → y.add x v = { y with
      q := y.q + (x * x).toNat, n := y.n + 1, held := y.held + (if v.held then 1 else 0)
      clipped := y.clipped + (if v.clipped then 1 else 0) }) := by
  refine ⟨fun h => if_pos h, fun h => ?_⟩
  have hsq : x.natAbs * x.natAbs = (x * x).toNat := by rw [← Int.natAbs_mul_self, Int.toNat_natCast]
  rw [Tally.add, if_neg (by rw [h]; exact Bool.false_ne_true), hsq]

/-! ### What a delivery does before a half-window closes (R23, R56) -/

/-- `t` differs from `s` in its points and channels alone. -/
def Delivered (s t : State) : Prop :=
  t = { s with points := t.points, channels := t.channels }

theorem Delivered.trans {s t u : State} (h : Delivered s t) (k : Delivered t u) : Delivered s u := by
  unfold Delivered at h k ⊢
  rw [k, h]

theorem Delivered.modPoint (s : State) (p : Point) (f : PointRecord → PointRecord) : Delivered s (s.modPoint p f) := by
  unfold Delivered
  rw [State.modPoint]

theorem Delivered.addSamples (s : State) (p : Point) (set : SampleSet) : Delivered s (s.addSamples p set) := by
  unfold Delivered State.addSamples
  rw [State.mapChannels]

theorem Delivered.advancePeriod (s : State) (p : Point) (t : Tick) : Delivered s (s.advancePeriod p t) := by
  obtain ⟨f, hf, -⟩ := s.advancePeriod_modPoint p t
  rw [hf]
  exact .modPoint s p f

theorem Delivered.decided (s : State) (t : Tick) (set : SampleSet) (p : Point) (changed : Bool) :
    Delivered s (s.decided t set p changed) :=
  ((Delivered.advancePeriod s p t).trans (.addSamples _ p set)).trans (.modPoint _ p _)

theorem State.decided_point (s : State) (t : Tick) (set : SampleSet) (p : Point) (changed : Bool) :
    (s.decided t set p changed).point p = { (s.advancePeriod p t).point p with
      boundary := ((s.point p).boundary.step (s.point p).limits.crossing changed (s.referenceCode p set)).1
      period := ((s.decided t set p changed).point p).period } := by
  rw [← s.cutOf_eq t, s.decided_here]

theorem State.decided_current {s : State} {p : Point} {c : Channel} {m : Module} {k : Slot}
    (he : (s.channel c).entry.enabled = true) (hp : (s.channel c).entry.point = p.val)
    (hm : (s.channel c).entry.module = m.val) (hk : (s.channel c).entry.slot = k.val) (t : Tick) (set : SampleSet)
    (changed : Bool) : (s.decided t set p changed).channel c = { s.channel c with
      current := (s.channel c).current.add
        (correctedCode (set[m.val])[k.val].code (s.channel c).entry.offset) (set[m.val])[k.val] } := by
  rw [s.decided_channel, State.addSamples_channel_of ⟨he, hp⟩, sampleOf_named set hm hk]

theorem State.decided_channel_beside {s : State} {p : Point} {c : Channel}
    (h : ¬((s.channel c).entry.enabled = true ∧ (s.channel c).entry.point = p.val)) (t : Tick) (set : SampleSet)
    (changed : Bool) : (s.decided t set p changed).channel c = s.channel c := by
  rw [s.decided_channel, State.addSamples_channel_beside h]

theorem State.decided_entry (s : State) (t : Tick) (set : SampleSet) (p : Point) (changed : Bool) (c : Channel) :
    ((s.decided t set p changed).channel c).entry = (s.channel c).entry := by
  rw [s.decided_channel, s.addSamples_channel]

/-- The channels after a delivery (R56, R57). -/
theorem State.deliver_channel {s : State} {p : Point} {t : Tick} {set : SampleSet} {changed : Bool}
    {cut : Option Closing} (c : Channel)
    (hcut : cut = ((s.point p).boundary.step (s.point p).limits.crossing changed (s.referenceCode p set)).2) :
    (¬((s.channel c).entry.enabled = true ∧ (s.channel c).entry.point = p.val) →
      (s.deliver t set p changed).channel c = s.channel c) ∧
    ((s.channel c).entry.enabled = true → (s.channel c).entry.point = p.val →
      ∀ (m : Module) (k : Slot) (added : Tally), (s.channel c).entry.module = m.val →
        (s.channel c).entry.slot = k.val →
        added = (s.channel c).current.add
          (correctedCode (set[m.val])[k.val].code (s.channel c).entry.offset) (set[m.val])[k.val] →
        (cut = none → (s.deliver t set p changed).channel c = { s.channel c with current := added }) ∧
        (cut ≠ none → ((s.deliver t set p changed).channel c).previous = added ∧
          ((s.deliver t set p changed).channel c).current = .zero)) := by
  obtain ⟨hstays, hcloses⟩ := s.deliver_decided t set p changed
  rw [s.cutOf_eq, ← hcut] at hstays hcloses
  have hentry := s.decided_entry t set p changed c
  constructor
  · intro hn
    have hd := State.decided_channel_beside hn t set changed
    cases cut with
    | none => rw [hstays rfl, hd]
    | some k => rw [hcloses k rfl, (State.closeHalf_channel _ p t k c).2 (by rw [hentry]; exact hn), hd]
  · intro he hp m k added hm hk hadd
    have hd := State.decided_current he hp hm hk t set changed
    rw [← hadd] at hd
    refine ⟨fun h => by rw [hstays h, hd], fun h => ?_⟩
    obtain ⟨closing, hc⟩ := Option.ne_none_iff_exists'.mp h
    rw [hcloses closing hc]
    obtain ⟨hprev, hcur⟩ := (State.closeHalf_channel _ p t closing c).1 (by rw [hentry]; exact ⟨he, hp⟩)
    exact ⟨hprev.trans (by rw [hd]), hcur⟩

/-- The trackers after a closing (R57, R63). -/
theorem State.closeHalf_result (s : State) (p : Point) (t : Tick) (k : Closing) :
    ((s.closeHalf p t k).point p).pairFlag = true ∧ ((s.closeHalf p t k).point p).previousFree = k.free ∧
    ((s.point p).pairFlag = false →
      ((s.closeHalf p t k).point p).low = (s.point p).low ∧
      ((s.closeHalf p t k).point p).high = (s.point p).high) ∧
    ((s.point p).pairFlag = true → ∃ r : WindowResult, r.tick = t ∧ r.free = (k.free || (s.point p).previousFree) ∧
      r.values = (s.channelsOf p).map (fun c => windowValue c (s.channel c) r.free) ∧
      ((s.closeHalf p t k).point p).low = (((s.rotate p k.free).takeResult p r).point p).low ∧
      ((s.closeHalf p t k).point p).high = (((s.rotate p k.free).takeResult p r).point p).high) := by
  obtain ⟨hlow, hhigh, hpair, hfree⟩ := s.closeHalf_trackers p t k
  refine ⟨hpair, hfree, fun h => ?_, fun h =>
    ⟨{ values := (s.channelsOf p).map (fun c => windowValue c (s.channel c) (k.free || (s.point p).previousFree))
       tick := t, free := k.free || (s.point p).previousFree }, rfl, rfl, rfl, ?_⟩⟩
  · rw [hlow, hhigh, State.tracked_none h, State.rotate_point]
    exact ⟨rfl, rfl⟩
  · rw [hlow, hhigh, State.tracked, State.windowResult_some h]
    exact ⟨rfl, rfl⟩

/-- Settles O49: the arithmetic clause by clause; a delivery is `State.decided`, then the closing its cut asks for. -/
theorem windowValueFormed : Obligations.WindowValueFormed := by
  unfold Obligations.WindowValueFormed
  refine ⟨windowValue_spec, correctedCode_eq, Tally.add_spec, fun s p t set changed cut c hcut =>
    State.deliver_channel c hcut, fun s p t set changed cut hcut => ?_, State.closeHalf_result⟩
  subst hcut
  obtain ⟨hstays, hcloses⟩ := s.deliver_decided t set p changed
  rw [s.cutOf_eq] at hstays hcloses
  refine ⟨s.decided t set p changed, s.decided_point t set p changed,
    fun q hq => s.decided_beside t set changed hq, fun c hn => State.decided_channel_beside hn t set changed,
    fun c => ?_, fun c m k he hp hm hk => by rw [State.decided_current he hp hm hk],
    Delivered.decided s t set p changed, hstays, hcloses⟩
  rw [s.decided_channel, s.addSamples_channel]

/-! ### The Boundary Unit in a delivery (R28, R39, R44) -/

/-- A set with a reference change leaves the unit in FREE, both sides armed, the count gone on or begun anew. -/
theorem Boundary.step_changed (b : Boundary) (h : Nat) (x : Option Int) : (b.step h true x).1 =
    { mode := .free, count := if b.count + 1 < 128 then b.count + 1 else 0, armedPositive := true
      armedNegative := true, before := x } := by
  obtain ⟨-, hpos, hneg, hbefore⟩ := Boundary.step_fresh (b := b) (changed := true) (.inl rfl) h x
  have hrest : (b.step h true x).1.mode = .free ∧
      (b.step h true x).1.count = if b.count + 1 < 128 then b.count + 1 else 0 := by
    have hmode : (b.met h true x).mode = .free := b.met_mode h true x
    rw [b.step_met]
    split
    · next hc =>
      rw [Boundary.decide_changed_short (show (b.met h true x).count < 128 from hc)]
      exact ⟨hmode, rfl⟩
    · next hc =>
      rw [Boundary.decide_changed_full (show 128 ≤ (b.met h true x).count from Nat.not_lt.mp hc)]
      exact ⟨rfl, rfl⟩
  obtain ⟨hmode, hcount⟩ := hrest
  generalize (b.step h true x).1 = u at hpos hneg hbefore hmode hcount ⊢
  cases u
  rw [Boundary.mk.injEq]
  exact ⟨hmode, hcount, hpos, hneg, hbefore⟩

/-- A set that is delivered finds a period in progress (R49). -/
theorem State.advancePeriod_running (s : State) (p : Point) (t : Tick) :
    ∃ q, ((s.advancePeriod p t).point p).period = some q := by
  cases h : (s.point p).period with
  | none => exact ⟨_, by rw [State.advancePeriod_none h, State.modPoint_here]⟩
  | some q =>
    by_cases hq : q.first = s.periodFirst t
    · exact ⟨q, by rw [State.advancePeriod_same h hq, h]⟩
    · exact ⟨.fresh (s.periodFirst t), by rw [State.advancePeriod_other h hq, State.modPoint_here]⟩

/-- R28: what a set with a reference change does to the Boundary Unit and to the period. -/
theorem State.deliver_changed (s : State) (t : Tick) (set : SampleSet) (p : Point) :
    ((s.deliver t set p true).point p).boundary =
      { mode := .free, count := if (s.point p).boundary.count + 1 < 128 then (s.point p).boundary.count + 1 else 0
        armedPositive := true, armedNegative := true, before := s.referenceCode p set } ∧
    ∃ q, ((s.deliver t set p true).point p).period = some q ∧ q.valid = false := by
  obtain ⟨q, hq⟩ := s.advancePeriod_running p t
  refine ⟨by rw [s.deliver_boundary, Boundary.step_changed], _, by rw [s.deliver_period, hq]; rfl, ?_⟩
  exact Bool.eq_false_iff.mpr fun hv => nomatch (((q.act_spec _ true).2.2 _).2.mp hv).2.2

end Sys2Proof.Machine
end

section
/-! PROOFS. CLOSE-ASSESSMENT (R113: O43) and the supply return in STANDBY (R106, R173: O24): assessments that end, and spans
that open, point after point. -/

namespace Sys2Proof.Machine

/-! ### What an operation over points leaves unchanged -/

theorem Across.only {s t : State} (h : Across s t) :
    t = { s with points := t.points, builder := t.builder, attention := t.attention } := by
  obtain ⟨b, a, v, -, rfl⟩ := h.whole
  rfl

theorem Tells.status (s : State) (kind : StatusKind) :
    Tells [.status kind s.epochNow s.control.epochUnset] (fun _ => False) s (s.offerStatus kind) :=
  Tells.offer s _

theorem Tells.reply (s : State) (kind tag : Byte) (result : ReplyResult) (tail : ReplyTail) :
    Tells [.reply { kind := kind, tag := tag, result := result, tail := tail }] (fun j => j = .replyReady) s
      (s.offerReply kind tag result tail) :=
  Tells.offerRaise s _ _

/-- The record of a list of points that each have at most one. -/
theorem flatMap_toList {α β γ : Type} (l : List α) (f : α → Option β) (g : α → β → γ) :
    l.flatMap (fun a => (f a).toList.map (g a)) = l.filterMap (fun a => (f a).map (g a)) := by
  rw [filterMap_as_flatMap]
  simp only [Option.toList_map]

/-- The summaries of the assessments that end at points of a list (R112). -/
theorem summaries_eq (s : State) (early stopped : Bool) (l : List Point) :
    l.flatMap (fun p => summaryRecords early stopped s p (s.point p)) =
      l.filterMap (fun p => (s.point p).assessment.map (fun a => .summary (summaryRecord s p a early stopped))) :=
  flatMap_toList l (fun p => (s.point p).assessment) (fun p a => RecordBody.summary (summaryRecord s p a early stopped))

theorem PointRecord.reassessed_none (x : PointRecord) : x.reassessed none = { x with assessment := none } := by
  unfold PointRecord.reassessed
  split
  · next h => rw [← h]
  · rfl

theorem PointRecord.reassessed_some {x : PointRecord} (h : x.assessment.isSome = true) (next : Option Assessment) :
    x.reassessed next = { x with assessment := next } := by
  obtain ⟨a, ha⟩ := Option.isSome_iff_exists.mp h
  rw [PointRecord.reassessed, ha]

/-! ### CLOSE-ASSESSMENT (R113) -/

theorem exec_closeAssessment_of_ne_init {s : State} (tag point : Byte) (hd : s.control.device ≠ .init) :
    exec (.closeAssessment tag point) s = .next (s.actCloseAssessment tag point) :=
  congrArg Host.Outcome.next (s.takeFrame_of_ne_init (.closeAssessment tag point) allFour hd)

theorem pointOp_closeEarly : PointOp State.closeEarly (summaryRecords true false)
    (fun _ _ x j => j = .assessmentClosed ∧ x.assessment ≠ none)
    (fun s _ x => x.reassessed (some (.fresh s.epochNow))) :=
  pointOp_endAssessment true false (next := fun s => some (.fresh s.epochNow)) (fun ha => by rw [ha.epochNow])

theorem State.actCloseAssessment_measuring {s : State} (h : s.measuring = true) (tag point : Byte) :
    s.actCloseAssessment tag point =
      match s.pointsNamed point with
      | none => s.offerReply kindCloseAssessment tag .badIndex .empty
      | some [] => s.offerReply kindCloseAssessment tag .notConfigured .empty
      | some (p :: ps) => ((p :: ps).foldl State.closeEarly s).offerReply kindCloseAssessment tag .done .empty :=
  if_neg (by rw [h]; exact Bool.false_ne_true)

theorem State.actCloseAssessment_named {s : State} {point : Byte} {named : List Point} (h : s.measuring = true)
    (hn : s.pointsNamed point = some named) (hne : named ≠ []) (tag : Byte) :
    s.actCloseAssessment tag point =
      (named.foldl State.closeEarly s).offerReply kindCloseAssessment tag .done .empty := by
  obtain ⟨p, ps, rfl⟩ := List.exists_cons_of_ne_nil hne
  rw [State.actCloseAssessment_measuring h, hn]

theorem State.pointsNamed_all (s : State) : s.pointsNamed 0xFF = some s.measuredPoints :=
  if_pos rfl

theorem State.pointsNamed_one (s : State) {point : Byte} {p : Point} (h : point.toNat = p.val) :
    s.pointsNamed point = some (if (s.point p).measured then [p] else []) := by
  have hne : point ≠ pointAll := fun he => absurd (he ▸ h : pointAll.toNat = p.val) (by have := p.isLt; show ¬255 = _; omega)
  rw [State.pointsNamed, if_neg hne, h, pointOfNat_val]

theorem State.pointsNamed_none (s : State) {point : Byte} (h : 4 ≤ point.toNat) (hne : point ≠ 0xFF) :
    s.pointsNamed point = none := by
  rw [State.pointsNamed, if_neg (show ¬point = pointAll from hne), pointOfNat_eq_none h]

/-- Settles O43: the tests of R113 in order; the named points' assessments end one after another. -/
theorem assessmentClosed : Obligations.AssessmentClosed := by
  intro s tag point hd
  rw [exec_closeAssessment_of_ne_init tag point hd]
  refine ⟨fun h => ?refused, fun h h4 hne => ?badIndex, fun h hn => ?notConfigured, fun h named hnamed hne hall => ?done⟩
  case refused => exact congrArg Host.Outcome.next (if_pos (by rw [h]; rfl))
  case badIndex =>
    rw [State.actCloseAssessment_measuring h, s.pointsNamed_none h4 hne]
    rfl
  case notConfigured =>
    have hnone : s.pointsNamed point = some [] := by
      rcases hn with ⟨p, hp, hm⟩ | ⟨rfl, hm⟩
      · rw [s.pointsNamed_one hp, hm]
        rfl
      · rw [s.pointsNamed_all, State.measuredPoints, List.filter_eq_nil_iff.mpr]
        exact fun p _ => by rw [hm p]; exact Bool.false_ne_true
    rw [State.actCloseAssessment_measuring h, hnone]
    rfl
  case done =>
    have hlist : s.pointsNamed point = some named ∧ named.Nodup := by
      rcases hnamed with ⟨p, hp, rfl⟩ | ⟨rfl, rfl⟩
      · rw [s.pointsNamed_one hp, (hall p (List.mem_singleton_self p)).1]
        exact ⟨rfl, nodup_one p⟩
      · exact ⟨s.pointsNamed_all, s.measuredPoints_nodup⟩
    obtain ⟨hacross, hin, hout, htells⟩ := pointOp_closeEarly.foldl hlist.2 s
    have hreply := htells.trans (Tells.reply _ 0x08 tag .done .empty)
    have hnoted := Noted.offerReply (named.foldl State.closeEarly s) 0x08 tag .done .empty
    rw [State.actCloseAssessment_named h hlist.1 hne]
    refine ⟨_, _, rfl, rfl, ?_, ?_, hreply.raises (.inr rfl), fun p hp => ?_, fun p hp => ?_,
      (hacross.trans (.noted hnoted)).only⟩
    · rw [← summaries_eq]
      exact hreply.builder.trans (List.foldl_append ..)
    · obtain ⟨p, hp⟩ := List.exists_mem_of_ne_nil named hne
      exact hreply.raises (.inl ⟨p, hp, rfl, Option.isSome_iff_ne_none.mp (hall p hp).2⟩)
    · exact (hnoted.point p).trans ((hin p hp).trans (PointRecord.reassessed_some (hall p hp).2 _))
    · exact (hnoted.point p).trans (hout p hp)

/-! ### The supply return in STANDBY (R173) -/

theorem Tells.restoreSupply (s : State) (d : DeviceState) :
    Tells [.status (.supplyRestored (s.count - s.control.holdupStart) d) s.epochNow s.control.epochUnset]
      (fun j => j = .supply)
      { s with control := { s.control with device := d, prior := none, timerRunning := false } } (s.restoreSupply d) :=
  Tells.offerRaise _ _ _

theorem State.takeReturnStandby_due {s : State} (hl : s.control.level = .good) (hd : s.control.device = .standby) :
    s.takeReturnStandby = s.leaveStandby :=
  if_pos (by rw [hl, hd]; rfl)

theorem State.takeReturnStandby_idle {s : State} (h : s.control.level = .failing ∨ s.control.device ≠ .standby) :
    s.takeReturnStandby = s := by
  refine if_neg fun hc => ?_
  obtain ⟨hl, hd⟩ := Bool.and_eq_true_iff.mp hc
  rcases h with h | h
  · rw [h] at hl
    cases hl
  · exact h (beq_iff_eq.mp hd)

theorem State.resumes_iff (s : State) :
    s.resumes = true ↔ s.control.prior = some .running ∧ s.setup.restart = .resume := by
  rw [State.resumes, Bool.and_eq_true, beq_iff_eq, beq_iff_eq]

/-- The kept assessments end (R106). -/
theorem pointOp_endKept : PointOp (fun s p => s.endAssessment p false true none) (summaryRecords false true)
    (fun _ _ x j => j = .assessmentClosed ∧ x.assessment ≠ none) (fun _ _ x => x.reassessed none) :=
  pointOp_endAssessment false true (next := fun _ => none) (fun _ => rfl)

/-- What the return of the supply to a device state leaves as it was. -/
structure Restores (d : DeviceState) (s u : State) : Prop where
  noted : Noted { s with control := s.control.restored d } u
  tells : Tells [.status (.supplyRestored (s.count - s.control.holdupStart) d) s.epochNow s.control.epochUnset]
    (fun j => j = .supply) { s with control := s.control.restored d } u

theorem State.restoreSupply_restores (s : State) (d : DeviceState) : Restores d s (s.restoreSupply d) :=
  ⟨s.restoreSupply_noted d, Tells.restoreSupply s d⟩

theorem Restores.measuredPoints {d : DeviceState} {s u : State} (h : Restores d s u) :
    u.measuredPoints = s.measuredPoints := by
  obtain ⟨b, a, -, rfl⟩ := h.noted
  rfl

theorem Restores.summaryRecord {d : DeviceState} {s u : State} (h : Restores d s u) (p : Point) (x : Assessment)
    (early stopped : Bool) : summaryRecord u p x early stopped = summaryRecord s p x early stopped := by
  obtain ⟨b, a, -, rfl⟩ := h.noted
  rfl

theorem Restores.newInterval {d : DeviceState} {s u : State} (h : Restores d s u) :
    u.newInterval u.count = s.newInterval s.count := by
  obtain ⟨b, a, -, rfl⟩ := h.noted
  rfl

/-- After a return and what follows it on points, builder and attention, the control is as restored. -/
theorem Restores.only {d : DeviceState} {s u t : State} (h : Restores d s u) (k : Across u t) :
    t.control = { s.control with device := d, prior := none, timerRunning := false } ∧
      t = { s with control := t.control, points := t.points, builder := t.builder, attention := t.attention } := by
  obtain ⟨b, a, -, rfl⟩ := h.noted
  have ht := k.only
  exact ⟨by rw [ht]; rfl, by rw [ht]⟩

/-- Settles O24: the supply returns, then the measured points open their spans or the kept assessments end. -/
theorem supplyReturnLeavesStandby : Obligations.SupplyReturnLeavesStandby := by
  refine ⟨fun s hl hd hp hr => ?resumes, fun s hl hd hn => ?stays,
    fun s h => congrArg Host.Outcome.next (State.takeReturnStandby_idle h)⟩
  case resumes =>
    have hres := s.restoreSupply_restores .running
    have ht : s.takeReturnStandby = (s.restoreSupply .running).measuredPoints.foldl
        (fun u p => u.openSpans u.count p) (s.restoreSupply .running) :=
      (State.takeReturnStandby_due hl hd).trans (if_pos (s.resumes_iff.mpr ⟨hp, hr⟩))
    obtain ⟨hacross, hin, hout, htells⟩ := pointOp_openSpans.foldl (State.measuredPoints_nodup _) (s.restoreSupply .running)
    rw [← ht] at hacross hin hout htells
    rw [hres.measuredPoints] at hin hout
    obtain ⟨hcontrol, honly⟩ := hres.only hacross
    refine ⟨s.takeReturnStandby, rfl, hcontrol, ?_, htells.keeps (hres.tells.raises rfl), fun p hm => ?_,
      fun p hm => ?_, honly⟩
    · rw [htells.builder, List.flatMap_eq_nil_iff.mpr (fun _ _ => rfl)]
      exact hres.tells.builder
    · rw [hin p ((State.mem_measuredPoints s p).mpr hm), hres.newInterval, s.restoreSupply_point]
    · exact (hout p (fun h => Bool.false_ne_true (hm.symm.trans ((State.mem_measuredPoints s p).mp h)))).trans
        (s.restoreSupply_point .running p)
  case stays =>
    have hres := s.restoreSupply_restores .stopped
    have hno : ¬s.resumes = true := by
      rw [s.resumes_iff]
      rintro ⟨hp, hr⟩
      exact hn.elim (fun h => h hp) (fun h => nomatch h.symm.trans hr)
    have ht : s.takeReturnStandby = allFour.foldl (fun u p => u.endAssessment p false true none)
        (s.restoreSupply .stopped) := (State.takeReturnStandby_due hl hd).trans (if_neg hno)
    obtain ⟨hacross, hin, -, htells⟩ := pointOp_endKept.foldl nodup_allFour (s.restoreSupply .stopped)
    rw [← ht] at hacross hin htells
    obtain ⟨hcontrol, honly⟩ := hres.only hacross
    have hsay : allFour.flatMap (fun p => summaryRecords false true (s.restoreSupply .stopped) p
          ((s.restoreSupply .stopped).point p)) = allFour.filterMap (fun p =>
        (s.point p).assessment.map (fun a => .summary (summaryRecord s p a false true))) := by
      rw [summaries_eq]
      simp only [s.restoreSupply_point, hres.summaryRecord]
    rw [hsay] at htells
    refine ⟨s.takeReturnStandby, _, rfl, hcontrol, ?_, rfl, htells.keeps (hres.tells.raises rfl), fun hne => ?_,
      fun p => ?_, honly⟩
    · rw [htells.builder, hres.tells.builder]
      rfl
    · obtain ⟨body, hbody⟩ := List.exists_mem_of_ne_nil _ hne
      obtain ⟨p, hp, hpb⟩ := List.mem_filterMap.mp hbody
      refine htells.raises ⟨p, hp, rfl, fun ha => ?_⟩
      rw [s.restoreSupply_point] at ha
      rw [ha] at hpb
      cases hpb
    · rw [hin p (mem_allFour p), PointRecord.reassessed_none, s.restoreSupply_point]

end Sys2Proof.Machine
end

section
/-! PROOFS. An accepted START (R163: O38): the points and channels as it leaves them, and the spans it opens. -/

namespace Sys2Proof.Machine

/-! ### Points -/

/-- A point of an accepted START before its spans are opened: the limits to come in force, nothing in progress. -/
def PointRecord.started (x : PointRecord) (measured : Bool) : PointRecord :=
  { x with
    limits := x.limitsToCome
    thresholds := if x.pendingLimits.isSome then deriveThresholds x.limitsToCome else x.thresholds
    pendingLimits := none, measured := measured, boundary := .fresh, period := none, pairFlag := false
    previousFree := false, low := .quiet, high := .quiet }

theorem PointRecord.begin_installAtStart (x : PointRecord) (measured : Bool) :
    x.installAtStart.begin measured = x.started measured := by
  rcases x with ⟨_, _, _ | l, _⟩ <;> rfl

theorem PointRecord.installAtStart_limits (x : PointRecord) : x.installAtStart.limits = x.limitsToCome := by
  unfold PointRecord.installAtStart PointRecord.limitsToCome
  split
  · next h => rw [h]; rfl
  · next l h => rw [h]; rfl

theorem State.mapPoints_configuredWith (s : State) (f : Point → PointRecord → PointRecord) (p : Point)
    (l : LimitsEntry) : (s.mapPoints f).configuredWith p l = s.configuredWith p l :=
  rfl

theorem State.startCleared_started (s : State) (p : Point) : s.startCleared.point p =
    (s.point p).started (s.configuredWith p (s.point p).limitsToCome) := by
  rw [s.startCleared_point, State.startPoints, State.mapPoints_point, State.mapPoints_point,
    State.mapPoints_configuredWith, PointRecord.installAtStart_limits, PointRecord.begin_installAtStart]

/-- A point with new spans and a new assessment (R96, R98). -/
def PointRecord.openedRun (x : PointRecord) (s : State) : PointRecord :=
  { x with block := some .fresh, interval := some (s.newInterval s.count), assessment := some (.fresh s.epochNow) }

theorem pointOp_openRun : PointOp State.openRun (fun _ _ _ => []) (fun _ _ _ _ => False)
    (fun s _ x => x.openedRun s) where
  acts s p := by
    have h := (pointOp_openSpans.acts s p).thenPoint (fun pt => { pt with assessment := some (.fresh s.epochNow) })
      ⟨rfl, rfl, rfl, rfl, rfl, rfl, rfl, rfl, id, id⟩
    exact h
  same ha p x := by
    obtain ⟨-, -, hcount, -⟩ := ha.kept
    unfold PointRecord.openedRun
    rw [hcount, ha.newInterval, ha.epochNow]
    exact ⟨rfl, rfl, rfl⟩

theorem Tells.congr {x y : List RecordBody} {f g : AttnClass → Prop} {s t : State} (h : Tells x f s t) (hx : x = y)
    (hf : ∀ j, f j ↔ g j) : Tells y g s t := by
  subst hx
  exact h.mono hf

/-- The spans are opened without a word. -/
theorem State.beginRun_opens (s : State) : Across s.startCleared s.beginRun ∧
    Tells [] (fun _ => False) s.startCleared s.beginRun ∧
    (∀ p, s.configuredWith p (s.point p).limitsToCome = true →
      s.beginRun.point p = ((s.point p).started true).openedRun s.startCleared) ∧
    ∀ p, s.configuredWith p (s.point p).limitsToCome = false → s.beginRun.point p = (s.point p).started false := by
  have hpoint (p : Point) := s.startCleared_started p
  have hmem (p : Point) : p ∈ s.startCleared.measuredPoints ↔ s.configuredWith p (s.point p).limitsToCome = true := by
    rw [State.mem_measuredPoints, hpoint]
    rfl
  obtain ⟨hacross, hin, hout, htells⟩ := pointOp_openRun.foldl s.startCleared.measuredPoints_nodup s.startCleared
  rw [← s.beginRun_eq] at hacross hin hout htells
  refine ⟨hacross, htells.congr (List.flatMap_eq_nil_iff.mpr fun _ _ => rfl)
    (fun j => ⟨fun ⟨_, _, h⟩ => h, False.elim⟩), fun p hc => ?_, fun p hc => ?_⟩
  · rw [hin p ((hmem p).mpr hc), hpoint, hc]
  · rw [hout p (fun h => Bool.false_ne_true (hc.symm.trans ((hmem p).mp h))), hpoint, hc]

/-! ### The mask of the measured points (R179) -/

/-- The four given bits, by their place. -/
def bitOfFour (b0 b1 b2 b3 : Bool) : Fin 4 → Bool
  | 0 => b0
  | 1 => b1
  | 2 => b2
  | 3 => b3

theorem maskFold_getLsbD (f : Fin 4 → Bool) (p : Fin 4) :
    ((allFour.foldl (fun m q => if f q then m ||| BitVec.ofNat 4 (2 ^ q.val) else m) (0 : BitVec 4)).getLsbD p.val) =
      f p := by
  have hall : ∀ (b0 b1 b2 b3 : Bool) (q : Fin 4), (allFour.foldl (fun m q =>
      if bitOfFour b0 b1 b2 b3 q then m ||| BitVec.ofNat 4 (2 ^ q.val) else m) (0 : BitVec 4)).getLsbD q.val =
        bitOfFour b0 b1 b2 b3 q := by decide
  have hf : bitOfFour (f 0) (f 1) (f 2) (f 3) = f := by
    funext q
    match q with
    | 0 | 1 | 2 | 3 => rfl
  have hp := hall (f 0) (f 1) (f 2) (f 3) p
  rwa [hf] at hp

theorem State.measuredMask_getLsbD (s : State) (p : Point) : s.measuredMask.getLsbD p.val = (s.point p).measured :=
  maskFold_getLsbD (fun q => (s.point q).measured) p

/-! ### The rest of an accepted START -/

theorem State.clearedForRun_channel (u : State) (d : Control) (c : Channel) :
    ({ u.emptyHistory with control := d } : State).channel c = u.channel c :=
  rfl

theorem State.startPoints_channel (s : State) (c : Channel) : s.startPoints.channel c = s.channel c :=
  rfl

theorem State.startCleared_channel (s : State) (c : Channel) : s.startCleared.channel c =
    { entry := (s.channel c).entry, lead := .notChecked, due := s.startPoints.checkedMeasured (s.channel c).entry
      current := .zero, previous := .zero, ring := [] } := by
  rw [State.startCleared, State.clearedForRun_channel, State.mapChannels_channel, s.startPoints_channel]
  rfl

theorem State.startCleared_only (s : State) : ∃ (v : Vector PointRecord 4) (w : Vector ChannelRecord 24),
    s.startCleared = { s with
      control := { s.control with device := .running }, points := v, channels := w
      history := { head := none, sets := [] } } := by
  unfold State.startCleared State.startPoints State.mapChannels State.mapPoints State.emptyHistory
  exact ⟨_, _, rfl⟩

/-- Checked channels are those of measured points, whatever else the points hold. -/
theorem State.checkedMeasured_congr {s t : State} (h : ∀ p, (t.point p).measured = (s.point p).measured)
    (e : MapEntry) : t.checkedMeasured e = s.checkedMeasured e := by
  unfold State.checkedMeasured
  simp only [h]

theorem State.actStart_accepted {s : State} (hd : s.control.device = .stopped) (hsome : s.someConfigured = true)
    (hall : s.allDeclared = true) (tag : Byte) : s.actStart tag =
      (s.beginRun.offerStatus (.started s.beginRun.measuredMask)).offerReply kindStart tag .done .empty := by
  rw [State.actStart, if_neg (not_not_intro hd), if_neg (by rw [hsome]; exact Bool.false_ne_true),
    if_neg (by rw [hall]; exact Bool.false_ne_true)]

/-- A point of an accepted START, whether it is measured or not. -/
theorem PointRecord.started_kept (x : PointRecord) (u : State) (m : Bool) {y : PointRecord}
    (h : y = if m then (x.started true).openedRun u else x.started false) :
    y.measured = m ∧ y.limits = x.limitsToCome ∧ y.pendingLimits = none ∧
      y.thresholds = (if x.pendingLimits.isSome then deriveThresholds x.limitsToCome else x.thresholds) ∧
      y.reference = x.reference ∧ y.low = .quiet ∧ y.high = .quiet ∧ y.boundary = .fresh ∧ y.period = none ∧
      y.pairFlag = false ∧ y.previousFree = false ∧ y.check = x.check := by
  subst h
  cases m <;> exact ⟨rfl, rfl, rfl, rfl, rfl, rfl, rfl, rfl, rfl, rfl, rfl, rfl⟩

/-- Settles O38: the state that `State.beginRun` leaves, and the two records after it. -/
theorem startAccepted : Obligations.StartAccepted := by
  intro s tag hd hsome hall
  rw [exec_start_of_ne_init s tag (by rw [hd]; exact DeviceState.noConfusion),
    State.actStart_accepted hd (s.someConfigured_iff.mpr hsome) (s.allDeclared_iff.mpr hall)]
  obtain ⟨hacross, hopens, hin, hout⟩ := s.beginRun_opens
  have hnoted := (Noted.offerStatus s.beginRun (.started s.beginRun.measuredMask)).trans
    (Noted.offerReply _ kindStart tag .done .empty)
  have hsays := (hopens.trans (Tells.status s.beginRun (.started s.beginRun.measuredMask))).trans
    (Tells.reply _ kindStart tag .done .empty)
  generalize (s.beginRun.offerStatus (.started s.beginRun.measuredMask)).offerReply kindStart tag .done .empty = t
    at hnoted hsays
  have hbegun (p : Point) : ∃ measured, measured = s.configuredWith p (s.point p).limitsToCome ∧
      t.point p = if measured then ((s.point p).started true).openedRun s.startCleared
        else (s.point p).started false := by
    refine ⟨_, rfl, ?_⟩
    rw [hnoted.point]
    cases hc : s.configuredWith p (s.point p).limitsToCome with
    | true => exact hin p hc
    | false => exact hout p hc
  obtain ⟨v, w, hcleared⟩ := s.startCleared_only
  have hmeasured (p : Point) : (t.point p).measured = s.configuredWith p (s.point p).limitsToCome := by
    obtain ⟨m, hm, hp⟩ := hbegun p
    exact (PointRecord.started_kept _ _ m hp).1.trans hm
  have hchannel (c : Channel) : t.channel c = s.startCleared.channel c := by
    have hb : s.beginRun.channels = s.startCleared.channels := hacross.kept.2.2.2
    obtain ⟨b, a, -, rfl⟩ := hnoted
    exact congrArg (fun v : Vector ChannelRecord 24 => v[c.val]) hb
  have hepoch : s.beginRun.epochNow = s.epochNow ∧ s.beginRun.control = { s.control with device := .running } := by
    rw [hacross.epochNow, hacross.kept.2.1, hcleared]
    exact ⟨rfl, rfl⟩
  have hwhole : t = { s with
      control := { s.control with device := .running }, points := t.points, channels := t.channels
      history := { head := none, sets := [] }, builder := t.builder, attention := t.attention } := by
    obtain ⟨b, a, -, rfl⟩ := hnoted
    rw [hacross.only, hcleared]
  refine ⟨t, s.beginRun.measuredMask, rfl, by rw [hwhole], fun p => ?_, hmeasured, ?_, hsays.raises (.inr rfl),
    fun p => ?_, fun p hm => ?_, fun c => ?_, by rw [hwhole], ?_⟩
  · rw [State.measuredMask_getLsbD, hnoted.point]
  · have hbuilder : s.startCleared.builder = s.builder := by rw [hcleared]
    rw [hsays.builder, hbuilder, hepoch.1, hepoch.2]
    rfl
  · obtain ⟨m, -, hp⟩ := hbegun p
    exact (PointRecord.started_kept _ _ m hp).2
  · obtain ⟨m, hc, hp⟩ := hbegun p
    rw [hmeasured, ← hc] at hm
    subst hm
    have hnew : s.startCleared.newInterval s.startCleared.count = s.newInterval s.count ∧
        s.startCleared.epochNow = s.epochNow := by
      rw [hcleared]
      exact ⟨rfl, rfl⟩
    rw [hp, if_pos rfl, PointRecord.openedRun, hnew.1, hnew.2]
    exact ⟨rfl, rfl, rfl⟩
  · rw [hchannel, s.startCleared_channel]
    have hdue : s.startPoints.checkedMeasured (s.channel c).entry = t.checkedMeasured (s.channel c).entry := by
      refine State.checkedMeasured_congr (fun p => ?_) _
      rw [hmeasured, ← s.startCleared_point, s.startCleared_started]
      rfl
    rw [hdue]
  · rw [hwhole]

end Sys2Proof.Machine
end

section
/-! PROOFS. What a point's block, interval and assessment say and become when they are closed together (R86 to R88, R99 to
R112): what STOP, TIME-SET and the entry to STANDBY have in common. -/

namespace Sys2Proof.Machine

/-- An operation named otherwise, with what it says, raises and leaves written otherwise. -/
theorem PointOp.congr {f f' : State → Point → State} {say say' cls cls' new new'} (h : PointOp f say cls new)
    (hf : ∀ s p, f' s p = f s p) (hsay : ∀ s p x, say' s p x = say s p x) (hcls : ∀ s p x j, cls' s p x j ↔ cls s p x j)
    (hnew : ∀ s p x, new' s p x = new s p x) : PointOp f' say' cls' new' := by
  obtain rfl : f' = f := funext fun s => funext fun p => hf s p
  obtain rfl : say' = say := funext fun s => funext fun p => funext fun x => hsay s p x
  obtain rfl : cls' = cls := funext fun s => funext fun p => funext fun x => funext fun j => propext (hcls s p x j)
  obtain rfl : new' = new := funext fun s => funext fun p => funext fun x => hnew s p x
  exact h

/-! ### A block closed short -/

/-- An interval keeps its coverage and its marks; a block may have disturbed it. -/
structure SameCoverage (iv iv' : Interval) : Prop where
  start : iv'.coverageStart = iv.coverageStart
  epoch : iv'.coverageEpoch = iv.coverageEpoch
  halfWindows : iv'.halfWindows = iv.halfWindows
  stepped : iv'.timeStepped = iv.timeStepped
  unset : iv'.epochUnset = iv.epochUnset
  disturbed : iv.disturbed = true → iv'.disturbed = true

theorem SameCoverage.takeBlock (iv : Interval) (b : Block) : SameCoverage iv (iv.takeBlock b) :=
  ⟨rfl, rfl, rfl, rfl, rfl, fun h => by rw [Interval.takeBlock, h]; rfl⟩

theorem PointRecord.shortened_spec {x : PointRecord} {b : Block} {iv : Interval} (hb : x.block = some b)
    (hiv : x.interval = some iv) : ∃ iv', x.shortened.interval = some iv' ∧ SameCoverage iv iv' ∧
      x.shortened.assessment = x.assessment := by
  unfold PointRecord.shortened
  rw [hb]
  dsimp only
  split
  · exact ⟨iv, hiv, ⟨rfl, rfl, rfl, rfl, rfl, id⟩, rfl⟩
  · exact ⟨iv.takeBlock b, by rw [PointRecord.closedBlock, hiv]; rfl, .takeBlock iv b, rfl⟩

/-- Closing a block short leaves all but the block and the interval of a point. -/
theorem PointRecord.shortened_kept (x : PointRecord) :
    x.shortened = { x with block := x.shortened.block, interval := x.shortened.interval } ∧
      x.shortened.interval.isSome = x.interval.isSome := by
  unfold PointRecord.shortened
  split
  · exact ⟨rfl, rfl⟩
  · split
    · exact ⟨rfl, rfl⟩
    · exact ⟨rfl, Option.isSome_map⟩

/-- A block that holds nothing, or of which no records are made, closes without one. -/
theorem shortRecords_none {s : State} {p : Point} {x : PointRecord} {b : Block} (hb : x.block = some b)
    (h : b.count = 0 ∨ s.setup.blockPoints.getLsbD p.val = false) : shortRecords s p x = [] := by
  unfold shortRecords
  rw [hb]
  dsimp only
  split
  · rfl
  · next hc => exact blockRecords_none (.inr (h.resolve_left hc)) b

theorem shortRecords_some {s : State} {p : Point} {x : PointRecord} {b : Block} (hb : x.block = some b)
    (hc : b.count ≠ 0) (hd : s.control.device = .running) (hp : s.setup.blockPoints.getLsbD p.val = true) :
    shortRecords s p x = [.block (blockRecord s p b)] := by
  unfold shortRecords
  rw [hb]
  exact (if_neg hc).trans (blockRecords_created hd hp b)

theorem shortRecords_of_not_running {s : State} (hd : s.control.device ≠ .running) (p : Point) (x : PointRecord) :
    shortRecords s p x = [] := by
  unfold shortRecords
  split
  · rfl
  · split
    · rfl
    · exact blockRecords_none (.inl hd) _

/-! ### An interval closed -/

theorem intervalRecords_none {x : PointRecord} (h : x.interval = none) (e : State → Tick) (stopped : Bool) (s : State)
    (p : Point) : intervalRecords e stopped s p x = [] := by
  unfold intervalRecords
  rw [h]

/-- An interval closed at STOP leaves the assessment for its own summary (R104, R105). -/
theorem intervalRecords_stopped {x : PointRecord} {iv : Interval} (h : x.interval = some iv) (e : State → Tick)
    (s : State) (p : Point) :
    intervalRecords e true s p x = [.interval (intervalRecord s p iv (e s) true)] ∧
      PointRecord.intervalClosed e true s p x = x.closedInterval s p iv (e s) true := by
  unfold intervalRecords PointRecord.intervalClosed
  rw [h]
  exact ⟨rfl, rfl⟩

/-- An interval that does not fill the assessment. -/
theorem intervalRecords_goes {x : PointRecord} {iv : Interval} {a : Assessment} (h : x.interval = some iv)
    (ha : x.assessment = some a) (e : State → Tick) {s : State} (p : Point)
    (hlt : a.closedIntervals + 1 < s.setup.assessmentLength) :
    intervalRecords e false s p x = [.interval (intervalRecord s p iv (e s) false)] ∧
      (PointRecord.intervalClosed e false s p x).assessment =
        some (a.takeInterval s p (intervalRecord s p iv (e s) false)) := by
  have hn : ¬(x.closedInterval s p iv (e s) false).ended s.setup false = true := fun hy =>
    Nat.not_le.mpr hlt ((PointRecord.closedInterval_ended ha s p iv (e s)).mp hy)
  unfold intervalRecords PointRecord.intervalClosed
  rw [h]
  dsimp only
  rw [if_neg hn, if_neg hn, PointRecord.closedInterval, ha]
  exact ⟨rfl, rfl⟩

/-- An interval that fills the assessment ends it with its summary, and a new one begins (R104, R112). -/
theorem intervalRecords_ends {x : PointRecord} {iv : Interval} {a : Assessment} (h : x.interval = some iv)
    (ha : x.assessment = some a) (e : State → Tick) {s : State} (p : Point)
    (hle : s.setup.assessmentLength ≤ a.closedIntervals + 1) :
    intervalRecords e false s p x = [.interval (intervalRecord s p iv (e s) false),
        .summary (summaryRecord s p (a.takeInterval s p (intervalRecord s p iv (e s) false)) false false)] ∧
      (PointRecord.intervalClosed e false s p x).assessment = some (.fresh (s.epochOf (e s))) := by
  have hy := (PointRecord.closedInterval_ended ha s p iv (e s)).mpr hle
  unfold intervalRecords PointRecord.intervalClosed
  rw [h]
  dsimp only
  rw [if_pos hy, if_pos hy]
  unfold summaryRecords PointRecord.reassessed PointRecord.closedInterval
  rw [ha]
  exact ⟨rfl, rfl⟩

/-! ### Events that are counted (R111) -/

/-- The number of events of a class in a list. -/
def classCount (k : EventClass) (l : List OpenEvent) : Nat :=
  (l.filter (fun e => e.eventClass == k)).length

theorem classCount_cons (k : EventClass) (e : OpenEvent) (l : List OpenEvent) :
    classCount k (e :: l) = (if e.eventClass = k then 1 else 0) + classCount k l := by
  unfold classCount
  rw [List.filter_cons]
  by_cases h : e.eventClass = k
  · rw [if_pos (beq_iff_eq.mpr h), if_pos h, List.length_cons, Nat.add_comm]
  · rw [if_neg (mt beq_iff_eq.mp h), if_neg h, Nat.zero_add]

/-- An assessment after the events of a list were counted: all else is kept, and counts below their bound grow. -/
structure CountedIn (l : List OpenEvent) (a a' : Assessment) : Prop where
  kept : a' = { a with dips := a'.dips, interruptions := a'.interruptions, swells := a'.swells }
  dips : a.dips + classCount .dip l ≤ 65535 → a'.dips = a.dips + classCount .dip l
  interruptions : a.interruptions + classCount .interruption l ≤ 65535 →
    a'.interruptions = a.interruptions + classCount .interruption l
  swells : a.swells + classCount .swell l ≤ 65535 → a'.swells = a.swells + classCount .swell l

/-- A bounded count of one more event, then of more. -/
theorem countStep {n m : Nat} {c : Prop} [Decidable c] {r : Nat → Prop} (h : n + ((if c then 1 else 0) + m) ≤ 65535)
    (k : (if c then min 65535 (n + 1) else n) + m ≤ 65535 → r ((if c then min 65535 (n + 1) else n) + m)) :
    r (n + ((if c then 1 else 0) + m)) := by
  have he : (if c then min 65535 (n + 1) else n) + m = n + ((if c then 1 else 0) + m) := by
    split at h
    · rw [if_pos ‹c›, if_pos ‹c›]
      omega
    · rw [if_neg ‹¬c›, if_neg ‹¬c›]
      omega
  rw [he] at k
  exact k h

theorem countEvents_some (a : Assessment) (l : List OpenEvent) : ∃ a', countEvents (some a) l = some a' ∧
    CountedIn l a a' := by
  induction l generalizing a with
  | nil => exact ⟨a, rfl, rfl, fun _ => rfl, fun _ => rfl, fun _ => rfl⟩
  | cons e l ih =>
    obtain ⟨a', ha, hkept, hd, hi, hs⟩ := ih (a.countEvent e.eventClass)
    refine ⟨a', ha, ?_, ?_, ?_, ?_⟩
    · rw [hkept, a.countEvent_eq]
    all_goals
      rw [classCount_cons]
      rw [a.countEvent_eq] at hd hi hs
      intro h
    · exact countStep (r := fun n => a'.dips = n) h hd
    · exact countStep (r := fun n => a'.interruptions = n) h hi
    · exact countStep (r := fun n => a'.swells = n) h hs

theorem countEvents_isSome (a : Option Assessment) (l : List OpenEvent) :
    (countEvents a l).isSome = a.isSome := by
  cases a with
  | some a =>
    obtain ⟨a', h, -⟩ := countEvents_some a l
    rw [h]
    rfl
  | none =>
    induction l with
    | nil => rfl
    | cons e l ih => exact ih

/-! ### The events of every point are closed (R87, R88) -/

/-- A point after its open events were closed by force. -/
def PointRecord.quieted (x : PointRecord) : PointRecord :=
  { x with
    low := .quiet, high := .quiet
    assessment := countEvents x.assessment (x.low.event.toList ++ x.high.event.toList) }

theorem State.forceCloseEvents_spec (s : State) (cause : EndCause) : Across s (s.forceCloseEvents cause) ∧
    (∀ p, (s.forceCloseEvents cause).point p = (s.point p).quieted) ∧
    Tells (allFour.flatMap (fun p => forcedRecords cause s p (s.point p)))
      (fun j => j = .eventEnd ∧ allFour.flatMap (fun p => forcedRecords cause s p (s.point p)) ≠ []) s
      (s.forceCloseEvents cause) := by
  obtain ⟨hacross, hin, -, htells⟩ := (pointOp_forceClose cause).foldl nodup_allFour s
  refine ⟨hacross, fun p => hin p (mem_allFour p), htells.mono (fun j => ?_)⟩
  rw [Ne, List.flatMap_eq_nil_iff, Classical.not_forall]
  simp only [Classical.not_forall, exists_prop]
  exact ⟨fun ⟨p, hp, hj, hne⟩ => ⟨hj, p, hp, hne⟩, fun ⟨hj, p, hp, hne⟩ => ⟨p, hp, hj, hne⟩⟩

/-- The records of the measured points, as of every point. -/
theorem flatMap_measured (s : State) (say : Point → List RecordBody) :
    s.measuredPoints.flatMap say = allFour.flatMap (fun p => if (s.point p).measured then say p else []) := by
  unfold State.measuredPoints
  induction allFour with
  | nil => rfl
  | cons p l ih =>
    rw [List.filter_cons, List.flatMap_cons, ← ih]
    split
    · rfl
    · rfl

end Sys2Proof.Machine
end

section
/-! PROOFS. STOP (R164, R32, R46, R53, R64, R87, R105, R126: O40): the events, the capture, the spans of the measured
points, and what is discarded. -/

namespace Sys2Proof.Machine

/-! ### The spans of a point -/

/-- The records of a point's spans at STOP. -/
def stopRecords (s : State) (p : Point) (x : PointRecord) : List RecordBody :=
  (shortRecords s p x ++ intervalRecords State.count true s p x.shortened) ++
    summaryRecords false true s p (PointRecord.intervalClosed State.count true s p x.shortened)

/-- The point after its spans were closed at STOP. -/
def PointRecord.stopped (x : PointRecord) (s : State) (p : Point) : PointRecord :=
  { (PointRecord.intervalClosed State.count true s p x.shortened).reassessed none with
    block := none, interval := none, assessment := none }

/-- The classes that the spans of a point raise at STOP. -/
def stopClasses (x : PointRecord) (j : AttnClass) : Prop :=
  (j = .intervalClosed ∧ x.interval ≠ none) ∨ (j = .assessmentClosed ∧ x.assessment ≠ none)

theorem PointRecord.intervalClosed_true (x : PointRecord) (e : State → Tick) (s : State) (p : Point) :
    (PointRecord.intervalClosed e true s p x).assessment.isSome = x.assessment.isSome := by
  cases h : x.interval with
  | none => rw [PointRecord.intervalClosed, h]
  | some iv =>
    rw [(intervalRecords_stopped h e s p).2, PointRecord.closedInterval]
    exact Option.isSome_map

theorem isSome_ne_none {α : Type} {x y : Option α} (h : x.isSome = y.isSome) : x ≠ none ↔ y ≠ none := by
  rw [← Option.isSome_iff_ne_none, ← Option.isSome_iff_ne_none, h]

theorem pointOp_stopSpans : PointOp State.stopSpans stopRecords (fun _ _ x => stopClasses x)
    (fun s p x => x.stopped s p) := by
  have h := ((pointOp_closeBlockShort.comp (pointOp_closeInterval true (e := State.count) (fun ha => ha.kept.2.2.1))).comp
    (pointOp_endAssessment false true (next := fun _ => none) (fun _ => rfl))).comp
    (pointOp_modPoint (g := fun _ x => { x with block := none, interval := none, assessment := none })
      (fun _ _ => ⟨rfl, rfl, rfl, rfl, rfl, rfl, rfl, rfl, id, id⟩) (fun _ => rfl))
  refine h.congr (fun s p => ?_) (fun s p x => (List.append_nil _).symm) (fun s p x j => ?_) (fun _ _ _ => rfl)
  · rw [State.stopSpans, ← (Across.closeBlockShort s p).kept.2.2.1]
  · have hsome : (PointRecord.intervalClosed State.count true s p x.shortened).assessment.isSome =
        x.assessment.isSome := by
      rw [PointRecord.intervalClosed_true, x.shortened_kept.1]
    rw [or_false, false_or, isSome_ne_none hsome, isSome_ne_none x.shortened_kept.2]
    refine or_congr_left (or_iff_left ?_).symm
    rintro ⟨-, iv, -, he⟩
    exact Bool.false_ne_true he

theorem Spanned.endAssessment (p : Point) (s : State) (early stopped : Bool) (next : Option Assessment) :
    Spanned p s (s.endAssessment p early stopped next) := by
  refine .speaks ((pointOp_endAssessment early stopped (next := fun _ => next) (fun _ => rfl)).acts s p) ?_
  rw [PointRecord.reassessed_spanning]
  rfl

theorem Spanned.stopSpans (p : Point) (s : State) : Spanned p s (s.stopSpans p) :=
  (((Spanned.closeBlockShort p s).trans (Spanned.closeInterval p _ _ true)).trans
    (Spanned.endAssessment p _ false true none)).trans (Spanned.modPoint p _ _ rfl)

/-- The records of a point with all three spans at STOP (R105). -/
theorem stopRecords_spec {s : State} {p : Point} {x : PointRecord} {b : Block} {iv : Interval} {a : Assessment}
    (hd : s.control.device = .running) (hb : x.block = some b) (hiv : x.interval = some iv)
    (ha : x.assessment = some a) : ∃ (blocks : List RecordBody) (r : IntervalRecord) (q : SummaryRecord),
      stopRecords s p x = blocks ++ [.interval r, .summary q] ∧
      (b.count = 0 ∨ s.setup.blockPoints.getLsbD p.val = false → blocks = []) ∧
      (b.count ≠ 0 → s.setup.blockPoints.getLsbD p.val = true → ∃ x, blocks = [.block x] ∧ x.point = p ∧
        x.halfWindows = b.count ∧ x.disturbed = b.disturbed ∧ x.blind = b.blind) ∧
      r.point = p ∧ r.startEpoch = iv.coverageEpoch ∧ r.length = s.count - iv.coverageStart ∧
      r.halfWindows = iv.halfWindows ∧ r.flags.stopped = true ∧ r.flags.timeStepped = iv.timeStepped ∧
      q.point = p ∧ q.startEpoch = a.startEpoch ∧ q.closedIntervals = a.closedIntervals + 1 ∧
      q.flags.stopped = true ∧ q.flags.early = false := by
  obtain ⟨iv', hiv', hcover, hassess⟩ := PointRecord.shortened_spec hb hiv
  obtain ⟨hrec, hpoint⟩ := intervalRecords_stopped hiv' State.count s p
  refine ⟨shortRecords s p x, intervalRecord s p iv' s.count true,
    summaryRecord s p (a.takeInterval s p (intervalRecord s p iv' s.count true)) false true, ?_,
    fun h => shortRecords_none hb h, fun hc hp => ⟨_, shortRecords_some hb hc hd hp, rfl, rfl, rfl, rfl⟩,
    rfl, hcover.epoch, congrArg (s.count - ·) hcover.start, hcover.halfWindows, rfl, hcover.stepped,
    rfl, rfl, rfl, rfl, rfl⟩
  have hsum : summaryRecords false true s p (x.shortened.closedInterval s p iv' s.count true) =
      [.summary (summaryRecord s p (a.takeInterval s p (intervalRecord s p iv' s.count true)) false true)] := by
    unfold summaryRecords PointRecord.closedInterval
    rw [hassess, ha]
    rfl
  rw [stopRecords, hrec, hpoint, hsum, List.append_assoc]
  rfl

/-! ### The capture (R126) -/

/-- A capture that runs ends with its closure record; nothing else is touched. -/
theorem State.endCapture_tells (s : State) (reason : EndReason) :
    Tells (s.capture.toList.map (fun c => .closure (closureOf c reason)))
      (fun j => j = .captureDone ∧ s.capture.toList.map (fun c => RecordBody.closure (closureOf c reason)) ≠ []) s
      (s.endCapture reason) := by
  cases hc : s.capture with
  | none =>
    rw [State.endCapture_of_none hc]
    exact (Tells.refl s).mono (fun j => ⟨False.elim, fun h => h.2 rfl⟩)
  | some c =>
    rw [State.endCapture_of_some hc]
    have h := (Tells.offerRaise s (.closure (closureOf c reason)) .captureDone).mono
      (g := fun j => j = .captureDone ∧ [RecordBody.closure (closureOf c reason)] ≠ [])
      (fun j => (and_iff_left (List.cons_ne_nil _ _)).symm)
    exact ⟨h.builder, h.grows, h.routing, h.count, h.raised⟩

/-! ### What STOP leaves -/

theorem State.stopEvents_kept (s : State) : ∃ b a v, s.stopEvents = { s with
    builder := b, attention := a, points := v, capture := none } := by
  obtain ⟨b, a, v, -, he⟩ := (Across.forceCloseEvents s .stop).whole
  obtain ⟨b2, a2, -, hc⟩ := (s.forceCloseEvents .stop).endCapture_noted .truncatedStop
  refine ⟨b2, a2, v, ?_⟩
  rw [State.stopEvents, hc, he]

theorem State.stopEvents_point (s : State) (p : Point) : s.stopEvents.point p = (s.point p).quieted :=
  (State.endCapture_point _ _ p).trans (s.forceCloseEvents_spec .stop |>.2.1 p)

theorem State.stopEvents_measured (s : State) (p : Point) : (s.stopEvents.point p).measured = (s.point p).measured := by
  rw [s.stopEvents_point]
  rfl

theorem State.quiesce_only (s : State) : ∃ v w, s.quiesce = { s with
    points := v, channels := w, dueNow := { period := false, second := false } } := by
  unfold State.quiesce State.discardWork State.clearDue State.endChecks State.mapPoints State.mapChannels
  exact ⟨_, _, rfl⟩

theorem State.withDueNow_channel (s : State) (d : DueNow) (c : Channel) :
    ({ s with dueNow := d } : State).channel c = s.channel c :=
  rfl

theorem State.quiesce_channel (s : State) (c : Channel) :
    s.quiesce.channel c = { s.channel c with due := false, current := .zero, previous := .zero } := by
  rw [State.quiesce, State.withDueNow_channel, State.discardWork, State.mapChannels_channel,
    State.mapPoints_channel_same, State.clearDue, State.mapChannels_channel, State.endChecks,
    State.mapPoints_channel_same]
  rfl

theorem exec_stop_of_ne_init {s : State} (tag : Byte) (hd : s.control.device ≠ .init) :
    exec (.stop tag) s = .next (s.actStop tag) :=
  congrArg Host.Outcome.next (s.takeFrame_of_ne_init (.stop tag) allFour hd)

theorem State.actStop_running {s : State} (hd : s.control.device = .running) (tag : Byte) :
    s.actStop tag = (s.stopped.offerStatus .stopped).offerReply kindStop tag .done .empty :=
  if_neg (not_not_intro hd)

/-- The control and the rest after STOP, before its status record. -/
theorem State.stopped_kept (s : State) : ∃ b a v w, s.stopped = { s with
    control := { s.control with device := .stopped }, points := v, channels := w, capture := none
    builder := b, attention := a, dueNow := { period := false, second := false } } ∧
      b = s.closeRun.builder ∧ a = s.closeRun.attention := by
  obtain ⟨b, a, v, he⟩ := s.stopEvents_kept
  obtain ⟨b2, a2, v2, -, hr⟩ := (Across.closeRun s).whole
  obtain ⟨v3, w, hq⟩ := s.closeRun.quiesce_only
  refine ⟨b2, a2, v3, w, ?_, by rw [hr], by rw [hr]⟩
  rw [State.stopped, hq, hr, he]

theorem State.stopped_point (s : State) (p : Point) :
    s.stopped.point p = PointRecord.discardWork { s.closeRun.point p with check := none } := by
  rw [State.stopped, State.withControl_point, State.quiesce_point]

theorem State.withControl_channel (s : State) (d : Control) (c : Channel) :
    ({ s with control := d } : State).channel c = s.channel c :=
  rfl

theorem State.stopped_channel (s : State) (c : Channel) :
    s.stopped.channel c = { s.channel c with due := false, current := .zero, previous := .zero } := by
  have hch : s.closeRun.channels = s.channels := by
    obtain ⟨b, a, v, he⟩ := s.stopEvents_kept
    rw [(Across.closeRun s).kept.2.2.2, he]
  rw [State.stopped, State.withControl_channel, State.quiesce_channel, State.channel, hch]
  rfl

theorem PointRecord.spanning_self (x : PointRecord) : x = x.spanning x.block x.interval x.assessment :=
  rfl

theorem Noted.channel {s t : State} (h : Noted s t) (c : Channel) : t.channel c = s.channel c := by
  obtain ⟨b, a, -, rfl⟩ := h
  rfl

theorem PointRecord.stopped_none (x : PointRecord) (s : State) (p : Point) : (x.stopped s p).block = none ∧
    (x.stopped s p).interval = none ∧ (x.stopped s p).assessment = none :=
  ⟨rfl, rfl, rfl⟩

/-- The points after the spans of the run were closed. -/
theorem State.closeRun_point (s : State) (p : Point) :
    s.closeRun.point p = (s.stopEvents.point p).spanning (s.closeRun.point p).block (s.closeRun.point p).interval
      (s.closeRun.point p).assessment ∧
    ((s.point p).measured = true → (s.closeRun.point p).block = none ∧ (s.closeRun.point p).interval = none ∧
      (s.closeRun.point p).assessment = none) := by
  obtain ⟨-, hin, hout, -⟩ := pointOp_stopSpans.foldl s.stopEvents.measuredPoints_nodup s.stopEvents
  rw [← s.closeRun_eq] at hin hout
  have hmem : p ∈ s.stopEvents.measuredPoints ↔ (s.point p).measured = true := by
    rw [State.mem_measuredPoints, s.stopEvents_measured]
  by_cases hp : (s.point p).measured = true
  · have hx := hin p (hmem.mpr hp)
    have hacts := (pointOp_stopSpans.acts s.stopEvents p).here
    have hspan := (Spanned.stopSpans p s.stopEvents).here
    rw [hacts] at hspan
    rw [hx]
    exact ⟨hspan, fun _ => PointRecord.stopped_none _ _ p⟩
  · rw [hout p (mt hmem.mp hp)]
    exact ⟨PointRecord.spanning_self _, fun h => absurd h hp⟩

/-- A point without work, check or events, its spans apart. -/
def PointRecord.halted (x : PointRecord) (b : Option Block) (i : Option Interval) (a : Option Assessment) :
    PointRecord :=
  { x with
    low := .quiet, high := .quiet, check := none, boundary := .fresh, period := none, pairFlag := false
    previousFree := false, block := b, interval := i, assessment := a }

theorem PointRecord.discardWork_quieted (x : PointRecord) (b : Option Block) (i : Option Interval)
    (a : Option Assessment) :
    PointRecord.discardWork { x.quieted.spanning b i a with check := none } = x.halted b i a :=
  rfl

theorem PointRecord.halted_kept {x y : PointRecord} {b : Option Block} {i : Option Interval} {a : Option Assessment}
    (h : y = x.halted b i a) : y.low = .quiet ∧ y.high = .quiet ∧ y.check = none ∧ y.boundary = .fresh ∧
      y.period = none ∧ y.pairFlag = false ∧ y.previousFree = false ∧ y.measured = x.measured ∧
      y.limits = x.limits ∧ y.thresholds = x.thresholds ∧ y.pendingLimits = x.pendingLimits ∧
      y.reference = x.reference := by
  subst h
  exact ⟨rfl, rfl, rfl, rfl, rfl, rfl, rfl, rfl, rfl, rfl, rfl, rfl⟩

theorem PointRecord.halted_spans {x y : PointRecord} {b : Option Block} {i : Option Interval} {a : Option Assessment}
    (h : y = x.halted b i a) : y.block = b ∧ y.interval = i ∧ y.assessment = a := by
  subst h
  exact ⟨rfl, rfl, rfl⟩

/-- A point after STOP: its work, its check and its events are gone, the rest is kept. -/
theorem State.stopped_here (s : State) (p : Point) : s.stopped.point p =
    (s.point p).halted (s.closeRun.point p).block (s.closeRun.point p).interval (s.closeRun.point p).assessment := by
  have h := (s.closeRun_point p).1
  rw [s.stopEvents_point] at h
  rw [s.stopped_point, ← PointRecord.discardWork_quieted, ← h]

/-- What STOP says up to the closed spans. -/
theorem State.closeRun_tells (s : State) :
    Tells ((allFour.flatMap (fun p => forcedRecords .stop s p (s.point p)) ++
        s.capture.toList.map (fun c => .closure (closureOf c .truncatedStop))) ++
        allFour.flatMap (fun p => if (s.point p).measured then
          stopRecords s.stopEvents p (s.stopEvents.point p) else []))
      (fun j => ((j = .eventEnd ∧ allFour.flatMap (fun p => forcedRecords .stop s p (s.point p)) ≠ []) ∨
        (j = .captureDone ∧ s.capture.toList.map (fun c => RecordBody.closure (closureOf c .truncatedStop)) ≠ [])) ∨
        ∃ p ∈ s.stopEvents.measuredPoints, stopClasses (s.stopEvents.point p) j) s s.closeRun := by
  obtain ⟨hacross, -, hevents⟩ := s.forceCloseEvents_spec .stop
  have hcapture := (s.forceCloseEvents .stop).endCapture_tells .truncatedStop
  rw [hacross.capture] at hcapture
  obtain ⟨-, -, -, hspans⟩ := pointOp_stopSpans.foldl s.stopEvents.measuredPoints_nodup s.stopEvents
  rw [← s.closeRun_eq, flatMap_measured] at hspans
  simp only [s.stopEvents_measured] at hspans
  exact (hevents.trans hcapture).trans hspans

/-- Settles O40: the closings in the order of their records, then what is discarded. -/
theorem stopAccepted : Obligations.StopAccepted := by
  refine ⟨fun s tag hd => ?accepted, fun s tag hd => ?refused⟩
  case refused =>
    have hne : s.control.device ≠ .init ∧ s.control.device ≠ .running := by
      rcases hd with hd | hd | hd <;> rw [hd] <;> exact ⟨nofun, nofun⟩
    rw [exec_stop_of_ne_init tag hne.1]
    exact congrArg Host.Outcome.next (if_pos hne.2)
  rw [exec_stop_of_ne_init tag (by rw [hd]; exact DeviceState.noConfusion), State.actStop_running hd]
  have hcloses := s.closeRun_tells
  obtain ⟨b, a, v, w, hstopped, hb, ha⟩ := s.stopped_kept
  obtain ⟨b0, a0, v0, he⟩ := s.stopEvents_kept
  have hquiet : Tells [] (fun _ => False) s.closeRun s.stopped := by
    refine .silent ?_ ?_ ?_ ?_
    · rw [hstopped]; exact hb
    · rw [hstopped]; exact ha
    · rw [hstopped]; exact hcloses.routing.symm
    · rw [hstopped]; exact hcloses.count.symm
  have hsays := ((hcloses.trans hquiet).trans (Tells.status s.stopped .stopped)).trans
    (Tells.reply _ kindStop tag .done .empty)
  have hnoted := (Noted.offerStatus s.stopped .stopped).trans (Noted.offerReply _ kindStop tag .done .empty)
  generalize (s.stopped.offerStatus .stopped).offerReply kindStop tag .done .empty = t at hsays hnoted
  have hpoint (p : Point) := (hnoted.point p).trans (s.stopped_here p)
  have hwhole : t = { s with
      control := { s.control with device := .stopped }, points := t.points, channels := t.channels
      capture := none, builder := t.builder, attention := t.attention
      dueNow := { period := false, second := false } } := by
    obtain ⟨b2, a2, -, rfl⟩ := hnoted
    rw [hstopped]
  have hepoch : s.stopped.epochNow = s.epochNow ∧ s.stopped.control.epochUnset = s.control.epochUnset := by
    rw [hstopped]
    exact ⟨rfl, rfl⟩
  refine ⟨t, _, _, fun p => if (s.point p).measured then stopRecords s.stopEvents p (s.stopEvents.point p) else [],
    rfl, by rw [hwhole], ?_, hsays.raises (.inr rfl), rfl, fun hne => hsays.raises (.inl (.inl (.inl (.inl (.inl ⟨rfl, hne⟩))))),
    rfl, fun hne => hsays.raises (.inl (.inl (.inl (.inl (.inr ⟨rfl, hne⟩))))), fun p hm => ?_, fun p blk iv x hm hblk hiv hx => ?_,
    by rw [hwhole], fun p => ?_, fun p hm => ?_, fun c => (hnoted.channel c).trans (s.stopped_channel c), ?_⟩
  · rw [hsays.builder, hepoch.1, hepoch.2, List.append_nil, List.append_assoc _ [_] [_]]
    rfl
  · exact if_neg (by rw [hm]; exact Bool.false_ne_true)
  · obtain ⟨x', hx', hcount⟩ := countEvents_some x ((s.point p).low.event.toList ++ (s.point p).high.event.toList)
    have hassess : (s.point p).quieted.assessment = some x' := by rw [PointRecord.quieted, hx]; exact hx'
    have hsame : s.stopEvents.setup = s.setup ∧ s.stopEvents.count = s.count ∧ s.stopEvents.control = s.control := by
      rw [he]
      exact ⟨rfl, rfl, rfl⟩
    obtain ⟨hsetup, hnow, hcontrol⟩ := hsame
    obtain ⟨blocks, r, q, hsay, hnone, hone, hpt, hepoch, hlen, hhalf, hst, hstep, hq, hqs, hqc, hqf⟩ :=
      stopRecords_spec (s := s.stopEvents) (p := p) (x := (s.point p).quieted) (by rw [hcontrol]; exact hd) hblk hiv hassess
    rw [hsetup] at hnone hone
    rw [hnow] at hlen
    rw [hcount.kept] at hqs hqc
    rw [← s.stopEvents_point] at hsay
    have hclass (j : AttnClass) (hj : stopClasses (s.point p).quieted j) : t.attention.isPending j = true := by
      refine hsays.raises (.inl (.inl (.inl (.inr ⟨p, ?_, ?_⟩))))
      · rw [State.mem_measuredPoints, s.stopEvents_measured, hm]
      · rw [s.stopEvents_point]
        exact hj
    exact ⟨blocks, r, q, (if_pos hm).trans hsay, hnone, hone, hpt, hepoch, hlen, hhalf, hst, hstep, hq, hqs, hqc, hqf.1, hqf.2,
      hclass _ (.inl ⟨rfl, by rw [show (s.point p).quieted.interval = _ from hiv]; exact Option.some_ne_none _⟩),
      hclass _ (.inr ⟨rfl, by rw [hassess]; exact Option.some_ne_none _⟩)⟩
  · exact PointRecord.halted_kept (hpoint p)
  · obtain ⟨hblk, hiv, hx⟩ := PointRecord.halted_spans (hpoint p)
    rw [hblk, hiv, hx]
    exact (s.closeRun_point p).2 hm
  · rw [hwhole]

end Sys2Proof.Machine
end

section
/-! PROOFS. TIME-SET (R166, R54, R89, R107: O41): the epoch offset is stepped, the open events are marked, and in RUNNING
the spans of every measured point are closed and opened again. -/

namespace Sys2Proof.Machine

/-! ### The spans of a point -/

/-- The interval in progress is marked before it closes (R107). -/
def PointRecord.marked (x : PointRecord) : PointRecord :=
  { x with interval := x.interval.map (fun iv => { iv with timeStepped := true }) }

/-- The records of a point's spans at a time step. -/
def stepRecords (s : State) (p : Point) (x : PointRecord) : List RecordBody :=
  shortRecords s p x ++ intervalRecords State.count false s p x.shortened.marked

/-- The point after a time step closed and opened its spans. -/
def PointRecord.stepped (x : PointRecord) (s : State) (p : Point) : PointRecord :=
  { PointRecord.intervalClosed State.count false s p x.shortened.marked with
    block := some .fresh, interval := some (s.newInterval s.count) }

/-- The classes that a time step raises at a point. -/
def stepClasses (s : State) (p : Point) (x : PointRecord) (j : AttnClass) : Prop :=
  (j = .intervalClosed ∧ x.shortened.marked.interval ≠ none) ∨ (j = .assessmentClosed ∧ ∃ iv,
    x.shortened.marked.interval = some iv ∧
    (x.shortened.marked.closedInterval s p iv s.count false).ended s.setup false = true)

theorem pointOp_stepSpans : PointOp State.stepSpans stepRecords stepClasses (fun s p x => x.stepped s p) := by
  have h := ((pointOp_closeBlockShort.comp (pointOp_modPoint (g := fun _ x => x.marked)
      (fun _ _ => ⟨rfl, rfl, rfl, rfl, rfl, rfl, rfl, rfl, id, id⟩) (fun _ => rfl))).comp
    (pointOp_closeInterval false (e := State.count) (fun ha => ha.kept.2.2.1))).comp pointOp_openSpans
  refine h.congr (fun s p => ?_) (fun s p x => ?_) (fun s p x j => ?_) (fun _ _ _ => rfl)
  · have hmarked : Across s ((s.closeBlockShort p).modPoint p PointRecord.marked) :=
      (Across.closeBlockShort s p).trans (Across.markInterval _ p)
    have hclosed := hmarked.trans
      (Across.closeInterval ((s.closeBlockShort p).modPoint p PointRecord.marked) p s.count false)
    have hm : ((s.closeBlockShort p).modPoint p PointRecord.marked).count = s.count := hmarked.kept.2.2.1
    rw [hm, hclosed.kept.2.2.1]
    rfl
  · rw [List.append_nil, List.append_nil]
    rfl
  · rw [or_false, or_false, false_or]
    rfl

theorem Spanned.stepSpans (p : Point) (s : State) : Spanned p s (s.stepSpans p) :=
  (((Spanned.closeBlockShort p s).trans (Spanned.modPoint p _ PointRecord.marked rfl)).trans
    (Spanned.closeInterval p _ _ false)).trans (Spanned.openSpans p _ _)

/-- The records of a point with all three spans at a time step, and its assessment after it (R107, R110, R112). -/
theorem stepRecords_spec {s : State} {p : Point} {x : PointRecord} {b : Block} {iv : Interval} {a : Assessment}
    (hd : s.control.device = .running) (hb : x.block = some b) (hiv : x.interval = some iv)
    (ha : x.assessment = some a) : ∃ (blocks summaries : List RecordBody) (r : IntervalRecord),
      stepRecords s p x = blocks ++ [.interval r] ++ summaries ∧
      (b.count = 0 ∨ s.setup.blockPoints.getLsbD p.val = false → blocks = []) ∧
      (b.count ≠ 0 → s.setup.blockPoints.getLsbD p.val = true → ∃ x, blocks = [.block x] ∧ x.point = p ∧
        x.halfWindows = b.count ∧ x.disturbed = b.disturbed ∧ x.blind = b.blind ∧
        ∀ start, b.start = some start → x.startEpoch = start) ∧
      (r.point = p ∧ r.startEpoch = iv.coverageEpoch ∧ r.length = s.count - iv.coverageStart ∧
        r.halfWindows = iv.halfWindows ∧ r.flags.timeStepped = true ∧ r.flags.stopped = false ∧
        r.flags.epochUnset = iv.epochUnset) ∧
      stepClasses s p x .intervalClosed ∧
      (a.closedIntervals + 1 < s.setup.assessmentLength → summaries = [] ∧
        (x.stepped s p).assessment = some (a.takeInterval s p r)) ∧
      (s.setup.assessmentLength ≤ a.closedIntervals + 1 →
        (x.stepped s p).assessment = some (.fresh s.epochNow) ∧ stepClasses s p x .assessmentClosed ∧
        ∃ q : SummaryRecord, summaries = [.summary q] ∧ q.point = p ∧ q.startEpoch = a.startEpoch ∧
          q.closedIntervals = a.closedIntervals + 1 ∧ q.flags.timeStepped = true ∧
          q.flags.stopped = false ∧ q.flags.early = false) := by
  obtain ⟨iv', hiv', hcover, hassess⟩ := PointRecord.shortened_spec hb hiv
  have hmarked : x.shortened.marked.interval = some { iv' with timeStepped := true } := by
    rw [PointRecord.marked, hiv']
    rfl
  have hkept : x.shortened.marked.assessment = some a := hassess.trans ha
  have hblocks : (b.count = 0 ∨ s.setup.blockPoints.getLsbD p.val = false → shortRecords s p x = []) ∧
      (b.count ≠ 0 → s.setup.blockPoints.getLsbD p.val = true → ∃ y, shortRecords s p x = [.block y] ∧ y.point = p ∧
        y.halfWindows = b.count ∧ y.disturbed = b.disturbed ∧ y.blind = b.blind ∧
        ∀ start, b.start = some start → y.startEpoch = start) :=
    ⟨fun h => shortRecords_none hb h, fun hc hp => ⟨_, shortRecords_some hb hc hd hp, rfl, rfl, rfl, rfl,
      fun start h => by rw [blockRecord, h]; rfl⟩⟩
  have hr : ∀ r, r = intervalRecord s p { iv' with timeStepped := true } s.count false →
      r.point = p ∧ r.startEpoch = iv.coverageEpoch ∧ r.length = s.count - iv.coverageStart ∧
        r.halfWindows = iv.halfWindows ∧ r.flags.timeStepped = true ∧ r.flags.stopped = false ∧
        r.flags.epochUnset = iv.epochUnset := by
    rintro r rfl
    exact ⟨rfl, hcover.epoch, congrArg (s.count - ·) hcover.start, hcover.halfWindows, rfl, rfl, hcover.unset⟩
  have hclosed : stepClasses s p x .intervalClosed := .inl ⟨rfl, by rw [hmarked]; exact Option.some_ne_none _⟩
  by_cases hlt : a.closedIntervals + 1 < s.setup.assessmentLength
  · obtain ⟨hrec, hnew⟩ := intervalRecords_goes hmarked hkept State.count p hlt
    refine ⟨shortRecords s p x, [], _, ?_, hblocks.1, hblocks.2, hr _ rfl, hclosed, fun _ => ⟨rfl, hnew⟩,
      fun hle => absurd hlt (Nat.not_lt.mpr hle)⟩
    rw [stepRecords, hrec, List.append_nil]
  · have hle := Nat.not_lt.mp hlt
    obtain ⟨hrec, hnew⟩ := intervalRecords_ends hmarked hkept State.count p hle
    generalize hrv : intervalRecord s p { iv' with timeStepped := true } s.count false = r at hrec
    have hrest := hr r hrv.symm
    have hstepped : r.flags.timeStepped = true := by
      rw [← hrv]
      rfl
    refine ⟨shortRecords s p x, [.summary (summaryRecord s p (a.takeInterval s p r) false false)], r, ?_, hblocks.1,
      hblocks.2, hrest, hclosed, fun h => absurd h hlt, fun _ => ⟨hnew, .inr ⟨rfl, _, hmarked,
        (PointRecord.closedInterval_ended hkept s p _ s.count).mpr hle⟩,
        summaryRecord s p (a.takeInterval s p r) false false, rfl, rfl, rfl, rfl, ?_, rfl, rfl⟩⟩
    · rw [stepRecords, hrec, List.append_assoc]
      rfl
    · show (a.stepped || r.flags.timeStepped) = true
      rw [hstepped, Bool.or_true]

/-! ### The state in which the spans are closed -/

/-- The state after the step itself: the offset, the record, the marks (R54, R89). -/
def State.timeStepped (s : State) (epoch : Tick) : State :=
  ((s.stepEpoch epoch).offerStatus (.timeStepped s.epochNow epoch)).mapPoints (fun _ pt => pt.stepTime)

theorem State.stepEpoch_epochNow (s : State) (epoch : Tick) : (s.stepEpoch epoch).epochNow = epoch := by
  show s.count + (epoch - s.count) = epoch
  rw [BitVec.add_comm, BitVec.sub_add_cancel]

theorem State.timeStepped_point (s : State) (epoch : Tick) (p : Point) :
    (s.timeStepped epoch).point p = (s.point p).stepTime := by
  rw [State.timeStepped, State.mapPoints_point, (Noted.offerStatus _ _).point]
  rfl

theorem State.timeStepped_kept (s : State) (epoch : Tick) : ∃ b a v, s.timeStepped epoch = { s with
    control := { s.control with offset := epoch - s.count, epochUnset := false }, points := v, builder := b
    attention := a } := by
  obtain ⟨b, a, -, h⟩ := Noted.offerStatus (s.stepEpoch epoch) (.timeStepped s.epochNow epoch)
  rw [State.timeStepped, h]
  exact ⟨b, a, _, rfl⟩

theorem State.timeStepped_tells (s : State) (epoch : Tick) :
    Tells [.status (.timeStepped s.epochNow epoch) epoch false] (fun _ => False) (s.stepEpoch epoch)
      (s.timeStepped epoch) := by
  have h := Tells.status (s.stepEpoch epoch) (.timeStepped s.epochNow epoch)
  rw [s.stepEpoch_epochNow] at h
  exact ⟨h.builder, h.grows, h.routing, h.count, h.raised⟩

theorem State.timeStepped_takeInterval (s : State) (epoch : Tick) (p : Point) (a : Assessment) (r : IntervalRecord) :
    a.takeInterval (s.timeStepped epoch) p r = a.takeInterval s p r := by
  have hth : ((s.timeStepped epoch).point p).thresholds = (s.point p).thresholds := by
    rw [s.timeStepped_point]
    rfl
  obtain ⟨b, c, v, h⟩ := s.timeStepped_kept epoch
  unfold Assessment.takeInterval
  rw [hth, h]
  rfl

/-! ### The row -/

theorem exec_timeSet_of_ne_init {s : State} (tag : Byte) (epoch : Tick) (hd : s.control.device ≠ .init) :
    exec (.timeSet tag epoch) s = .next (s.actTimeSet tag epoch) :=
  congrArg Host.Outcome.next (s.takeFrame_of_ne_init (.timeSet tag epoch) allFour hd)

theorem State.actTimeSet_stopped {s : State} (hd : s.control.device = .stopped) (tag : Byte) (epoch : Tick) :
    s.actTimeSet tag epoch =
      ((s.stepEpoch epoch).offerStatus (.timeStepped s.epochNow epoch)).offerReply kindTimeSet tag .done .empty := by
  rw [State.actTimeSet, if_pos (.inl hd)]
  dsimp only
  rw [if_neg (by rw [hd]; exact DeviceState.noConfusion)]

theorem State.actTimeSet_running {s : State} (hd : s.control.device = .running) (tag : Byte) (epoch : Tick) :
    s.actTimeSet tag epoch = ((s.timeStepped epoch).measuredPoints.foldl State.stepSpans
      (s.timeStepped epoch)).offerReply kindTimeSet tag .done .empty := by
  rw [State.actTimeSet, if_pos (.inr hd)]
  dsimp only
  rw [if_pos hd]
  rfl

/-- What a time step leaves of a point besides its spans (R54, R89). -/
theorem PointRecord.stepTime_spec {x y : PointRecord} {b : Option Block} {i : Option Interval} {a : Option Assessment}
    (h : y = x.stepTime.spanning b i a) : y.period = none ∧
      (∀ e, x.low = .dip e → y.low = .dip { e with flags := { e.flags with timeStepped := true } }) ∧
      (∀ e, x.low = .interrupt e → y.low = .interrupt { e with flags := { e.flags with timeStepped := true } }) ∧
      (∀ e, x.high = .swell e → y.high = .swell { e with flags := { e.flags with timeStepped := true } }) ∧
      y.boundary = x.boundary ∧ y.limits = x.limits ∧ y.measured = x.measured ∧ y.check = x.check := by
  subst h
  unfold PointRecord.spanning PointRecord.stepTime
  refine ⟨rfl, fun e he => ?_, fun e he => ?_, fun e he => ?_, rfl, rfl, rfl, rfl⟩
  all_goals
    dsimp only
    rw [he]
    rfl

/-- A point after a time step: marked, its spans apart, which a measured point has anew. -/
theorem State.stepAll_point (v : State) (p : Point) : ∃ y,
    (v.measuredPoints.foldl State.stepSpans v).point p = y ∧
      y = (v.point p).spanning y.block y.interval y.assessment ∧
      ((v.point p).measured = true → y = (v.point p).stepped v p) ∧ ((v.point p).measured = false → y = v.point p) := by
  obtain ⟨-, hin, hout, -⟩ := pointOp_stepSpans.foldl v.measuredPoints_nodup v
  refine ⟨_, rfl, ?_⟩
  by_cases hp : (v.point p).measured = true
  · have hx := hin p ((State.mem_measuredPoints v p).mpr hp)
    have hspan := (Spanned.stepSpans p v).here
    rw [(pointOp_stepSpans.acts v p).here] at hspan
    rw [hx]
    exact ⟨hspan, fun _ => rfl, fun h => absurd hp (by rw [h]; exact Bool.false_ne_true)⟩
  · have hx := hout p (mt (State.mem_measuredPoints v p).mp hp)
    rw [hx]
    exact ⟨PointRecord.spanning_self _, fun h => absurd h hp, fun _ => rfl⟩

/-- Settles O41: the step itself, then the spans of the measured points, then the reply. -/
theorem timeSetSteps : Obligations.TimeSetSteps := by
  intro s tag epoch
  refine ⟨fun hd => ?stopped, fun hd => ?running, fun hd => ?refused⟩
  case refused =>
    have hne : s.control.device ≠ .init ∧ ¬(s.control.device = .stopped ∨ s.control.device = .running) := by
      rcases hd with hd | hd <;> rw [hd] <;> exact ⟨nofun, nofun⟩
    rw [exec_timeSet_of_ne_init tag epoch hne.1]
    exact congrArg Host.Outcome.next (if_neg hne.2)
  case stopped =>
    rw [exec_timeSet_of_ne_init tag epoch (by rw [hd]; exact DeviceState.noConfusion),
      State.actTimeSet_stopped hd, State.offerStatus, s.stepEpoch_epochNow]
    rfl
  case running =>
    rw [exec_timeSet_of_ne_init tag epoch (by rw [hd]; exact DeviceState.noConfusion), State.actTimeSet_running hd]
    obtain ⟨b, a, w, hkept⟩ := s.timeStepped_kept epoch
    obtain ⟨hacross, -, -, hspans⟩ := pointOp_stepSpans.foldl (s.timeStepped epoch).measuredPoints_nodup (s.timeStepped epoch)
    rw [flatMap_measured] at hspans
    have hsays := ((s.timeStepped_tells epoch).trans hspans).trans (Tells.reply _ kindTimeSet tag .done .empty)
    have hnoted := Noted.offerReply ((s.timeStepped epoch).measuredPoints.foldl State.stepSpans (s.timeStepped epoch))
      kindTimeSet tag .done .empty
    have hpoint (p : Point) := (s.timeStepped epoch).stepAll_point p
    generalize (s.timeStepped epoch).measuredPoints.foldl State.stepSpans (s.timeStepped epoch) = u
      at hacross hspans hsays hnoted hpoint
    generalize u.offerReply kindTimeSet tag .done .empty = t at hsays hnoted
    have hmeasured (p : Point) : ((s.timeStepped epoch).point p).measured = (s.point p).measured := by
      rw [s.timeStepped_point]
      rfl
    have hwhole : t = { s with
        control := { s.control with offset := epoch - s.count, epochUnset := false }, points := t.points
        builder := t.builder, attention := t.attention } := by
      obtain ⟨b2, a2, -, rfl⟩ := hnoted
      rw [hacross.only, hkept]
    have hepoch : (s.timeStepped epoch).epochNow = epoch := by
      refine Eq.trans ?_ (s.stepEpoch_epochNow epoch)
      rw [hkept]
      rfl
    have hsetup : (s.timeStepped epoch).setup = s.setup ∧ (s.timeStepped epoch).count = s.count ∧
        (s.timeStepped epoch).control = { s.control with offset := epoch - s.count, epochUnset := false } := by
      rw [hkept]
      exact ⟨rfl, rfl, rfl⟩
    obtain ⟨hset, hnow, hcontrol⟩ := hsetup
    refine ⟨t, allFour.flatMap (fun p => if ((s.timeStepped epoch).point p).measured then
        stepRecords (s.timeStepped epoch) p ((s.timeStepped epoch).point p) else []), rfl, by rw [hwhole], ?_, ?_,
      hsays.raises (.inr rfl), ⟨_, rfl, fun p hm => ?_, fun p blk iv x hm hb hiv hx => ?_⟩, fun p => ?_, fun p hm => ?_,
      by rw [hwhole]⟩
    · refine Eq.trans ?_ hepoch
      rw [hwhole, hkept]
      rfl
    · rw [hsays.builder]
      exact List.foldl_append.trans (congrArg (fun b => RecordBuilder.offer b _) List.foldl_append)
    · obtain ⟨y, hy, -, -, hout⟩ := hpoint p
      have hz : t.point p = (s.timeStepped epoch).point p :=
        (hnoted.point p).trans (hy.trans (hout ((hmeasured p).trans hm)))
      rw [s.timeStepped_point] at hz
      rw [hz]
      exact ⟨if_neg (by rw [hmeasured, hm]; exact Bool.false_ne_true), rfl, rfl, rfl⟩
    · obtain ⟨y, hy, -, hin, -⟩ := hpoint p
      have hz : t.point p = ((s.timeStepped epoch).point p).stepped (s.timeStepped epoch) p :=
        (hnoted.point p).trans (hy.trans (hin ((hmeasured p).trans hm)))
      have hspan : ((s.timeStepped epoch).point p).block = some blk ∧
          ((s.timeStepped epoch).point p).interval = some iv ∧
          ((s.timeStepped epoch).point p).assessment = some x := by
        rw [s.timeStepped_point]
        exact ⟨hb, hiv, hx⟩
      obtain ⟨blocks, summaries, r, hsay, hnone, hone, ⟨hr1, hr2, hr3, hr4, hr5, hr6, hr7⟩, hclosed, hgoes, hends⟩ :=
        stepRecords_spec (s := s.timeStepped epoch) (p := p) (by rw [hcontrol]; exact hd) hspan.1 hspan.2.1 hspan.2.2
      rw [hset] at hnone hone hgoes hends
      rw [hnow] at hr3
      rw [hepoch, ← hz] at hends
      rw [s.timeStepped_takeInterval, ← hz] at hgoes
      have hclass (j : AttnClass) (hj : stepClasses (s.timeStepped epoch) p ((s.timeStepped epoch).point p) j) :
          t.attention.isPending j = true :=
        hsays.raises (.inl (.inr ⟨p, (State.mem_measuredPoints _ p).mpr ((hmeasured p).trans hm), hj⟩))
      refine ⟨blocks, summaries, r, (if_pos ((hmeasured p).trans hm)).trans hsay, hnone, hone, hr1, hr2, hr3, hr4, hr5,
        hr6, hr7, hclass _ hclosed, hgoes, fun hle => ?_⟩
      obtain ⟨hfresh, hcls, q, hq⟩ := hends hle
      exact ⟨hfresh, hclass _ hcls, q, hq⟩
    · obtain ⟨y, hy, hspan, -, -⟩ := hpoint p
      rw [s.timeStepped_point] at hspan
      exact PointRecord.stepTime_spec (((hnoted.point p).trans hy).trans hspan)
    · obtain ⟨y, hy, -, hin, -⟩ := hpoint p
      have hz : t.point p = ((s.timeStepped epoch).point p).stepped (s.timeStepped epoch) p :=
        (hnoted.point p).trans (hy.trans (hin ((hmeasured p).trans hm)))
      rw [hz]
      refine ⟨rfl, _, rfl, hnow, hepoch, ?_, congrArg Control.epochUnset hcontrol, rfl⟩
      show intervalBase (s.timeStepped epoch).setup (s.timeStepped epoch).epochNow = _
      rw [hset, hepoch]
      rfl

end Sys2Proof.Machine
end

section
/-! PROOFS. Entry to STANDBY (R169, R171, R14, R19, R88, R106: O23): the spans of the points, the commands that end, and
what is discarded. -/

namespace Sys2Proof.Machine

/-! ### The spans of a point -/

theorem PointRecord.shortened_interval (x : PointRecord) : ∃ f : Interval → Interval,
    (∀ iv, SameCoverage iv (f iv)) ∧ x.shortened.interval = x.interval.map f ∧
      x.shortened.assessment = x.assessment := by
  unfold PointRecord.shortened
  split
  · exact ⟨id, fun _ => ⟨rfl, rfl, rfl, rfl, rfl, id⟩, Option.map_id.symm ▸ rfl, rfl⟩
  · next b _ =>
    split
    · exact ⟨id, fun _ => ⟨rfl, rfl, rfl, rfl, rfl, id⟩, Option.map_id.symm ▸ rfl, rfl⟩
    · exact ⟨fun iv => iv.takeBlock b, fun iv => .takeBlock iv b, rfl, rfl⟩

/-- The records of a point's spans at entry to STANDBY, in which no block makes one (R106). -/
def standbyRecords (s : State) (p : Point) (x : PointRecord) : List RecordBody :=
  shortRecords s p x ++ intervalRecords State.count false s p x.shortened

/-- The point after its spans were closed at entry to STANDBY. -/
def PointRecord.standby (x : PointRecord) (s : State) (p : Point) : PointRecord :=
  { PointRecord.intervalClosed State.count false s p x.shortened with block := none, interval := none }

theorem pointOp_standbySpans : ∃ cls, PointOp State.standbySpans standbyRecords cls (fun s p x => x.standby s p) := by
  have h := (pointOp_closeBlockShort.comp (pointOp_closeInterval false (e := State.count) (fun ha => ha.kept.2.2.1))).comp
    (pointOp_modPoint (g := fun _ x => { x with block := none, interval := none })
      (fun _ _ => ⟨rfl, rfl, rfl, rfl, rfl, rfl, rfl, rfl, id, id⟩) (fun _ => rfl))
  refine ⟨_, h.congr (fun s p => ?_) (fun s p x => (List.append_nil _).symm) (fun _ _ _ _ => .rfl) (fun _ _ _ => rfl)⟩
  rw [State.standbySpans, ← (Across.closeBlockShort s p).kept.2.2.1]

theorem Spanned.standbySpans (p : Point) (s : State) : Spanned p s (s.standbySpans p) :=
  ((Spanned.closeBlockShort p s).trans (Spanned.closeInterval p _ _ false)).trans (Spanned.modPoint p _ _ rfl)

/-- What an interval's record says of its coverage. -/
def RecordBody.coverage : RecordBody → Option (Point × Tick × Tick × Bool)
  | .interval r => some (r.point, r.startEpoch, r.length, r.flags.stopped)
  | .event _ => none
  | .block _ => none
  | .summary _ => none
  | .closure _ => none
  | .status _ _ _ => none
  | .reply _ => none

theorem intervalRecords_coverage (s : State) (p : Point) (x : PointRecord) :
    (intervalRecords State.count false s p x.shortened).filterMap RecordBody.coverage =
      (x.interval.map (fun iv => (p, iv.coverageEpoch, s.count - iv.coverageStart, false))).toList := by
  obtain ⟨f, hf, hi, -⟩ := x.shortened_interval
  cases hiv : x.interval with
  | none =>
    rw [intervalRecords_none (by rw [hi, hiv]; rfl)]
    rfl
  | some iv =>
    have hsum (y : PointRecord) : (summaryRecords false false s p y).filterMap RecordBody.coverage = [] := by
      unfold summaryRecords
      cases y.assessment <;> rfl
    unfold intervalRecords
    rw [hi, hiv]
    dsimp only [Option.map_some]
    rw [List.filterMap_cons_some (show RecordBody.coverage _ = some _ from rfl)]
    have hrest (c : Bool) (y : PointRecord) :
        (if c then summaryRecords false false s p y else []).filterMap RecordBody.coverage = [] := by
      cases c
      · rfl
      · exact hsum y
    rw [hrest]
    refine congrArg (· :: []) ?_
    show (p, (f iv).coverageEpoch, s.count - (f iv).coverageStart, false) = _
    rw [(hf iv).epoch, (hf iv).start]

/-- A record of an interval's closing is the interval's, or the summary of an assessment that has its length. -/
theorem mem_intervalRecords {s : State} {p : Point} {x : PointRecord} {b : RecordBody}
    (h : b ∈ intervalRecords State.count false s p x) : (∃ r, b = .interval r) ∨
      ∃ q, b = .summary q ∧ q.flags.early = false ∧ q.flags.stopped = false ∧
        s.setup.assessmentLength ≤ q.closedIntervals := by
  unfold intervalRecords at h
  split at h
  · cases h
  · next iv _ =>
    rcases List.mem_cons.mp h with h | h
    · exact .inl ⟨_, h⟩
    · split at h
      · next he =>
        unfold summaryRecords at h
        obtain ⟨a, ha, hb⟩ := List.mem_map.mp h
        rw [Option.mem_toList] at ha
        rw [PointRecord.ended, PointRecord.full, ha] at he
        exact .inr ⟨_, hb.symm, rfl, rfl, of_decide_eq_true he⟩
      · cases h

/-! ### The closings of the points -/

/-- The state in which the spans are closed: the control is that of STANDBY, the events are closed. -/
def State.standbyEvents (s : State) : State :=
  ({ s with control := s.control.standingBy } : State).forceCloseEvents .recorderSupply

theorem State.standbyEvents_kept (s : State) : ∃ b a v, s.standbyEvents = { s with
    control := s.control.standingBy, points := v, builder := b, attention := a } := by
  obtain ⟨b, a, v, -, h⟩ := (Across.forceCloseEvents ({ s with control := s.control.standingBy } : State)
    .recorderSupply).whole
  exact ⟨b, a, v, h⟩

theorem State.standbyEvents_point (s : State) (p : Point) : s.standbyEvents.point p = (s.point p).quieted :=
  (({ s with control := s.control.standingBy } : State).forceCloseEvents_spec .recorderSupply).2.1 p

theorem State.standbyEvents_measured (s : State) (p : Point) :
    (s.standbyEvents.point p).measured = (s.point p).measured := by
  rw [s.standbyEvents_point]
  rfl

theorem State.standbyClosed_running {s : State} (h : s.control.prior = some .running) : s.standbyClosed =
    s.standbyEvents.measuredPoints.foldl State.standbySpans s.standbyEvents :=
  if_pos h

theorem State.standbyClosed_other {s : State} (h : s.control.prior ≠ some .running) :
    s.standbyClosed = { s with control := s.control.standingBy } :=
  if_neg h

/-- The records of the spans at entry to STANDBY from RUNNING. -/
def State.standbySay (s : State) (p : Point) : List RecordBody :=
  if (s.point p).measured then intervalRecords State.count false s.standbyEvents p (s.point p).quieted.shortened else []

/-- The closings at entry to STANDBY from RUNNING. -/
theorem State.standbyClosed_spec {s : State} (h : s.control.prior = some .running) :
    s.standbyClosed.builder = s.builder.offers
      (allFour.flatMap (fun p => forcedRecords .recorderSupply s p (s.point p)) ++ allFour.flatMap s.standbySay) ∧
    (∀ p, (s.point p).measured = true → s.standbyClosed.point p = (s.point p).quieted.standby s.standbyEvents p) ∧
    (∀ p, (s.point p).measured = false → s.standbyClosed.point p = (s.point p).quieted) ∧
    ∀ p, s.standbyClosed.point p = (s.point p).quieted.spanning (s.standbyClosed.point p).block
      (s.standbyClosed.point p).interval (s.standbyClosed.point p).assessment := by
  obtain ⟨-, -, hevents⟩ := ({ s with control := s.control.standingBy } : State).forceCloseEvents_spec .recorderSupply
  obtain ⟨cls, hop⟩ := pointOp_standbySpans
  obtain ⟨-, hin, hout, hspans⟩ := hop.foldl s.standbyEvents.measuredPoints_nodup s.standbyEvents
  rw [← State.standbyClosed_running h] at hin hout hspans
  rw [flatMap_measured] at hspans
  have hmem (p : Point) : p ∈ s.standbyEvents.measuredPoints ↔ (s.point p).measured = true := by
    rw [State.mem_measuredPoints, s.standbyEvents_measured]
  have hnot (p : Point) (hp : (s.point p).measured = false) : p ∉ s.standbyEvents.measuredPoints := fun hm =>
    Bool.false_ne_true (hp.symm.trans ((hmem p).mp hm))
  have hdevice : s.standbyEvents.control.device ≠ .running := by
    obtain ⟨b, a, v, he⟩ := s.standbyEvents_kept
    rw [he]
    exact DeviceState.noConfusion
  have hyes (p : Point) (hp : (s.point p).measured = true) :
      s.standbyClosed.point p = (s.point p).quieted.standby s.standbyEvents p := by
    rw [hin p ((hmem p).mpr hp), s.standbyEvents_point]
  have hno (p : Point) (hp : (s.point p).measured = false) : s.standbyClosed.point p = (s.point p).quieted := by
    rw [hout p (hnot p hp), s.standbyEvents_point]
  refine ⟨?_, hyes, hno, fun p => ?_⟩
  · have hsay (p : Point) : (if (s.standbyEvents.point p).measured then
        standbyRecords s.standbyEvents p (s.standbyEvents.point p) else []) = s.standbySay p := by
      rw [s.standbyEvents_measured, State.standbySay, standbyRecords, shortRecords_of_not_running hdevice,
        s.standbyEvents_point, List.nil_append]
    simp only [hsay] at hspans
    rw [hspans.builder, State.standbyEvents, hevents.builder]
    exact (RecordBuilder.offers_append _ _ _).symm
  · cases hp : (s.point p).measured with
    | true =>
      have hspan := (Spanned.standbySpans p s.standbyEvents).here
      rw [(hop.acts s.standbyEvents p).here, s.standbyEvents_point, ← hyes p hp] at hspan
      exact hspan
    | false =>
      rw [hno p hp]
      exact PointRecord.spanning_self _

/-- The spans and the assessment of a measured point at entry to STANDBY (R106, R110, R111). -/
theorem PointRecord.standby_spec {s : State} {p : Point} {x : PointRecord} {iv : Interval} {a : Assessment}
    (hiv : x.interval = some iv) (ha : x.assessment = some a) :
    (a.closedIntervals + 1 < s.setup.assessmentLength → ∃ r : IntervalRecord,
      (x.standby s p).assessment = some (a.takeInterval s p r) ∧ r.flags.timeStepped = iv.timeStepped ∧
      r.flags.epochUnset = iv.epochUnset ∧
      (iv.disturbed = true ∨ (s.count - iv.coverageStart).toNat < s.setup.intervalLength * s.setup.nominal.rate →
        r.evaluable = false)) ∧
    (s.setup.assessmentLength ≤ a.closedIntervals + 1 → (x.standby s p).assessment = some (.fresh s.epochNow)) := by
  obtain ⟨f, hf, hi, hassess⟩ := x.shortened_interval
  rw [hiv] at hi
  rw [ha] at hassess
  refine ⟨fun hlt => ?_, fun hle => (intervalRecords_ends hi hassess State.count p hle).2⟩
  refine ⟨_, (intervalRecords_goes hi hassess State.count p hlt).2, (hf iv).stepped, (hf iv).unset, fun h => ?_⟩
  rw [← Bool.not_eq_true, IntervalRecord.evaluable_iff]
  rintro ⟨hd, hshort, -⟩
  rcases h with h | h
  · exact Bool.false_ne_true (hd.symm.trans ((hf iv).disturbed h))
  · rw [← (hf iv).start] at h
    exact Bool.false_ne_true (hshort.symm.trans ((intervalRecord_short_iff s p (f iv) s.count false).mpr h))

theorem Assessment.takeInterval_unjudged {a : Assessment} {s : State} {p : Point} {r : IntervalRecord}
    (h : r.evaluable = false) : (a.takeInterval s p r).phases = a.phases := by
  refine Vector.ext fun i hi => ?_
  exact (Assessment.takeInterval_phase s p a r ⟨i, hi⟩).1 (.inl h)

/-! ### The commands that end (R19) -/

theorem State.unanswered_congr {s t : State} {m : Module} (h : (t.module m).command = (s.module m).command) :
    t.unanswered m = s.unanswered m := by
  rw [State.unanswered, h]
  rfl

/-- Commands of different modules end one after another, each with its reply. -/
theorem State.endCommands_tells {order : List Module} (ho : order.Nodup) (s : State) :
    Tells (order.filterMap s.unanswered) (fun j => j = .replyReady ∧ order.filterMap s.unanswered ≠ []) s
      (order.foldl (fun s m => s.endCommand m .noAnswer none) s) := by
  induction order generalizing s with
  | nil => exact (Tells.refl s).mono (fun j => ⟨False.elim, fun h => h.2 rfl⟩)
  | cons m rest ih =>
    obtain ⟨hm, hrest⟩ := List.nodup_cons.mp ho
    have htail := ih hrest (s.endCommand m .noAnswer none)
    have hsame : rest.filterMap (s.endCommand m .noAnswer none).unanswered = rest.filterMap s.unanswered := by
      refine filterMap_same fun n hn => State.unanswered_congr ?_
      rw [State.endCommand_module, if_neg (fun e : n = m => hm (e ▸ hn))]
    rw [hsame] at htail
    have hall := (Tells.endCommand s m).trans htail
    have he : (s.unanswered m).toList ++ rest.filterMap s.unanswered = (m :: rest).filterMap s.unanswered := by
      rw [List.filterMap_cons]
      cases s.unanswered m <;> rfl
    rw [he] at hall
    refine hall.mono (fun j => ?_)
    rw [← he]
    refine Iff.trans (or_congr_left (and_congr_right fun _ => ?_)) (said_append j .replyReady _ _)
    cases s.unanswered m with
    | none => exact ⟨fun h => absurd rfl h, fun h => absurd rfl h⟩
    | some r => exact ⟨fun _ => List.cons_ne_nil _ _, fun _ => Option.some_ne_none _⟩

theorem State.seekModules_tells {order : List Module} (ho : order.Nodup) (s : State) :
    Tells (order.filterMap s.unanswered) (fun j => j = .replyReady ∧ order.filterMap s.unanswered ≠ []) s
      (s.seekModules order) := by
  have hseek : Tells [] (fun _ => False) s (s.mapModules (fun m r => if s.setup.enables m then r.seek else r)) :=
    .silent rfl rfl rfl rfl
  have hsame : order.filterMap (s.mapModules (fun m r => if s.setup.enables m then r.seek else r)).unanswered =
      order.filterMap s.unanswered := by
    refine filterMap_same fun n _ => State.unanswered_congr ?_
    rw [State.mapModules_module]
    split <;> rfl
  have h := State.endCommands_tells ho (s.mapModules (fun m r => if s.setup.enables m then r.seek else r))
  rw [hsame] at h
  exact (hseek.trans h).mono (fun j => by rw [false_or])

end Sys2Proof.Machine
end

section
/-! PROOFS. The expiry of the hold-up timer (R169, R171: O23): the closings, the status record, the replies of the commands
that end, and what is discarded. -/

namespace Sys2Proof.Machine

theorem exec_holdupTimerExpiry (order : Fin 24) (s : State) :
    exec (.holdupTimerExpiry order) s = .next (s.takeHoldupExpiry (Sys2Proof.orderOf order)) :=
  rfl

theorem State.holdupOver_iff (s : State) : s.holdupOver = true ↔ s.control.device = .holdup ∧
    s.control.timerRunning = true ∧ s.setup.holdupLimit * 256 ≤ (s.count - s.control.holdupStart).toNat := by
  rw [State.holdupOver, Bool.and_eq_true, Bool.and_eq_true, beq_iff_eq, decide_eq_true_iff, and_assoc]
  exact .rfl

/-- What is discarded at entry to STANDBY, besides modules and points: tallies, rings and the history. -/
theorem State.discarded_only (s : State) : ∃ v w, s.endChecks.discardWork.emptyRings.emptyHistory = { s with
    points := v, channels := w, history := { head := none, sets := [] } } := by
  unfold State.endChecks State.discardWork State.emptyRings State.emptyHistory State.mapPoints State.mapChannels
  exact ⟨_, _, rfl⟩

theorem State.emptyHistory_channel (s : State) (c : Channel) : s.emptyHistory.channel c = s.channel c :=
  rfl

theorem State.discarded_channel (s : State) (c : Channel) :
    s.endChecks.discardWork.emptyRings.emptyHistory.channel c =
      { s.channel c with current := .zero, previous := .zero, ring := [] } := by
  rw [State.emptyHistory_channel, State.emptyRings, State.mapChannels_channel, State.discardWork,
    State.mapChannels_channel, State.mapPoints_channel_same, State.endChecks, State.mapPoints_channel_same]
  rfl

/-- The state in which the commands end at entry to STANDBY. -/
def State.standbyNoted (s : State) : State :=
  (s.standbyClosed.offerStatus .standbyEntered).raise .supply

theorem State.standbyNoted_noted (s : State) : Noted s.standbyClosed s.standbyNoted :=
  Noted.statusRaise _ _ _

theorem State.standbyClosed_kept (s : State) : ∃ b a v, s.standbyClosed = { s with
    control := s.control.standingBy, points := v, builder := b, attention := a } := by
  obtain ⟨b, a, v, -, h⟩ := s.standbyClosed_across.whole
  exact ⟨b, a, v, h⟩

theorem State.standbyNoted_kept (s : State) : ∃ b a v, s.standbyNoted = { s with
    control := s.control.standingBy, points := v, builder := b, attention := a } := by
  obtain ⟨b, a, v, h⟩ := s.standbyClosed_kept
  obtain ⟨b2, a2, -, h2⟩ := s.standbyNoted_noted
  refine ⟨b2, a2, v, ?_⟩
  rw [h2, h]

theorem State.standbyNoted_unanswered (s : State) : s.standbyNoted.unanswered = s.unanswered := by
  obtain ⟨b, a, v, h⟩ := s.standbyNoted_kept
  rw [h]
  rfl

/-- The rest of an entry to STANDBY is as it was. -/
theorem State.enterStandby_only (s : State) (order : List Module) : ∃ v w r b a, s.enterStandby order = { s with
    control := { s.control with device := .standby, timerRunning := false }, modules := r, channels := w, points := v
    history := { head := none, sets := [] }, builder := b, attention := a } := by
  obtain ⟨b, a, r, -, hm⟩ := OnModules.seekModules s.standbyNoted order
  obtain ⟨v, w, hd⟩ := (s.standbyNoted.seekModules order).discarded_only
  obtain ⟨b0, a0, v0, hn⟩ := s.standbyNoted_kept
  refine ⟨v, w, r, b, a, ?_⟩
  rw [s.enterStandby_eq order]
  refine hd.trans ?_
  rw [hm, hn]
  rfl

/-- The records and the attention after the entry are those after the commands ended. -/
theorem State.enterStandby_says (s : State) (order : List Module) :
    (s.enterStandby order).builder = (s.standbyNoted.seekModules order).builder ∧
      (s.enterStandby order).attention = (s.standbyNoted.seekModules order).attention := by
  obtain ⟨v, w, hd⟩ := (s.standbyNoted.seekModules order).discarded_only
  rw [s.enterStandby_eq order]
  exact ⟨(congrArg State.builder hd).trans rfl, (congrArg State.attention hd).trans rfl⟩

theorem State.enterStandby_module (s : State) {order : List Module} {m : Module} (hm : m ∈ order) :
    (s.setup.enables m = true → (s.enterStandby order).module m =
      { s.module m with state := .seeking, goodRun := 0, missCount := 0, command := none }) ∧
    (s.setup.enables m = false → (s.enterStandby order).module m = { s.module m with command := none }) := by
  have h : (s.enterStandby order).module m = (s.module m).stoodBy (s.setup.enables m) := by
    obtain ⟨v, w, hd⟩ := (s.standbyNoted.seekModules order).discarded_only
    obtain ⟨b0, a0, v0, hn⟩ := s.standbyNoted_kept
    have hsame : (s.enterStandby order).modules = (s.standbyNoted.seekModules order).modules := by
      rw [s.enterStandby_eq order]
      exact (congrArg State.modules hd).trans rfl
    have hseek := s.standbyNoted.seekModules_module order m hm
    rw [show s.standbyNoted.module m = s.module m by rw [hn]; rfl, show s.standbyNoted.setup = s.setup by rw [hn]] at hseek
    rw [State.module, hsame]
    exact hseek
  rw [h]
  exact ⟨fun he => by rw [he]; rfl, fun he => by rw [he]; rfl⟩

theorem State.enterStandby_channel (s : State) (order : List Module) (c : Channel) :
    (s.enterStandby order).channel c = { s.channel c with current := .zero, previous := .zero, ring := [] } := by
  obtain ⟨b, a, r, -, hm⟩ := OnModules.seekModules s.standbyNoted order
  obtain ⟨b0, a0, v0, hn⟩ := s.standbyNoted_kept
  have hsame : (s.standbyNoted.seekModules order).channel c = s.channel c := by
    rw [hm, hn]
    rfl
  rw [← hsame, s.enterStandby_eq order]
  exact State.discarded_channel _ c

/-- What an entry to STANDBY says. -/
theorem State.enterStandby_records (s : State) {order : List Module} (ho : order.Nodup) :
    (s.enterStandby order).builder = ((s.standbyClosed.builder.offers
      [.status .standbyEntered s.epochNow s.control.epochUnset]).offers (order.filterMap s.unanswered)) ∧
    (s.enterStandby order).attention.isPending .supply = true := by
  obtain ⟨hb, ha⟩ := s.enterStandby_says order
  have hseek := s.standbyNoted.seekModules_tells ho
  have hnoted : Tells [.status .standbyEntered s.standbyClosed.epochNow s.standbyClosed.control.epochUnset]
      (fun j => j = .supply) s.standbyClosed s.standbyNoted := Tells.offerRaise _ _ _
  have hsame : s.standbyClosed.epochNow = s.epochNow ∧ s.standbyClosed.control.epochUnset = s.control.epochUnset := by
    obtain ⟨b0, a0, v0, hn⟩ := s.standbyClosed_kept
    rw [hn]
    exact ⟨rfl, rfl⟩
  rw [hsame.1, hsame.2] at hnoted
  rw [s.standbyNoted_unanswered] at hseek
  rw [hb, ha, hseek.builder, hnoted.builder]
  exact ⟨rfl, hseek.keeps (hnoted.raises rfl)⟩

/-- A point's fields at entry to STANDBY, whatever its spans. -/
theorem PointRecord.standby_kept {x z y : PointRecord} (hz : y = PointRecord.discardWork { z with check := none })
    (hx : z = x.quieted.spanning z.block z.interval z.assessment ∨ z = x) :
    y.boundary = .fresh ∧ y.period = none ∧ y.pairFlag = false ∧ y.check = none ∧ y.measured = x.measured ∧
      y.limits = x.limits ∧ y.pendingLimits = x.pendingLimits ∧ y.assessment = z.assessment ∧ y.low = z.low ∧
      y.high = z.high ∧ y.block = z.block ∧ y.interval = z.interval := by
  subst hz
  rcases hx with h | h
  · refine ⟨rfl, rfl, rfl, rfl, ?_, ?_, ?_, rfl, rfl, rfl, rfl, rfl⟩ <;> (rw [h]; rfl)
  · subst h
    exact ⟨rfl, rfl, rfl, rfl, rfl, rfl, rfl, rfl, rfl, rfl, rfl, rfl⟩

/-- The assessment of a measured point through an entry to STANDBY from RUNNING (R106, R110, R111). -/
theorem PointRecord.standby_assessment {s u : State} {p : Point} {x : PointRecord} {iv : Interval} {a : Assessment}
    (hu : u.setup = s.setup ∧ u.count = s.count ∧ u.epochNow = s.epochNow) (hiv : x.interval = some iv)
    (ha : x.assessment = some a) :
    (a.closedIntervals + 1 < s.setup.assessmentLength → ∃ a', (x.quieted.standby u p).assessment = some a' ∧
      a'.startEpoch = a.startEpoch ∧ a'.closedIntervals = a.closedIntervals + 1 ∧
      a'.stepped = (a.stepped || iv.timeStepped) ∧ a'.unset = (a.unset || iv.epochUnset) ∧
      a'.freqEvaluated = a.freqEvaluated ∧ a'.freqOutside = a.freqOutside ∧
      (iv.disturbed = true ∨ (s.count - iv.coverageStart).toNat < s.setup.intervalLength * s.setup.nominal.rate →
        a'.phases = a.phases) ∧
      ∀ counted : EventClass → Nat, (∀ k, counted k =
          ((x.low.event.toList ++ x.high.event.toList).filter (fun e => e.eventClass == k)).length) →
        (a.dips + counted .dip ≤ 65535 → a'.dips = a.dips + counted .dip) ∧
        (a.interruptions + counted .interruption ≤ 65535 →
          a'.interruptions = a.interruptions + counted .interruption) ∧
        (a.swells + counted .swell ≤ 65535 → a'.swells = a.swells + counted .swell)) ∧
    (s.setup.assessmentLength ≤ a.closedIntervals + 1 →
      (x.quieted.standby u p).assessment = some (.fresh s.epochNow)) := by
  obtain ⟨hsetup, hcount, hepoch⟩ := hu
  obtain ⟨a1, ha1, hin⟩ := countEvents_some a (x.low.event.toList ++ x.high.event.toList)
  have hassess : x.quieted.assessment = some a1 := by rw [PointRecord.quieted, ha]; exact ha1
  have hclosed : a1.closedIntervals = a.closedIntervals := by rw [hin.kept]
  obtain ⟨hgoes, hends⟩ := PointRecord.standby_spec (s := u) (p := p) (x := x.quieted) (iv := iv) hiv hassess
  rw [hsetup, hcount, hclosed] at hgoes
  rw [hsetup, hepoch, hclosed] at hends
  refine ⟨fun hlt => ?_, hends⟩
  obtain ⟨r, hr, hstep, hunset, hjudge⟩ := hgoes hlt
  refine ⟨_, hr, ?_, ?_, ?_, ?_, ?_, ?_, fun h => ?_, fun counted hc => ?_⟩
  · rw [Assessment.takeInterval, hin.kept]
  · rw [Assessment.takeInterval, hin.kept]
  · rw [Assessment.takeInterval, hin.kept, hstep]
  · rw [Assessment.takeInterval, hin.kept, hunset]
  · rw [Assessment.takeInterval, hin.kept]
  · rw [Assessment.takeInterval, hin.kept]
  · rw [Assessment.takeInterval_unjudged (hjudge h), hin.kept]
  · rw [hc .dip, hc .interruption, hc .swell]
    exact ⟨hin.dips, hin.interruptions, hin.swells⟩

theorem State.enterStandby_assessment (s : State) (order : List Module) (p : Point) :
    ((s.enterStandby order).point p).assessment = (s.standbyClosed.point p).assessment := by
  rw [s.enterStandby_point order p]
  rfl

theorem State.standbyClosed_isSome (s : State) (p : Point) :
    (s.standbyClosed.point p).assessment.isSome = (s.point p).assessment.isSome := by
  by_cases h : s.control.prior = some .running
  · have he : s.standbyClosed = ({ s with control := s.control.standingBy } : State).closeForStandby := if_pos h
    obtain ⟨-, -, -, -, hassess⟩ := ({ s with control := s.control.standingBy } : State).closeForStandby_point p
    rw [he]
    exact hassess
  · rw [State.standbyClosed_other h]
    rfl

theorem PointRecord.quieted_standby (x : PointRecord) (s : State) (p : Point) :
    (x.standby s p).block = none ∧ (x.standby s p).interval = none :=
  ⟨rfl, rfl⟩

theorem filterMap_flatMap_of {α β γ : Type} {f : α → List β} {g : β → Option γ} {h : α → Option γ} {l : List α}
    (heq : ∀ a ∈ l, (f a).filterMap g = (h a).toList) : (l.flatMap f).filterMap g = l.filterMap h := by
  rw [List.filterMap_flatMap, filterMap_as_flatMap h]
  exact flatMap_same heq

/-- The coverage of the spans' records is that of the intervals of the measured points. -/
theorem State.standbySay_coverage (s : State) : (allFour.flatMap s.standbySay).filterMap RecordBody.coverage =
    allFour.filterMap (fun p => if (s.point p).measured then
      (s.point p).interval.map (fun iv => (p, iv.coverageEpoch, s.count - iv.coverageStart, false)) else none) := by
  refine filterMap_flatMap_of fun p _ => ?_
  have hcount : s.standbyEvents.count = s.count := by
    obtain ⟨b, a, v, h⟩ := s.standbyEvents_kept
    rw [h]
  unfold State.standbySay
  split
  · rw [intervalRecords_coverage, hcount]
    rfl
  · rfl

/-- What the closings say: nothing, unless the device came from RUNNING. -/
theorem State.standbyClosed_says (s : State) : ∃ events spans : List RecordBody,
    s.standbyClosed.builder = s.builder.offers (events ++ spans) ∧
    (s.control.prior ≠ some .running → events = [] ∧ spans = []) ∧
    (s.control.prior = some .running →
      events = allFour.flatMap (fun p => forcedRecords .recorderSupply s p (s.point p)) ∧
      spans.filterMap RecordBody.coverage = allFour.filterMap (fun p => if (s.point p).measured then
        (s.point p).interval.map (fun iv => (p, iv.coverageEpoch, s.count - iv.coverageStart, false)) else none) ∧
      ∀ b ∈ spans, (∃ r, b = .interval r) ∨ ∃ q, b = .summary q ∧ q.flags.early = false ∧ q.flags.stopped = false ∧
        s.setup.assessmentLength ≤ q.closedIntervals) := by
  by_cases h : s.control.prior = some .running
  · refine ⟨_, _, (State.standbyClosed_spec h).1, fun hn => absurd h hn, fun _ => ⟨rfl, s.standbySay_coverage, fun b hb => ?_⟩⟩
    obtain ⟨p, -, hp⟩ := List.mem_flatMap.mp hb
    have hsetup : s.standbyEvents.setup = s.setup := by
      obtain ⟨b, a, v, he⟩ := s.standbyEvents_kept
      rw [he]
    unfold State.standbySay at hp
    split at hp
    · have hmem := mem_intervalRecords hp
      rw [hsetup] at hmem
      exact hmem
    · cases hp
  · refine ⟨[], [], ?_, fun _ => ⟨rfl, rfl⟩, fun hy => absurd hy h⟩
    rw [State.standbyClosed_other h]
    rfl

/-- A point after the closings: quieted but for its spans, or as it was. -/
theorem State.standbyClosed_point (s : State) (p : Point) :
    s.standbyClosed.point p = (s.point p).quieted.spanning (s.standbyClosed.point p).block
      (s.standbyClosed.point p).interval (s.standbyClosed.point p).assessment ∨
    s.standbyClosed.point p = s.point p := by
  by_cases h : s.control.prior = some .running
  · exact .inl ((State.standbyClosed_spec h).2.2.2 p)
  · rw [State.standbyClosed_other h]
    exact .inr rfl

theorem PointRecord.spanning_quiet {x z : PointRecord} {b : Option Block} {i : Option Interval} {a : Option Assessment}
    (h : z = x.quieted.spanning b i a) : z.low = .quiet ∧ z.high = .quiet := by
  subst h
  exact ⟨rfl, rfl⟩

/-- Settles O23: the closings from RUNNING, then what every entry to STANDBY does. -/
theorem timerExpiryEntersStandby : Obligations.TimerExpiryEntersStandby := by
  refine ⟨fun s order hd hr hlen => ?enters, fun s order h => ?idle⟩
  case idle =>
    rw [exec_holdupTimerExpiry]
    refine congrArg Host.Outcome.next (if_neg ?_)
    rw [s.holdupOver_iff]
    rintro ⟨hd, hr, hlen⟩
    rcases h with h | h | h
    · exact h hd
    · exact Bool.false_ne_true (h.symm.trans hr)
    · exact Nat.not_lt.mpr hlen h
  case enters =>
    have ho := eachOnce_orderOf order
    rw [exec_holdupTimerExpiry]
    generalize Sys2Proof.orderOf order = l at ho ⊢
    have ht : s.takeHoldupExpiry l = s.enterStandby l := if_pos (s.holdupOver_iff.mpr ⟨hd, hr, hlen⟩)
    obtain ⟨hbuilder, hsupply⟩ := s.enterStandby_records ho.nodup
    have hpoint (p : Point) := s.enterStandby_point l p
    have hmodule (m : Module) := s.enterStandby_module (order := l) (m := m) (ho.all m)
    have hchannel := s.enterStandby_channel l
    have hassess := s.enterStandby_assessment l
    obtain ⟨v, w, r, b, a, honly⟩ := s.enterStandby_only l
    obtain ⟨events, spans, hsaid, hother, hrun⟩ := s.standbyClosed_says
    rw [ht]
    generalize s.enterStandby l = t at hbuilder hsupply hpoint hmodule hchannel hassess honly
    have hkept (p : Point) := PointRecord.standby_kept (hpoint p) (s.standbyClosed_point p)
    refine ⟨t, events, spans, l.filterMap s.unanswered, rfl, ?_, hother, fun hp => ?_, rfl, by rw [honly],
      fun m => (hmodule m).1, fun m => (hmodule m).2, hchannel, fun p => ?_, fun hp p => ?_, fun hp p x iv hm hx hiv => ?_,
      fun hp p => ?_, by rw [honly], hsupply, by rw [honly]⟩
    · rw [hbuilder, hsaid, ← RecordBuilder.offers_append, ← RecordBuilder.offers_append, ← List.append_assoc]
    · obtain ⟨hevents, hcover, hmem⟩ := hrun hp
      refine ⟨hevents, (congrArg (fun g => List.filterMap g spans) (funext fun b => ?_)).trans hcover, hmem⟩
      cases b <;> rfl
    · obtain ⟨hb, hper, hpair, hcheck, hmeas, hlim, hpend, -⟩ := hkept p
      refine ⟨hb, hper, hpair, hcheck, hmeas, hlim, hpend, ?_⟩
      rw [hassess, s.standbyClosed_isSome]
    · rw [hassess, State.standbyClosed_other hp]
      rfl
    · obtain ⟨-, hyes, -, -⟩ := State.standbyClosed_spec hp
      have hu : s.standbyEvents.setup = s.setup ∧ s.standbyEvents.count = s.count ∧
          s.standbyEvents.epochNow = s.epochNow := by
        obtain ⟨b0, a0, v0, he⟩ := s.standbyEvents_kept
        rw [he]
        exact ⟨rfl, rfl, rfl⟩
      rw [hassess, hyes p hm]
      exact PointRecord.standby_assessment hu hiv hx
    · obtain ⟨-, hyes, -, hspan⟩ := State.standbyClosed_spec hp
      obtain ⟨-, -, -, -, -, -, -, -, hlow, hhigh, hblock, hinterval⟩ := hkept p
      obtain ⟨hl, hh⟩ := PointRecord.spanning_quiet (hspan p)
      refine ⟨hlow.trans hl, hhigh.trans hh, fun hm => ?_⟩
      rw [hblock, hinterval, hyes p hm]
      exact PointRecord.quieted_standby _ _ p

end Sys2Proof.Machine
end

section
/-! PROOFS. Records: one offer, and how a record is spelled in bytes (R129 to R134, R179, sections 12.4 and 12.6: O45). -/

namespace Sys2Proof.Machine

/-! ### One offer (R131 to R134) -/

theorem RecordBuilder.offer_spec (b : RecordBuilder) (body : RecordBody) :
    (b.offer body).seq = b.seq + 1 ∧
    (b.queue.length < body.admission.limit →
      ∃ r : QueuedRecord, (b.offer body).queue = b.queue ++ [r] ∧ r.seq = b.seq ∧ r.withheld = b.withheld ∧
        r.body = body ∧ r.chain = crc16 b.chain (recordBytes b.seq b.withheld body) ∧
        (b.offer body).chain = r.chain ∧ (b.offer body).withheld = 0) ∧
    (body.admission.limit ≤ b.queue.length →
      (b.offer body).queue = b.queue ∧ (b.offer body).chain = b.chain ∧
      (b.withheld < 255 → (b.offer body).withheld = b.withheld + 1) ∧
      (b.withheld = 255 → (b.offer body).withheld = 255)) := by
  have hadmits : b.admits body = true ↔ b.queue.length < body.admission.limit := decide_eq_true_iff
  unfold RecordBuilder.offer
  by_cases h : b.queue.length < body.admission.limit
  · rw [if_pos (hadmits.mpr h)]
    exact ⟨rfl, fun _ => ⟨b.link body, rfl, rfl, rfl, rfl, rfl, rfl, rfl⟩, fun hn => absurd h (Nat.not_lt.mpr hn)⟩
  · rw [if_neg (mt hadmits.mp h)]
    refine ⟨rfl, fun hy => absurd hy h, fun _ => ⟨rfl, rfl, fun hw => ?_, fun hw => ?_⟩⟩
    · exact if_pos hw
    · rw [hw]
      rfl

theorem admission_status_other {k : StatusKind} (hr : ∀ c, k ≠ .reset c) (hh : ∀ p, k ≠ .holdupEntered p)
    (hs : k ≠ .standbyEntered) (e : Tick) (u : Bool) : (RecordBody.status k e u).admission.limit = 88 := by
  cases k with
  | reset c => exact absurd rfl (hr c)
  | holdupEntered p => exact absurd rfl (hh p)
  | standbyEntered => exact absurd rfl hs
  | started _ | stopped | moduleLocked _ | moduleLost _ | leadOpen _ _ _ | leadRestored _ _ _ | limitsInstalled _
  | timeStepped _ _ | supplyRestored _ _ => rfl

/-! ### The chain word (R123, R134) -/

theorem crcBit_eq (r : Word) : crcBit r = if r.getLsbD 15 = true then (r <<< 1) ^^^ 0x1021 else r <<< 1 := by
  rw [crcBit, BitVec.msb_eq_getLsbD_last]

theorem byte_shifted (b : Byte) : b.setWidth 16 <<< 8 = b ++ (0 : Byte) := by
  refine BitVec.eq_of_toNat_eq ?_
  have hb := b.isLt
  rw [BitVec.toNat_append, BitVec.toNat_shiftLeft, BitVec.toNat_setWidth, Nat.shiftLeft_eq, Nat.shiftLeft_eq,
    show (0 : Byte).toNat = 0 from rfl, Nat.or_zero]
  omega

theorem crc16_cons {shift : Word → Word}
    (hs : ∀ r, shift r = if r.getLsbD 15 = true then (r <<< 1) ^^^ 0x1021 else r <<< 1) (r : Word) (b : Byte)
    (rest : List Byte) : crc16 r (b :: rest) = crc16 (shift (shift (shift (shift (shift (shift (shift (shift
      (r ^^^ (b ++ (0 : Byte))))))))))) rest := by
  obtain rfl : shift = crcBit := funext fun r => (hs r).trans (crcBit_eq r).symm
  rw [← byte_shifted]
  rfl

/-! ### Numbers, absent values and flags (R179) -/

@[simp] theorem beBytes_length (len n : Nat) : (beBytes len n).length = len := by
  induction len with
  | zero => rfl
  | succ len ih => rw [beBytes, List.length_cons, ih]

theorem beBytes_getElem? {len i : Nat} (n : Nat) (h : i < len) :
    (beBytes len n)[i]? = some (BitVec.ofNat 8 (n / 256 ^ (len - 1 - i))) := by
  induction len generalizing i with
  | zero => cases h
  | succ len ih =>
    cases i with
    | zero => rfl
    | succ i =>
      rw [beBytes, List.getElem?_cons_succ, ih (Nat.lt_of_succ_lt_succ h)]
      congr 4
      omega

@[simp] theorem beBytes_one (n : Nat) : beBytes 1 n = [BitVec.ofNat 8 n] := by
  rw [beBytes, Nat.pow_zero, Nat.div_one, beBytes]

/-- The number that a flag byte spells has the flags as its binary digits. -/
theorem flags_testBit (bits : List Bool) (n : Nat) :
    (bits.foldr (fun (b : Bool) acc => (if b then 1 else 0) + 2 * acc) 0).testBit n = bits.getD n false := by
  induction bits generalizing n with
  | nil => rw [List.foldr_nil, Nat.zero_testBit, List.getD_nil]
  | cons b bits ih =>
    have hlow (acc : Nat) : ((if b then 1 else 0) + 2 * acc) % 2 = if b then 1 else 0 := by
      split <;> omega
    have hhigh (acc : Nat) : ((if b then 1 else 0) + 2 * acc) / 2 = acc := by
      split <;> omega
    rw [List.foldr_cons]
    cases n with
    | zero =>
      rw [Nat.testBit_zero, hlow, List.getD_cons_zero]
      cases b <;> rfl
    | succ n => rw [Nat.testBit_succ, hhigh, ih, List.getD_cons_succ]

theorem flagByte_getLsbD {bits : List Bool} (h : bits.length ≤ 8) (n : Nat) :
    (flagByte bits).getLsbD n = bits.getD n false := by
  rw [flagByte, BitVec.getLsbD_ofNat, flags_testBit]
  by_cases hn : n < 8
  · rw [decide_eq_true hn, Bool.true_and]
  · rw [decide_eq_false hn, Bool.false_and, List.getD_eq_getElem?_getD,
      List.getElem?_eq_none (by omega), Option.getD_none]

theorem wideCount_eq {n : Nat} (h : n < 2 ^ 32) : wideCount n = beBytes 4 n :=
  if_pos h

/-! ### Records (section 12.4) -/

theorem writeEntrySize_eq (table : Byte) :
    writeEntrySize table = (([25, 18, 24, 14] : List Nat)[table.toNat]?).getD 0 := by
  revert table
  decide

/-- The first six bytes of a record. -/
def recordHead (seq : BitVec 32) (withheld : Nat) (code : Byte) : List Byte :=
  [code] ++ beBytes 4 seq.toNat ++ beBytes 1 withheld

theorem recordBytes_head (seq : BitVec 32) (withheld : Nat) (body : RecordBody) :
    recordBytes seq withheld body = recordHead seq withheld body.code ++ body.fieldBytes :=
  rfl

theorem EventRecord.bytes_eq {e : EventRecord} (hw : e.windows < 2 ^ 32) (hb : e.blindWindows < 2 ^ 32) : e.bytes =
    beBytes 2 e.tag.toNat ++ [e.eventClass.code] ++ beBytes 1 e.point.val ++ beBytes 6 e.startEpoch.toNat ++
    [flagByte [e.epochUnset, e.flags.freeSeen, e.flags.clippedSeen, e.flags.heldSeen, e.flags.timeStepped]] ++
    beBytes 6 e.duration.toNat ++ beBytes 4 e.extreme ++ beBytes 1 e.extremePhase ++ [e.phases.setWidth 8] ++
    beBytes 4 e.windows ++ beBytes 4 e.blindWindows ++ [e.endCause.code, e.captureStatus.code] ++
    optBytes 3 (e.captureTag.map BitVec.toNat) ++ [e.origin.code] ++ optBytes 3 e.ratio := by
  rw [EventRecord.bytes, wideCount_eq hw, wideCount_eq hb, EventRecord.flagsByte, optTagBytes]
  simp only [List.append_assoc, List.cons_append, List.nil_append]

theorem SummaryRecord.bytes_eq (r : SummaryRecord) : r.bytes =
    beBytes 1 r.point.val ++ beBytes 6 r.startEpoch.toNat ++ beBytes 2 r.closedIntervals ++
    [flagByte [r.flags.early, r.flags.stopped, r.flags.timeStepped, r.flags.epochUnset]] ++
    ([r.phase1, r.phase2, r.phase3].flatMap phaseBytes) ++
    beBytes 4 r.freqEvaluated ++ beBytes 4 r.freqOutside ++
    beBytes 2 r.dips ++ beBytes 2 r.interruptions ++ beBytes 2 r.swells := by
  rw [SummaryRecord.bytes, SummaryFlags.byte]
  simp only [List.flatMap_cons, List.flatMap_nil, List.append_assoc, List.append_nil]

theorem IntervalRecord.bytes_eq (r : IntervalRecord) : r.bytes =
    beBytes 1 r.point.val ++ beBytes 6 r.startEpoch.toNat ++ beBytes 4 r.length.toNat ++
    [flagByte [r.flags.disturbed, r.flags.short, r.flags.timeStepped, r.flags.stopped, r.flags.epochUnset]] ++
    beBytes 4 r.halfWindows ++ beBytes 4 r.blindHalfWindows ++ beBytes 1 r.channels.length ++
    r.channels.flatMap (fun c => beBytes 1 c.channel.val ++ optBytes 4 c.value ++ optBytes 4 c.least ++
      optBytes 4 c.greatest ++ beBytes 4 c.held ++ beBytes 4 c.clipped ++ beBytes 4 c.opened) ++
    (beBytes 2 r.frequency.valid ++ optBytes 4 r.frequency.mean ++ optBytes 4 r.frequency.least ++
      optBytes 4 r.frequency.greatest ++ beBytes 2 r.frequency.outOfBand) :=
  rfl

/-- The part of a status record before the fields of its kind. -/
def statusHead (seq : BitVec 32) (withheld : Nat) (epoch : Tick) (unset : Bool) (code : Byte) : List Byte :=
  recordHead seq withheld 0x02 ++ [code] ++ beBytes 6 epoch.toNat ++ [flagByte [unset]]

theorem recordBytes_status (seq : BitVec 32) (withheld : Nat) (k : StatusKind) (epoch : Tick) (unset : Bool) :
    recordBytes seq withheld (.status k epoch unset) = statusHead seq withheld epoch unset k.code ++ k.bytes := by
  rw [recordBytes_head, statusHead, RecordBody.fieldBytes]
  simp only [List.append_assoc]
  rfl

theorem recordBytes_reply (seq : BitVec 32) (withheld : Nat) (kind tag : Byte) (result : ReplyResult)
    (tail : ReplyTail) : recordBytes seq withheld (.reply { kind := kind, tag := tag, result := result, tail := tail }) =
      recordHead seq withheld 0x05 ++ ([kind, tag, result.code] ++ tail.bytes) :=
  rfl

/-! ### Entries (section 12.6) -/

theorem Setup.bytes_eq {e : Setup} (h : e.restart = .resume) : e.bytes =
    [if e.nominal = .hz50 then 50 else 60] ++ beBytes 2 e.intervalLength ++ beBytes 2 e.assessmentLength ++
    [e.blockPoints.setWidth 8] ++ beBytes 2 e.leadPeriod ++ beBytes 1 e.missLimit ++ [e.moduleEnable.setWidth 8] ++
    beBytes 2 e.holdupLimit ++ beBytes 1 e.debounce ++ [0x01] ++ beBytes 2 e.preTrigger ++
    beBytes 2 e.postTrigger ++ beBytes 1 e.highMark ++ beBytes 1 e.lowMark ++ beBytes 2 e.originRise ++
    beBytes 3 e.originMinimum := by
  rw [Setup.bytes, h, beBytes_one]
  cases e.nominal <;> rfl

theorem Routing.bytes_eq (e : Routing) : e.bytes =
    ([.eventOnset, .eventEnd, .captureDone, .intervalClosed, .assessmentClosed, .moduleState, .leadState,
      .queueHigh, .supply, .replyReady] : List AttnClass).map (fun k => (e.route k).code) ++
    [(e.config .line0).mode.code, (e.config .line0).width.code,
     (e.config .line1).mode.code, (e.config .line1).width.code] := by
  have hroutes : e.routes.toList = ([.eventOnset, .eventEnd, .captureDone, .intervalClosed, .assessmentClosed,
      .moduleState, .leadState, .queueHigh, .supply, .replyReady] : List AttnClass).map e.route := by
    refine List.ext_getElem (by simp) fun i h1 _ => ?_
    rw [Vector.length_toList] at h1
    match i, h1 with
    | 0, _ | 1, _ | 2, _ | 3, _ | 4, _ | 5, _ | 6, _ | 7, _ | 8, _ | 9, _ => rfl
    | i + 10, h => omega
  rw [Routing.bytes, hroutes, List.map_map]
  rfl

theorem PointChannel.bytes_eq (c : PointChannel) : c.bytes =
    beBytes 1 c.channel ++ [c.kind.code] ++ beBytes 1 c.phase ++
      [(match c.lead with | .notChecked => (0 : Byte) | .connected => 1 | .suspect => 2 | .opened => 3) +
        if c.due then 0x80 else 0] := by
  rw [PointChannel.bytes]
  refine congrArg (fun b => beBytes 1 c.channel ++ [c.kind.code] ++ beBytes 1 c.phase ++ [b]) ?_
  cases c.lead <;> cases c.due <;> rfl

theorem PointStatus.bytes_eq {e : PointStatus} {phase : Nat} (h : e.reference = some phase) : e.bytes =
    [flagByte [e.measured, e.configured, e.pendingLimits], e.low.code, e.high.code] ++
    optBytes 3 (e.lowTag.map BitVec.toNat) ++ optBytes 3 (e.highTag.map BitVec.toNat) ++ [e.mode.code] ++
    beBytes 1 e.halfCount ++ beBytes 1 phase ++ beBytes 1 e.channels.length ++
    e.channels.flatMap (fun c => beBytes 1 c.channel ++ [c.kind.code] ++ beBytes 1 c.phase ++
      [(match c.lead with | .notChecked => (0 : Byte) | .connected => 1 | .suspect => 2 | .opened => 3) +
        if c.due then 0x80 else 0]) := by
  have hchannels : PointChannel.bytes = fun c => beBytes 1 c.channel ++ [c.kind.code] ++ beBytes 1 c.phase ++
      [(match c.lead with | .notChecked => (0 : Byte) | .connected => 1 | .suspect => 2 | .opened => 3) +
        if c.due then 0x80 else 0] := funext PointChannel.bytes_eq
  rw [PointStatus.bytes, h, hchannels]
  rfl

theorem recordBytes_statuses (seq : BitVec 32) (withheld : Nat) (epoch : Tick) (unset : Bool) {status : Byte → List Byte}
    (hs : ∀ code, status code = statusHead seq withheld epoch unset code) :
    recordBytes seq withheld (.status (.reset .powerOn) epoch unset) = status 0x00 ++ [0] ∧
    recordBytes seq withheld (.status (.reset .resetPin) epoch unset) = status 0x00 ++ [1] ∧
    (∀ points : BitVec 4, recordBytes seq withheld (.status (.started points) epoch unset) =
      status 0x01 ++ [points.setWidth 8]) ∧
    recordBytes seq withheld (.status .stopped epoch unset) = status 0x02 ∧
    (∀ m : Module, recordBytes seq withheld (.status (.moduleLocked m) epoch unset) =
        status 0x03 ++ [BitVec.ofNat 8 m.val] ∧
      recordBytes seq withheld (.status (.moduleLost m) epoch unset) = status 0x04 ++ [BitVec.ofNat 8 m.val]) ∧
    (∀ (c : Channel) (p phase : Nat),
      recordBytes seq withheld (.status (.leadOpen c p phase) epoch unset) =
        status 0x05 ++ [BitVec.ofNat 8 c.val, BitVec.ofNat 8 p, BitVec.ofNat 8 phase] ∧
      recordBytes seq withheld (.status (.leadRestored c p phase) epoch unset) =
        status 0x06 ++ [BitVec.ofNat 8 c.val, BitVec.ofNat 8 p, BitVec.ofNat 8 phase]) ∧
    (∀ p : Point, recordBytes seq withheld (.status (.limitsInstalled p) epoch unset) =
      status 0x07 ++ [BitVec.ofNat 8 p.val]) ∧
    (∀ old new : Tick, recordBytes seq withheld (.status (.timeStepped old new) epoch unset) =
      status 0x08 ++ beBytes 6 old.toNat ++ beBytes 6 new.toNat) ∧
    (∀ prior : DeviceState, recordBytes seq withheld (.status (.holdupEntered prior) epoch unset) =
      status 0x09 ++ [prior.code]) ∧
    (∀ (d : Tick) (returned : DeviceState),
      recordBytes seq withheld (.status (.supplyRestored d returned) epoch unset) =
        status 0x0A ++ beBytes 6 d.toNat ++ [returned.code]) ∧
    recordBytes seq withheld (.status .standbyEntered epoch unset) = status 0x0B := by
  obtain rfl : status = statusHead seq withheld epoch unset := funext hs
  simp only [recordBytes_status, StatusKind.bytes, beBytes_one, List.append_nil, List.append_assoc,
    List.cons_append, List.nil_append]
  exact ⟨rfl, rfl, fun _ => rfl, rfl, fun _ => ⟨rfl, rfl⟩, fun _ _ _ => ⟨rfl, rfl⟩, fun _ => rfl, fun _ _ => rfl,
    fun _ => rfl, fun _ _ => rfl, rfl⟩

theorem recordBytes_replies (seq : BitVec 32) (withheld : Nat) {head : Byte → List Byte}
    (hh : head = recordHead seq withheld) (kind tag : Byte) (result : ReplyResult) {reply : ReplyTail → List Byte}
    (hr : ∀ tail, reply tail = recordBytes seq withheld
      (.reply { kind := kind, tag := tag, result := result, tail := tail })) :
    reply .empty = head 0x05 ++ [kind, tag, result.code] ∧
    (∀ table index entry, reply (.tableWrite table index (some entry)) =
      head 0x05 ++ [kind, tag, result.code, table, index] ++ entry.bytes) ∧
    (∀ table index, reply (.tableWrite table index none) = head 0x05 ++ [kind, tag, result.code, table, index] ++
      List.replicate ((([25, 18, 24, 14] : List Nat)[table.toNat]?).getD 0) 0xFF) ∧
    (∀ table first count entries, reply (.tableRead table first count entries) =
      head 0x05 ++ [kind, tag, result.code, table, first, count] ++ entries.flatMap TableEntry.bytes) ∧
    (∀ (m : Byte) (word : Option (BitVec 32)), reply (.moduleCommand m word) =
      head 0x05 ++ [kind, tag, result.code, m] ++ optBytes 4 (word.map BitVec.toNat)) ∧
    ∀ x : Option Word, reply (.trigger x) =
      head 0x05 ++ [kind, tag, result.code] ++ optBytes 3 (x.map BitVec.toNat) := by
  obtain rfl : reply = fun tail => recordHead seq withheld 0x05 ++ ([kind, tag, result.code] ++ tail.bytes) :=
    funext fun tail => (hr tail).trans (recordBytes_reply seq withheld kind tag result tail)
  subst hh
  simp only [List.append_assoc]
  refine ⟨rfl, fun _ _ _ => rfl, fun table index => ?_, fun _ _ _ _ => rfl, fun _ _ => rfl, fun _ => rfl⟩
  rw [← writeEntrySize_eq]
  rfl

/-- Settles O45: an offer by whether it is admitted, the chain word by its bits, the bytes by kind and by table. -/
theorem recordOffered : Obligations.RecordOffered := by
  unfold Obligations.RecordOffered
  refine ⟨RecordBuilder.offer_spec, fun _ => rfl, fun _ => rfl, fun _ _ _ => rfl, fun _ _ _ => rfl, fun _ _ => rfl,
    fun k e u hr hh hs => admission_status_other hr hh hs e u, fun _ => rfl, fun _ => rfl, fun _ => rfl, fun _ => rfl,
    fun shift hs r b rest => ⟨rfl, crc16_cons hs r b rest⟩,
    fun len n i => ⟨beBytes_length len n, fun h => beBytes_getElem? n h⟩, fun len n => ⟨rfl, rfl⟩,
    fun bits h n => flagByte_getLsbD h n, ?codes, fun r => rfl, fun seq withheld head hhead => ?records,
    fun e h => Setup.bytes_eq h, fun e => rfl, fun e => rfl, Routing.bytes_eq,
    fun e => ⟨flagByte [e.outstanding], rfl⟩, fun e phase h => PointStatus.bytes_eq h⟩
  case codes => exact ⟨rfl, rfl, rfl, rfl, rfl, rfl, rfl, rfl, rfl, rfl, rfl, rfl, rfl, rfl, rfl⟩
  case records =>
    have hh : head = recordHead seq withheld := funext hhead
    refine ⟨fun e hw hb => ?_, fun c => ?_, fun epoch unset status hs => recordBytes_statuses seq withheld epoch unset
      (fun code => ?_), fun r => ?_, fun r => ?_, fun kind tag result reply hr =>
        recordBytes_replies seq withheld hh kind tag result hr, fun b => ?_⟩
    · rw [hh, recordBytes_head]
      exact congrArg (recordHead seq withheld 0x00 ++ ·) (EventRecord.bytes_eq hw hb)
    · rw [hh]
      rfl
    · rw [hs, hh]
      rfl
    · rw [hh]
      rfl
    · rw [hh, recordBytes_head]
      refine congrArg (recordHead seq withheld 0x04 ++ ·) (r.bytes_eq.trans ?_)
      have hp : phaseBytes = fun x => match x with
          | none => List.replicate 6 0xFF
          | some n => beBytes 2 n.evaluated ++ beBytes 2 n.below ++ beBytes 2 n.above := by
        funext x
        cases x <;> rfl
      rw [hp] <;> rfl
    · rw [hh]
      rfl

end Sys2Proof.Machine
end

section
/-! PROOFS. The station port: the check word, and what an exchange begins with and is settled by (section 1.6, R142 to
R148, sections 12.1 and 12.3: O25, O26). -/

namespace Sys2Proof.Machine

/-! ### The check word (section 1.6) -/

theorem onesAdd_le {a b : Nat} (ha : a ≤ 65535) (hb : b ≤ 65535) : onesAdd a b ≤ 65535 := by
  unfold onesAdd
  split <;> omega

theorem onesAdd_assoc {a b c : Nat} (ha : a ≤ 65535) (hb : b ≤ 65535) (hc : c ≤ 65535) :
    onesAdd (onesAdd a b) c = onesAdd a (onesAdd b c) := by
  have hsum (x y : Nat) : (x + y < 65536 ∧ onesAdd x y = x + y) ∨ (65536 ≤ x + y ∧ onesAdd x y = x + y - 65535) := by
    unfold onesAdd
    split <;> omega
  have hab := hsum a b
  have hbc := hsum b c
  have hleft := hsum (onesAdd a b) c
  have hright := hsum a (onesAdd b c)
  omega

theorem onesAdd_complement {a : Nat} (ha : a ≤ 65535) : onesAdd a (65535 - a) = 65535 := by
  unfold onesAdd
  split <;> omega

theorem word_le (a b : Byte) : a.toNat * 256 + b.toNat ≤ 65535 := by
  have := a.isLt
  have := b.isLt
  omega

theorem wordSum_le : ∀ bytes : List Byte, wordSum bytes ≤ 65535
  | [] => Nat.zero_le _
  | [a] => by
    have := word_le a 0
    exact Nat.le_trans (Nat.le_add_right _ _) this
  | a :: b :: rest => onesAdd_le (word_le a b) (wordSum_le rest)

theorem onesAdd_zero {a : Nat} (ha : a ≤ 65535) : onesAdd a 0 = a := by
  rw [onesAdd, Nat.add_zero, if_pos (by omega)]

theorem zero_onesAdd {a : Nat} (ha : a ≤ 65535) : onesAdd 0 a = a := by
  rw [onesAdd, Nat.zero_add, if_pos (by omega)]

/-- A word at the end of whole words is added to their sum. -/
theorem wordSum_append_word (a b : Byte) : ∀ bytes : List Byte, bytes.length % 2 = 0 →
    wordSum (bytes ++ [a, b]) = onesAdd (wordSum bytes) (a.toNat * 256 + b.toNat)
  | [], _ => by
    show onesAdd _ 0 = onesAdd 0 _
    rw [onesAdd_zero (word_le a b), zero_onesAdd (word_le a b)]
  | [_], h => by cases h
  | x :: y :: rest, h => by
    have h' : rest.length % 2 = 0 := by
      simp only [List.length_cons] at h
      omega
    show onesAdd _ (wordSum (rest ++ [a, b])) = onesAdd (onesAdd _ _) _
    rw [wordSum_append_word a b rest h', onesAdd_assoc (word_le x y) (wordSum_le rest) (word_le a b)]

theorem beBytes_two_word {n : Nat} (h : n ≤ 65535) : ∃ a b : Byte, beBytes 2 n = [a, b] ∧ a.toNat * 256 + b.toNat = n := by
  refine ⟨BitVec.ofNat 8 (n / 256 ^ 1), BitVec.ofNat 8 (n / 256 ^ 0), rfl, ?_⟩
  simp only [BitVec.toNat_ofNat]
  omega

/-- Bytes taken up to whole words (section 1.6). -/
def padBytes (bytes : List Byte) : List Byte :=
  if bytes.length % 2 = 1 then bytes ++ [0] else bytes

theorem padBytes_length (bytes : List Byte) : (padBytes bytes).length = bytes.length + bytes.length % 2 := by
  unfold padBytes
  split
  next h => rw [List.length_append, List.length_singleton, h]
  next h => rw [Nat.mod_two_ne_one.mp h, Nat.add_zero]

theorem sealFrame_eq (bytes : List Byte) :
    sealFrame bytes = padBytes bytes ++ beBytes 2 (65535 - wordSum (padBytes bytes)) :=
  rfl

theorem sealFrame_length (bytes : List Byte) : (sealFrame bytes).length = bytes.length + bytes.length % 2 + 2 := by
  rw [sealFrame_eq, List.length_append, padBytes_length, beBytes_length]

/-- The check word brings the sum over the words to FFFFh. -/
theorem intact_sealFrame (bytes : List Byte) : intact (sealFrame bytes) = true := by
  have heven : (padBytes bytes).length % 2 = 0 := by
    rw [padBytes_length]
    omega
  obtain ⟨a, b, hab, hn⟩ := beBytes_two_word (Nat.sub_le 65535 (wordSum (padBytes bytes)))
  refine beq_iff_eq.mpr ?_
  rw [sealFrame_eq, hab, wordSum_append_word a b _ heven, hn, onesAdd_complement (wordSum_le _)]

/-! ### An exchange begins (R142, R145, R146) -/

theorem State.choose_record {s : State} (h : s.builder.queue ≠ []) : s.choose = .record :=
  if_pos h

theorem State.choose_capture {s : State} (hr : s.builder.queue = []) (hc : s.captureQueue ≠ []) : s.choose = .capture := by
  rw [State.choose, hr, if_neg (not_not_intro rfl), if_pos hc]

theorem State.choose_idle {s : State} (hr : s.builder.queue = []) (hc : s.captureQueue = []) : s.choose = .idle := by
  rw [State.choose, hr, hc, if_neg (not_not_intro rfl), if_neg (not_not_intro rfl)]

theorem State.outboundBody_record {s : State} {r : QueuedRecord} {rest : List QueuedRecord}
    (h : s.builder.queue = r :: rest) : s.outboundBody s.choose = r.bytes := by
  rw [State.choose_record (h ▸ List.cons_ne_nil r rest), State.outboundBody, h]

theorem State.outboundBody_capture {s : State} {f : CaptureFrame} {rest : List CaptureFrame}
    (hr : s.builder.queue = []) (hc : s.captureQueue = f :: rest) : s.outboundBody s.choose = f.bytes := by
  rw [State.choose_capture hr (hc ▸ List.cons_ne_nil f rest), State.outboundBody, hc]

theorem State.outboundBody_idle {s : State} (hr : s.builder.queue = []) (hc : s.captureQueue = []) :
    s.outboundBody s.choose = [] := by
  rw [State.choose_idle hr hc, State.outboundBody]

theorem OutHeader.bytes_length (h : OutHeader) : h.bytes.length = 8 := by
  simp only [OutHeader.bytes, List.length_append, beBytes_length, List.length_singleton]

theorem exec_exchangeBegin {s : State} (h : s.exchange = none) :
    exec .exchangeBegin s = .next { s with exchange := some { choice := s.choose, header := s.composeHeader } } := by
  have hb : s.beginExchange = { s with exchange := some { choice := s.choose, header := s.composeHeader } } := by
    rw [State.beginExchange, h]
  exact congrArg Host.Outcome.next hb

theorem outbound_length (h : OutHeader) (body : List Byte) :
    (sealFrame (h.bytes ++ body)).length = outboundLength body.length := by
  rw [sealFrame_length, List.length_append, OutHeader.bytes_length, outboundLength]
  omega

/-- Settles O25: the header is composed from the state, and the frame is that header with the chosen body, sealed. -/
theorem exchangeBegins : Obligations.ExchangeBegins := by
  refine ⟨fun s h => ?begins, fun s x hx => ?again, fun bytes padded hp => ?sealed, fun bytes => beq_iff_eq, rfl,
    fun a => rfl, fun a b rest n hn => ?words⟩
  case begins =>
    refine ⟨_, _, exec_exchangeBegin h, rfl, State.choose_record, State.choose_capture, State.choose_idle, rfl,
      (outbound_length _ _).symm, rfl, rfl, rfl, rfl, rfl, rfl, s.outboundBody s.choose,
      fun _ _ => State.outboundBody_record, fun _ _ => State.outboundBody_capture, State.outboundBody_idle, ?_,
      outbound_length _ _⟩
    have hcode : s.choose.code = match s.choose with | .idle => (0 : Byte) | .record => 1 | .capture => 2 := by
      cases s.choose <;> rfl
    show sealFrame ([s.choose.code] ++ _ ++ _ ++ _ ++ _ ++ _ ++ _) = _
    rw [hcode]
    rfl
  case again =>
    have hb : s.beginExchange = s := by rw [State.beginExchange, hx]
    exact congrArg Host.Outcome.next hb
  case sealed =>
    subst hp
    exact ⟨rfl, wordSum_le _, intact_sealFrame bytes⟩
  case words =>
    subst hn
    rfl

/-! ### An exchange is settled (R121, R143, R144, R147, R148) -/

theorem State.judgeIncoming_none (s : State) {bytes : List Byte} (h : judgeControlFrame bytes = none)
    (order : List Module) : s.judgeIncoming bytes order = { s with port := { s.port with discarded := true } } := by
  rw [State.judgeIncoming, h]

theorem State.settleExchange_cut (s : State) (x : Exchange) {sent : Nat} (h : sent < x.header.length) :
    s.settleExchange x sent = { s with exchange := none } :=
  if_neg (Nat.not_le.mpr h)

theorem State.settleExchange_whole (s : State) (x : Exchange) {sent : Nat} (h : x.header.length ≤ sent) :
    s.settleExchange x sent = { s with exchange := none, port := s.port.settle x.header }.removeHead x.choice :=
  if_pos h

theorem State.formAll_idle {s : State} (h : s.capture = none) : s.formAll = s :=
  s.formFrames_formed _ fun c hc => by
    rw [h] at hc
    cases hc

theorem State.formAll_port (s : State) : s.formAll.port = s.port := by
  obtain ⟨_, _, _, _, _, -, -, -, -, h⟩ := Formed.formAll s
  rw [h]

/-- Settles O26: the frame leaves its queue when it was clocked out whole, and then the bytes are discarded. -/
theorem exchangeSettles : Obligations.ExchangeSettles := by
  refine ⟨fun s x bytes order q hx hb hq => ?under, fun s bytes order hx => ?without⟩
  case under =>
    obtain rfl : q = s.port.settle x.header := hq
    have hend : ∀ t, s.settleExchange x bytes.length = t →
        exec (.exchangeEnd bytes order) s = .next { t with port := { t.port with discarded := true } } := by
      rintro t rfl
      rw [exec_exchangeEnd s bytes order hx, State.judgeIncoming_none _ hb]
    refine ⟨fun hcut => ?cut, fun hwhole => ?whole⟩
    case cut => exact (hend _ (s.settleExchange_cut x hcut)).trans rfl
    case whole =>
      have hset := s.settleExchange_whole x hwhole
      refine ⟨fun hc => ?idle, fun hc => ?record, fun hc => ?capture⟩ <;> rw [hc] at hset
      case idle => exact (hend _ hset).trans rfl
      case record =>
        refine (hend _ hset).trans ?_
        rw [State.removeHead, List.drop_one]
      case capture =>
        refine ⟨_, _, rfl, rfl, State.formAll_port _, fun hn => State.formAll_idle hn, (hend _ hset).trans ?_⟩
        rw [State.removeHead, List.drop_one, State.formAll_port]
        rfl
  case without =>
    have he : s.endExchange bytes (Sys2Proof.orderOf order) = s := by rw [State.endExchange, hx]
    exact congrArg Host.Outcome.next he

end Sys2Proof.Machine
end

section
/-! PROOFS. Waveform capture: the frames that a running capture forms, and the frame that ends it (R115, R121 to R125,
R127, R140, section 12.5: O17, O18). -/

namespace Sys2Proof.Machine

/-! ### A stretch of the History Buffer (R115) -/

theorem depth_back {head first : Tick} {i : Nat} (h : i ≤ (head - first).toNat) :
    (head - (first + BitVec.ofNat 48 i)).toNat = (head - first).toNat - i := by
  have hlt := (head - first).isLt
  rw [← BitVec.sub_sub, BitVec.toNat_sub_of_le]
  · rw [BitVec.toNat_ofNat, Nat.mod_eq_of_lt (by omega)]
  · rw [BitVec.le_def, BitVec.toNat_ofNat, Nat.mod_eq_of_lt (by omega)]
    exact h

theorem History.lag_stored {h : History} {head first : Tick} (hh : h.head = some head)
    (hs : (head - first).toNat < h.sets.length) : h.lag first = (head - first).toNat + 1 := by
  have hd : h.depth first = some (head - first).toNat := by
    rw [History.depth, hh]
    exact if_pos hs
  rw [History.lag, hd]

/-- The sets are held newest first, so the set of tick `head - d` is at place `d`. -/
theorem History.stretch_spec {h : History} {head first : Tick} {n : Nat} (hh : h.head = some head)
    (hs : (head - first).toNat < h.sets.length) (hn : n ≤ (head - first).toNat + 1) :
    (h.stretch first n).length = n ∧
    ∀ i, i < n → (h.stretch first n)[i]? = h.sets[(head - (first + BitVec.ofNat 48 i)).toNat]? := by
  rw [History.stretch, History.lag_stored hh hs]
  have hlen : (h.sets.take ((head - first).toNat + 1)).length = (head - first).toNat + 1 :=
    List.length_take_of_le hs
  refine ⟨List.length_take_of_le (by rw [List.length_reverse, hlen]; exact hn), fun i hi => ?_⟩
  rw [List.getElem?_take_of_lt hi, List.getElem?_reverse (by omega), hlen, List.getElem?_take_of_lt (by omega),
    depth_back (by omega), Nat.add_sub_cancel]

/-! ### The bytes of a frame (section 12.5) -/

theorem flatMap_length_const {α β : Type} (l : List α) (f : α → List β) (k : Nat) (h : ∀ a ∈ l, (f a).length = k) :
    (l.flatMap f).length = l.length * k := by
  rw [List.length_flatMap, List.map_congr_left h, List.map_const', List.sum_replicate_nat]

theorem CaptureFrame.bytes_eq (f : CaptureFrame) :
    f.bytes = beBytes 2 f.tag.toNat ++ beBytes 1 f.point.val ++ beBytes 2 f.index ++ beBytes 1 f.codes.length ++
      beBytes 1 f.channels.length ++ (f.channels.map (fun c => BitVec.ofNat 8 c.val) ++
        List.replicate (6 - f.channels.length) 0xFF) ++ beBytes 6 f.firstTick.toNat ++
      [flagByte [f.heldPresent, f.clippedPresent]] ++
      f.codes.flatMap (fun set => set.flatMap (fun code => beBytes 3 code.toNat)) := by
  rw [CaptureFrame.bytes, channelListBytes, List.length_map, CaptureFrame.flagsByte]

/-- The fixed part takes 20 bytes, and each code 3. -/
theorem CaptureFrame.bytes_length {f : CaptureFrame} (hc : f.channels.length ≤ 6)
    (hs : ∀ set ∈ f.codes, set.length = f.channels.length) :
    f.bytes.length = 20 + f.codes.length * f.channels.length * 3 := by
  have hcodes : (f.codes.flatMap (fun set => set.flatMap (fun code => beBytes 3 code.toNat))).length =
      f.codes.length * (f.channels.length * 3) :=
    flatMap_length_const _ _ _ fun set h => by
      rw [flatMap_length_const set _ 3 fun _ _ => beBytes_length 3 _, hs set h]
  rw [CaptureFrame.bytes_eq]
  simp only [List.length_append, beBytes_length, List.length_map, List.length_replicate, List.length_singleton,
    hcodes, Nat.mul_assoc]
  omega

/-! ### One frame (R121, R122) -/

/-- The marks and codes of a frame are those of the stored samples of its channels. -/
theorem nextFrame_spec (s : State) (c : RunningCapture) {n : Nat} (hn : c.nextCount = n) :
    (nextFrame s c).codes = (s.history.stretch c.readPosition n).map (fun set =>
      c.channels.map (fun ch => (storedSample set (s.channel ch).entry).code)) ∧
    ((nextFrame s c).heldPresent = true ↔ ∃ set ∈ s.history.stretch c.readPosition n, ∃ ch ∈ c.channels,
      (storedSample set (s.channel ch).entry).held = true) ∧
    ((nextFrame s c).clippedPresent = true ↔ ∃ set ∈ s.history.stretch c.readPosition n, ∃ ch ∈ c.channels,
      (storedSample set (s.channel ch).entry).clipped = true) := by
  subst hn
  refine ⟨?_, ?_, ?_⟩
  · show ((s.history.stretch _ _).map _).map _ = _
    rw [List.map_map]
    exact List.map_congr_left fun set _ => List.map_map
  · show ((s.history.stretch _ _).map _).any _ = true ↔ _
    simp only [List.any_map, List.any_eq_true, Function.comp_apply]
  · show ((s.history.stretch _ _).map _).any _ = true ↔ _
    simp only [List.any_map, List.any_eq_true, Function.comp_apply]

theorem State.formOne_ready {s : State} {c : RunningCapture} (hc : s.capture = some c) (hr : s.frameReady c = true) :
    s.formOne = s.formFrame c := by
  rw [State.formOne, hc]
  exact if_pos hr

theorem State.formOne_waiting {s : State} {c : RunningCapture} (hc : s.capture = some c) (hr : s.frameReady c = false) :
    s.formOne = s := by
  rw [State.formOne, hc]
  exact if_neg (ne_true_of_eq_false hr)

theorem State.formOne_idle {s : State} (hc : s.capture = none) : s.formOne = s := by
  rw [State.formOne, hc]

theorem RunningCapture.nextCount_full {c : RunningCapture} (h : 64 < c.remaining) : c.nextCount = 64 :=
  Nat.min_eq_left (Nat.le_of_lt h)

/-- The state right after frame `f` of capture `c` has joined the queue. -/
def State.joined (s : State) (c : RunningCapture) (f : CaptureFrame) : State :=
  { s with captureQueue := s.captureQueue ++ [f], capture := some (c.advance f) }

theorem State.formFrame_eq (s : State) (c : RunningCapture) :
    s.formFrame c = (if c.remaining ≤ 64 then (s.joined c (nextFrame s c)).endCapture .complete
      else s.joined c (nextFrame s c)).shedIfFull :=
  rfl

/-- Where neither the planned end nor the high watermark is reached, the capture goes on. -/
theorem State.formFrame_runs {s : State} {c : RunningCapture} (hr : 64 < c.remaining)
    (hw : s.shedding = .shed ∨ s.captureQueue.length + 1 ≠ s.setup.highMark) :
    s.formFrame c = s.joined c (nextFrame s c) := by
  rw [State.formFrame_eq, if_neg (Nat.not_le.mpr hr)]
  refine if_neg fun ⟨hs, hl⟩ => hw.elim (fun hshed => ?_) fun hne => hne ?_
  · rw [show s.shedding = .opened from hs] at hshed
    cases hshed
  · rw [← show (s.captureQueue ++ [nextFrame s c]).length = s.setup.highMark from hl, List.length_append,
      List.length_singleton]

/-! ### The frame that ends its capture (R124, R125, R127, R140) -/

theorem State.endCapture_spec {s : State} {c : RunningCapture} (h : s.capture = some c) (reason : EndReason) :
    ∃ a, Attention.isPending a .captureDone = true ∧ s.endCapture reason =
      { s with capture := none, builder := s.builder.offer (.closure (closureOf c reason)), attention := a } := by
  rw [State.endCapture_of_some h]
  refine ⟨_, State.raise_isPending (s.offer (.closure (closureOf c reason))) .captureDone, ?_⟩
  rcases s.offer_eq (.closure (closureOf c reason)) with he | he <;> rw [he] <;> rfl

/-- The shedding state that a frame leaves which joins a queue of so many frames (R140). -/
def sheddingAfter (s : State) : Shedding :=
  if s.shedding = .opened ∧ s.captureQueue.length + 1 = s.setup.highMark then .shed else s.shedding

/-- The reason for which a capture ends with its next frame. -/
def endReason (c : RunningCapture) : EndReason :=
  if c.remaining ≤ 64 then .complete else .truncatedShed

theorem State.formFrame_ends {s : State} {c : RunningCapture}
    (h : c.remaining ≤ 64 ∨ (s.shedding = .opened ∧ s.captureQueue.length + 1 = s.setup.highMark)) :
    ∃ a, Attention.isPending a .captureDone = true ∧ s.formFrame c =
      { s with
        captureQueue := s.captureQueue ++ [nextFrame s c], capture := none
        builder := s.builder.offer (.closure (closureOf (c.advance (nextFrame s c)) (endReason c)))
        attention := a, shedding := sheddingAfter s } := by
  rw [State.formFrame_eq]
  have hlen : (s.captureQueue ++ [nextFrame s c]).length = s.captureQueue.length + 1 := by
    rw [List.length_append, List.length_singleton]
  by_cases hr : c.remaining ≤ 64
  · obtain ⟨a, ha, he⟩ := State.endCapture_spec (s := s.joined c (nextFrame s c)) rfl .complete
    refine ⟨a, ha, ?_⟩
    rw [if_pos hr, he, State.shedIfFull, endReason, if_pos hr, sheddingAfter, ← hlen]
    by_cases hw : s.shedding = .opened ∧ (s.captureQueue ++ [nextFrame s c]).length = s.setup.highMark
    · rw [if_pos hw]
      exact (if_pos hw).trans (State.endCapture_of_none rfl _)
    · rw [if_neg hw]
      exact if_neg hw
  · have hw := h.resolve_left hr
    obtain ⟨a, ha, he⟩ := State.endCapture_spec
      (s := { s.joined c (nextFrame s c) with shedding := .shed }) rfl .truncatedShed
    refine ⟨a, ha, ?_⟩
    rw [if_neg hr, State.shedIfFull, endReason, if_neg hr, sheddingAfter, if_pos hw]
    rw [← hlen] at hw
    exact (if_pos hw).trans he

/-! ### All the frames of an occasion (R121) -/

/-- The last of so many frames may be taken off the count instead of the first. -/
theorem State.formFrames_succ (s : State) (n : Nat) : s.formFrames (n + 1) = (s.formFrames n).formOne := by
  induction n generalizing s with
  | zero => rfl
  | succ n ih => exact ih s.formOne

/-- An occasion takes in the frame that the row would form. -/
theorem State.formAll_formOne (s : State) : s.formOne.formAll = s.formAll := by
  show s.formOne.formFrames 48 = s.formAll
  rw [show s.formOne.formFrames 48 = s.formFrames (48 + 1) from rfl, State.formFrames_succ]
  exact State.formOne_formed _ s.formAll_done

/-- Settles O17: one frame that leaves its capture running, all of an occasion, and how a frame is spelled. -/
theorem captureFrameFormed : Obligations.CaptureFrameFormed := by
  refine ⟨fun s => ⟨fun c hc hr hn hw => ?formed, fun c hc hr => ?waiting, fun hc => ?idle⟩,
    fun s => ⟨s.formAll_done, s.formFrames_formed _, ?again⟩,
    fun f => ⟨f.bytes_eq, CaptureFrame.bytes_length⟩, fun h head first n => History.stretch_spec⟩
  case formed =>
    obtain ⟨hcodes, hheld, hclipped⟩ := nextFrame_spec s c (RunningCapture.nextCount_full hn)
    refine ⟨_, nextFrame s c, congrArg Host.Outcome.next (State.formOne_ready hc hr), rfl, rfl, rfl, rfl, rfl,
      hcodes, hheld, hclipped, ?_⟩
    rw [State.formFrame_runs hn hw, State.joined, RunningCapture.advance, RunningCapture.nextCount_full hn]
    rfl
  case waiting => exact congrArg Host.Outcome.next (State.formOne_waiting hc hr)
  case idle => exact congrArg Host.Outcome.next (State.formOne_idle hc)
  case again =>
    intro t ht
    obtain rfl : s.formOne = t := Host.Outcome.next.inj ht
    exact s.formAll_formOne.symm

/-- Settles O18: a frame that reaches the planned end or the high watermark ends its capture. -/
theorem captureEnds : Obligations.CaptureEnds := by
  intro s c hc hr h
  obtain ⟨a, ha, he⟩ := State.formFrame_ends h
  have hx : exec .captureFrameForm s = _ := congrArg Host.Outcome.next ((State.formOne_ready hc hr).trans he)
  exact ⟨_, nextFrame s c, hx, rfl, rfl, rfl, (nextFrame_spec s c rfl).1, rfl, rfl, ha, rfl, rfl⟩

end Sys2Proof.Machine
end

section
/-! PROOFS. Module after module: what an operation on one module says, raises and leaves, and the modules at a SETUP
write (R11, R15, R19, R141, R155: O33). -/

namespace Sys2Proof.Machine

/-! ### One module's turn -/

/-- What an operation on a module does: the records it makes, the classes it raises, and the module it leaves. -/
structure ModuleTurn where
  bodies : List RecordBody
  classes : AttnClass → Prop
  leaves : ModuleRecord

/-- `t` is `s` after module `m` had this turn. -/
structure Turns (m : Module) (y : ModuleTurn) (s t : State) : Prop where
  onModules : OnModules s t
  others : ∀ n, n ≠ m → t.module n = s.module n
  here : t.module m = y.leaves
  tells : Tells y.bodies y.classes s t

/-- The turn in which a module's record alone changes. -/
def ModuleTurn.quiet (x : ModuleRecord) : ModuleTurn :=
  ⟨[], fun _ => False, x⟩

/-- Two turns of one module, the second from the record that the first leaves. -/
def ModuleTurn.followed (y z : ModuleTurn) : ModuleTurn :=
  ⟨y.bodies ++ z.bodies, fun j => y.classes j ∨ z.classes j, z.leaves⟩

theorem Turns.refl (m : Module) (s : State) : Turns m (.quiet (s.module m)) s s :=
  ⟨.refl s, fun _ _ => rfl, rfl, .refl s⟩

theorem Turns.trans {m : Module} {y z : ModuleTurn} {s t u : State} (h : Turns m y s t) (k : Turns m z t u) :
    Turns m (y.followed z) s u :=
  ⟨h.onModules.trans k.onModules, fun n hn => (k.others n hn).trans (h.others n hn), k.here, h.tells.trans k.tells⟩

theorem Turns.mono {m : Module} {y z : ModuleTurn} {s t : State} (h : Turns m y s t) (hs : z.bodies = y.bodies)
    (hr : ∀ j, y.classes j ↔ z.classes j) (hl : z.leaves = y.leaves) : Turns m z s t :=
  ⟨h.onModules, h.others, h.here.trans hl.symm, hs ▸ h.tells.mono hr⟩

theorem Turns.modModule (m : Module) (s : State) (f : ModuleRecord → ModuleRecord) :
    Turns m (.quiet (f (s.module m))) s (s.modModule m f) where
  onModules := .modThen (.refl _)
  others n hn := (State.modModule_module s m n f).trans (if_neg hn)
  here := (State.modModule_module s m m f).trans (if_pos rfl)
  tells := .silent rfl rfl rfl rfl

theorem Turns.noted {m : Module} {bodies : List RecordBody} {classes : AttnClass → Prop} {s t : State}
    (h : Noted s t) (k : Tells bodies classes s t) : Turns m ⟨bodies, classes, s.module m⟩ s t := by
  have hm (n : Module) : t.module n = s.module n := by
    obtain ⟨b, a, -, rfl⟩ := h
    rfl
  obtain ⟨b, a, ho, he⟩ := h
  exact ⟨⟨b, a, s.modules, ho, he⟩, fun n _ => hm n, hm m, k⟩

/-! ### An operation over the modules -/

/-- An operation acts on a module by the turn that its record and what no module changes give it. -/
structure ModuleOp (f : State → Module → State) (turn : State → Module → ModuleRecord → ModuleTurn) : Prop where
  acts : ∀ s m, Turns m (turn s m (s.module m)) s (f s m)
  same : ∀ {s t : State}, OnModules s t → ∀ m x, turn t m x = turn s m x

/-- The operation over modules that are all different: each has the turn that it would have alone. -/
theorem ModuleOp.foldl {f : State → Module → State} {turn} (h : ModuleOp f turn) {l : List Module} (hl : l.Nodup)
    (s : State) : OnModules s (l.foldl f s) ∧
      (∀ m ∈ l, (l.foldl f s).module m = (turn s m (s.module m)).leaves) ∧
      (∀ m, m ∉ l → (l.foldl f s).module m = s.module m) ∧
      Tells (l.flatMap (fun m => (turn s m (s.module m)).bodies)) (fun j => ∃ m ∈ l, (turn s m (s.module m)).classes j) s
        (l.foldl f s) := by
  induction l generalizing s with
  | nil => exact ⟨.refl s, nofun, fun _ _ => rfl, (Tells.refl s).mono (fun j => ⟨False.elim, fun ⟨_, hm, _⟩ => nomatch hm⟩)⟩
  | cons m ms ih =>
    obtain ⟨hm, hms⟩ := List.nodup_cons.mp hl
    have hf := h.acts s m
    obtain ⟨hon, hin, hout, htells⟩ := ih hms (f s m)
    have hturn (n : Module) (hn : n ∈ ms) : turn (f s m) n ((f s m).module n) = turn s n (s.module n) := by
      rw [hf.others n (fun e => hm (e ▸ hn)), h.same hf.onModules]
    refine ⟨hf.onModules.trans hon, List.forall_mem_cons.mpr ⟨?_, fun n hn => ?_⟩, fun n hn => ?_, ?_⟩
    · exact (hout m hm).trans hf.here
    · rw [List.foldl_cons, hin n hn, hturn n hn]
    · rw [List.mem_cons, not_or] at hn
      exact (hout n hn.2).trans (hf.others n hn.1)
    · have hsay : ms.flatMap (fun n => (turn (f s m) n ((f s m).module n)).bodies) =
          ms.flatMap (fun n => (turn s n (s.module n)).bodies) :=
        flatMap_same (fun n hn => by rw [hturn n hn])
      rw [hsay] at htells
      refine (hf.tells.trans htells).mono (fun j => ?_)
      rw [exists_of_cons]
      refine or_congr_right ⟨fun ⟨n, hn, hc⟩ => ⟨n, hn, ?_⟩, fun ⟨n, hn, hc⟩ => ⟨n, hn, ?_⟩⟩
      · rwa [hturn n hn] at hc
      · rwa [hturn n hn]

theorem OnModules.kept {s t : State} (h : OnModules s t) :
    t.setup = s.setup ∧ t.control = s.control ∧ t.count = s.count := by
  obtain ⟨b, a, v, -, rfl⟩ := h
  exact ⟨rfl, rfl, rfl⟩

/-! ### Commands that end, and losses (R15, R19) -/

/-- The NO_ANSWER reply of a module's command, if it has one outstanding. -/
def ModuleRecord.unanswered (m : Module) (x : ModuleRecord) : List RecordBody :=
  (x.command.map (noAnswerReply m)).toList

theorem ModuleRecord.unanswered_none {x : ModuleRecord} (h : x.command = none) (m : Module) : x.unanswered m = [] := by
  rw [ModuleRecord.unanswered, h]
  rfl

theorem ModuleRecord.unanswered_some {x : ModuleRecord} {k : ModuleCommand} (h : x.command = some k) (m : Module) :
    x.unanswered m = [noAnswerReply m k] := by
  rw [ModuleRecord.unanswered, h]
  rfl

/-- A module's command ends unanswered, if it has one outstanding (R19). -/
def ModuleTurn.freed (m : Module) (x : ModuleRecord) : ModuleTurn :=
  ⟨x.unanswered m, fun j => j = .replyReady ∧ x.command ≠ none, x.freed⟩

theorem Turns.endCommand (m : Module) (s : State) :
    Turns m (.freed m (s.module m)) s (s.endCommand m .noAnswer none) where
  onModules := .endCommand s m _ _
  others n hn := (State.endCommand_module s m n _ _).trans (if_neg hn)
  here := (State.endCommand_module s m m _ _).trans (if_pos rfl)
  tells := (Tells.endCommand s m).mono fun j => and_congr_right fun _ => by
    rw [State.unanswered, ne_eq, Option.map_eq_none_iff]

/-- A module becomes LOST: its record, then the end of its command (R13, R15, R19). -/
def ModuleTurn.lost (s : State) (m : Module) (x : ModuleRecord) : ModuleTurn :=
  ⟨.status (.moduleLost m) s.epochNow s.control.epochUnset :: x.unanswered m,
    fun j => j = .moduleState ∨ (j = .replyReady ∧ x.command ≠ none), x.lostNow⟩

theorem Turns.loseModule (m : Module) (s : State) : Turns m (.lost s m (s.module m)) s (s.loseModule m) := by
  have hlost := Turns.modModule m s (fun r => { r with state := .lost, goodRun := 0 })
  have hsaid := hlost.trans (.noted (Noted.statusRaise _ (.moduleLost m) .moduleState) (Tells.offerRaise _ _ _))
  have hended := Turns.endCommand m
    (((s.modModule m (fun r => { r with state := .lost, goodRun := 0 })).offerStatus (.moduleLost m)).raise .moduleState)
  rw [hsaid.here] at hended
  refine (hsaid.trans hended).mono ?_ (fun j => ?_) ?_
  all_goals simp only [ModuleTurn.followed, ModuleTurn.quiet, ModuleTurn.freed, hlost.here]
  · rfl
  · rw [false_or]
    exact Iff.rfl
  · rfl

theorem ModuleTurn.lost_same {s t : State} (h : OnModules s t) (m : Module) (x : ModuleRecord) :
    ModuleTurn.lost t m x = ModuleTurn.lost s m x := by
  obtain ⟨-, hcontrol, hcount⟩ := h.kept
  unfold ModuleTurn.lost State.epochNow State.epochOf
  rw [hcontrol, hcount]

/-! ### The modules at a SETUP write (R11) -/

/-- What a SETUP write does to a module, by its membership before and after the write. -/
def reenableTurn (old new : Setup) (s : State) (m : Module) (x : ModuleRecord) : ModuleTurn :=
  if new.enables m && !old.enables m then
    .quiet { x with state := .seeking, goodRun := 0, missCount := 0, checkFailures := 0, staleFrames := 0 }
  else if !new.enables m && old.enables m then .freed m { x with state := .disabled }
  else if x.state = .locked ∧ new.missLimit ≤ x.missCount then .lost s m x
  else .quiet x

theorem moduleOp_reenableModule (old : Setup) : ModuleOp (State.reenableModule old) (fun s => reenableTurn old s.setup s) where
  acts s m := by
    unfold State.reenableModule reenableTurn
    repeat' split
    · exact .modModule m s (fun x => { x with
        state := .seeking, goodRun := 0, missCount := 0, checkFailures := 0, staleFrames := 0 })
    · have hdis := Turns.modModule m s (fun r => { r with state := .disabled })
      have hend := Turns.endCommand m (s.modModule m (fun r => { r with state := .disabled }))
      rw [hdis.here] at hend
      exact (hdis.trans hend).mono rfl (fun j => Iff.of_eq (false_or _)) rfl
    · exact .loseModule m s
    · exact .refl m s
  same ho m x := by
    unfold reenableTurn
    rw [ho.kept.1, ModuleTurn.lost_same ho]

/-- A SETUP write disables a module. -/
def Setup.Disables (old new : Setup) (m : Module) : Prop :=
  old.enables m = true ∧ new.enables m = false

/-- A SETUP write leaves a module no more misses than it has. -/
def Setup.Loses (old new : Setup) (m : Module) (x : ModuleRecord) : Prop :=
  old.enables m = new.enables m ∧ x.state = .locked ∧ new.missLimit ≤ x.missCount

theorem reenableTurn_enabled {old new : Setup} {s : State} {m : Module} (hn : new.enables m = true)
    (ho : old.enables m = false) (x : ModuleRecord) : reenableTurn old new s m x =
      .quiet { x with state := .seeking, goodRun := 0, missCount := 0, checkFailures := 0, staleFrames := 0 } := by
  rw [reenableTurn, hn, ho]
  rfl

theorem reenableTurn_disabled {old new : Setup} {s : State} {m : Module} (h : old.Disables new m)
    (x : ModuleRecord) : reenableTurn old new s m x = .freed m { x with state := .disabled } := by
  rw [reenableTurn, h.1, h.2]
  rfl

theorem reenableTurn_member {old new : Setup} {s : State} {m : Module} (h : old.enables m = new.enables m)
    (x : ModuleRecord) : reenableTurn old new s m x =
      if x.state = .locked ∧ new.missLimit ≤ x.missCount then .lost s m x else .quiet x := by
  rw [reenableTurn, h]
  cases new.enables m <;> rfl

theorem reenableTurn_lost {old new : Setup} {s : State} {m : Module} {x : ModuleRecord} (h : old.Loses new m x) :
    reenableTurn old new s m x = .lost s m x := by
  rw [reenableTurn_member h.1, if_pos h.2]

theorem reenableTurn_silent {old new : Setup} {s : State} {m : Module} {x : ModuleRecord}
    (hd : ¬old.Disables new m) (hl : ¬old.Loses new m x) : (reenableTurn old new s m x).bodies = [] := by
  by_cases h : old.enables m = new.enables m
  · rw [reenableTurn_member h, if_neg fun hx => hl ⟨h, hx⟩]
    rfl
  · cases hn : new.enables m with
    | true =>
      rw [hn] at h
      rw [reenableTurn_enabled hn (Bool.eq_false_iff.mpr h)]
      rfl
    | false =>
      rw [hn] at h
      exact absurd ⟨eq_true_of_ne_false h, hn⟩ hd

theorem rejudge_eq (u : Setup) (n : Nat) (sh : Shedding) :
    (sh = .opened → rejudge u n sh = if u.highMark ≤ n then .shed else .opened) ∧
    (sh = .shed → rejudge u n sh = if n ≤ u.lowMark then .opened else .shed) := by
  constructor <;> rintro rfl <;> rfl

/-- An accepted SETUP write: the entry, and the turns of the modules in the order given, then the reply. -/
theorem State.writeSetup_tells {s : State} (hd : s.control.device = .stopped) (tag : Byte) (entry : List Byte)
    {order : List Module} (ho : EachOnce order) :
    (s.writeSetup tag 0 entry order).setup = parseSetup entry ∧
    (∀ m, (s.writeSetup tag 0 entry order).module m =
      (reenableTurn s.setup (parseSetup entry) s m (s.module m)).leaves) ∧
    (s.writeSetup tag 0 entry order).shedding = rejudge (parseSetup entry) s.captureQueue.length s.shedding ∧
    Tells (order.flatMap (fun m => (reenableTurn s.setup (parseSetup entry) s m (s.module m)).bodies) ++
        [.reply { kind := kindTableWrite, tag := tag, result := .done
                  tail := .tableWrite tableSetup 0 (some (.setup (parseSetup entry))) }])
      (fun j => (∃ m ∈ order, (reenableTurn s.setup (parseSetup entry) s m (s.module m)).classes j) ∨
        j = .replyReady) s (s.writeSetup tag 0 entry order) := by
  obtain ⟨hon, hin, -, htells⟩ := (moduleOp_reenableModule s.setup).foldl ho.nodup { s with setup := parseSetup entry }
  rw [s.writeSetup_stored _ _ _ hd, State.replyWrite]
  obtain ⟨a, -, hreply⟩ := (s.storeSetup (parseSetup entry) order).offerReply_eq kindTableWrite tag .done
    (.tableWrite tableSetup 0 (some (.setup (parseSetup entry))))
  have hsaid := Tells.reply (s.storeSetup (parseSetup entry) order) kindTableWrite tag .done
    (.tableWrite tableSetup 0 (some (.setup (parseSetup entry))))
  rw [hreply] at hsaid ⊢
  rw [State.storeSetup] at hsaid ⊢
  obtain ⟨b, a', v, -, he⟩ := hon
  rw [he] at hsaid htells hin ⊢
  have hstart : Tells [] (fun _ => False) s { s with setup := parseSetup entry } := .silent rfl rfl rfl rfl
  have hjudged : Tells [] (fun _ => False) _ _ := .silent (s := { s with
      setup := parseSetup entry, builder := b, attention := a', modules := v })
    (t := { s with
      setup := parseSetup entry, builder := b, attention := a', modules := v
      shedding := rejudge (parseSetup entry) s.captureQueue.length s.shedding }) rfl rfl rfl rfl
  refine ⟨rfl, fun m => hin m (ho.all m), rfl, ?_⟩
  have hall := ((hstart.trans htells).trans hjudged).trans hsaid
  rw [List.nil_append, List.append_nil] at hall
  exact hall.mono fun j => by rw [false_or, or_false]; exact Iff.rfl

/-- Settles O33: each module has the turn that its membership gives it, in the order of the command. -/
theorem setupActsOnModules : Obligations.SetupActsOnModules := by
  intro s tag entry order hd
  have ho := eachOnce_orderOf order
  obtain ⟨hsetup, hmodule, hshed, htells⟩ := s.writeSetup_tells hd tag entry ho
  have hexec := exec_tableWriteSetup_of_ne_init s tag 0 entry order (by rw [hd]; exact DeviceState.noConfusion)
  refine ⟨_, s.setup.Disables (parseSetup entry), fun m => s.setup.Loses (parseSetup entry) m (s.module m),
    fun m => (s.module m).unanswered m,
    fun m => (reenableTurn s.setup (parseSetup entry) s m (s.module m)).bodies, hexec, ?_⟩
  rw [hsetup]
  refine ⟨fun m => Iff.rfl, fun m => Iff.rfl, fun m => ⟨fun hk => ?_, fun k hk => ?_⟩,
    fun m => ⟨fun h => ?_, fun h => ?_, fun hn hl => ?_⟩, ?_, htells.raises (.inr rfl), fun m hn hb => ?_,
    fun m hn hb => ?_, fun m hb h => ?_, fun m hn hb hl hle => ?_, fun h => ?_, fun h => ?_⟩
  · exact ModuleRecord.unanswered_none hk m
  · exact ModuleRecord.unanswered_some hk m
  · exact congrArg ModuleTurn.bodies (reenableTurn_disabled h _)
  · exact congrArg ModuleTurn.bodies (reenableTurn_lost h)
  · exact reenableTurn_silent hn hl
  · rw [htells.builder, RecordBuilder.offers_append]
    rfl
  · rw [hmodule, reenableTurn_enabled hn hb]
    rfl
  · rw [hmodule, reenableTurn_disabled ⟨hb, hn⟩]
    rfl
  · rw [hmodule, reenableTurn_member hb.symm, if_neg fun ⟨hl, hle⟩ => h.elim (absurd hl) (Nat.not_lt.mpr hle)]
    rfl
  · have hlost : reenableTurn s.setup (parseSetup entry) s m (s.module m) = _ :=
      reenableTurn_lost ⟨hb.trans hn.symm, hl, hle⟩
    refine ⟨?_, htells.raises (.inl ⟨m, ho.all m, ?_⟩)⟩
    · rw [hmodule, hlost]
      rfl
    · rw [hlost]
      exact .inl rfl
  · rw [hshed]
    exact ((rejudge_eq _ _ _).1 h)
  · rw [hshed]
    exact ((rejudge_eq _ _ _).2 h)

end Sys2Proof.Machine
end

section
/-! PROOFS. A good sample frame: its module, the check and the reply that it answers, in either order (R7 to R9, R12,
R15, R18, R33 to R35: O14, O15). -/

namespace Sys2Proof.Machine

/-! ### The module and its reply (R12, R15, R18) -/

/-- What a good frame makes of its module: MODULE_LOCKED when it brings the module into LOCKED (R15). -/
def goodTurn (s : State) (m : Module) (f : SampleFrame) (x : ModuleRecord) : ModuleTurn :=
  if (x.state != .locked && (x.takeFrame f).state == .locked) = true then
    ⟨[.status (.moduleLocked m) s.epochNow s.control.epochUnset], fun j => j = .moduleState, x.takeFrame f⟩
  else .quiet (x.takeFrame f)

/-- The state after a good frame has been counted, before its check and its reply. -/
def State.counted (s : State) (m : Module) (f : SampleFrame) : State :=
  if ((s.module m).state != .locked && ((s.module m).takeFrame f).state == .locked) = true then
    (s.modModule m (fun r => r.takeFrame f)).reportLocked m
  else s.modModule m (fun r => r.takeFrame f)

theorem State.takeGoodFrame_eq (s : State) (m : Module) (f : SampleFrame) (leadFirst : Bool) :
    s.takeGoodFrame m f leadFirst = if leadFirst then
      ((s.counted m f).answerCheck m f ((s.module m).state == .locked)).takeReply m f
    else ((s.counted m f).takeReply m f).answerCheck m f ((s.module m).state == .locked) := by
  have hm : (s.modModule m (fun r => r.takeFrame f)).module m = (s.module m).takeFrame f :=
    (State.modModule_module s m m _).trans (if_pos rfl)
  unfold State.takeGoodFrame
  dsimp only
  rw [hm]
  rfl

theorem Turns.counted (m : Module) (s : State) (f : SampleFrame) :
    Turns m (goodTurn s m f (s.module m)) s (s.counted m f) := by
  have htaken := Turns.modModule m s (fun r => r.takeFrame f)
  unfold State.counted goodTurn
  split
  · refine (htaken.trans (.noted (Noted.statusRaise _ (.moduleLocked m) .moduleState)
      (Tells.offerRaise _ _ .moduleState))).mono rfl (fun j => Iff.of_eq (false_or _)) htaken.here.symm
  · exact htaken

/-- The reply record of a command that a frame answers (R18). -/
def doneReply (m : Module) (k : ModuleCommand) (word : BitVec 32) : RecordBody :=
  .reply { kind := 0x09, tag := k.tag, result := .done, tail := .moduleCommand (BitVec.ofNat 8 m.val) (some word) }

/-- What a good frame's reply makes of its module at tick `now` (R18). -/
def replyTurn (now : Tick) (m : Module) (f : SampleFrame) (x : ModuleRecord) : ModuleTurn :=
  if x.answeredBy f now then
    ⟨(x.command.map (fun k => doneReply m k f.reply)).toList, fun j => j = .replyReady, x.freed⟩
  else .quiet x

theorem ModuleRecord.answeredBy_some {x : ModuleRecord} {f : SampleFrame} {now : Tick} (h : x.answeredBy f now = true) :
    ∃ k, x.command = some k := by
  unfold ModuleRecord.answeredBy at h
  cases hk : x.command with
  | none =>
    rw [hk] at h
    cases h
  | some k => exact ⟨k, rfl⟩

theorem Turns.takeReply (m : Module) (s : State) (f : SampleFrame) :
    Turns m (replyTurn s.count m f (s.module m)) s (s.takeReply m f) := by
  unfold State.takeReply replyTurn
  split
  · next h =>
    obtain ⟨k, hk⟩ := ModuleRecord.answeredBy_some h
    rw [State.endCommand_of_some hk, hk]
    have hfreed := Turns.modModule m s (fun r => { r with command := none })
    refine (hfreed.trans (.noted (Noted.offerReply _ _ _ _ _) (Tells.offerRaise _ _ .replyReady))).mono rfl
      (fun j => Iff.of_eq (false_or _)) hfreed.here.symm
  · exact .refl m s

theorem ModuleRecord.answeredBy_iff {x : ModuleRecord} {k : ModuleCommand} {e : SentCommand} (hk : x.command = some k)
    (he : k.sent = some e) (f : SampleFrame) (now : Tick) : x.answeredBy f now = true ↔
      f.replyPresent = true ∧ f.echo = e.echo ∧ (now - e.tick).toNat ≤ 64 := by
  unfold ModuleRecord.answeredBy
  rw [hk]
  dsimp only
  rw [he]
  dsimp only
  rw [Bool.and_eq_true, Bool.and_eq_true, beq_iff_eq, decide_eq_true_iff, and_assoc, eq_comm (a := e.echo)]
  exact Iff.rfl

/-- Without a command that was sent, and with a frame that answers none, the reply ends nothing. -/
theorem ModuleRecord.not_answeredBy {x : ModuleRecord} {f : SampleFrame} {now : Tick}
    (h : f.replyPresent = false ∨ x.command = none ∨ (∃ k, x.command = some k ∧ k.sent = none) ∨
      ∃ k e, x.command = some k ∧ k.sent = some e ∧ (f.echo ≠ e.echo ∨ 64 < (now - e.tick).toNat)) :
    ¬x.answeredBy f now = true := by
  intro ha
  obtain ⟨k, hk⟩ := ModuleRecord.answeredBy_some ha
  cases he : k.sent with
  | none =>
    unfold ModuleRecord.answeredBy at ha
    rw [hk] at ha
    dsimp only at ha
    rw [he] at ha
    cases ha
  | some e =>
    obtain ⟨hp, hecho, htick⟩ := (ModuleRecord.answeredBy_iff hk he f now).mp ha
    rcases h with h | h | ⟨k', hk', h⟩ | ⟨k', e', hk', he', h⟩
    · exact Bool.false_ne_true (h.symm.trans hp)
    · rw [h] at hk
      cases hk
    · rw [hk'] at hk
      cases hk
      rw [h] at he
      cases he
    · rw [hk'] at hk
      cases hk
      rw [he'] at he
      cases he
      exact h.elim (absurd hecho) (Nat.not_lt.mpr htick)

/-! ### The check that a frame answers (R33 to R35) -/

/-- What the answer to a check leaves: the points, the channels, and the lead records it makes. -/
structure CheckAnswer where
  point : Point → PointRecord
  channel : Channel → ChannelRecord
  leads : List RecordBody

/-- `t` is `s` after the answer to a check. -/
structure Answers (y : CheckAnswer) (s t : State) : Prop where
  point : ∀ q, t.point q = y.point q
  channel : ∀ c, t.channel c = y.channel c
  tells : Tells y.leads (fun j => j = .leadState ∧ y.leads ≠ []) s t
  rest : t = { s with points := t.points, channels := t.channels, builder := t.builder, attention := t.attention }

/-- A void check ends and leaves the channels (R33). -/
def State.voidAnswer (s : State) (p : Point) : CheckAnswer :=
  ⟨fun q => if q = p then { s.point q with check := none } else s.point q, s.channel, []⟩

/-- The lead record of a verdict (R34, R35). -/
def leadRecords (s : State) (c : Channel) (after : LeadState) : List RecordBody :=
  ((leadRecord c (s.channel c).entry (s.channel c).lead after).map
    (fun kind => .status kind s.epochNow s.control.epochUnset)).toList

/-- The lead state that a check code gives a channel (R34). -/
def ChannelRecord.verdict (ch : ChannelRecord) (code : Code) : LeadState :=
  ch.lead.judged (ch.entry.suspects code)

/-- A verdict ends the check, sets the lead state and clears the due mark (R34). -/
def State.verdictAnswer (s : State) (p : Point) (c : Channel) (code : Code) : CheckAnswer where
  point q := if q = p then { s.point q with check := none } else s.point q
  channel d := if d = c then { s.channel d with lead := (s.channel c).verdict code, due := false } else s.channel d
  leads := leadRecords s c ((s.channel c).verdict code)

/-- The answer of a good frame to the check of its module, if the strobe carried one. -/
def State.checkAnswer (s : State) (m : Module) (f : SampleFrame) (locked : Bool) : CheckAnswer :=
  match s.checkedBy m with
  | none => ⟨s.point, s.channel, []⟩
  | some p =>
    match (s.point p).check with
    | none => ⟨s.point, s.channel, []⟩
    | some k =>
      if locked && f.markerValid && f.markerSlot == k.slot then s.verdictAnswer p k.channel (f.sampleAt k.slot)
      else s.voidAnswer p

theorem State.checkAnswer_same {s t : State} (h : OnModules s t) (m : Module) (f : SampleFrame) (locked : Bool) :
    t.checkAnswer m f locked = s.checkAnswer m f locked := by
  obtain ⟨b, a, v, -, rfl⟩ := h
  rfl

theorem State.checkAnswer_unasked {s : State} {m : Module} (h : s.checkedBy m = none) (f : SampleFrame) (locked : Bool) :
    s.checkAnswer m f locked = ⟨s.point, s.channel, []⟩ ∧ s.answerCheck m f locked = s := by
  unfold State.checkAnswer State.answerCheck
  rw [h]
  exact ⟨rfl, rfl⟩

theorem State.checkAnswer_asked {s : State} {m : Module} {p : Point} {k : CheckInFlight} (h : s.checkedBy m = some p)
    (hk : (s.point p).check = some k) (f : SampleFrame) (locked : Bool) :
    s.checkAnswer m f locked = (if locked && f.markerValid && f.markerSlot == k.slot then
      s.verdictAnswer p k.channel (f.sampleAt k.slot) else s.voidAnswer p) ∧
    s.answerCheck m f locked = if locked && f.markerValid && f.markerSlot == k.slot then
      s.judgeCheck p (f.sampleAt k.slot) else s.dropCheck p := by
  unfold State.checkAnswer State.answerCheck
  rw [h]
  dsimp only
  rw [hk]
  exact ⟨rfl, rfl⟩

/-- A point whose check was sent to a module has one. -/
theorem State.checkedBy_check {s : State} {m : Module} {p : Point} (h : s.checkedBy m = some p) :
    ∃ k, (s.point p).check = some k := by
  have hs := List.find?_some h
  unfold PointRecord.sentTo at hs
  cases hk : (s.point p).check with
  | none =>
    rw [hk] at hs
    cases hs
  | some k => exact ⟨k, rfl⟩

theorem Tells.unled {s t : State} (h : Tells [] (fun _ => False) s t) :
    Tells [] (fun j => j = .leadState ∧ ([] : List RecordBody) ≠ []) s t :=
  h.mono fun _ => ⟨False.elim, fun h => h.2 rfl⟩

theorem Answers.unasked (s : State) : Answers ⟨s.point, s.channel, []⟩ s s :=
  ⟨fun _ => rfl, fun _ => rfl, (Tells.refl s).unled, rfl⟩

theorem Answers.dropCheck (s : State) (p : Point) : Answers (s.voidAnswer p) s (s.dropCheck p) where
  point q := (State.modPoint_point s p q _).trans (ite_congr rfl (fun h => h ▸ rfl) (fun _ => rfl))
  channel _ := rfl
  tells := by
    refine Tells.unled ?_
    exact .silent rfl rfl rfl rfl
  rest := rfl

/-- A verdict without its record. -/
theorem Answers.verdict (s : State) (p : Point) (c : Channel) (code : Code) :
    Answers ⟨(s.verdictAnswer p c code).point, (s.verdictAnswer p c code).channel, []⟩ s
      ((s.modChannel c (fun ch => { ch with lead := (s.channel c).verdict code, due := false })).dropCheck p) where
  point := (Answers.dropCheck (s.modChannel c _) p).point
  channel d := (State.modChannel_channel s c d _).trans (ite_congr rfl (fun h => h ▸ rfl) (fun _ => rfl))
  tells := by
    refine Tells.unled ?_
    exact .silent rfl rfl rfl rfl
  rest := rfl

/-- An answer makes its record as well. -/
theorem Answers.offerRaise {y : CheckAnswer} {s t : State} (h : Answers ⟨y.point, y.channel, []⟩ s t)
    {kind : StatusKind} (hy : y.leads = [.status kind s.epochNow s.control.epochUnset]) :
    Answers y s ((t.offerStatus kind).raise .leadState) := by
  obtain ⟨hp, hc, ht, hr⟩ := h
  have hsay : RecordBody.status kind t.epochNow t.control.epochUnset = .status kind s.epochNow s.control.epochUnset := by
    rw [hr]
    rfl
  obtain ⟨b, a, -, he⟩ := Noted.statusRaise t kind .leadState
  have hsaid := ht.trans (Tells.offerRaise t (.status kind t.epochNow t.control.epochUnset) .leadState)
  refine ⟨fun q => ?_, fun c => ?_, ?_, ?_⟩
  · rw [he]
    exact hp q
  · rw [he]
    exact hc c
  · rw [hy, ← hsay]
    have hiff (j : AttnClass) : ((j = .leadState ∧ ([] : List RecordBody) ≠ []) ∨ j = .leadState) ↔
        (j = .leadState ∧ [RecordBody.status kind t.epochNow t.control.epochUnset] ≠ []) :=
      ⟨fun hj => ⟨hj.elim And.left id, List.cons_ne_nil _ _⟩, fun hj => .inr hj.1⟩
    exact hsaid.mono hiff
  · rw [he]
    rw [hr]

theorem Answers.judgeCheck {s : State} {p : Point} {k : CheckInFlight} (h : (s.point p).check = some k) (code : Code) :
    Answers (s.verdictAnswer p k.channel code) s (s.judgeCheck p code) := by
  have hset := Answers.verdict s p k.channel code
  unfold State.judgeCheck
  rw [h]
  dsimp only
  cases hr : leadRecord k.channel (s.channel k.channel).entry (s.channel k.channel).lead
    ((s.channel k.channel).lead.judged ((s.channel k.channel).entry.suspects code)) with
  | none =>
    have hleads : (s.verdictAnswer p k.channel code).leads = [] := by
      show leadRecords s k.channel _ = []
      rw [leadRecords, ChannelRecord.verdict, hr]
      rfl
    rw [← hleads] at hset
    exact hset
  | some kind =>
    refine hset.offerRaise ?_
    show leadRecords s k.channel _ = _
    rw [leadRecords, ChannelRecord.verdict, hr]
    rfl

theorem Answers.answerCheck (s : State) (m : Module) (f : SampleFrame) (locked : Bool) :
    Answers (s.checkAnswer m f locked) s (s.answerCheck m f locked) := by
  cases h : s.checkedBy m with
  | none =>
    obtain ⟨ha, hs⟩ := State.checkAnswer_unasked h f locked
    rw [ha, hs]
    exact .unasked s
  | some p =>
    obtain ⟨k, hk⟩ := State.checkedBy_check h
    obtain ⟨ha, hs⟩ := State.checkAnswer_asked h hk f locked
    rw [ha, hs]
    split
    · exact .judgeCheck hk _
    · exact .dropCheck s p

/-! ### The frame as a whole -/

/-- `t` is `s` with other modules, channels, points, records and classes. -/
def Beside (s t : State) : Prop :=
  ∃ v c p b a, t = { s with modules := v, channels := c, points := p, builder := b, attention := a }

theorem Beside.trans {s t u : State} (h : Beside s t) (k : Beside t u) : Beside s u := by
  obtain ⟨v, c, p, b, a, rfl⟩ := h
  obtain ⟨v', c', p', b', a', rfl⟩ := k
  exact ⟨v', c', p', b', a', rfl⟩

theorem OnModules.beside {s t : State} (h : OnModules s t) : Beside s t := by
  obtain ⟨b, a, v, -, rfl⟩ := h
  exact ⟨v, s.channels, s.points, b, a, rfl⟩

theorem Answers.beside {y : CheckAnswer} {s t : State} (h : Answers y s t) : Beside s t :=
  ⟨s.modules, t.channels, t.points, t.builder, t.attention, h.rest⟩

theorem Beside.whole {s t : State} (h : Beside s t) : t = { s with
    modules := t.modules, channels := t.channels, points := t.points, builder := t.builder
    attention := t.attention } := by
  obtain ⟨v, c, p, b, a, rfl⟩ := h
  rfl

theorem OnModules.lines {s t : State} (h : OnModules s t) : t.point = s.point ∧ t.channel = s.channel := by
  obtain ⟨b, a, v, -, rfl⟩ := h
  exact ⟨rfl, rfl⟩

/-- The records of a good frame: that of the module that locked, then those of the check and of the reply. -/
def goodRecords (leadFirst : Bool) (locks leads replies : List RecordBody) : List RecordBody :=
  locks ++ if leadFirst then leads ++ replies else replies ++ leads

/-- The check and the reply act beside each other, in either order. -/
theorem State.takeGoodFrame_spec (s : State) (m : Module) (f : SampleFrame) (leadFirst : Bool) {answer : CheckAnswer}
    {reply : ModuleTurn} {locks : ModuleTurn} {t : State} (ht : t = s.takeGoodFrame m f leadFirst)
    (ha : answer = s.checkAnswer m f ((s.module m).state == .locked)) (hl : locks = goodTurn s m f (s.module m))
    (hr : reply = replyTurn s.count m f ((s.module m).takeFrame f)) :
    t.module m = reply.leaves ∧ (∀ n, n ≠ m → t.module n = s.module n) ∧ (∀ q, t.point q = answer.point q) ∧
    (∀ c, t.channel c = answer.channel c) ∧
    Tells (goodRecords leadFirst locks.bodies answer.leads reply.bodies) (fun j => locks.classes j ∨
      (j = .leadState ∧ answer.leads ≠ []) ∨ reply.classes j) s t ∧ Beside s t := by
  subst ha hl hr
  have hc := Turns.counted m s f
  rw [s.takeGoodFrame_eq] at ht
  have hhere : (s.counted m f).module m = (s.module m).takeFrame f := by
    rw [hc.here]
    unfold goodTurn
    split <;> rfl
  have hcount := hc.onModules.kept.2.2
  cases leadFirst with
  | true =>
    have hk := Answers.answerCheck (s.counted m f) m f ((s.module m).state == .locked)
    rw [State.checkAnswer_same hc.onModules] at hk
    have hr := Turns.takeReply m ((s.counted m f).answerCheck m f ((s.module m).state == .locked)) f
    generalize (s.counted m f).answerCheck m f ((s.module m).state == .locked) = u at hk hr ht
    have hu (n : Module) : u.module n = (s.counted m f).module n := by
      rw [hk.rest]
      rfl
    have hn : u.count = s.count := by
      rw [hk.rest]
      exact hcount
    rw [hu, hn, hhere] at hr
    obtain rfl : t = u.takeReply m f := ht
    refine ⟨hr.here, fun n h => ?_, fun q => ?_, fun c => ?_, ?_, ?_⟩
    · rw [hr.others n h, hu, hc.others n h]
    · rw [hr.onModules.lines.1]
      exact hk.point q
    · rw [hr.onModules.lines.2]
      exact hk.channel c
    · exact (hc.tells.trans (hk.tells.trans hr.tells))
    · exact (hc.onModules.beside.trans hk.beside).trans hr.onModules.beside
  | false =>
    have hr := Turns.takeReply m (s.counted m f) f
    rw [hcount, hhere] at hr
    have hk := Answers.answerCheck ((s.counted m f).takeReply m f) m f ((s.module m).state == .locked)
    rw [State.checkAnswer_same (hc.onModules.trans hr.onModules)] at hk
    obtain rfl : t = _ := ht
    have hu (n : Module) := congrArg (fun u : State => u.module n) hk.rest
    refine ⟨(hu m).trans hr.here, fun n h => ((hu n).trans (hr.others n h)).trans (hc.others n h), hk.point, hk.channel,
      (hc.tells.trans (hr.tells.trans hk.tells)).mono fun j => or_congr_right or_comm, ?_⟩
    exact (hc.onModules.beside.trans hr.onModules.beside).trans hk.beside

/-! ### The good frame of an enabled module -/

/-- A frame of 30 bytes passes the tests of R5. -/
structure GoodFrame (s : State) (bytes : List Byte) (m : Module) : Prop where
  length : bytes.length = 30
  named : (byteAt bytes 0).toNat = m.val
  enabled : s.setup.enables m = true
  intact : intact bytes = true
  tag : byteAt bytes 1 = s.count.setWidth 8
  first : (s.module m).taken = false

theorem exec_sampleFrame_good {s : State} {bytes : List Byte} {m : Module} (h : GoodFrame s bytes m)
    (leadFirst : Bool) :
    exec (.sampleFrame bytes leadFirst) s = .next (s.takeGoodFrame m (parseSampleFrame bytes) leadFirst) := by
  have hn := s.frameModule_named h.length h.named
  rw [if_pos h.enabled] at hn
  rw [exec_sampleFrame, State.judgeSampleFrame_some hn h.length, if_neg (by rw [h.intact]; exact Bool.true_eq_false.mp),
    if_neg (not_not_intro h.tag), h.first]
  rfl

/-! ### The state record of its module (R12) -/

theorem ModuleRecord.takeFrame_locked {x : ModuleRecord} (h : x.state = .locked) (f : SampleFrame) :
    (x.takeFrame f).state = .locked ∧ (x.takeFrame f).goodRun = min 255 (x.goodRun + 1) ∧
    (x.takeFrame f).missCount = 0 := by
  unfold ModuleRecord.takeFrame ModuleRecord.countGood
  rw [h]
  exact ⟨rfl, satSucc_eq_min 255 _, rfl⟩

theorem satSucc_below {top n : Nat} (h : n < top) : satSucc top n = n + 1 :=
  if_pos h

theorem ModuleRecord.takeFrame_runs {x : ModuleRecord} (h : x.state = .seeking ∨ x.state = .lost)
    (hr : x.goodRun + 1 < 4) (f : SampleFrame) :
    (x.takeFrame f).state = x.state ∧ (x.takeFrame f).goodRun = x.goodRun + 1 ∧
    (x.takeFrame f).missCount = x.missCount := by
  have hlock : ¬Config.lockRun ≤ x.goodRun + 1 := Nat.not_le.mpr hr
  have hsucc : satSucc 255 x.goodRun = x.goodRun + 1 := satSucc_below (by omega)
  unfold ModuleRecord.takeFrame ModuleRecord.countGood
  rcases h with h | h <;> rw [h] <;> dsimp only <;> rw [if_neg hlock] <;> exact ⟨rfl, hsucc, rfl⟩

theorem ModuleRecord.takeFrame_locks {x : ModuleRecord} (h : x.state = .seeking ∨ x.state = .lost)
    (hr : x.goodRun + 1 = 4) (f : SampleFrame) :
    (x.takeFrame f).state = .locked ∧ (x.takeFrame f).goodRun = 4 ∧ (x.takeFrame f).missCount = 0 := by
  have hlock : Config.lockRun ≤ x.goodRun + 1 := Nat.le_of_eq hr.symm
  have hsucc : satSucc 255 x.goodRun = 4 := by
    rw [satSucc_below (by omega), hr]
  unfold ModuleRecord.takeFrame ModuleRecord.countGood
  rcases h with h | h <;> rw [h] <;> dsimp only <;> rw [if_pos hlock] <;> exact ⟨rfl, hsucc, rfl⟩

/-- What counting a frame leaves of a module's record. -/
theorem ModuleRecord.takeFrame_rest (x : ModuleRecord) (f : SampleFrame) :
    (x.takeFrame f).taken = true ∧ (x.takeFrame f).command = x.command ∧ (x.takeFrame f).echo = x.echo ∧
    (x.takeFrame f).checkFailures = x.checkFailures ∧ (x.takeFrame f).staleFrames = x.staleFrames := by
  unfold ModuleRecord.takeFrame ModuleRecord.countGood
  cases x.state
  case disabled | locked => exact ⟨rfl, rfl, rfl, rfl, rfl⟩
  all_goals
    dsimp only
    split <;> exact ⟨rfl, rfl, rfl, rfl, rfl⟩

/-- The slots that a frame fixes (R8, R9). -/
theorem ModuleRecord.takeFrame_slot (x : ModuleRecord) (f : SampleFrame) (k : Slot) :
    (f.marks k = false →
      (x.takeFrame f).slots[k.val] = { code := f.samples[k.val], held := false, clipped := f.overrange.getLsbD k.val
                                       unavailable := x.state != .locked } ∧
      (x.takeFrame f).last[k.val] = f.samples[k.val]) ∧
    (f.marks k = true →
      (x.takeFrame f).slots[k.val] = (if x.state = .locked then
          { code := x.last[k.val], held := true, clipped := x.clippedBefore[k.val], unavailable := false }
        else { code := 0, held := false, clipped := false, unavailable := true }) ∧
      (x.takeFrame f).last[k.val] = x.last[k.val]) := by
  have hslot : (x.takeFrame f).slots[k.val] = frameSlot x f (x.state == .locked) k := Vector.getElem_ofFn _
  have hlast : (x.takeFrame f).last[k.val] = if f.marks k then x.last[k.val] else f.samples[k.val] := mapAll_get _ _ k
  rw [hslot, hlast, frameSlot]
  refine ⟨fun h => ?_, fun h => ?_⟩ <;> rw [h]
  · exact ⟨rfl, rfl⟩
  · refine ⟨?_, rfl⟩
    simp only [beq_iff_eq, if_true]
    rfl

/-- A module that the frame does not lock makes no record of it (R15). -/
theorem goodTurn_locked {s : State} {m : Module} {x : ModuleRecord} (h : x.state = .locked) (f : SampleFrame) :
    goodTurn s m f x = .quiet (x.takeFrame f) := by
  rw [goodTurn, h]
  rfl

theorem goodTurn_locks {s : State} {m : Module} {x : ModuleRecord} (h : x.state = .seeking ∨ x.state = .lost)
    {f : SampleFrame} (hl : (x.takeFrame f).state = .locked) : goodTurn s m f x =
      ⟨[.status (.moduleLocked m) s.epochNow s.control.epochUnset], fun j => j = .moduleState, x.takeFrame f⟩ := by
  rw [goodTurn, hl]
  rcases h with h | h <;> rw [h] <;> rfl

theorem replyTurn_leaves (now : Tick) (m : Module) (f : SampleFrame) (x : ModuleRecord) :
    ∃ k, (replyTurn now m f x).leaves = { x with command := k } := by
  unfold replyTurn
  split
  · exact ⟨none, rfl⟩
  · exact ⟨x.command, rfl⟩

/-- Settles O14: the frame counts in its module, and a reply it carries may free the module's command. -/
theorem goodFrameTaken : Obligations.GoodFrameTaken := by
  intro s bytes leadFirst m hl hm he hi ht hf
  have hexec := exec_sampleFrame_good ⟨hl, hm, he, hi, ht, hf⟩ leadFirst
  generalize parseSampleFrame bytes = f at *
  obtain ⟨hmodule, hothers, -, -, htells, hrest⟩ := s.takeGoodFrame_spec m f leadFirst rfl rfl rfl rfl
  obtain ⟨k, hy⟩ := replyTurn_leaves s.count m f ((s.module m).takeFrame f)
  rw [hy] at hmodule
  obtain ⟨htaken, -, hecho, hcheck, hstale⟩ := (s.module m).takeFrame_rest f
  refine ⟨_, _, hexec, htells.builder, ?_⟩
  rw [hmodule]
  refine ⟨htaken, fun h => ModuleRecord.takeFrame_locked h f, fun h hr => ModuleRecord.takeFrame_runs h hr f,
    fun h hr => ?_, fun k hk => ((s.module m).takeFrame_slot f k).1 hk,
    fun k hk => ((s.module m).takeFrame_slot f k).2 hk, hecho, hcheck, hstale, hothers, hrest.whole⟩
  obtain ⟨hstate, hrun, hmiss⟩ := ModuleRecord.takeFrame_locks h hr f
  have hlock := goodTurn_locks (s := s) (m := m) h hstate
  refine ⟨hstate, hrun, hmiss, ?_, htells.raises (.inl ?_)⟩
  · rw [hlock]
    rfl
  · rw [hlock]

theorem leadRecord_cases {c : Channel} {e : MapEntry} {before after : LeadState} {kind : StatusKind}
    (h : leadRecord c e before after = some kind) :
    kind = .leadOpen c e.point e.phase ∨ kind = .leadRestored c e.point e.phase := by
  unfold leadRecord at h
  split at h
  · exact .inl (Option.some.inj h).symm
  · split at h
    · exact .inr (Option.some.inj h).symm
    · cases h

/-- The records of an answer are those of a verdict, if there are any. -/
theorem State.checkAnswer_leads (s : State) (m : Module) (f : SampleFrame) (locked : Bool) :
    (s.checkAnswer m f locked).leads = [] ∨ ∃ c after, (s.checkAnswer m f locked).leads = leadRecords s c after := by
  cases h : s.checkedBy m with
  | none =>
    rw [(State.checkAnswer_unasked h f locked).1]
    exact .inl rfl
  | some p =>
    obtain ⟨k, hk⟩ := State.checkedBy_check h
    rw [(State.checkAnswer_asked h hk f locked).1]
    split
    · exact .inr ⟨_, _, rfl⟩
    · exact .inl rfl

/-- A verdict makes at most the record of a lead that opens or is restored. -/
theorem leadRecords_form (s : State) (c : Channel) (after : LeadState) : (leadRecords s c after).length ≤ 1 ∧
    ∀ b ∈ leadRecords s c after, ∃ c p ph, b = .status (.leadOpen c p ph) s.epochNow s.control.epochUnset ∨
      b = .status (.leadRestored c p ph) s.epochNow s.control.epochUnset := by
  refine ⟨Option.length_toList_le, fun b hb => ?_⟩
  obtain ⟨kind, hk, rfl⟩ := Option.map_eq_some_iff.mp (Option.mem_toList.mp hb)
  rcases leadRecord_cases hk with rfl | rfl
  · exact ⟨_, _, _, .inl rfl⟩
  · exact ⟨_, _, _, .inr rfl⟩

/-- Where nothing is said and nothing raised, the attention is kept. -/
theorem Tells.attention_kept {f : AttnClass → Prop} {s t : State} (h : Tells [] f s t) (hf : ∀ j, ¬f j) :
    t.attention = s.attention := by
  obtain ⟨raised, ha, hr⟩ := h.raised
  have hnil : raised = [] := List.eq_nil_iff_forall_not_mem.mpr fun j hj => by
    rcases (hr j).mp hj with hj | hj
    · exact hf j hj
    · rw [h.builder] at hj
      exact not_reached hj
  rw [ha, hnil]
  rfl

theorem replyTurn_answered {now : Tick} {m : Module} {f : SampleFrame} {x : ModuleRecord} {k : ModuleCommand}
    (hk : x.command = some k) (h : x.answeredBy f now = true) :
    replyTurn now m f x = ⟨[doneReply m k f.reply], fun j => j = .replyReady, x.freed⟩ := by
  rw [replyTurn, if_pos h, hk]
  rfl

theorem replyTurn_unanswered {now : Tick} {m : Module} {f : SampleFrame} {x : ModuleRecord}
    (h : ¬x.answeredBy f now = true) : replyTurn now m f x = .quiet x :=
  if_neg h

/-- Settles O15: the reply of a LOCKED module's frame, beside the check that the same frame may answer. -/
theorem replyEndsCommand : Obligations.ReplyEndsCommand := by
  intro s bytes leadFirst m hl hm he hi ht hf hs
  have hexec := exec_sampleFrame_good ⟨hl, hm, he, hi, ht, hf⟩ leadFirst
  generalize parseSampleFrame bytes = f at *
  obtain ⟨hmodule, -, -, -, htells, -⟩ := s.takeGoodFrame_spec m f leadFirst rfl rfl rfl rfl
  rw [goodTurn_locked hs] at htells
  have hform := s.checkAnswer_leads m f ((s.module m).state == .locked)
  have hunasked (hc : s.checkedBy m = none) :
      (s.checkAnswer m f ((s.module m).state == .locked)).leads = [] := by
    rw [(State.checkAnswer_unasked hc f _).1]
  obtain ⟨-, hcommand, -⟩ := (s.module m).takeFrame_rest f
  generalize s.checkAnswer m f ((s.module m).state == .locked) = answer at hform hunasked htells
  generalize hturn : replyTurn s.count m f ((s.module m).takeFrame f) = reply at hmodule htells
  refine ⟨_, answer.leads, reply.bodies, hexec, htells.builder, ?_, hunasked, ?_, fun k e hk hke hp hecho htick => ?_, fun h => ?_⟩
  · rcases hform with h | ⟨c, after, h⟩ <;> rw [h]
    · exact Nat.zero_le _
    · exact (leadRecords_form s c after).1
  · rcases hform with h | ⟨c, after, h⟩ <;> rw [h]
    · exact fun b hb => absurd hb List.not_mem_nil
    · exact (leadRecords_form s c after).2
  · rw [← hcommand] at hk
    obtain rfl := hturn.symm.trans (replyTurn_answered (m := m) hk ((ModuleRecord.answeredBy_iff hk hke f _).mpr ⟨hp, hecho, htick⟩))
    exact ⟨congrArg ModuleRecord.command hmodule, rfl, htells.raises (.inr (.inr rfl))⟩
  · rw [← hcommand] at h
    obtain rfl := hturn.symm.trans (replyTurn_unanswered (m := m) (ModuleRecord.not_answeredBy (now := s.count) h))
    refine ⟨(congrArg ModuleRecord.command hmodule).trans hcommand, rfl, htells.leaves ?_ AttnClass.noConfusion, fun hc => ?_⟩
    · rintro (hj | ⟨hj, -⟩ | hj)
      · exact hj
      · cases hj
      · exact hj
    · have hnil := hunasked hc
      have hsaid : goodRecords leadFirst (ModuleTurn.quiet ((s.module m).takeFrame f)).bodies answer.leads
          (ModuleTurn.quiet ((s.module m).takeFrame f)).bodies = [] := by
        rw [hnil]
        cases leadFirst <;> rfl
      rw [hsaid] at htells
      refine htells.attention_kept fun j => ?_
      rintro (hj | ⟨-, hj⟩ | hj)
      · exact hj
      · exact hj hnil
      · exact hj

end Sys2Proof.Machine
end

section
/-! PROOFS. The Lead Check Unit: the two due markings, and the check that a positive crossing schedules (R3, R30, R31:
O11). -/

namespace Sys2Proof.Machine

/-! ### The first of a list in order -/

/-- In a list in order the first that fits is the one below which none fits. -/
theorem find?_least {n : Nat} {l : List (Fin n)} (hl : l.Pairwise (· < ·)) {q : Fin n → Bool} {c : Fin n} (hc : c ∈ l)
    (hq : q c = true) (hlow : ∀ d, d < c → q d = false) : l.find? q = some c := by
  induction l with
  | nil => cases hc
  | cons a l ih =>
    obtain ⟨ha, hl⟩ := List.pairwise_cons.mp hl
    rcases List.mem_cons.mp hc with rfl | hc
    · rw [List.find?_cons, hq]
    · rw [List.find?_cons, hlow a (ha c hc)]
      exact ih hl hc

theorem allChannels_ordered : allChannels.Pairwise (· < ·) := by decide

theorem State.channelsOf_ordered (s : State) (p : Point) : (s.channelsOf p).Pairwise (· < ·) :=
  allChannels_ordered.filter _

/-! ### The two markings (R30) -/

theorem State.markDue_spec (s : State) (period second : Bool) :
    (∀ c, (s.markDue period second).channel c = { s.channel c with
      due := (s.channel c).due || (s.measuring && s.checkedMeasured (s.channel c).entry &&
        (period || (second && (s.channel c).lead.rechecked))) }) ∧
    s.markDue period second = { s with channels := (s.markDue period second).channels } := by
  unfold State.markDue
  cases s.measuring with
  | false =>
    rw [if_neg Bool.false_ne_true]
    refine ⟨fun c => ?_, rfl⟩
    rw [Bool.false_and, Bool.false_and, Bool.or_false]
  | true =>
    rw [if_pos rfl]
    refine ⟨fun c => ?_, rfl⟩
    rw [State.mapChannels_channel, Bool.true_and]
    cases (s.checkedMeasured (s.channel c).entry && (period || (second && (s.channel c).lead.rechecked))) with
    | false =>
      rw [Bool.or_false]
      rfl
    | true =>
      rw [Bool.or_true]
      rfl

theorem LeadState.rechecked_eq (l : LeadState) : l.rechecked = (l == .suspect || l == .opened) := by
  cases l <;> rfl

/-- A marking that waits is taken. -/
theorem State.takePeriodDue_waits {s : State} (h : s.dueNow.period = true) :
    (∀ c, s.takePeriodDue.channel c = { s.channel c with
      due := (s.channel c).due || (s.measuring && s.checkedMeasured (s.channel c).entry) }) ∧
    s.takePeriodDue = { s with
      channels := s.takePeriodDue.channels, dueNow := { s.dueNow with period := false } } := by
  obtain ⟨hchannel, hrest⟩ := s.markDue_spec true false
  have ht : s.takePeriodDue = { s.markDue true false with dueNow := { s.dueNow with period := false } } := if_pos h
  rw [ht]
  refine ⟨fun c => (hchannel c).trans ?_, by rw [hrest]⟩
  rw [Bool.true_or, Bool.and_true]

theorem State.takeSecondDue_waits {s : State} (h : s.dueNow.second = true) :
    (∀ c, s.takeSecondDue.channel c = { s.channel c with
      due := (s.channel c).due || (s.measuring && s.checkedMeasured (s.channel c).entry &&
        ((s.channel c).lead == .suspect || (s.channel c).lead == .opened)) }) ∧
    s.takeSecondDue = { s with
      channels := s.takeSecondDue.channels, dueNow := { s.dueNow with second := false } } := by
  obtain ⟨hchannel, hrest⟩ := s.markDue_spec false true
  have ht : s.takeSecondDue = { s.markDue false true with dueNow := { s.dueNow with second := false } } := if_pos h
  rw [ht]
  refine ⟨fun c => (hchannel c).trans ?_, by rw [hrest]⟩
  rw [Bool.false_or, Bool.true_and, LeadState.rechecked_eq]

theorem State.takePeriodDue_taken {s : State} (h : s.dueNow.period = false) : s.takePeriodDue = s :=
  if_neg (by rw [h]; exact Bool.false_ne_true)

theorem State.takeSecondDue_taken {s : State} (h : s.dueNow.second = false) : s.takeSecondDue = s :=
  if_neg (by rw [h]; exact Bool.false_ne_true)

/-! ### The check of a positive crossing (R31) -/

/-- A channel of the point that a check could take: it is due, and its module is LOCKED. -/
def State.CheckDue (s : State) (p : Point) (c : Channel) : Prop :=
  (s.channel c).entry.enabled = true ∧ (s.channel c).entry.point = p.val ∧ (s.channel c).due = true ∧
    ∃ m : Module, (s.channel c).entry.module = m.val ∧ (s.module m).state = .locked

theorem State.moduleLocked_iff (s : State) (n : Nat) :
    s.moduleLocked n = true ↔ ∃ m : Module, n = m.val ∧ (s.module m).state = .locked := by
  unfold State.moduleLocked
  cases h : moduleOfNat n with
  | none =>
    refine ⟨fun hf => absurd hf Bool.false_ne_true, fun ⟨m, hm, _⟩ => ?_⟩
    rw [(moduleOfNat_eq_some_iff n m).mpr hm] at h
    cases h
  | some m =>
    have hn := (moduleOfNat_eq_some_iff n m).mp h
    refine beq_iff_eq.trans ⟨fun hm => ⟨m, hn, hm⟩, fun ⟨m', hm', hl⟩ => ?_⟩
    rwa [Fin.ext (hn.symm.trans hm')]

theorem State.checkDue_iff (s : State) (p : Point) (c : Channel) : s.CheckDue p c ↔
    c ∈ s.channelsOf p ∧ ((s.channel c).due && s.moduleLocked (s.channel c).entry.module) = true := by
  rw [s.mem_channelsOf, Bool.and_eq_true, s.moduleLocked_iff]
  exact and_assoc.symm

theorem State.dueChannel_some {s : State} {p : Point} {c : Channel} (h : s.dueChannel p = some c) : s.CheckDue p c := by
  unfold State.dueChannel at h
  have hfits := List.find?_some h
  exact (s.checkDue_iff p c).mpr ⟨List.mem_of_find?_eq_some h, hfits⟩

theorem State.dueChannel_none {s : State} {p : Point} (h : ∀ c, ¬s.CheckDue p c) : s.dueChannel p = none :=
  List.find?_eq_none.mpr fun c hc hq => h c ((s.checkDue_iff p c).mpr ⟨hc, hq⟩)

theorem State.channelsOf_find? {s : State} {p : Point} {c : Channel} {q : Channel → Bool} (hc : c ∈ s.channelsOf p)
    (hq : q c = true) (hlow : ∀ d, d < c → ¬(d ∈ s.channelsOf p ∧ q d = true)) :
    (s.channelsOf p).find? q = some c := by
  have hfit (d : Channel) : (s.channelIn p d && q d) = true ↔ d ∈ s.channelsOf p ∧ q d = true := by
    rw [Bool.and_eq_true, State.channelsOf, List.mem_filter]
    exact and_congr_left fun _ => (and_iff_right (List.mem_finRange d)).symm
  rw [State.channelsOf, List.find?_filter]
  refine (congrArg (List.find? · allChannels) (funext fun d => ?_)).trans
    (find?_least allChannels_ordered (List.mem_finRange c) ((hfit c).mpr ⟨hc, hq⟩)
      fun d hd => Bool.eq_false_iff.mpr fun h => hlow d hd ((hfit d).mp h))
  rw [Bool.decide_and, Bool.decide_eq_true, Bool.decide_eq_true]

theorem State.dueChannel_least {s : State} {p : Point} {c : Channel} (hc : s.CheckDue p c)
    (hlow : ∀ d, d < c → ¬s.CheckDue p d) : s.dueChannel p = some c := by
  obtain ⟨hmem, hq⟩ := (s.checkDue_iff p c).mp hc
  exact State.channelsOf_find? hmem hq fun d hd h => hlow d hd ((s.checkDue_iff p d).mpr h)

/-- A check is scheduled for a point of a device that measures, without one, whose low tracker is QUIET. -/
theorem State.scheduleCheck_open {s : State} {p : Point} (hm : s.measuring = true) (hk : (s.point p).check = none)
    (hq : (s.point p).low = .quiet) (k : Tick) : s.scheduleCheck p k = match s.dueChannel p with
      | none => s
      | some c => s.modPoint p (fun pt => { pt with check := some (checkRequest (s.channel c).entry c k) }) := by
  rw [State.scheduleCheck, hm, hk, hq]
  cases s.dueChannel p <;> rfl

theorem State.scheduleCheck_closed {s : State} {p : Point}
    (h : s.measuring = false ∨ (s.point p).check ≠ none ∨ (s.point p).low ≠ .quiet) (k : Tick) :
    s.scheduleCheck p k = s := by
  refine if_neg fun hb => ?_
  rw [Bool.and_eq_true, Bool.and_eq_true, LowTracker.isQuiet_iff, Option.isNone_iff_eq_none] at hb
  obtain ⟨⟨hm, hk⟩, hq⟩ := hb
  rcases h with h | h | h
  · exact Bool.false_ne_true (h.symm.trans hm)
  · exact h hk
  · exact h hq

/-- A check that stands after a crossing was there before it, or is the request of a due channel. -/
theorem State.scheduleCheck_check {s : State} {p : Point} {k : Tick} {x : CheckInFlight}
    (h : ((s.scheduleCheck p k).point p).check = some x) : (s.point p).check = some x ∨
      ((s.point p).low = .quiet ∧ ∃ c, s.CheckDue p c ∧ x = checkRequest (s.channel c).entry c k) := by
  by_cases hopen : s.measuring = true ∧ (s.point p).check = none ∧ (s.point p).low = .quiet
  · obtain ⟨hm, hk, hq⟩ := hopen
    rw [State.scheduleCheck_open hm hk hq] at h
    cases hc : s.dueChannel p with
    | none =>
      rw [hc] at h
      exact .inl h
    | some c =>
      rw [hc] at h
      dsimp only at h
      rw [State.modPoint_here] at h
      exact .inr ⟨hq, c, State.dueChannel_some hc, (Option.some.inj h).symm⟩
  · rw [State.scheduleCheck_closed] at h
    · exact .inl h
    · rwa [Classical.not_and_iff_not_or_not, Classical.not_and_iff_not_or_not, Bool.not_eq_true] at hopen

/-! ### The check of a closing (R31, R32) -/

/-- What joins a ring is nothing to the Lead Check Unit. -/
theorem ringed_lines {x y : ChannelRecord} {l} (h : y = { x with ring := l }) :
    y.entry = x.entry ∧ y.due = x.due ∧ y.lead = x.lead := by
  subst h
  exact ⟨rfl, rfl, rfl⟩

/-- What the trackers leave of a channel for the Lead Check Unit. -/
theorem State.tracked_channel (s : State) (p : Point) (t : Tick) (k : Closing) (c : Channel) :
    ((s.tracked p t k).channel c).entry = (s.channel c).entry ∧ ((s.tracked p t k).channel c).due = (s.channel c).due ∧
    ((s.tracked p t k).channel c).lead = (s.channel c).lead := by
  have hr : ((s.rotate p k.free).channel c).entry = (s.channel c).entry ∧
      ((s.rotate p k.free).channel c).due = (s.channel c).due ∧
      ((s.rotate p k.free).channel c).lead = (s.channel c).lead := by
    by_cases h : (s.channel c).entry.enabled = true ∧ (s.channel c).entry.point = p.val
    · rw [State.rotate_channel_of h]
      exact ⟨rfl, rfl, rfl⟩
    · rw [State.rotate_channel_beside h]
      exact ⟨rfl, rfl, rfl⟩
  unfold State.tracked State.takeIfResult
  split
  · exact hr
  · next r _ =>
    obtain ⟨he, hd, hl⟩ := ringed_lines ((s.rotate p k.free).takeResult_channel p r c)
    rw [he, hd, hl]
    exact hr

/-- A result withdraws a check or leaves it; it makes none. -/
theorem State.tracked_checks {s : State} {p : Point} {t : Tick} {k : Closing} {x : CheckInFlight}
    (h : ((s.tracked p t k).point p).check = some x) : (s.point p).check = some x := by
  have hr : ((s.rotate p k.free).point p).check = (s.point p).check := by
    rw [State.rotate_point]
  unfold State.tracked State.takeIfResult at h
  split at h
  · rwa [hr] at h
  · next r _ =>
    obtain ⟨hleft, hstays⟩ := (s.rotate p k.free).takeResult_check_spec p r
    rw [hr] at hleft hstays
    by_cases hs : ((s.rotate p k.free).point p).low ≠ .quiet ∨
        (((s.rotate p k.free).takeResult p r).point p).low = .quiet ∨ (s.point p).check = none
    · rwa [hstays hs] at h
    · rw [not_or, not_or, Classical.not_not] at hs
      obtain ⟨hq, hl, hn⟩ := hs
      obtain ⟨y, hy⟩ := Option.ne_none_iff_exists'.mp hn
      obtain ⟨hwith, hsent⟩ := hleft hq hl y hy
      cases hys : y.sent with
      | false =>
        rw [hwith hys] at h
        cases h
      | true =>
        rw [hsent hys] at h
        exact hy.trans h

/-- A check after a closing was there before it, or a positive crossing has scheduled it. -/
theorem State.closeHalf_checks {s : State} {p : Point} {t : Tick} {k : Closing} {x : CheckInFlight}
    (h : ((s.closeHalf p t k).point p).check = some x) : (s.point p).check = some x ∨
      (k.crossing = some .positive ∧ ((s.closeHalf p t k).point p).low = .quiet ∧
        ∃ c, (s.channel c).due = true ∧ (s.channel c).entry.point = p.val ∧ x = checkRequest (s.channel c).entry c t) := by
  have hspan := Spanned.takeHalf p (s.tracked p t k) (s.halfOf p t k)
  have hcheck : (((s.tracked p t k).takeHalf p (s.halfOf p t k)).point p).check = ((s.tracked p t k).point p).check := by
    rw [hspan.here]
    rfl
  rw [s.closeHalf_eq] at h ⊢
  by_cases hc : k.crossing = some .positive
  · rw [if_pos hc] at h ⊢
    rcases State.scheduleCheck_check h with h | ⟨hq, c, ⟨-, hp, hd, -⟩, hx⟩
    · exact .inl (State.tracked_checks (hcheck ▸ h))
    · have hchan : ((s.tracked p t k).takeHalf p (s.halfOf p t k)).channel c = (s.tracked p t k).channel c :=
        congrArg (fun v : Vector ChannelRecord 24 => v[c.val]) hspan.across.kept.2.2.2
      obtain ⟨hentry, hdue, -⟩ := s.tracked_channel p t k c
      rw [hchan] at hp hd hx
      rw [hentry] at hp hx
      rw [hdue] at hd
      rw [State.scheduleCheck_here]
      exact .inr ⟨hc, hq, c, hd, hp, hx⟩
  · rw [if_neg hc] at h
    exact .inl (State.tracked_checks (hcheck ▸ h))

/-- Settles O11: the rows of the markings, and the check that a positive crossing schedules. -/
theorem dueMarksTaken : Obligations.DueMarksTaken := by
  refine ⟨fun s => ⟨fun h => ?period, fun h => ?periodTaken, fun h => ?second, fun h => ?secondTaken⟩,
    fun s p k eligible he => ?schedule, fun s p t k x h => ?closing⟩
  case period => exact ⟨_, rfl, State.takePeriodDue_waits h⟩
  case periodTaken => exact congrArg Host.Outcome.next (State.takePeriodDue_taken h)
  case second => exact ⟨_, rfl, State.takeSecondDue_waits h⟩
  case secondTaken => exact congrArg Host.Outcome.next (State.takeSecondDue_taken h)
  case schedule =>
    obtain rfl : eligible = s.CheckDue p := funext fun c => propext (he c)
    refine ⟨fun c hm hk hq hc hlow => ?_, fun h => ?_⟩
    · rw [State.scheduleCheck_open hm hk hq, State.dueChannel_least hc hlow]
      rfl
    · rw [← or_assoc, ← or_assoc] at h
      rcases h with h | h
      · exact State.scheduleCheck_closed (or_assoc.mp h) k
      · by_cases hopen : s.measuring = true ∧ (s.point p).check = none ∧ (s.point p).low = .quiet
        · rw [State.scheduleCheck_open hopen.1 hopen.2.1 hopen.2.2, State.dueChannel_none h]
        · refine State.scheduleCheck_closed ?_ k
          rwa [Classical.not_and_iff_not_or_not, Classical.not_and_iff_not_or_not, Bool.not_eq_true] at hopen
  case closing =>
    refine (State.closeHalf_checks h).imp_right fun ⟨hc, hq, c, hd, hp, hx⟩ => ?_
    subst hx
    exact ⟨hc, rfl, hq, hd, hp, rfl⟩

end Sys2Proof.Machine
end

section
/-! PROOFS. What a delivered set does to the check of its point (R31, R32): it stays, is withdrawn, or is a new request. -/

namespace Sys2Proof.Machine

/-- What becomes of a check at tick `t`, and of the low tracker with it: it stays, or it is withdrawn as the tracker leaves
QUIET; where there was none a request may be made, for a channel of `entries`. -/
structure CheckMoves (t : Tick) (entries : Channel → MapEntry) (x y : PointRecord) : Prop where
  kept : ∀ k, x.check = some k → y.check = some k ∨
    (k.sent = false ∧ y.check = none ∧ x.low = .quiet ∧ y.low ≠ .quiet)
  scheduled : x.check = none → ∀ k, y.check = some k →
    k.sent = false ∧ k.target = t + BitVec.ofNat 48 (max 2 (entries k.channel).delay)

/-- No check is made that is sent. -/
theorem CheckMoves.sent {t : Tick} {entries : Channel → MapEntry} {x y : PointRecord} (h : CheckMoves t entries x y)
    {k : CheckInFlight} (hk : y.check = some k) (hs : k.sent = true) : x.check = some k := by
  cases hx : x.check with
  | none =>
    have hn := (h.scheduled hx k hk).1
    rw [hs] at hn
    cases hn
  | some k' =>
    rcases h.kept k' hx with hy | ⟨-, hy, -⟩
    · exact hy.symm.trans hk
    · rw [hy] at hk
      cases hk

theorem CheckMoves.same {t : Tick} {entries : Channel → MapEntry} {x y : PointRecord} (h : y.check = x.check) :
    CheckMoves t entries x y :=
  ⟨fun k hk => .inl (h.trans hk), fun hn k hk => by
    rw [h, hn] at hk
    cases hk⟩

theorem CheckMoves.congr {t : Tick} {entries : Channel → MapEntry} {x x' y : PointRecord}
    (h : CheckMoves t entries x y) (hc : x'.check = x.check) (hl : x'.low = x.low) : CheckMoves t entries x' y :=
  ⟨fun k hk => by
    rw [hl]
    exact h.kept k (hc.symm.trans hk), fun hn => h.scheduled (hc.symm.trans hn)⟩

/-- The trackers withdraw the check of their point as the low one leaves QUIET, and else leave it. -/
theorem State.tracked_moves (s : State) (p : Point) (t : Tick) (k : Closing) :
    (∀ x, (s.point p).check = some x → ((s.tracked p t k).point p).check = some x ∨
      (x.sent = false ∧ ((s.tracked p t k).point p).check = none ∧ (s.point p).low = .quiet ∧
        ((s.tracked p t k).point p).low ≠ .quiet)) ∧
    ((s.point p).check = none → ((s.tracked p t k).point p).check = none) := by
  have hr : ((s.rotate p k.free).point p).check = (s.point p).check ∧
      ((s.rotate p k.free).point p).low = (s.point p).low := by
    rw [State.rotate_point]
    exact ⟨rfl, rfl⟩
  unfold State.tracked State.takeIfResult
  split
  · rw [hr.1]
    exact ⟨fun x hx => .inl hx, id⟩
  · next r _ =>
    obtain ⟨hleft, hstays⟩ := (s.rotate p k.free).takeResult_check_spec p r
    rw [hr.1, hr.2] at hleft hstays
    refine ⟨fun x hx => ?_, fun hn => (hstays (.inr (.inr hn))).trans hn⟩
    by_cases hs : (s.point p).low ≠ .quiet ∨ (((s.rotate p k.free).takeResult p r).point p).low = .quiet
    · exact .inl ((hstays (or_assoc.mp (.inl hs))).trans hx)
    · rw [not_or, Classical.not_not] at hs
      obtain ⟨hwith, hsent⟩ := hleft hs.1 hs.2 x hx
      cases hxs : x.sent with
      | false => exact .inr ⟨rfl, hwith hxs, hs.1, hs.2⟩
      | true => exact .inl (hsent hxs)

theorem State.closeHalf_scheduled (s : State) (p : Point) (t : Tick) (k : Closing)
    (h : ((s.tracked p t k).point p).check ≠ none ∨ ((s.tracked p t k).point p).low ≠ .quiet) :
    ((s.closeHalf p t k).point p).check = ((s.tracked p t k).point p).check := by
  have hspan : ((s.tracked p t k).takeHalf p (s.halfOf p t k)).point p = _ := (Spanned.takeHalf p _ _).here
  have hcheck : (((s.tracked p t k).takeHalf p (s.halfOf p t k)).point p).check = ((s.tracked p t k).point p).check := by
    rw [hspan]
    rfl
  have hlow : (((s.tracked p t k).takeHalf p (s.halfOf p t k)).point p).low = ((s.tracked p t k).point p).low := by
    rw [hspan]
    rfl
  rw [s.closeHalf_eq]
  split
  · rw [State.scheduleCheck_closed (.inr (by rwa [hcheck, hlow])), hcheck]
  · exact hcheck

theorem State.closeHalf_moves (s : State) (p : Point) (t : Tick) (k : Closing) :
    CheckMoves t (fun c => (s.channel c).entry) (s.point p) ((s.closeHalf p t k).point p) := by
  obtain ⟨hkept, hnone⟩ := s.tracked_moves p t k
  refine ⟨fun x hx => ?_, fun hn x hx => ?_⟩
  · rcases hkept x hx with h | ⟨hs, hc, hq, hl⟩
    · exact .inl ((s.closeHalf_scheduled p t k (.inl (by rw [h]; exact Option.some_ne_none x))).trans h)
    · refine .inr ⟨hs, (s.closeHalf_scheduled p t k (.inr hl)).trans hc, hq, ?_⟩
      rwa [(s.closeHalf_trackers p t k).1]
  · rcases State.closeHalf_checks hx with h | ⟨-, -, c, -, -, rfl⟩
    · rw [hn] at h
      cases h
    · exact ⟨rfl, rfl⟩

theorem State.deliver_moves (s : State) (t : Tick) (set : SampleSet) (p : Point) (changed : Bool) :
    CheckMoves t (fun c => (s.channel c).entry) (s.point p) ((s.deliver t set p changed).point p) := by
  have hd := s.decided_here t set p changed
  have ha := s.advancePeriod_here p t
  have hcheck : ((s.decided t set p changed).point p).check = (s.point p).check := by
    rw [hd, ha]
  have hlow : ((s.decided t set p changed).point p).low = (s.point p).low := by
    rw [hd, ha]
  obtain ⟨hnone, hsome⟩ := s.deliver_decided t set p changed
  cases hc : (s.cutOf t set p changed).2 with
  | none =>
    rw [hnone hc]
    exact .same hcheck
  | some k =>
    rw [hsome k hc]
    have hm := ((s.decided t set p changed).closeHalf_moves p t k).congr hcheck.symm hlow.symm
    refine ⟨hm.kept, fun hn x hx => ?_⟩
    have hs := hm.scheduled hn x hx
    rwa [s.decided_entry t set p changed] at hs

end Sys2Proof.Machine
end

section
/-! PROOFS. The strobe frame and its command field: which check or command it carries, and what that does to the others
(R2 to R4, section 12.2). -/

namespace Sys2Proof.Machine

theorem allFour_ordered : (allFour : List (Fin 4)).Pairwise (· < ·) := by decide

theorem allFour_find? {q : Fin 4 → Bool} {i : Fin 4} (h : q i = true) (hlow : ∀ j, j < i → q j = false) :
    allFour.find? q = some i :=
  find?_least allFour_ordered (mem_allFour i) h hlow

theorem allFour_find?_none {q : Fin 4 → Bool} (h : ∀ i, q i = false) : allFour.find? q = none :=
  List.find?_eq_none.mpr fun i _ => Bool.eq_false_iff.mp (h i)

/-! ### What stands in line for the field (R3, R4) -/

theorem PointRecord.aims_iff (x : PointRecord) (t : Tick) :
    x.aims t = true ↔ ∃ k, x.check = some k ∧ k.sent = false ∧ k.target = t := by
  unfold PointRecord.aims
  cases x.check with
  | none => exact ⟨nofun, fun ⟨k, hk, _⟩ => nomatch hk⟩
  | some k =>
    dsimp only
    rw [Bool.and_eq_true, Bool.not_eq_true', beq_iff_eq]
    exact ⟨fun h => ⟨k, rfl, h⟩, fun ⟨_, hk, h⟩ => (Option.some.inj hk) ▸ h⟩

theorem ModuleRecord.waiting_iff (x : ModuleRecord) :
    x.waiting = true ↔ ∃ k, x.command = some k ∧ k.sent = none := by
  unfold ModuleRecord.waiting
  cases x.command with
  | none => exact ⟨nofun, fun ⟨k, hk, _⟩ => nomatch hk⟩
  | some k =>
    dsimp only
    rw [Option.isNone_iff_eq_none]
    exact ⟨fun h => ⟨k, rfl, h⟩, fun ⟨_, hk, h⟩ => (Option.some.inj hk) ▸ h⟩

/-! ### The four ways of issuing the strobe -/

/-- The frame of the current tick while the device transmits. -/
theorem State.formStrobe_transmitted {s : State} (h : s.control.device ≠ .standby) (field : CommandField) :
    s.formStrobe field = { tag := s.count.setWidth 8, field := field, transmitted := true } := by
  unfold State.formStrobe tagOf
  rw [bne_iff_ne.mpr h]

theorem State.issueStrobe_standby {s : State} (h : s.control.device = .standby) :
    s.issueStrobe = { s with strobe := s.formStrobe .none } :=
  if_pos h

theorem State.issueStrobe_check {s : State} (h : s.control.device ≠ .standby) {p : Point}
    (hp : allFour.find? (fun q => (s.point q).aims s.count) = some p) :
    s.issueStrobe = { s.arbitrateChecks p s.count with strobe := s.formStrobe (s.point p).checkField } := by
  rw [State.issueStrobe, if_neg h, hp]

theorem State.issueStrobe_forward {s : State} (h : s.control.device ≠ .standby)
    (hp : allFour.find? (fun q => (s.point q).aims s.count) = none) {m : Module}
    (hm : allFour.find? (fun n => (s.module n).waiting) = some m) :
    s.issueStrobe = { s.modModule m (fun r => r.forward s.count) with
      strobe := s.formStrobe ((s.module m).forwardField m) } := by
  rw [State.issueStrobe, if_neg h, hp]
  dsimp only
  rw [hm]

theorem State.issueStrobe_idle {s : State} (h : s.control.device ≠ .standby)
    (hp : allFour.find? (fun q => (s.point q).aims s.count) = none)
    (hm : allFour.find? (fun n => (s.module n).waiting) = none) :
    s.issueStrobe = { s with strobe := s.formStrobe .none } := by
  rw [State.issueStrobe, if_neg h, hp]
  dsimp only
  rw [hm]

theorem State.arbitrateChecks_point (s : State) (p q : Point) (t : Tick) : (s.arbitrateChecks p t).point q =
    if q = p then (s.point q).sendCheck else if (s.point q).aims t then (s.point q).retarget else s.point q :=
  State.mapPoints_point s q _

theorem State.arbitrateChecks_rest (s : State) (p : Point) (t : Tick) :
    s.arbitrateChecks p t = { s with points := (s.arbitrateChecks p t).points } :=
  rfl

/-- The strobe is issued: nothing but the frame, the checks, and the command and echo counter of a module change. -/
structure StrobeIssued (s t : State) : Prop where
  rest : t = { s with points := t.points, modules := t.modules, strobe := t.strobe }
  tag : t.strobe.tag = s.count.setWidth 8
  transmitted : t.strobe.transmitted = (s.control.device != .standby)
  standby : s.control.device = .standby → t.strobe.field = .none
  point : ∀ p, t.point p = { s.point p with check := (t.point p).check }
  module : ∀ m, t.module m = { s.module m with command := (t.module m).command, echo := (t.module m).echo }
  command : ∀ m, (t.module m).command = (s.module m).command ∨ ∃ k e, (s.module m).command = some k ∧ k.sent = none ∧
    (t.module m).command = some { k with sent := some { echo := e, tick := s.count } }
  check : ∀ p x, (t.point p).check = some x → x.sent = true → (s.point p).check = some x ∨
    (x.target = s.count ∧ t.strobe.field = .check x.module x.slot)

theorem StrobeIssued.onlyFrame (s : State) {field : CommandField} (h : s.control.device = .standby → field = .none) :
    StrobeIssued s { s with strobe := s.formStrobe field } :=
  ⟨rfl, rfl, rfl, h, fun _ => rfl, fun _ => rfl, fun _ => .inl rfl, fun _ _ hx _ => .inl hx⟩

theorem PointRecord.sendCheck_check {x : PointRecord} {k : CheckInFlight} (h : x.check = some k) :
    x.sendCheck = { x with check := some { k with sent := true } } := by
  rw [PointRecord.sendCheck, h]
  rfl

theorem ModuleRecord.forward_command {x : ModuleRecord} {k : ModuleCommand} (h : x.command = some k) (t : Tick) :
    x.forward t = { x with
      echo := x.echo + 1, command := some { k with sent := some { echo := x.echo, tick := t } } } := by
  rw [ModuleRecord.forward, h]
  rfl

theorem StrobeIssued.check_sent {s : State} (hd : s.control.device ≠ .standby) {p : Point} {k : CheckInFlight}
    (hk : (s.point p).check = some k) (ht : k.target = s.count) :
    StrobeIssued s { s.arbitrateChecks p s.count with strobe := s.formStrobe (s.point p).checkField } := by
  have hpoint (q : Point) : ({ s.arbitrateChecks p s.count with strobe := s.formStrobe (s.point p).checkField } : State).point
      q = _ := s.arbitrateChecks_point p q s.count
  have hfield : (s.point p).checkField = .check k.module k.slot := by rw [PointRecord.checkField, hk]
  refine ⟨rfl, rfl, rfl, fun h => absurd h hd, fun q => ?_, fun _ => rfl, fun _ => .inl rfl, fun q x hx hs => ?_⟩
  · rw [hpoint q]
    split
    · rfl
    · split <;> rfl
  · rw [hpoint q] at hx
    split at hx
    · next h =>
      rw [h, PointRecord.sendCheck_check hk] at hx
      obtain rfl := Option.some.inj hx
      exact .inr ⟨ht, hfield⟩
    · split at hx
      · next ha =>
        obtain ⟨k', hk', hs', -⟩ := (PointRecord.aims_iff _ _).mp ha
        rw [PointRecord.retarget, hk'] at hx
        obtain rfl := Option.some.inj hx
        rw [hs'] at hs
        cases hs
      · exact .inl hx

theorem StrobeIssued.command_sent {s : State} (hd : s.control.device ≠ .standby) {m : Module} {k : ModuleCommand}
    (hk : (s.module m).command = some k) (hs : k.sent = none) (field : CommandField) :
    StrobeIssued s { s.modModule m (fun r => r.forward s.count) with strobe := s.formStrobe field } := by
  have hmodule (n : Module) : ({ s.modModule m (fun r => r.forward s.count) with strobe := s.formStrobe field } :
      State).module n = _ := State.modModule_module s m n _
  refine ⟨rfl, rfl, rfl, fun h => absurd h hd, fun _ => rfl, fun n => ?_, fun n => ?_, fun _ _ hx _ => .inl hx⟩
  · rw [hmodule n]
    split
    · next h =>
      rw [h]
      rfl
    · rfl
  · rw [hmodule n]
    split
    · next h =>
      rw [h, ModuleRecord.forward_command hk]
      exact .inr ⟨k, _, hk, hs, rfl⟩
    · exact .inl rfl

theorem State.issueStrobe_issued (s : State) : StrobeIssued s s.issueStrobe := by
  by_cases hd : s.control.device = .standby
  · rw [State.issueStrobe_standby hd]
    exact .onlyFrame s fun _ => rfl
  · cases hp : allFour.find? (fun q => (s.point q).aims s.count) with
    | some p =>
      have ha : (s.point p).aims s.count = true := List.find?_some (p := fun q => (s.point q).aims s.count) hp
      obtain ⟨k, hk, -, ht⟩ := (PointRecord.aims_iff _ _).mp ha
      rw [State.issueStrobe_check hd hp]
      exact .check_sent hd hk ht
    | none =>
      cases hm : allFour.find? (fun n => (s.module n).waiting) with
      | some m =>
        have hw : (s.module m).waiting = true := List.find?_some (p := fun n => (s.module n).waiting) hm
        obtain ⟨k, hk, hs⟩ := (ModuleRecord.waiting_iff _).mp hw
        rw [State.issueStrobe_forward hd hp hm]
        exact .command_sent hd hk hs _
      | none =>
        rw [State.issueStrobe_idle hd hp hm]
        exact .onlyFrame s fun _ => rfl

end Sys2Proof.Machine
end

section
/-! PROOFS. The marks of an expiry: the count and the strobe frame of the new tick, the due markings and the checks that
are sent (R1 to R4, R7, R30, R33, R167: O7). -/

namespace Sys2Proof.Machine

/-! ### What most operations of an expiry leave -/

/-- What the operations of an expiry besides the markings leave: the device, its points, and what is due. -/
structure Quiet (s t : State) : Prop where
  control : t.control = s.control
  dueNow : t.dueNow = s.dueNow
  measured : ∀ p, (t.point p).measured = (s.point p).measured
  due : ∀ c, (t.channel c).due = (s.channel c).due

theorem Quiet.refl (s : State) : Quiet s s :=
  ⟨rfl, rfl, fun _ => rfl, fun _ => rfl⟩

theorem Quiet.ofSame {s t : State} (hc : t.control = s.control) (hd : t.dueNow = s.dueNow) (hp : t.points = s.points)
    (hch : t.channels = s.channels) : Quiet s t :=
  ⟨hc, hd, fun p => congrArg (fun v : Vector PointRecord 4 => v[p.val].measured) hp,
    fun c => congrArg (fun v : Vector ChannelRecord 24 => v[c.val].due) hch⟩

theorem Quiet.trans {s t u : State} (h : Quiet s t) (k : Quiet t u) : Quiet s u :=
  ⟨k.control.trans h.control, k.dueNow.trans h.dueNow, fun p => (k.measured p).trans (h.measured p),
    fun c => (k.due c).trans (h.due c)⟩

theorem Quiet.iteIf {s t : State} {c : Prop} [Decidable c] (h : Quiet s t) : Quiet s (if c then t else s) := by
  split
  · exact h
  · exact .refl s

theorem Quiet.foldl {α : Type} (f : State → α → State) (h : ∀ s x, Quiet s (f s x)) (l : List α) (s : State) :
    Quiet s (l.foldl f s) := by
  induction l generalizing s with
  | nil => exact .refl s
  | cons x xs ih => exact (h s x).trans (ih _)

theorem Quiet.onModules {s t : State} (h : OnModules s t) : Quiet s t := by
  obtain ⟨b, a, v, -, rfl⟩ := h
  exact .ofSame rfl rfl rfl rfl

theorem Quiet.noted {s t : State} (h : Noted s t) : Quiet s t := by
  obtain ⟨b, a, -, rfl⟩ := h
  exact .ofSame rfl rfl rfl rfl

theorem Quiet.formed {s t : State} (h : Formed s t) : Quiet s t := by
  obtain ⟨q, sh, c, b, a, -, -, -, -, rfl⟩ := h
  exact .ofSame rfl rfl rfl rfl

theorem Quiet.mapPoints (s : State) (f : Point → PointRecord → PointRecord)
    (h : ∀ p x, (f p x).measured = x.measured) : Quiet s (s.mapPoints f) :=
  ⟨rfl, rfl, fun p => by rw [State.mapPoints_point]; exact h p _, fun _ => rfl⟩

theorem Quiet.expireLine (s : State) (l : LineId) : Quiet s (s.expireLine l) :=
  have hp : Quiet s (s.expirePulse l) := .iteIf (.noted (.attention s _))
  hp.trans (.iteIf (.noted (.attention _ _)))

theorem Quiet.timeoutAll (s : State) (order : List Module) : Quiet s (s.timeoutAll order) :=
  .foldl _ (fun s m => .iteIf (.onModules (.endCommand s m _ _))) order s

theorem Quiet.countMisses (s : State) (order : List Module) : Quiet s (s.countMisses order) := by
  refine .foldl _ (fun s m => .iteIf ?_) order s
  unfold State.missModule
  split
  · exact .refl s
  · exact .onModules (.modThen (.refl _))
  · exact .onModules (.modThen (.refl _))
  · have hmiss : OnModules s (s.modModule m (fun r => { r with goodRun := 0, missCount := r.missCount + 1 })) :=
      .modThen (.refl _)
    dsimp only
    split
    · exact .onModules (hmiss.trans (.modThen (State.loseModule_noted _ m)))
    · exact .onModules hmiss

theorem PointRecord.voidSent_measured (x : PointRecord) : x.voidSent.measured = x.measured := by
  unfold PointRecord.voidSent
  split
  · rfl
  · split <;> rfl

theorem Quiet.deadline (s : State) (order : List Module) : Quiet s (s.deadline order) :=
  (Quiet.countMisses s order).trans (.mapPoints _ _ fun _ => PointRecord.voidSent_measured)

/-! ### The stages of an expiry -/

/-- The state at the deadline of the ending tick: what was due is taken, the count has moved on, the misses are counted. -/
def State.atDeadline (s : State) (sfi : SupplyLevel) (o : Interleaving) : State :=
  (((s.takeDue (orderOf o.moduleOrder)).beginTick sfi o).timeoutIfAt o true 5).deadline (orderOf o.moduleOrder)

/-- The state before the first turn of a point: the set has left the modules and is stored, the references are chosen. -/
def State.beforeTurns (s : State) (t : Tick) : State :=
  ((s.nextSet s.closingSet).writeHistory t s.closingSet).chooseReferences s.closingSet

/-- The state after the last turn of a point. -/
def State.afterTurns (s : State) (t : Tick) (o : Interleaving) : State :=
  (s.beforeTurns t).deliverAll t s.closingSet (s.referenceChanges s.closingSet) o

theorem State.expire_eq (s : State) (sfi : SupplyLevel) (o : Interleaving) :
    s.expire sfi o = ((s.atDeadline sfi o).afterTurns s.count o).formLast o :=
  rfl

theorem exec_expiry (s : State) (sfi : SupplyLevel) (o : Interleaving) :
    exec (.strobeTimerExpiry sfi o) s = .next (s.expire sfi o) :=
  rfl

theorem Quiet.beforeTurns (s : State) (t : Tick) : Quiet s (s.beforeTurns t) := by
  have hn : Quiet s (s.nextSet s.closingSet) := .ofSame rfl rfl rfl rfl
  have hw : Quiet (s.nextSet s.closingSet) ((s.nextSet s.closingSet).writeHistory t s.closingSet) :=
    .iteIf (.ofSame rfl rfl rfl rfl)
  refine (hn.trans hw).trans ?_
  unfold State.beforeTurns State.chooseReferences
  split
  · exact .refl _
  · exact .mapPoints _ _ fun _ _ => rfl

theorem Quiet.atDeadline (s : State) (sfi : SupplyLevel) (o : Interleaving) :
    Quiet ((s.takeDue (orderOf o.moduleOrder)).advance sfi) (s.atDeadline sfi o) := by
  have hlines : Quiet ((s.takeDue (orderOf o.moduleOrder)).advance sfi)
      ((s.takeDue (orderOf o.moduleOrder)).beginTick sfi o) :=
    (Quiet.iteIf (.expireLine _ _)).trans (.iteIf (.expireLine _ _))
  exact (hlines.trans (.iteIf (.timeoutAll _ _))).trans (.deadline _ _)

/-! ### What the turns leave, the markings and the strobe apart -/

/-- Besides the markings and the strobe the turns send no check and take no frame. -/
structure Calm (s t : State) : Prop where
  quiet : Quiet s t
  stable : Stable s t
  strobe : t.strobe = s.strobe
  taken : ∀ m, (t.module m).taken = (s.module m).taken
  sent : ∀ p x, (t.point p).check = some x → x.sent = true → (s.point p).check = some x

theorem Calm.refl (s : State) : Calm s s :=
  ⟨.refl s, .refl s, rfl, fun _ => rfl, fun _ _ h _ => h⟩

theorem Calm.trans {s t u : State} (h : Calm s t) (k : Calm t u) : Calm s u :=
  ⟨h.quiet.trans k.quiet, h.stable.trans k.stable, k.strobe.trans h.strobe, fun m => (k.taken m).trans (h.taken m),
    fun p x hx hs => h.sent p x (k.sent p x hx hs) hs⟩

theorem Calm.iteIf {s t : State} {c : Prop} [Decidable c] (h : Calm s t) : Calm s (if c then t else s) := by
  split
  · exact h
  · exact .refl s

theorem Calm.foldl {α : Type} (f : State → α → State) (h : ∀ s x, Calm s (f s x)) (l : List α) (s : State) :
    Calm s (l.foldl f s) := by
  induction l generalizing s with
  | nil => exact .refl s
  | cons x xs ih => exact (h s x).trans (ih _)

theorem Calm.endCommand (s : State) (m : Module) (result : ReplyResult) (word : Option (BitVec 32)) :
    Calm s (s.endCommand m result word) := by
  have hon := OnModules.endCommand s m result word
  refine ⟨.onModules hon, .onModules hon, ?_, fun n => ?_, fun p x hx _ => ?_⟩
  · obtain ⟨b, a, v, -, he⟩ := hon
    rw [he]
  · rw [State.endCommand_module]
    split
    · next h =>
      rw [h]
      rfl
    · rfl
  · rwa [hon.lines.1] at hx

theorem Calm.timeoutIfAt (s : State) (o : Interleaving) (first : Bool) (k : Nat) : Calm s (s.timeoutIfAt o first k) :=
  .iteIf (.foldl _ (fun s m => .iteIf (.endCommand s m _ _)) _ s)

theorem Calm.formAll (s : State) : Calm s s.formAll := by
  have hf := Formed.formAll s
  refine ⟨.formed hf, .formed hf, ?_, fun n => ?_, fun p x hx _ => ?_⟩
  all_goals obtain ⟨q, sh, c, b, a, -, -, -, -, he⟩ := hf
  · rw [he]
  · rw [he]
    rfl
  · rw [he] at hx
    exact hx

theorem Calm.deliverIf (s : State) (t : Tick) (set : SampleSet) (changes : Vector Bool 4) (p : Point) :
    Calm s (s.deliverIf t set changes p) := by
  refine .iteIf ?_
  have hw := (Within.deliver false s t set p changes[p.val] nofun).1
  have hm := s.deliver_moves t set p changes[p.val]
  generalize s.deliver t set p changes[p.val] = u at hw hm
  refine ⟨⟨hw.control, hw.dueNow, fun q => ?_, fun c => (hw.leads c).2⟩, .within hw, hw.strobe,
    fun m => congrArg (fun v : Vector ModuleRecord 4 => v[m.val].taken) hw.modules, fun q x hx hs => ?_⟩
  · by_cases hq : q = p
    · rw [hq]
      exact hw.here.measured
    · rw [hw.others q hq]
  · by_cases hq : q = p
    · rw [hq] at hx ⊢
      exact hm.sent hx hs
    · rwa [hw.others q hq] at hx

/-! ### The markings and the strobe among the turns -/

/-- A channel falls due with the period, if that waits in `v` (R30). -/
def State.PeriodFalls (v : State) (c : Channel) : Prop :=
  v.dueNow.period = true ∧ v.measuring = true ∧ v.checkedMeasured (v.channel c).entry = true

/-- A channel falls due with the whole second, if that waits in `v` (R30). -/
def State.SecondFalls (v : State) (c : Channel) : Prop :=
  v.dueNow.second = true ∧ v.measuring = true ∧ v.checkedMeasured (v.channel c).entry = true ∧
    ((v.channel c).lead = .suspect ∨ (v.channel c).lead = .opened)

/-- The strobe frame of the current tick, as issued. -/
structure Issued (t : State) : Prop where
  tag : t.strobe.tag = t.count.setWidth 8
  transmitted : t.strobe.transmitted = (t.control.device != .standby)
  standby : t.control.device = .standby → t.strobe.field = .none

/-- `t` stands among the turns that begin with `v`: the period marking was taken if `P`, that of the whole second if `S`,
and the strobe was issued if `F`. -/
structure Marked (P S F : Prop) (v t : State) : Prop where
  control : t.control = v.control
  measured : ∀ p, (t.point p).measured = (v.point p).measured
  stable : Stable v t
  taken : ∀ m, (t.module m).taken = (v.module m).taken
  period : t.dueNow.period = true ↔ v.dueNow.period = true ∧ ¬P
  second : t.dueNow.second = true ↔ v.dueNow.second = true ∧ ¬S
  due : ∀ c, (t.channel c).due = true ↔ (v.channel c).due = true ∨ (P ∧ v.PeriodFalls c) ∨ (S ∧ v.SecondFalls c)
  issued : F → Issued t
  sent : ∀ p x, (t.point p).check = some x → x.sent = true →
    F ∧ x.target = t.count ∧ t.strobe.field = .check x.module x.slot

theorem Marked.start {v : State} (h : ∀ p x, (v.point p).check = some x → x.sent = false) :
    Marked False False False v v where
  control := rfl
  measured _ := rfl
  stable := .refl v
  taken _ := rfl
  period := (and_iff_left not_false).symm
  second := (and_iff_left not_false).symm
  due c := ⟨.inl, fun hd => hd.elim id fun hd => hd.elim (fun x => x.1.elim) fun x => x.1.elim⟩
  issued := False.elim
  sent p x hx hs := by
    rw [h p x hx] at hs
    cases hs

theorem Marked.congr {P S F P' S' F' : Prop} {v t : State} (h : Marked P S F v t) (hp : P ↔ P') (hs : S ↔ S')
    (hf : F ↔ F') : Marked P' S' F' v t := by
  rw [← propext hp, ← propext hs, ← propext hf]
  exact h

theorem Marked.calm {P S F : Prop} {v t u : State} (h : Marked P S F v t) (k : Calm t u) : Marked P S F v u where
  control := k.quiet.control.trans h.control
  measured p := (k.quiet.measured p).trans (h.measured p)
  stable := h.stable.trans k.stable
  taken m := (k.taken m).trans (h.taken m)
  period := by
    rw [k.quiet.dueNow]
    exact h.period
  second := by
    rw [k.quiet.dueNow]
    exact h.second
  due c := by
    rw [k.quiet.due c]
    exact h.due c
  issued hF := by
    obtain ⟨htag, htrans, hstand⟩ := h.issued hF
    refine ⟨?_, ?_, ?_⟩ <;> rw [k.strobe]
    · rw [k.stable.count]
      exact htag
    · rw [k.quiet.control]
      exact htrans
    · rw [k.quiet.control]
      exact hstand
  sent p x hx hs := by
    rw [k.stable.count, k.strobe]
    exact h.sent p x (k.sent p x hx hs) hs

theorem Marked.measuring {P S F : Prop} {v t : State} (h : Marked P S F v t) : t.measuring = v.measuring := by
  unfold State.measuring
  rw [h.control]

/-- A marking keeps what it does not mark. -/
structure MarkKept (t u : State) : Prop where
  placed : Placed t u
  control : u.control = t.control
  points : u.point = t.point
  modules : u.module = t.module
  strobe : u.strobe = t.strobe

theorem MarkKept.of {t u : State} {v : Vector ChannelRecord 24} {d : DueNow} (hp : Placed t u)
    (h : u = { t with channels := v, dueNow := d }) : MarkKept t u := by
  refine ⟨hp, ?_, ?_, ?_, ?_⟩ <;> subst h <;> rfl

theorem Marked.marking {P S F P' S' : Prop} {v t u : State} (h : Marked P S F v t) (k : MarkKept t u)
    (hperiod : u.dueNow.period = true ↔ v.dueNow.period = true ∧ ¬P')
    (hsecond : u.dueNow.second = true ↔ v.dueNow.second = true ∧ ¬S')
    (hdue : ∀ c, (u.channel c).due = true ↔
      (v.channel c).due = true ∨ (P' ∧ v.PeriodFalls c) ∨ (S' ∧ v.SecondFalls c)) : Marked P' S' F v u where
  control := k.control.trans h.control
  measured p := by
    rw [k.points]
    exact h.measured p
  stable := h.stable.trans (.placed k.placed)
  taken m := by
    rw [k.modules]
    exact h.taken m
  period := hperiod
  second := hsecond
  due := hdue
  issued hF := by
    obtain ⟨htag, htrans, hstand⟩ := h.issued hF
    have hcount := (Stable.placed k.placed).count
    refine ⟨?_, ?_, ?_⟩ <;> rw [k.strobe]
    · rw [hcount]
      exact htag
    · rw [k.control]
      exact htrans
    · rw [k.control]
      exact hstand
  sent p x := by
    rw [k.points, k.strobe, (Stable.placed k.placed).count]
    exact h.sent p x

/-- A channel of a state among the turns is checked as it was before them. -/
theorem Marked.checked {P S F : Prop} {v t : State} (h : Marked P S F v t) (c : Channel) :
    t.checkedMeasured (t.channel c).entry = v.checkedMeasured (v.channel c).entry := by
  rw [State.checkedMeasured_congr h.measured, h.stable.entry c]

theorem Marked.takePeriodDue {P S F : Prop} {v t : State} (h : Marked P S F v t) :
    Marked True S F v t.takePeriodDue := by
  cases hw : t.dueNow.period with
  | false =>
    have hno := (not_congr h.period).mp (Bool.eq_false_iff.mp hw)
    rw [State.takePeriodDue_taken hw]
    refine h.marking (.of (.refl t) rfl) ⟨fun hp => absurd hp (Bool.eq_false_iff.mp hw), fun hp => absurd trivial hp.2⟩
      h.second fun c => (h.due c).trans (or_congr_right (or_congr_left ?_))
    exact ⟨fun hp => ⟨trivial, hp.2⟩, fun hp => ⟨Classical.not_not.mp fun hn => hno ⟨hp.2.1, hn⟩, hp.2⟩⟩
  | true =>
    obtain ⟨hvp, hP⟩ := h.period.mp hw
    obtain ⟨hchannel, hrest⟩ := State.takePeriodDue_waits hw
    refine h.marking (.of (.takePeriodDue t) hrest) ?_ ?_ fun c => ?_
    · rw [hrest]
      exact ⟨nofun, fun hp => absurd trivial hp.2⟩
    · rw [hrest]
      exact h.second
    · rw [hchannel c]
      show (_ || _) = true ↔ _
      rw [Bool.or_eq_true, h.due c, Bool.and_eq_true, h.measuring, h.checked c, or_assoc]
      refine or_congr_right ?_
      rw [or_comm (a := P ∧ _), or_assoc, or_comm]
      refine or_congr_left ⟨fun hd => ?_, fun hd => .inr hd.2.2⟩
      exact ⟨trivial, hvp, hd.elim (fun x => absurd x.1 hP) id⟩

theorem Marked.takeSecondDue {P S F : Prop} {v t : State} (h : Marked P S F v t) :
    Marked P True F v t.takeSecondDue := by
  cases hw : t.dueNow.second with
  | false =>
    have hno := (not_congr h.second).mp (Bool.eq_false_iff.mp hw)
    rw [State.takeSecondDue_taken hw]
    refine h.marking (.of (.refl t) rfl) h.period
      ⟨fun hp => absurd hp (Bool.eq_false_iff.mp hw), fun hp => absurd trivial hp.2⟩
      fun c => (h.due c).trans (or_congr_right (or_congr_right ?_))
    exact ⟨fun hp => ⟨trivial, hp.2⟩, fun hp => ⟨Classical.not_not.mp fun hn => hno ⟨hp.2.1, hn⟩, hp.2⟩⟩
  | true =>
    obtain ⟨hvs, hS⟩ := h.second.mp hw
    obtain ⟨hchannel, hrest⟩ := State.takeSecondDue_waits hw
    refine h.marking (.of (.takeSecondDue t) hrest) ?_ ?_ fun c => ?_
    · rw [hrest]
      exact h.period
    · rw [hrest]
      exact ⟨nofun, fun hp => absurd trivial hp.2⟩
    · rw [hchannel c]
      show (_ || _) = true ↔ _
      rw [Bool.or_eq_true, h.due c, Bool.and_eq_true, Bool.and_eq_true, Bool.or_eq_true, beq_iff_eq, beq_iff_eq,
        h.measuring, h.checked c, h.stable.lead c, or_assoc, or_assoc, and_assoc]
      refine or_congr_right (or_congr_right ⟨fun hd => ?_, fun hd => .inr hd.2.2⟩)
      exact ⟨trivial, hvs, hd.elim (fun x => absurd x.1 hS) id⟩

/-! ### The strobe of the new tick (R2 to R4) -/

theorem Marked.issueStrobe {P S : Prop} {v t : State} (h : Marked P S False v t) : Marked P S True v t.issueStrobe := by
  have hi := t.issueStrobe_issued
  have hstable := Stable.placed (Placed.issueStrobe t)
  generalize t.issueStrobe = u at hi hstable
  have hcontrol : u.control = t.control := by rw [hi.rest]
  have hdue : u.dueNow = t.dueNow := by rw [hi.rest]
  have hchannel : u.channel = t.channel := by
    rw [hi.rest]
    rfl
  refine ⟨hcontrol.trans h.control, fun p => ?_, h.stable.trans hstable, fun m => ?_, ?_, ?_, fun c => ?_, fun _ => ?_,
    fun p x hx hs => ⟨trivial, ?_⟩⟩
  · rw [hi.point p]
    exact h.measured p
  · rw [hi.module m]
    exact h.taken m
  · rw [hdue]
    exact h.period
  · rw [hdue]
    exact h.second
  · rw [hchannel]
    exact h.due c
  · exact ⟨by rw [hi.tag, hstable.count], by rw [hi.transmitted, hcontrol], fun hd => hi.standby (hcontrol ▸ hd)⟩
  · rcases hi.check p x hx hs with hx | hx
    · exact (h.sent p x hx hs).1.elim
    · rw [hstable.count]
      exact hx

/-! ### The places of the order -/

/-- `t` stands where `k` places of the order are passed. -/
def MarkedAt (o : Interleaving) (k : Nat) (v t : State) : Prop :=
  Marked (o.periodAt.val < k) (o.secondAt.val < k) (o.fieldAt.val < k) v t

theorem lt_succ_place (i k : Fin 5) : (i.val < k.val + 1) ↔ i.val < k.val ∨ i = k := by
  rw [Nat.lt_succ_iff_lt_or_eq, Fin.ext_iff]

theorem Marked.placeIf {B P S F P' S' F' : Prop} {v t u : State} [Decidable B] (h : Marked P S F v t)
    (hno : ¬B → (P ↔ P') ∧ (S ↔ S') ∧ (F ↔ F')) (hyes : B → Marked P' S' F' v u) :
    Marked P' S' F' v (if B then u else t) := by
  by_cases hb : B
  · rw [if_pos hb]
    exact hyes hb
  · rw [if_neg hb]
    obtain ⟨hp, hs, hf⟩ := hno hb
    exact h.congr hp hs hf

theorem MarkedAt.between {o : Interleaving} {v t : State} (k : Fin 5) (h : MarkedAt o k.val v t) :
    MarkedAt o (k.val + 1) v (t.between o k) := by
  have hrecords := ((h.calm (.timeoutIfAt t o true k.val)).calm
    (u := (t.timeoutIfAt o true k.val).formIfAt o k) (.iteIf (.formAll _))).calm (.timeoutIfAt _ o false k.val)
  have hperiod : Marked (o.periodAt.val < k.val + 1) (o.secondAt.val < k.val) (o.fieldAt.val < k.val) v
      ((((t.timeoutIfAt o true k.val).formIfAt o k).timeoutIfAt o false k.val).periodIfAt o k) := by
    refine hrecords.placeIf (fun hn => ⟨?_, Iff.rfl, Iff.rfl⟩) fun hk => ?_
    · rw [lt_succ_place, or_iff_left hn]
    · exact hrecords.takePeriodDue.congr (iff_of_true trivial ((lt_succ_place _ _).mpr (.inr hk))) Iff.rfl Iff.rfl
  have hsecond : Marked (o.periodAt.val < k.val + 1) (o.secondAt.val < k.val + 1) (o.fieldAt.val < k.val) v
      (((((t.timeoutIfAt o true k.val).formIfAt o k).timeoutIfAt o false k.val).periodIfAt o k).secondIfAt o k) := by
    refine hperiod.placeIf (fun hn => ⟨Iff.rfl, ?_, Iff.rfl⟩) fun hk => ?_
    · rw [lt_succ_place, or_iff_left hn]
    · exact hperiod.takeSecondDue.congr Iff.rfl (iff_of_true trivial ((lt_succ_place _ _).mpr (.inr hk))) Iff.rfl
  refine hsecond.placeIf (fun hn => ⟨Iff.rfl, Iff.rfl, ?_⟩) fun hk => ?_
  · rw [lt_succ_place, or_iff_left hn]
  · have hbefore : ¬o.fieldAt.val < k.val := by
      rw [hk]
      exact Nat.lt_irrefl _
    exact (hsecond.congr Iff.rfl Iff.rfl (iff_false_intro hbefore)).issueStrobe.congr Iff.rfl Iff.rfl
      (iff_of_true trivial ((lt_succ_place _ _).mpr (.inr hk)))

theorem MarkedAt.turn {o : Interleaving} {v u : State} (t : Tick) (set : SampleSet) (changes : Vector Bool 4) (p : Point)
    (k : Fin 5) (h : MarkedAt o k.val v u) : MarkedAt o (k.val + 1) v (u.turn t set changes o (p, k)) :=
  (h.between k).calm (.deliverIf _ t set changes p)

/-- Whatever the order, both markings are taken and the strobe is issued once among the turns. -/
theorem Marked.deliverAll {v : State} (h : ∀ p x, (v.point p).check = some x → x.sent = false) (t : Tick)
    (set : SampleSet) (changes : Vector Bool 4) (o : Interleaving) :
    Marked True True True v (v.deliverAll t set changes o) := by
  obtain ⟨a, b, c, d, he⟩ := orderOf_four o.pointOrder
  unfold State.deliverAll
  rw [he]
  have h0 : MarkedAt o 0 v v := (Marked.start h).congr (iff_of_false id (Nat.not_lt_zero _))
    (iff_of_false id (Nat.not_lt_zero _)) (iff_of_false id (Nat.not_lt_zero _))
  have h1 := h0.turn t set changes a 0
  have h2 := MarkedAt.turn t set changes b 1 h1
  have h3 := MarkedAt.turn t set changes c 2 h2
  have h4 := MarkedAt.turn t set changes d 3 h3
  exact (MarkedAt.between 4 h4).congr (iff_of_true o.periodAt.isLt trivial) (iff_of_true o.secondAt.isLt trivial)
    (iff_of_true o.fieldAt.isLt trivial)

/-! ### Before the turns -/

theorem PointRecord.voidSent_unsent {x : PointRecord} {k : CheckInFlight} (h : x.voidSent.check = some k) :
    k.sent = false := by
  unfold PointRecord.voidSent at h
  cases hx : x.check with
  | none =>
    rw [hx] at h
    dsimp only at h
    rw [hx] at h
    cases h
  | some k' =>
    rw [hx] at h
    dsimp only at h
    cases hs : k'.sent with
    | true =>
      rw [hs] at h
      cases h
    | false =>
      rw [hs, if_neg Bool.false_ne_true, hx] at h
      exact Option.some.inj h ▸ hs

/-- The deadline voids every check that is still sent. -/
theorem State.deadline_unsent (s : State) (order : List Module) (p : Point) (k : CheckInFlight)
    (h : ((s.deadline order).point p).check = some k) : k.sent = false := by
  unfold State.deadline State.voidSentChecks at h
  rw [State.mapPoints_point] at h
  exact PointRecord.voidSent_unsent h

/-- What stands before the turns: the modules are cleared for the next set, points and history take this one. -/
theorem State.beforeTurns_only (s : State) (t : Tick) :
    ∃ v h, s.beforeTurns t = { s.nextSet s.closingSet with points := v, history := h } := by
  unfold State.beforeTurns State.chooseReferences State.writeHistory
  repeat' split
  · exact ⟨_, _, rfl⟩
  · exact ⟨_, _, rfl⟩
  · exact ⟨_, _, rfl⟩
  · exact ⟨_, _, rfl⟩

theorem State.beforeTurns_point (s : State) (t : Tick) (p : Point) :
    ∃ r, (s.beforeTurns t).point p = { s.point p with reference := r } := by
  have hw : ((s.nextSet s.closingSet).writeHistory t s.closingSet).point p = s.point p := by
    unfold State.writeHistory
    split <;> rfl
  unfold State.beforeTurns State.chooseReferences
  split
  · rw [hw]
    exact ⟨_, rfl⟩
  · rw [State.mapPoints_point, hw]
    exact ⟨_, rfl⟩

theorem State.beforeTurns_taken (s : State) (t : Tick) (m : Module) : ((s.beforeTurns t).module m).taken = false := by
  obtain ⟨v, h, he⟩ := s.beforeTurns_only t
  have hn : ((s.nextSet s.closingSet).module m).taken = false := by
    rw [State.nextSet, State.mapModules_module]
  rw [he]
  exact hn

/-! ### What is taken in the ending tick -/

/-- The due marks stay. -/
def DueSame (s t : State) : Prop :=
  ∀ c, (t.channel c).due = (s.channel c).due

theorem DueSame.trans {s t u : State} (h : DueSame s t) (k : DueSame t u) : DueSame s u :=
  fun c => (k c).trans (h c)

theorem DueSame.iteIf {s t : State} {c : Prop} [Decidable c] (h : DueSame s t) : DueSame s (if c then t else s) := by
  split
  · exact h
  · exact fun _ => rfl

theorem DueSame.channels {s t : State} (h : t.channels = s.channels) : DueSame s t :=
  fun c => congrArg (fun v : Vector ChannelRecord 24 => v[c.val].due) h

theorem DueSame.quiet {s t : State} (h : Quiet s t) : DueSame s t :=
  h.due

/-- HOLDUP as entered: the rest is records and the capture. -/
theorem State.enterHoldup_only (s : State) : ∃ c b a, s.enterHoldup =
    { s.heldUp (priorOf s.control.device) with capture := c, builder := b, attention := a } := by
  obtain ⟨b, a, -, hn⟩ := Noted.offerStatus (s.heldUp (priorOf s.control.device))
    (.holdupEntered (priorOf s.control.device).device)
  obtain ⟨b2, a2, -, -, he⟩ := State.endCapture_eq ((s.heldUp (priorOf s.control.device)).offerStatus
    (.holdupEntered (priorOf s.control.device).device)) .truncatedSupply
  rw [s.enterHoldup_eq, he, hn]
  exact ⟨none, b2, _, rfl⟩

theorem State.enterHoldup_channels (s : State) : s.enterHoldup.channels = s.channels := by
  obtain ⟨c, b, a, he⟩ := s.enterHoldup_only
  rw [he]
  rfl

theorem State.restoreSupply_channels (s : State) (d : DeviceState) : (s.restoreSupply d).channels = s.channels := by
  obtain ⟨b, a, -, hn⟩ := s.restoreSupply_noted d
  rw [hn]

theorem foldl_channels {α : Type} (f : State → α → State) (h : ∀ s x, Across s (f s x)) (l : List α) (s : State) :
    (l.foldl f s).channels = s.channels :=
  (Across.foldl f h l s).kept.2.2.2

theorem State.leaveStandby_channels (s : State) : s.leaveStandby.channels = s.channels := by
  unfold State.leaveStandby
  split
  · exact (foldl_channels _ (fun s p => .openSpans s s.count p) _ _).trans (s.restoreSupply_channels _)
  · exact (foldl_channels _ (fun s p => .endAssessment s p false true none) _ _).trans (s.restoreSupply_channels _)

theorem DueSame.takeDue (s : State) (order : List Module) : DueSame s (s.takeDue order) := by
  have hfail : DueSame s s.takeFailure := .iteIf (.channels s.enterHoldup_channels)
  have hreturn : DueSame s.takeFailure s.takeFailure.takeReturnHoldup :=
    .iteIf (.channels (State.restoreSupply_channels _ _))
  have hstandby : DueSame s.takeFailure.takeReturnHoldup (s.takeFailure.takeReturnHoldup.takeHoldupExpiry order) :=
    .iteIf fun c => by rw [State.enterStandby_channel]
  have hleave : DueSame (s.takeFailure.takeReturnHoldup.takeHoldupExpiry order)
      (s.takeFailure.takeReturnHoldup.takeHoldupExpiry order).takeReturnStandby :=
    .iteIf (.channels (State.leaveStandby_channels _))
  have hrest := ((Quiet.timeoutAll (s.takeFailure.takeReturnHoldup.takeHoldupExpiry order).takeReturnStandby
    allFour).trans (.expireLine _ .line0)).trans (.expireLine _ .line1)
  exact (((hfail.trans hreturn).trans hstandby).trans hleave).trans hrest.due

/-! ### After the turns (R121, R126) -/

/-- A supply failure changes the device, not whether it measures; the rest is records and the capture. -/
theorem State.takeFailure_only (s : State) : ∃ k c b a, s.takeFailure = { s with
      control := k, capture := c, builder := b, attention := a } ∧
    (k.device = .standby ↔ s.control.device = .standby) ∧ s.takeFailure.measuring = s.measuring := by
  by_cases hf : s.supplyFailed = true
  · have ht : s.takeFailure = s.enterHoldup := if_pos hf
    obtain ⟨c, b, a, he⟩ := s.enterHoldup_only
    obtain ⟨-, hd⟩ := s.supplyFailed_iff.mp hf
    refine ⟨_, c, b, a, ht.trans he, ?_, ?_⟩
    · refine iff_of_false DeviceState.noConfusion ?_
      rcases hd with hd | hd <;> rw [hd] <;> exact DeviceState.noConfusion
    · rw [ht, he]
      show (priorOf s.control.device |> fun q => (false || (true && some q == some PriorState.running))) = s.measuring
      unfold State.measuring
      rcases hd with hd | hd <;> rw [hd] <;> rfl
  · have ht : s.takeFailure = s := if_neg hf
    rw [ht]
    exact ⟨_, _, _, _, rfl, Iff.rfl, rfl⟩

/-- The formation of frames after the turns, with a supply failure before it where the order says so. -/
theorem State.formLast_only (s : State) (o : Interleaving) : ∃ k c b a q sh, s.formLast o = { s with
      control := k, capture := c, builder := b, attention := a, captureQueue := q, shedding := sh } ∧
    (k.device = .standby ↔ s.control.device = .standby) ∧ (s.formLast o).measuring = s.measuring := by
  unfold State.formLast
  split
  · obtain ⟨k, c, b, a, he, hd, hm⟩ := s.takeFailure_only
    obtain ⟨q, sh, c2, b2, a2, -, -, -, -, hf⟩ := Formed.formAll s.takeFailure
    refine ⟨k, c2, b2, a2, q, sh, ?_, hd, ?_⟩
    · rw [hf, he]
    · rw [← hm, hf]
      rfl
  · exact ⟨_, _, _, _, _, _, rfl, Iff.rfl, rfl⟩

/-! ### The new tick (R1, R2, R167) -/

theorem Control.sample_same {c : Control} {sfi : SupplyLevel} (h : sfi = c.level) (n : Nat) :
    (c.sample n sfi).level = c.level ∧ (c.sample n sfi).runCount = 0 := by
  unfold Control.sample
  rw [if_pos h]
  exact ⟨rfl, rfl⟩

theorem Control.sample_counts {c : Control} {sfi : SupplyLevel} (h : sfi ≠ c.level) {n : Nat} (hn : c.runCount + 1 < n) :
    (c.sample n sfi).level = c.level ∧ (c.sample n sfi).runCount = c.runCount + 1 := by
  unfold Control.sample
  rw [if_neg h, if_neg (Nat.not_le.mpr hn)]
  exact ⟨rfl, rfl⟩

theorem Control.sample_turns {c : Control} {sfi : SupplyLevel} (h : sfi ≠ c.level) {n : Nat} (hn : n ≤ c.runCount + 1) :
    (c.sample n sfi).level = sfi ∧ (c.sample n sfi).runCount = 0 := by
  unfold Control.sample
  rw [if_neg h, if_pos hn]
  exact ⟨rfl, rfl⟩

theorem Control.sample_epoch (c : Control) (n : Nat) (sfi : SupplyLevel) :
    (c.sample n sfi).offset = c.offset ∧ (c.sample n sfi).epochUnset = c.epochUnset := by
  unfold Control.sample
  split
  · exact ⟨rfl, rfl⟩
  · split <;> exact ⟨rfl, rfl⟩

theorem State.advance_measuring (s : State) (sfi : SupplyLevel) : (s.advance sfi).measuring = s.measuring := by
  obtain ⟨hd, hp, -⟩ := s.control.sample_kept s.setup.debounce sfi
  unfold State.measuring
  rw [show (s.advance sfi).control = s.control.sample s.setup.debounce sfi from rfl, hd, hp]

theorem Stable.atDeadline (s : State) (sfi : SupplyLevel) (o : Interleaving) :
    Stable ((s.takeDue (orderOf o.moduleOrder)).advance sfi) (s.atDeadline sfi o) :=
  (((Stable.lineIf _ _ _).trans (.lineIf _ _ _)).trans (.timeoutIfAt _ o true 5)).trans (.deadline _ _)

theorem isMultiple_iff (t : Tick) (len : Nat) : isMultiple t len = true ↔ t.toNat % len = 0 :=
  beq_iff_eq

/-- The turns of an expiry, and what they begin with. -/
theorem State.afterTurns_marked (s : State) (sfi : SupplyLevel) (o : Interleaving) :
    Marked True True True ((s.atDeadline sfi o).beforeTurns s.count) ((s.atDeadline sfi o).afterTurns s.count o) := by
  refine Marked.deliverAll (fun p x hx => ?_) _ _ _ _
  obtain ⟨r, hr⟩ := (s.atDeadline sfi o).beforeTurns_point s.count p
  rw [hr] at hx
  exact State.deadline_unsent _ _ p x hx

/-- The state of the new tick, from the ending one to the end of the expiry: `w` when what was due is taken, `v` before
the turns, `x` after them, `t` at the end. -/
structure NewTick (s w v x t : State) (sfi : SupplyLevel) : Prop where
  due : DueSame s w
  first : Stable s w
  late : Stable (w.advance sfi) v
  quiet : Quiet (w.advance sfi) v
  taken : ∀ m, (v.module m).taken = false
  marked : Marked True True True v x
  last : Stable x t
  only : ∃ k c b a q sh, t = { x with
    control := k, capture := c, builder := b, attention := a, captureQueue := q, shedding := sh }
  device : t.control.device = .standby ↔ x.control.device = .standby
  measuring : t.measuring = x.measuring

theorem State.expire_newTick (s : State) (sfi : SupplyLevel) (o : Interleaving) :
    NewTick s (s.takeDue (orderOf o.moduleOrder)) ((s.atDeadline sfi o).beforeTurns s.count)
      ((s.atDeadline sfi o).afterTurns s.count o) (s.expire sfi o) sfi := by
  obtain ⟨k, c, b, a, q, sh, honly, hdevice, hmeas⟩ := ((s.atDeadline sfi o).afterTurns s.count o).formLast_only o
  refine ⟨.takeDue s _, .takeDue s _, (Stable.atDeadline s sfi o).trans (.beforeTurns _ s.count _),
    (Quiet.atDeadline s sfi o).trans (.beforeTurns _ s.count), State.beforeTurns_taken _ _, s.afterTurns_marked sfi o,
    .formLast _ o, ⟨k, c, b, a, q, sh, honly⟩, ?_, hmeas⟩
  rw [s.expire_eq sfi o, honly]
  exact hdevice

theorem NewTick.stable {s w v x t : State} {sfi : SupplyLevel} (h : NewTick s w v x t sfi) :
    Stable (w.advance sfi) t :=
  (h.late.trans h.marked.stable).trans h.last

theorem NewTick.entry {s w v x t : State} {sfi : SupplyLevel} (h : NewTick s w v x t sfi) (c : Channel) :
    (t.channel c).entry = (s.channel c).entry ∧ (t.channel c).lead = (s.channel c).lead :=
  ⟨(h.stable.entry c).trans (h.first.entry c), (h.stable.lead c).trans (h.first.lead c)⟩

/-- The states of a new tick agree on whether the device measures. -/
theorem NewTick.measures {s w v x t : State} {sfi : SupplyLevel} (h : NewTick s w v x t sfi) :
    v.measuring = t.measuring ∧ w.measuring = t.measuring := by
  have hv : v.measuring = (w.advance sfi).measuring := by
    unfold State.measuring
    rw [h.quiet.control]
  have ht : t.measuring = v.measuring := h.measuring.trans h.marked.measuring
  exact ⟨ht.symm, (hv.trans (w.advance_measuring sfi)).symm.trans ht.symm⟩

/-- A channel is due after the expiry when it was before or when a marking of the new count value makes it so. -/
theorem NewTick.dues {s w v x t : State} {sfi : SupplyLevel} (h : NewTick s w v x t sfi) (c : Channel) :
    (t.channel c).due = true ↔ (s.channel c).due = true ∨
      (t.measuring = true ∧ t.checkedMeasured (t.channel c).entry = true ∧
        t.count.toNat % (t.setup.leadPeriod * t.setup.nominal.rate) = 0) ∨
      (t.measuring = true ∧ t.checkedMeasured (t.channel c).entry = true ∧
        t.count.toNat % t.setup.nominal.rate = 0 ∧
        ((t.channel c).lead = .suspect ∨ (t.channel c).lead = .opened)) := by
  obtain ⟨hv, hw⟩ := h.measures
  have hlast : t.channel = x.channel ∧ t.point = x.point := by
    obtain ⟨k, cc, b, a, q, sh, rfl⟩ := h.only
    exact ⟨rfl, rfl⟩
  have hchecked : v.checkedMeasured (v.channel c).entry = t.checkedMeasured (t.channel c).entry := by
    rw [hlast.1, ← h.marked.checked c]
    refine (State.checkedMeasured_congr (fun p => ?_) _).symm
    rw [hlast.2]
  have hlead : (v.channel c).lead = (t.channel c).lead := by rw [hlast.1, h.marked.stable.lead c]
  have hcount : t.count = w.count + 1 := h.stable.count
  have hsetup : t.setup = w.setup := h.stable.setup
  rw [congrFun hlast.1 c, h.marked.due c, h.quiet.due c, ← congrFun hlast.1 c]
  refine or_congr (Eq.to_iff (congrArg (· = true) (h.due c))) (or_congr ?_ ?_)
  · rw [true_and, State.PeriodFalls, h.quiet.dueNow, hv, hchecked, hcount, hsetup]
    show ((w.measuring && isMultiple (w.count + 1) w.setup.leadTicks) = true ∧ _) ↔ _
    rw [Bool.and_eq_true, isMultiple_iff, hw]
    exact ⟨fun ⟨⟨_, hn⟩, hm, hc⟩ => ⟨hm, hc, hn⟩, fun ⟨hm, hc, hn⟩ => ⟨⟨hm, hn⟩, hm, hc⟩⟩
  · rw [true_and, State.SecondFalls, h.quiet.dueNow, hv, hchecked, hlead, hcount, hsetup]
    show ((w.measuring && isMultiple (w.count + 1) w.setup.nominal.rate) = true ∧ _) ↔ _
    rw [Bool.and_eq_true, isMultiple_iff, hw]
    exact ⟨fun ⟨⟨_, hn⟩, hm, hc, hl⟩ => ⟨hm, hc, hn, hl⟩, fun ⟨hm, hc, hn, hl⟩ => ⟨⟨hm, hn⟩, hm, hc, hl⟩⟩

/-- Settles O7: the marks of the turns, carried to the end of the expiry. -/
theorem expiryBeginsTick : Obligations.ExpiryBeginsTick := by
  intro s sfi o
  have h := s.expire_newTick sfi o
  refine ⟨_, exec_expiry s sfi o, ?_⟩
  generalize s.expire sfi o = t at h ⊢
  generalize s.takeDue _ = w at h
  generalize (s.atDeadline sfi o).beforeTurns s.count = v at h
  generalize (s.atDeadline sfi o).afterTurns s.count o = x at h
  have hs := h.stable
  have hlast : t.strobe = x.strobe ∧ t.module = x.module ∧ t.dueNow = x.dueNow := by
    obtain ⟨k, c, b, a, q, sh, rfl⟩ := h.only
    exact ⟨rfl, rfl, rfl⟩
  obtain ⟨htag, htrans, hstand⟩ := h.marked.issued trivial
  have hlevel : t.control.level = (w.control.sample w.setup.debounce sfi).level := hs.level
  have hrun : t.control.runCount = (w.control.sample w.setup.debounce sfi).runCount := hs.runCount
  obtain ⟨hoffset, hunset⟩ := w.control.sample_epoch w.setup.debounce sfi
  rw [hlevel, hrun, h.first.setup, ← h.first.level, ← h.first.runCount]
  refine ⟨?_, ?_, ?_, ?_, fun hd => ?_, fun m => ?_, ?_, fun c => ⟨(h.entry c).1, (h.entry c).2, h.dues c⟩,
    fun e => Control.sample_same e _, fun e hn => Control.sample_counts e hn, fun e hn => Control.sample_turns e hn,
    ?_, ?_, hs.setup.trans h.first.setup, hs.routing.trans h.first.routing, hs.exchange.trans h.first.exchange,
    hs.port.trans h.first.port, hs.pending.trans h.first.pending⟩
  · exact hs.count.trans (congrArg (· + 1) h.first.count)
  · exact hs.timerNominal.trans (congrArg Setup.nominal h.first.setup)
  · rw [hlast.1, htag, h.last.count]
  · rw [hlast.1, htrans]
    exact Bool.eq_iff_iff.mpr (by rw [bne_iff_ne, bne_iff_ne, ne_eq, ne_eq, h.device])
  · rw [hlast.1]
    exact hstand (h.device.mp hd)
  · rw [hlast.2.1, h.marked.taken m, h.taken m]
  · rw [hlast.2.2]
    have hp := (not_congr h.marked.period).mpr fun e => e.2 trivial
    have hq := (not_congr h.marked.second).mpr fun e => e.2 trivial
    rw [Bool.not_eq_true] at hp hq
    generalize x.dueNow = d at hp hq
    obtain ⟨period, second⟩ := d
    obtain rfl : period = false := hp
    obtain rfl : second = false := hq
    rfl
  · exact (hs.offset.trans hoffset).trans h.first.offset
  · exact (hs.epochUnset.trans hunset).trans h.first.epochUnset

end Sys2Proof.Machine
end

section
/-! PROOFS. The verdict on a check, and how a check ends void (R7, R33 to R35: O16). -/

namespace Sys2Proof.Machine

/-! ### Verdicts (R34) -/

theorem MapEntry.suspects_eq {f : SampleFrame} {slot : Slot} (e : MapEntry) : e.suspects (f.sampleAt slot.val) =
    decide ((f.samples[slot.val].toInt - e.level.toInt).natAbs ≤ e.band) := by
  rw [SampleFrame.sampleAt, (slotOfNat_eq_some_iff slot.val slot).mpr rfl]
  rfl

/-- The record of a verdict, by the lead state before it. -/
theorem leadRecords_eq (s : State) (c : Channel) (suspect : Bool) :
    (suspect = true → (s.channel c).lead = .notChecked ∨ (s.channel c).lead = .connected →
      (s.channel c).lead.judged suspect = .suspect ∧ leadRecords s c ((s.channel c).lead.judged suspect) = []) ∧
    (suspect = true → (s.channel c).lead = .suspect →
      (s.channel c).lead.judged suspect = .opened ∧ leadRecords s c ((s.channel c).lead.judged suspect) =
        [.status (.leadOpen c (s.channel c).entry.point (s.channel c).entry.phase) s.epochNow s.control.epochUnset]) ∧
    (suspect = true → (s.channel c).lead = .opened →
      (s.channel c).lead.judged suspect = .opened ∧ leadRecords s c ((s.channel c).lead.judged suspect) = []) ∧
    (suspect = false → (s.channel c).lead = .opened →
      (s.channel c).lead.judged suspect = .connected ∧ leadRecords s c ((s.channel c).lead.judged suspect) =
        [.status (.leadRestored c (s.channel c).entry.point (s.channel c).entry.phase) s.epochNow
          s.control.epochUnset]) ∧
    (suspect = false → (s.channel c).lead ≠ .opened →
      (s.channel c).lead.judged suspect = .connected ∧ leadRecords s c ((s.channel c).lead.judged suspect) = []) := by
  unfold leadRecords
  refine ⟨?_, ?_, ?_, ?_, ?_⟩ <;> rintro rfl h
  · rcases h with h | h <;> rw [h] <;> exact ⟨rfl, rfl⟩
  · rw [h]
    exact ⟨rfl, rfl⟩
  · rw [h]
    exact ⟨rfl, rfl⟩
  · rw [h]
    exact ⟨rfl, rfl⟩
  · cases hl : (s.channel c).lead with
    | opened => exact absurd hl h
    | notChecked | connected | suspect => exact ⟨rfl, rfl⟩

/-! ### The frame that answers a check (R33 to R35) -/

theorem replyTurn_records (now : Tick) (m : Module) (f : SampleFrame) (x : ModuleRecord) :
    (replyTurn now m f x).bodies.length ≤ 1 ∧ (f.replyPresent = false → (replyTurn now m f x).bodies = []) ∧
    (∀ b ∈ (replyTurn now m f x).bodies, ∃ r, b = .reply r) ∧ ¬(replyTurn now m f x).classes .leadState := by
  by_cases h : x.answeredBy f now = true
  · obtain ⟨k, hk⟩ := ModuleRecord.answeredBy_some h
    rw [replyTurn_answered hk h]
    refine ⟨Nat.le_refl 1, fun hp => ?_, fun b hb => ⟨_, List.mem_singleton.mp hb⟩, AttnClass.noConfusion⟩
    exact absurd h (ModuleRecord.not_answeredBy (.inl hp))
  · rw [replyTurn_unanswered h]
    exact ⟨Nat.zero_le 1, fun _ => rfl, fun b hb => absurd hb List.not_mem_nil, id⟩

theorem State.markedSlot {f : SampleFrame} {k : CheckInFlight} {slot : Slot} (hk : k.slot = slot.val) :
    (true && f.markerValid && f.markerSlot == k.slot) = true ↔ f.markerValid = true ∧ f.markerSlot = slot.val := by
  rw [Bool.true_and, Bool.and_eq_true, beq_iff_eq, hk]

/-- The answer of a frame of a LOCKED module to its check. -/
theorem State.checkAnswer_locked {s : State} {m : Module} {p : Point} {k : CheckInFlight} {slot : Slot}
    (h : s.checkedBy m = some p) (hk : (s.point p).check = some k) (hslot : k.slot = slot.val) (f : SampleFrame) :
    (f.markerValid = true ∧ f.markerSlot = slot.val → s.checkAnswer m f true =
      s.verdictAnswer p k.channel (f.sampleAt slot.val)) ∧
    (f.markerValid = false ∨ f.markerSlot ≠ slot.val → s.checkAnswer m f true = s.voidAnswer p) := by
  rw [(State.checkAnswer_asked h hk f true).1, ← hslot]
  refine ⟨fun hm => if_pos ((State.markedSlot hslot).mpr (hslot ▸ hm)), fun hm => if_neg fun hy => ?_⟩
  obtain ⟨hv, he⟩ := (State.markedSlot hslot).mp hy
  rcases hm with hm | hm
  · exact Bool.false_ne_true (hm.symm.trans hv)
  · exact hm (he.trans hslot.symm)

theorem goodTurn_records (s : State) (m : Module) (f : SampleFrame) (x : ModuleRecord) :
    (∀ b ∈ (goodTurn s m f x).bodies, ∃ e u, b = .status (.moduleLocked m) e u) ∧
    ¬(goodTurn s m f x).classes .leadState := by
  unfold goodTurn
  split
  · exact ⟨fun b hb => ⟨_, _, List.mem_singleton.mp hb⟩, AttnClass.noConfusion⟩
  · exact ⟨fun b hb => absurd hb List.not_mem_nil, id⟩

theorem mem_goodRecords {leadFirst : Bool} {locks leads replies : List RecordBody} {b : RecordBody}
    (h : b ∈ goodRecords leadFirst locks leads replies) : b ∈ locks ∨ b ∈ leads ∨ b ∈ replies := by
  unfold goodRecords at h
  refine (List.mem_append.mp h).imp_right fun h => ?_
  cases leadFirst
  · exact (List.mem_append.mp h).symm
  · exact List.mem_append.mp h

/-- Settles O16: the verdict on a check, the void check of a module that was not LOCKED, and that of the deadline. -/
theorem checkVerdictMovesLead : Obligations.CheckVerdictMovesLead := by
  refine ⟨?locked, ?void, ?deadline⟩
  case locked =>
    intro s bytes leadFirst m p k slot hl hm he hi ht hf hs hp hk hslot
    have hexec := exec_sampleFrame_good ⟨hl, hm, he, hi, ht, hf⟩ leadFirst
    generalize parseSampleFrame bytes = f at *
    obtain ⟨-, -, hpoint, hchannel, htells, -⟩ := s.takeGoodFrame_spec m f leadFirst rfl rfl rfl rfl
    rw [goodTurn_locked hs] at htells
    obtain ⟨hverdict, hvoid⟩ := State.checkAnswer_locked hp hk hslot f
    obtain ⟨hone, hnoreply, -, hreply⟩ := replyTurn_records s.count m f ((s.module m).takeFrame f)
    rw [hs, beq_self_eq_true] at hpoint hchannel htells
    generalize s.takeGoodFrame m f leadFirst = t at hexec hpoint hchannel htells
    generalize replyTurn s.count m f ((s.module m).takeFrame f) = reply at htells hone hnoreply hreply
    generalize s.checkAnswer m f true = answer at hpoint hchannel htells hverdict hvoid
    have hmarks : (f.markerValid = true ∧ f.markerSlot = slot.val) ∨ f.markerValid = false ∨ f.markerSlot ≠ slot.val := by
      rw [← Bool.not_eq_true, ← Classical.not_and_iff_not_or_not]
      exact Classical.em _
    have hanswer : answer.point = (s.voidAnswer p).point ∧ ∀ d, d ≠ k.channel → answer.channel d = s.channel d := by
      rcases hmarks with h | h
      · rw [hverdict h]
        exact ⟨rfl, fun d hd => if_neg hd⟩
      · rw [hvoid h]
        exact ⟨rfl, fun _ _ => rfl⟩
    have hpend (hn : answer.leads = []) : t.attention.isPending .leadState = s.attention.isPending .leadState :=
      htells.leaves (by
        rintro (hj | ⟨-, hj⟩ | hj)
        · exact hj
        · exact hj hn
        · exact hreply hj) AttnClass.noConfusion
    have hraise (b : RecordBody) (hb : answer.leads = [b]) : t.attention.isPending .leadState = true :=
      htells.raises (.inr (.inl ⟨rfl, by rw [hb]; exact List.cons_ne_nil _ _⟩))
    refine ⟨t, answer.leads, reply.bodies, hexec, htells.builder, hone, hnoreply, ?_, fun q hq => ?_, fun d hd => ?_,
      fun h => ?_, fun h => ?_⟩
    · rw [hpoint p, hanswer.1]
      exact if_pos rfl
    · rw [hpoint q, hanswer.1]
      exact if_neg hq
    · rw [hchannel d, hanswer.2 d hd]
    · obtain rfl := hverdict h
      have hchan : t.channel k.channel = { s.channel k.channel with
          lead := (s.channel k.channel).verdict (f.sampleAt slot.val), due := false } :=
        (hchannel k.channel).trans (if_pos rfl)
      have hleads : (s.verdictAnswer p k.channel (f.sampleAt slot.val)).leads =
        leadRecords s k.channel ((s.channel k.channel).verdict (f.sampleAt slot.val)) := rfl
      unfold ChannelRecord.verdict at hchan hleads
      obtain ⟨hnew, hsecond, hstays, hrestored, hclear⟩ :=
        leadRecords_eq s k.channel ((s.channel k.channel).entry.suspects (f.sampleAt slot.val))
      rw [← hleads] at hnew hsecond hstays hrestored hclear
      refine ⟨_, MapEntry.suspects_eq _, ?_, ?_⟩
      · rw [hchan]
      rw [hchan]
      exact ⟨hnew, fun hq hl => ⟨(hsecond hq hl).1, (hsecond hq hl).2, hraise _ (hsecond hq hl).2⟩, hstays,
        fun hq hl => ⟨(hrestored hq hl).1, (hrestored hq hl).2, hraise _ (hrestored hq hl).2⟩, hclear, hpend⟩
    · obtain rfl := hvoid h
      exact ⟨hchannel k.channel, rfl, hpend rfl⟩
  case void =>
    intro s bytes leadFirst m p hl hm he hi ht hf hs hp
    have hexec := exec_sampleFrame_good ⟨hl, hm, he, hi, ht, hf⟩ leadFirst
    generalize parseSampleFrame bytes = f at *
    obtain ⟨-, -, hpoint, hchannel, htells, -⟩ := s.takeGoodFrame_spec m f leadFirst rfl rfl rfl rfl
    obtain ⟨k, hk⟩ := State.checkedBy_check hp
    have hanswer : s.checkAnswer m f ((s.module m).state == .locked) = s.voidAnswer p := by
      rw [(State.checkAnswer_asked hp hk f _).1, beq_false_of_ne hs]
      rfl
    obtain ⟨-, -, hrecord, hreply⟩ := replyTurn_records s.count m f ((s.module m).takeFrame f)
    obtain ⟨hlock, hraise⟩ := goodTurn_records s m f (s.module m)
    rw [hanswer] at hpoint hchannel htells
    refine ⟨_, _, hexec, (hpoint p).trans (if_pos rfl), fun q hq => (hpoint q).trans (if_neg hq),
      Vector.ext fun i hi => hchannel ⟨i, hi⟩, htells.builder, fun b hb => ?_, htells.leaves ?_ AttnClass.noConfusion⟩
    · rcases mem_goodRecords hb with hb | hb | hb
      · exact .inl (hlock b hb)
      · exact absurd hb List.not_mem_nil
      · exact .inr (hrecord b hb)
    · rintro (hj | ⟨-, hj⟩ | hj)
      · exact hraise hj
      · exact hj rfl
      · exact hreply hj
  case deadline =>
    intro s sfi o
    have h := s.expire_newTick sfi o
    refine ⟨_, exec_expiry s sfi o, fun p x hx hs => ?_, fun p k _ _ => ⟨(h.entry k.channel).2, fun hd => ?_⟩⟩
    · obtain ⟨kk, c, b, a, q, sh, honly⟩ := h.only
      have hcount := h.last.count
      rw [honly] at hx
      obtain ⟨-, htick, hfield⟩ := h.marked.sent p x hx hs
      rw [hcount]
      refine ⟨htick, ?_⟩
      rw [honly]
      exact hfield
    · exact (h.dues k.channel).mpr (.inl hd)

end Sys2Proof.Machine
end

section
/-! PROOFS. Commands that end and modules that are lost before the turns of an expiry: their records and classes, each
once (R13, R15, R19). -/

namespace Sys2Proof.Machine

/-! ### What is said and pending -/

/-- `t` is `s` after it offered `bodies` and raised the classes of `classes`, as the records and the pending classes show
it. -/
structure Says (bodies : List RecordBody) (classes : AttnClass → Prop) (s t : State) : Prop where
  builder : t.builder = s.builder.offers bodies
  grows : s.builder.queue.length ≤ t.builder.queue.length
  pending : ∀ j, t.attention.isPending j = true ↔ s.attention.isPending j = true ∨ classes j ∨
    (j = .queueHigh ∧ s.builder.queue.length < 64 ∧ 64 ≤ t.builder.queue.length)

theorem Tells.says {bodies : List RecordBody} {classes : AttnClass → Prop} {s t : State} (h : Tells bodies classes s t) :
    Says bodies classes s t :=
  ⟨h.builder, h.grows, h.isPending_iff⟩

theorem Says.silent {s t : State} (hb : t.builder = s.builder)
    (ha : ∀ j, t.attention.isPending j = s.attention.isPending j) : Says [] (fun _ => False) s t :=
  ⟨hb, Nat.le_of_eq (congrArg (fun b => b.queue.length) hb.symm), fun j => by
    rw [ha j, hb]
    exact ⟨.inl, fun h => h.elim id fun h => h.elim False.elim fun h => (not_reached h).elim⟩⟩

theorem Says.trans {x y : List RecordBody} {f g : AttnClass → Prop} {s t u : State} (h : Says x f s t)
    (k : Says y g t u) : Says (x ++ y) (fun j => f j ∨ g j) s u := by
  refine ⟨by rw [k.builder, h.builder, RecordBuilder.offers_append], Nat.le_trans h.grows k.grows, fun j => ?_⟩
  have hg := h.grows
  have kg := k.grows
  rw [k.pending j, h.pending j]
  constructor
  · rintro ((hs | hf | ⟨hj, hlt, hle⟩) | hgj | ⟨hj, hlt, hle⟩)
    · exact .inl hs
    · exact .inr (.inl (.inl hf))
    · exact .inr (.inr ⟨hj, hlt, by omega⟩)
    · exact .inr (.inl (.inr hgj))
    · exact .inr (.inr ⟨hj, by omega, hle⟩)
  · rintro (hs | (hf | hgj) | ⟨hj, hlt, hle⟩)
    · exact .inl (.inl hs)
    · exact .inl (.inr (.inl hf))
    · exact .inr (.inl hgj)
    · by_cases ht : t.builder.queue.length < 64
      · exact .inr (.inr ⟨hj, ht, hle⟩)
      · exact .inl (.inr (.inr ⟨hj, hlt, by omega⟩))

theorem Says.mono {x : List RecordBody} {f g : AttnClass → Prop} {s t : State} (h : Says x f s t)
    (e : ∀ j, f j ↔ g j) : Says x g s t :=
  ⟨h.builder, h.grows, fun j => by rw [h.pending j, e j]⟩

theorem Says.keeps {x : List RecordBody} {f : AttnClass → Prop} {s t : State} (h : Says x f s t) {j : AttnClass}
    (hj : s.attention.isPending j = true) : t.attention.isPending j = true :=
  (h.pending j).mpr (.inl hj)

theorem Says.raises {x : List RecordBody} {f : AttnClass → Prop} {s t : State} (h : Says x f s t) {j : AttnClass}
    (hj : f j) : t.attention.isPending j = true :=
  (h.pending j).mpr (.inr (.inl hj))

theorem Attention.setLine_isPending (a : Attention) (l : LineId) (p : PulseState) (j : AttnClass) :
    (a.setLine l p).isPending j = a.isPending j := by
  cases l <;> rfl

theorem State.expireLine_isPending (s : State) (l : LineId) (j : AttnClass) :
    (s.expireLine l).attention.isPending j = s.attention.isPending j := by
  have hpulse (s : State) : (s.expirePulse l).attention.isPending j = s.attention.isPending j := by
    unfold State.expirePulse
    split
    · exact Attention.setLine_isPending _ _ _ _
    · rfl
  have hgap (s : State) : (s.expireGap l).attention.isPending j = s.attention.isPending j := by
    unfold State.expireGap
    split
    · exact Attention.setLine_isPending _ _ _ _
    · rfl
  exact (hgap _).trans (hpulse s)

/-! ### A module that is lost, a command that ends (R15, R19) -/

/-- The record of a module that goes from `x` to `y`: of its loss, or of the end of its command. -/
def ModuleEnds (epoch : Tick) (unset : Bool) (m : Module) (x y : ModuleRecord) (b : RecordBody) : Prop :=
  (x.state = .locked ∧ y.state = .lost ∧ b = .status (.moduleLost m) epoch unset) ∨
    ∃ k, x.command = some k ∧ y.command = none ∧ b = noAnswerReply m k

/-- The class raised by a module that goes from `x` to `y`. -/
def ModuleRaises (x y : ModuleRecord) (j : AttnClass) : Prop :=
  (j = .moduleState ∧ x.state = .locked ∧ y.state = .lost) ∨ (j = .replyReady ∧ x.command ≠ none ∧ y.command = none)

/-- Before the turns of an expiry a module keeps its state or is lost, and its command stands or has ended. -/
structure ModuleFalls (x y : ModuleRecord) : Prop where
  state : y.state = x.state ∨ (x.state = .locked ∧ y.state = .lost)
  command : y.command = x.command ∨ y.command = none

theorem ModuleFalls.same {x y : ModuleRecord} (hs : y.state = x.state) (hc : y.command = x.command) :
    ModuleFalls x y :=
  ⟨.inl hs, .inl hc⟩

theorem ModuleFalls.trans {x y z : ModuleRecord} (h : ModuleFalls x y) (k : ModuleFalls y z) : ModuleFalls x z := by
  refine ⟨?_, ?_⟩
  · rcases k.state with hz | ⟨hy, hz⟩
    · rw [hz]
      exact h.state
    · rcases h.state with hx | ⟨-, hx⟩
      · exact .inr ⟨hx ▸ hy, hz⟩
      · rw [hx] at hy
        cases hy
  · rcases k.command with hz | hz
    · rw [hz]
      exact h.command
    · exact .inr hz

theorem ModuleFalls.lost_iff {x y z : ModuleRecord} (h : ModuleFalls x y) (k : ModuleFalls y z) :
    (x.state = .locked ∧ z.state = .lost) ↔
      (x.state = .locked ∧ y.state = .lost) ∨ (y.state = .locked ∧ z.state = .lost) := by
  constructor
  · rintro ⟨hx, hz⟩
    rcases h.state with hy | hy
    · exact .inr ⟨hy.trans hx, hz⟩
    · exact .inl hy
  · rintro (⟨hx, hy⟩ | ⟨hy, hz⟩)
    · refine ⟨hx, ?_⟩
      rcases k.state with hz | ⟨hl, -⟩
      · exact hz.trans hy
      · rw [hy] at hl
        cases hl
    · refine ⟨?_, hz⟩
      rcases h.state with hx | ⟨-, hl⟩
      · exact hx.symm.trans hy
      · rw [hl] at hy
        cases hy

theorem ModuleFalls.ended_iff {x y z : ModuleRecord} (h : ModuleFalls x y) (k : ModuleFalls y z) (c : ModuleCommand) :
    (x.command = some c ∧ z.command = none) ↔
      (x.command = some c ∧ y.command = none) ∨ (y.command = some c ∧ z.command = none) := by
  constructor
  · rintro ⟨hx, hz⟩
    rcases h.command with hy | hy
    · exact .inr ⟨hy.trans hx, hz⟩
    · exact .inl ⟨hx, hy⟩
  · rintro (⟨hx, hy⟩ | ⟨hy, hz⟩)
    · refine ⟨hx, ?_⟩
      rcases k.command with hz | hz
      · exact hz.trans hy
      · exact hz
    · refine ⟨?_, hz⟩
      rcases h.command with hx | hx
      · exact hx.symm.trans hy
      · rw [hx] at hy
        cases hy

theorem ModuleEnds.trans_iff {epoch : Tick} {unset : Bool} {m : Module} {x y z : ModuleRecord} (h : ModuleFalls x y)
    (k : ModuleFalls y z) (b : RecordBody) : ModuleEnds epoch unset m x z b ↔
      ModuleEnds epoch unset m x y b ∨ ModuleEnds epoch unset m y z b := by
  simp only [ModuleEnds, ← and_assoc, h.lost_iff k, h.ended_iff k, or_and_right, exists_or]
  exact or_or_or_comm

theorem ModuleRaises.trans_iff {x y z : ModuleRecord} (h : ModuleFalls x y) (k : ModuleFalls y z) (j : AttnClass) :
    ModuleRaises x z j ↔ ModuleRaises x y j ∨ ModuleRaises y z j := by
  simp only [ModuleRaises, h.lost_iff k, Option.ne_none_iff_exists', and_or_left]
  simp only [← exists_and_right, h.ended_iff k, exists_or, and_or_left]
  exact or_or_or_comm

theorem Module.byte_inj : ∀ m n : Module, BitVec.ofNat 8 m.val = BitVec.ofNat 8 n.val → m = n := by
  decide

theorem noAnswerReply_module {m n : Module} {k c : ModuleCommand} (h : noAnswerReply m k = noAnswerReply n c) :
    m = n := by
  unfold noAnswerReply at h
  injection h with h
  injection h with _ _ _ h
  injection h with h
  exact Module.byte_inj m n h

/-- A record of a module's loss or of its command's end is made once. -/
theorem ModuleEnds.once {epoch : Tick} {unset : Bool} {m n : Module} {x y x' y' : ModuleRecord} {b : RecordBody}
    (h : ModuleEnds epoch unset m x y b) (k : ModuleEnds epoch unset n x' y' b) : m = n ∧
      ((y.state = .lost ∧ x'.state = .locked) ∨ (y.command = none ∧ x'.command ≠ none)) := by
  rcases h with ⟨-, hy, rfl⟩ | ⟨c, -, hy, rfl⟩ <;> rcases k with ⟨hx, -, hb⟩ | ⟨d, hx, -, hb⟩
  · injection hb with hb
    injection hb with hb
    exact ⟨hb, .inl ⟨hy, hx⟩⟩
  · cases hb
  · cases hb
  · exact ⟨noAnswerReply_module hb, .inr ⟨hy, by rw [hx]; exact Option.some_ne_none d⟩⟩

/-! ### A stage before the turns -/

/-- What a stage before the turns does: modules are lost, commands end, and each says so once. -/
structure Ends (epoch : Tick) (unset : Bool) (s t : State) : Prop where
  falls : ∀ m, ModuleFalls (s.module m) (t.module m)
  said : ∃ bodies : List RecordBody, bodies.Nodup ∧
    (∀ b, b ∈ bodies ↔ ∃ m, ModuleEnds epoch unset m (s.module m) (t.module m) b) ∧
    Says bodies (fun j => ∃ m, ModuleRaises (s.module m) (t.module m) j) s t

theorem ModuleEnds.not_same {epoch : Tick} {unset : Bool} {m : Module} {x y : ModuleRecord} {b : RecordBody}
    (hs : y.state = x.state) (hc : y.command = x.command) : ¬ModuleEnds epoch unset m x y b := by
  rintro (⟨hx, hy, -⟩ | ⟨c, hx, hy, -⟩)
  · rw [hs, hx] at hy
    cases hy
  · rw [hc, hx] at hy
    cases hy

theorem ModuleRaises.not_same {x y : ModuleRecord} {j : AttnClass} (hs : y.state = x.state)
    (hc : y.command = x.command) : ¬ModuleRaises x y j := by
  rintro (⟨-, hx, hy⟩ | ⟨-, hx, hy⟩)
  · rw [hs, hx] at hy
    cases hy
  · exact hx (hc ▸ hy)

/-- A stage in which no module is lost and no command ends. -/
theorem Ends.silent {epoch : Tick} {unset : Bool} {s t : State}
    (hm : ∀ m, (t.module m).state = (s.module m).state ∧ (t.module m).command = (s.module m).command)
    (hs : Says [] (fun _ => False) s t) : Ends epoch unset s t :=
  ⟨fun m => .same (hm m).1 (hm m).2, [], List.nodup_nil,
    fun _ => iff_of_false List.not_mem_nil fun ⟨m, h⟩ => ModuleEnds.not_same (hm m).1 (hm m).2 h,
    hs.mono fun _ => iff_of_false id fun ⟨m, h⟩ => ModuleRaises.not_same (hm m).1 (hm m).2 h⟩

theorem Ends.refl (epoch : Tick) (unset : Bool) (s : State) : Ends epoch unset s s :=
  .silent (fun _ => ⟨rfl, rfl⟩) (Tells.refl s).says

theorem Ends.trans {epoch : Tick} {unset : Bool} {s t u : State} (h : Ends epoch unset s t) (k : Ends epoch unset t u) :
    Ends epoch unset s u := by
  obtain ⟨x, hx, hxm, hxs⟩ := h.said
  obtain ⟨y, hy, hym, hys⟩ := k.said
  refine ⟨fun m => (h.falls m).trans (k.falls m), x ++ y, List.nodup_append.mpr ⟨hx, hy, ?_⟩, fun b => ?_,
    (hxs.trans hys).mono fun j => ?_⟩
  · intro a ha b hb hab
    obtain ⟨m, hm⟩ := (hxm a).mp ha
    obtain ⟨n, hn⟩ := (hym b).mp hb
    rw [← hab] at hn
    obtain ⟨rfl, hc⟩ := hm.once hn
    rcases hc with ⟨hl, hk⟩ | ⟨hl, hk⟩
    · rw [hl] at hk
      cases hk
    · exact hk hl
  · rw [List.mem_append, hxm, hym, ← exists_or]
    exact exists_congr fun m => (ModuleEnds.trans_iff (h.falls m) (k.falls m) b).symm
  · rw [← exists_or]
    exact exists_congr fun m => (ModuleRaises.trans_iff (h.falls m) (k.falls m) j).symm

/-- A turn of one module as such a stage. -/
theorem Ends.turns {epoch : Tick} {unset : Bool} {m : Module} {y : ModuleTurn} {s t : State} (h : Turns m y s t)
    (hfalls : ModuleFalls (s.module m) y.leaves) (hn : y.bodies.Nodup)
    (hb : ∀ b, b ∈ y.bodies ↔ ModuleEnds epoch unset m (s.module m) y.leaves b)
    (hc : ∀ j, y.classes j ↔ ModuleRaises (s.module m) y.leaves j) : Ends epoch unset s t := by
  have hsame (n : Module) (hn : n ≠ m) : (t.module n).state = (s.module n).state ∧
      (t.module n).command = (s.module n).command := by
    rw [h.others n hn]
    exact ⟨rfl, rfl⟩
  refine ⟨fun n => ?_, y.bodies, hn, fun b => (hb b).trans ⟨fun hy => ⟨m, h.here ▸ hy⟩, fun ⟨n, hy⟩ => ?_⟩,
    h.tells.says.mono fun j => (hc j).trans ⟨fun hy => ⟨m, h.here ▸ hy⟩, fun ⟨n, hy⟩ => ?_⟩⟩
  · by_cases hnm : n = m
    · rw [hnm, h.here]
      exact hfalls
    · exact .same (hsame n hnm).1 (hsame n hnm).2
  · by_cases hnm : n = m
    · rw [hnm, h.here] at hy
      exact hy
    · exact absurd hy (ModuleEnds.not_same (hsame n hnm).1 (hsame n hnm).2)
  · by_cases hnm : n = m
    · rw [hnm, h.here] at hy
      exact hy
    · exact absurd hy (ModuleRaises.not_same (hsame n hnm).1 (hsame n hnm).2)

theorem Ends.quiet {epoch : Tick} {unset : Bool} {m : Module} {x : ModuleRecord} {s t : State}
    (h : Turns m (.quiet x) s t) (hs : x.state = (s.module m).state) (hc : x.command = (s.module m).command) :
    Ends epoch unset s t :=
  .turns h (.same hs hc) List.nodup_nil (fun _ => iff_of_false List.not_mem_nil (ModuleEnds.not_same hs hc))
    fun _ => iff_of_false id (ModuleRaises.not_same hs hc)

theorem ModuleRecord.mem_unanswered (m : Module) (x : ModuleRecord) (b : RecordBody) :
    b ∈ x.unanswered m ↔ ∃ k, x.command = some k ∧ b = noAnswerReply m k := by
  unfold ModuleRecord.unanswered
  rw [Option.mem_toList, Option.map_eq_some_iff]
  exact exists_congr fun k => and_congr_right fun _ => eq_comm

theorem ModuleRecord.unanswered_nodup (m : Module) (x : ModuleRecord) : (x.unanswered m).Nodup := by
  unfold ModuleRecord.unanswered
  cases x.command
  · exact List.nodup_nil
  · exact nodup_one _

theorem Ends.endCommand (epoch : Tick) (unset : Bool) (s : State) (m : Module) :
    Ends epoch unset s (s.endCommand m .noAnswer none) := by
  have hlost : ¬((s.module m).state = .locked ∧ (s.module m).freed.state = .lost) := by
    rintro ⟨hx, hy⟩
    rw [show (s.module m).freed.state = (s.module m).state from rfl, hx] at hy
    cases hy
  refine .turns (.endCommand m s) ⟨.inl rfl, .inr rfl⟩ (ModuleRecord.unanswered_nodup m _) (fun b => ?_) fun j => ?_
  · refine ((s.module m).mem_unanswered m b).trans ⟨fun ⟨k, hk, hb⟩ => .inr ⟨k, hk, rfl, hb⟩, ?_⟩
    rintro (⟨hx, hy, -⟩ | ⟨k, hk, -, hb⟩)
    · exact absurd ⟨hx, hy⟩ hlost
    · exact ⟨k, hk, hb⟩
  · refine ⟨fun ⟨hj, hk⟩ => .inr ⟨hj, hk, rfl⟩, ?_⟩
    rintro (⟨-, hx, hy⟩ | ⟨hj, hk, -⟩)
    · exact absurd ⟨hx, hy⟩ hlost
    · exact ⟨hj, hk⟩

theorem Ends.foldl {α : Type} {epoch : Tick} {unset : Bool} (f : State → α → State) (I : State → Prop)
    (h : ∀ s x, I s → Ends epoch unset s (f s x) ∧ I (f s x)) (l : List α) {s : State} (hs : I s) :
    Ends epoch unset s (l.foldl f s) := by
  induction l generalizing s with
  | nil => exact .refl _ _ s
  | cons x xs ih => exact (h s x hs).1.trans (ih (h s x hs).2)

theorem Ends.timeoutAll (epoch : Tick) (unset : Bool) (s : State) (order : List Module) :
    Ends epoch unset s (s.timeoutAll order) := by
  refine Ends.foldl State.timeoutCommand (fun _ => True) (fun s m _ => ⟨?_, trivial⟩) order trivial
  unfold State.timeoutCommand
  split
  · exact .endCommand _ _ s m
  · exact .refl _ _ s

/-! ### The misses of the ending tick (R6, R13) -/

/-- What the deadline does to a module, by its state record. -/
def missTurn (s : State) (m : Module) (x : ModuleRecord) : ModuleTurn :=
  if (s.setup.enables m && !x.taken) = false ∨ x.state = .disabled then .quiet x
  else if x.state = .locked then if s.setup.missLimit ≤ x.missCount + 1 then .lost s m x.missed else .quiet x.missed
  else .quiet { x with goodRun := 0 }

/-- The deadline of one module. -/
def State.missIf (s : State) (m : Module) : State :=
  if s.setup.enables m && !(s.module m).taken then s.missModule m else s

theorem State.countMisses_eq (s : State) (order : List Module) : s.countMisses order = order.foldl State.missIf s :=
  rfl

theorem Turns.missModule_locked (m : Module) (s : State) (h : (s.module m).state = .locked) :
    Turns m (if s.setup.missLimit ≤ (s.module m).missCount + 1 then .lost s m (s.module m).missed
      else .quiet (s.module m).missed) s (s.missModule m) := by
  have hmiss := Turns.modModule m s ModuleRecord.missed
  have heq : s.missModule m = if s.setup.missLimit ≤ (s.module m).missCount + 1 then
      (s.modModule m ModuleRecord.missed).loseModule m else s.modModule m ModuleRecord.missed := by
    rw [State.missModule, h]
    rfl
  rw [heq]
  split
  · have hlose := Turns.loseModule m (s.modModule m ModuleRecord.missed)
    rw [hmiss.here, ModuleTurn.lost_same hmiss.onModules] at hlose
    exact (hmiss.trans hlose).mono rfl (fun j => Iff.of_eq (false_or _)) rfl
  · exact hmiss

theorem Turns.missModule_idle (m : Module) (s : State) (h : (s.module m).state = .seeking ∨ (s.module m).state = .lost) :
    Turns m (.quiet { s.module m with goodRun := 0 }) s (s.missModule m) := by
  have heq : s.missModule m = s.modModule m fun r => { r with goodRun := 0 } := by
    unfold State.missModule
    rcases h with h | h <;> rw [h]
  rw [heq]
  exact .modModule m s fun r => { r with goodRun := 0 }

theorem State.missModule_disabled {m : Module} {s : State} (h : (s.module m).state = .disabled) : s.missModule m = s := by
  rw [State.missModule, h]

theorem moduleOp_missIf : ModuleOp State.missIf missTurn where
  acts s m := by
    unfold State.missIf missTurn
    by_cases hc : (s.setup.enables m && !(s.module m).taken) = true
    · rw [if_pos hc]
      by_cases hd : (s.module m).state = .disabled
      · rw [if_pos (.inr hd), State.missModule_disabled hd]
        exact .refl m s
      · rw [if_neg (not_or.mpr ⟨ne_false_of_eq_true hc, hd⟩)]
        by_cases hl : (s.module m).state = .locked
        · rw [if_pos hl]
          exact .missModule_locked m s hl
        · rw [if_neg hl]
          refine .missModule_idle m s ?_
          cases hs : (s.module m).state with
          | seeking => exact .inl rfl
          | lost => exact .inr rfl
          | disabled => exact absurd hs hd
          | locked => exact absurd hs hl
    · rw [if_neg hc, if_pos (.inl (eq_false_of_ne_true hc))]
      exact .refl m s
  same ho m x := by
    unfold missTurn
    rw [ho.kept.1, ModuleTurn.lost_same ho]

theorem Ends.missIf {epoch : Tick} {unset : Bool} {s : State} (he : s.epochNow = epoch)
    (hu : s.control.epochUnset = unset) (m : Module) : Ends epoch unset s (s.missIf m) := by
  have h := moduleOp_missIf.acts s m
  generalize s.missIf m = t at h
  unfold missTurn at h
  split at h
  · exact .quiet h rfl rfl
  · split at h
    · next hs =>
      split at h
      · refine .turns h ⟨.inr ⟨hs, rfl⟩, .inr rfl⟩ ?_ (fun b => ?_) fun j => ?_
        · refine List.nodup_cons.mpr ⟨fun hb => ?_, ModuleRecord.unanswered_nodup m _⟩
          obtain ⟨k, -, hk⟩ := (ModuleRecord.mem_unanswered m _ _).mp hb
          cases hk
        · refine (List.mem_cons.trans (or_congr_right (ModuleRecord.mem_unanswered m _ _))).trans ?_
          rw [he, hu]
          exact or_congr ⟨fun hb => ⟨hs, rfl, hb⟩, fun hb => hb.2.2⟩
            (exists_congr fun k => and_congr_right fun _ => ⟨fun hb => ⟨rfl, hb⟩, And.right⟩)
        · exact or_congr ⟨fun hj => ⟨hj, hs, rfl⟩, And.left⟩
            (and_congr_right fun _ => ⟨fun hk => ⟨hk, rfl⟩, And.left⟩)
      · exact .quiet h rfl rfl
    · exact .quiet h rfl rfl

theorem Ends.countMisses {epoch : Tick} {unset : Bool} {s : State} (he : s.epochNow = epoch)
    (hu : s.control.epochUnset = unset) (order : List Module) : Ends epoch unset s (s.countMisses order) := by
  refine Ends.foldl State.missIf (fun t => t.epochNow = epoch ∧ t.control.epochUnset = unset)
    (fun t m ht => ⟨.missIf ht.1 ht.2 m, ?_⟩) order ⟨he, hu⟩
  obtain ⟨-, hcontrol, hcount⟩ := (moduleOp_missIf.acts t m).onModules.kept
  unfold State.epochNow State.epochOf at ht ⊢
  rw [hcontrol, hcount]
  exact ht

end Sys2Proof.Machine
end

section
/-! PROOFS. The supply changes that an expiry takes first: a failure, a return from HOLDUP, a return from STANDBY (log
entry 2; R167, R168, R170, R173). -/

namespace Sys2Proof.Machine

/-! ### Which kinds of records are offered -/

/-- The records offered to `b` until it is `c` are all of `P`. -/
def OffersOnly (P : RecordBody → Prop) (b c : RecordBuilder) : Prop :=
  ∃ bodies : List RecordBody, c = b.offers bodies ∧ ∀ x ∈ bodies, P x

theorem OffersOnly.refl (P : RecordBody → Prop) (b : RecordBuilder) : OffersOnly P b b :=
  ⟨[], rfl, fun _ hx => absurd hx List.not_mem_nil⟩

theorem OffersOnly.trans {P : RecordBody → Prop} {b c d : RecordBuilder} (h : OffersOnly P b c) (k : OffersOnly P c d) :
    OffersOnly P b d := by
  obtain ⟨x, rfl, hx⟩ := h
  obtain ⟨y, rfl, hy⟩ := k
  exact ⟨x ++ y, (b.offers_append x y).symm, fun z hz => (List.mem_append.mp hz).elim (hx z) (hy z)⟩

theorem OffersOnly.mono {P Q : RecordBody → Prop} {b c : RecordBuilder} (h : OffersOnly P b c) (e : ∀ x, P x → Q x) :
    OffersOnly Q b c := by
  obtain ⟨x, hb, hx⟩ := h
  exact ⟨x, hb, fun z hz => e z (hx z hz)⟩

theorem Tells.offersOnly {P : RecordBody → Prop} {bodies : List RecordBody} {classes : AttnClass → Prop} {s t : State}
    (h : Tells bodies classes s t) (hp : ∀ x ∈ bodies, P x) : OffersOnly P s.builder t.builder :=
  ⟨bodies, h.builder, hp⟩

/-- A record that no measurement of a point brings; a summary counts as one if `summaries`. -/
def RecordBody.Apart (summaries : Prop) : RecordBody → Prop
  | .status .. => True
  | .reply _ => True
  | .closure _ => True
  | .summary _ => summaries
  | .event _ => False
  | .interval _ => False
  | .block _ => False

theorem RecordBody.Apart.weaken {q : Prop} {x : RecordBody} (h : x.Apart False) : x.Apart q := by
  cases x with
  | summary r => exact h.elim
  | _ => exact h

/-! ### A failure and a return from HOLDUP -/

/-- The state once a supply failure and a return from HOLDUP that were still to be taken are taken. -/
def State.supplyTaken (s : State) : State :=
  s.takeFailure.takeReturnHoldup

/-- An entry to HOLDUP says so, and that it truncated the capture. -/
theorem Tells.enterHoldup (s : State) : ∃ bodies classes, Tells bodies classes (s.heldUp (priorOf s.control.device))
    s.enterHoldup ∧ ∀ x ∈ bodies, x.Apart False := by
  have hstatus := Tells.offer (s.heldUp (priorOf s.control.device))
    (.status (.holdupEntered (priorOf s.control.device).device) s.epochNow s.control.epochUnset)
  have hcapture := ((s.heldUp (priorOf s.control.device)).offerStatus
    (.holdupEntered (priorOf s.control.device).device)).endCapture_tells .truncatedSupply
  refine ⟨_, _, (hstatus.trans hcapture).trans (.raise _ .supply), fun x hx => ?_⟩
  rcases List.mem_append.mp hx with hx | hx
  · rcases List.mem_append.mp hx with hx | hx
    · rw [List.mem_singleton.mp hx]
      exact trivial
    · obtain ⟨c, -, rfl⟩ := List.mem_map.mp hx
      exact trivial
  · exact absurd hx List.not_mem_nil

theorem State.enterHoldup_offers (s : State) :
    OffersOnly (RecordBody.Apart False) s.builder s.enterHoldup.builder := by
  obtain ⟨bodies, classes, h, hp⟩ := Tells.enterHoldup s
  exact h.offersOnly hp

theorem State.restoreSupply_offers (s : State) (d : DeviceState) :
    OffersOnly (RecordBody.Apart False) s.builder (s.restoreSupply d).builder :=
  (Tells.restoreSupply s d).offersOnly (s := { s with control := s.control.restored d }) fun x hx => by
    rw [List.mem_singleton.mp hx]
    exact trivial

theorem State.restoreSupply_eq (s : State) (d : DeviceState) : ∃ b a, s.restoreSupply d = { s with
    control := s.control.restored d, builder := b, attention := a } := by
  obtain ⟨b, a, -, he⟩ := s.restoreSupply_noted d
  exact ⟨b, a, he⟩

theorem Control.returnState_cases (c : Control) :
    (c.returnState = .running ∧ c.prior = some .running) ∨ (c.returnState = .stopped ∧ c.prior ≠ some .running) := by
  unfold Control.returnState
  cases c.prior with
  | none => exact .inr ⟨rfl, nofun⟩
  | some q =>
    cases q with
    | stopped => exact .inr ⟨rfl, nofun⟩
    | running => exact .inl ⟨rfl, rfl⟩

/-- HOLDUP is entered, or it is left, or the supply has not changed. -/
theorem State.supplyTaken_cases (s : State) :
    (s.supplyFailed = true ∧ s.supplyTaken = s.enterHoldup) ∨
    (s.control.level = .good ∧ s.control.device = .holdup ∧
      s.supplyTaken = s.restoreSupply s.control.returnState) ∨
    (s.supplyFailed = false ∧ (s.control.level = .failing ∨ s.control.device ≠ .holdup) ∧ s.supplyTaken = s) := by
  unfold State.supplyTaken
  cases hf : s.supplyFailed with
  | true =>
    have ht : s.takeFailure = s.enterHoldup := if_pos hf
    obtain ⟨c, b, a, he⟩ := s.enterHoldup_only
    refine .inl ⟨rfl, ?_⟩
    rw [ht]
    refine State.takeReturnHoldup_idle (.inl ?_)
    rw [he]
    exact (s.supplyFailed_iff.mp hf).1
  | false =>
    have ht : s.takeFailure = s := if_neg (Bool.eq_false_iff.mp hf)
    rw [ht]
    by_cases hr : s.control.level = .failing ∨ s.control.device ≠ .holdup
    · exact .inr (.inr ⟨rfl, hr, State.takeReturnHoldup_idle hr⟩)
    · rw [not_or, Classical.not_not] at hr
      have hl : s.control.level = .good := by
        cases h : s.control.level with
        | good => rfl
        | failing => exact absurd h hr.1
      exact .inr (.inl ⟨hl, hr.2, if_pos (by rw [hl, hr.2]; rfl)⟩)

theorem State.supplyTaken_only (s : State) : ∃ k c b a, s.supplyTaken = { s with
      control := k, capture := c, builder := b, attention := a } := by
  rcases s.supplyTaken_cases with ⟨-, h⟩ | ⟨-, -, h⟩ | ⟨-, -, h⟩ <;> rw [h]
  · obtain ⟨c, b, a, he⟩ := s.enterHoldup_only
    exact ⟨_, c, b, a, he⟩
  · obtain ⟨b, a, he⟩ := s.restoreSupply_eq s.control.returnState
    exact ⟨_, _, b, a, he⟩
  · exact ⟨_, _, _, _, rfl⟩

theorem State.supplyTaken_offers (s : State) :
    OffersOnly (RecordBody.Apart False) s.builder s.supplyTaken.builder := by
  rcases s.supplyTaken_cases with ⟨-, h⟩ | ⟨-, -, h⟩ | ⟨-, -, h⟩ <;> rw [h]
  · exact s.enterHoldup_offers
  · exact s.restoreSupply_offers _
  · exact .refl _ _

theorem Stable.supplyTaken (s : State) : Stable s s.supplyTaken :=
  (Stable.takeFailure s).trans (.takeReturnHoldup _)

/-- A failure and a return from HOLDUP change neither whether the device measures nor whether it is in INIT or
STANDBY. -/
theorem State.supplyTaken_device (s : State) : s.supplyTaken.measuring = s.measuring ∧
    (s.supplyTaken.control.device = .init ↔ s.control.device = .init) ∧
    (s.supplyTaken.control.device = .standby ↔ s.control.device = .standby) := by
  rcases s.supplyTaken_cases with ⟨hf, h⟩ | ⟨-, hd, h⟩ | ⟨-, -, h⟩ <;> rw [h]
  · obtain ⟨c, b, a, he⟩ := s.enterHoldup_only
    rw [he]
    unfold State.measuring State.heldUp
    rcases (s.supplyFailed_iff.mp hf).2 with hd | hd <;> rw [hd]
    · exact ⟨rfl, iff_of_false nofun nofun, iff_of_false nofun nofun⟩
    · exact ⟨rfl, iff_of_false nofun nofun, iff_of_false nofun nofun⟩
  · obtain ⟨b, a, he⟩ := s.restoreSupply_eq s.control.returnState
    rw [he]
    unfold State.measuring Control.restored
    rw [hd]
    dsimp only
    rcases s.control.returnState_cases with ⟨hr, hp⟩ | ⟨hr, hp⟩ <;> rw [hr]
    · rw [hp]
      exact ⟨rfl, iff_of_false nofun nofun, iff_of_false nofun nofun⟩
    · rw [beq_false_of_ne hp]
      exact ⟨rfl, iff_of_false nofun nofun, iff_of_false nofun nofun⟩
  · exact ⟨rfl, Iff.rfl, Iff.rfl⟩

/-- The hold-up timer has not run its length once the supply changes are taken. -/
theorem StaysPowered.not_over {s : State} (h : StaysPowered s) : s.supplyTaken.holdupOver = false := by
  refine Bool.eq_false_iff.mpr fun ho => ?_
  obtain ⟨hd, hr, hle⟩ := s.supplyTaken.holdupOver_iff.mp ho
  rcases s.supplyTaken_cases with ⟨hf, hw⟩ | ⟨-, -, hw⟩ | ⟨-, hl, hw⟩ <;> rw [hw] at hd hr hle
  · obtain ⟨hl, hs⟩ := s.supplyFailed_iff.mp hf
    obtain ⟨c, b, a, he⟩ := s.enterHoldup_only
    rw [he] at hle
    have hz : (s.count - s.count).toNat = 0 := by rw [BitVec.sub_self]; rfl
    have hn : s.setup.holdupLimit * 256 ≤ (s.count - s.count).toNat := hle
    have hp := h.failure hs hl
    omega
  · obtain ⟨b, a, he⟩ := s.restoreSupply_eq s.control.returnState
    rw [he] at hd
    have hd : s.control.returnState = .holdup := hd
    rcases s.control.returnState_cases with ⟨hq, -⟩ | ⟨hq, -⟩ <;> rw [hq] at hd <;> cases hd
  · exact absurd (h.holdup hd (hl.resolve_right (not_not_intro hd)) hr) (Nat.not_lt.mpr hle)

theorem StaysPowered.takeHoldupExpiry {s : State} (h : StaysPowered s) (order : List Module) :
    s.supplyTaken.takeHoldupExpiry order = s.supplyTaken :=
  if_neg (Bool.eq_false_iff.mp h.not_over)

/-! ### A return from STANDBY -/

/-- A return from STANDBY changes the spans of points, and of the rest the device, the records and the classes. -/
structure Returns (s t : State) : Prop where
  only : ∃ k b a v, Offered s.builder b ∧ t = { s with control := k, builder := b, attention := a, points := v }
  point : ∀ p, t.point p = (s.point p).spanning (t.point p).block (t.point p).interval (t.point p).assessment
  init : t.control.device = .init ↔ s.control.device = .init

theorem Returns.refl (s : State) : Returns s s :=
  ⟨⟨_, _, _, _, .none, rfl⟩, fun _ => rfl, Iff.rfl⟩

/-- The device returns to `d`, and the spans of its points change. -/
theorem Returns.restored {s u t : State} {d : DeviceState} (hd : s.control.device = .standby) (hi : d ≠ .init)
    (hu : Noted { s with control := s.control.restored d } u) (h : Across u t)
    (hp : ∀ p, t.point p = (u.point p).spanning (t.point p).block (t.point p).interval (t.point p).assessment) :
    Returns s t := by
  obtain ⟨b, a, ho, rfl⟩ := hu
  obtain ⟨b2, a2, v, ho2, rfl⟩ := h.whole
  refine ⟨⟨_, b2, a2, v, ho.trans ho2, rfl⟩, hp, iff_of_false hi ?_⟩
  rw [hd]
  exact DeviceState.noConfusion

theorem Returns.leaveStandby {s : State} (hd : s.control.device = .standby) : Returns s s.leaveStandby := by
  unfold State.leaveStandby
  split
  · dsimp only
    obtain ⟨ha, hin, hout, -⟩ := pointOp_openSpans.foldl (State.measuredPoints_nodup _)
      (s.restoreSupply .running)
    refine .restored hd DeviceState.noConfusion (s.restoreSupply_noted .running) ha fun p => ?_
    by_cases hm : p ∈ (s.restoreSupply .running).measuredPoints
    · rw [hin p hm]
      rfl
    · rw [hout p hm]
      rfl
  · obtain ⟨ha, hin, -, -⟩ := pointOp_endKept.foldl nodup_allFour (s.restoreSupply .stopped)
    refine .restored hd DeviceState.noConfusion (s.restoreSupply_noted .stopped) ha fun p => ?_
    rw [hin p (mem_allFour p), PointRecord.reassessed_none]
    rfl

theorem Returns.takeReturnStandby (s : State) : Returns s s.takeReturnStandby := by
  by_cases h : s.control.level = .failing ∨ s.control.device ≠ .standby
  · rw [State.takeReturnStandby_idle h]
    exact .refl s
  · rw [not_or, Classical.not_not] at h
    unfold State.takeReturnStandby
    split
    · exact .leaveStandby h.2
    · exact .refl s

/-- The device stays in STANDBY or returns to STOPPED: it does not measure, and at most the kept assessments end. -/
theorem State.takeReturnStandby_stays {s : State} (hd : s.control.device = .standby)
    (h : s.control.level = .failing ∨ s.control.prior ≠ some .running ∨ s.setup.restart = .stayStopped) :
    s.takeReturnStandby.measuring = false ∧
    OffersOnly (RecordBody.Apart True) s.builder s.takeReturnStandby.builder ∧
    ∀ p, s.takeReturnStandby.point p = { s.point p with assessment := (s.takeReturnStandby.point p).assessment } := by
  by_cases hl : s.control.level = .failing
  · rw [State.takeReturnStandby_idle (.inl hl)]
    refine ⟨?_, .refl _ _, fun p => rfl⟩
    unfold State.measuring
    rw [hd]
    rfl
  · have hgood : s.control.level = .good := by
      cases hs : s.control.level with
      | good => rfl
      | failing => exact absurd hs hl
    obtain ⟨t, summaries, ht, hcontrol, hbuilder, hsum, -, -, hpoint, -⟩ :=
      supplyReturnLeavesStandby.2.1 s hgood hd (h.resolve_left hl)
    obtain rfl : s.takeReturnStandby = t := Host.Outcome.next.inj ht
    refine ⟨?_, ⟨_ :: summaries, hbuilder, ?_⟩, fun p => ?_⟩
    · unfold State.measuring
      rw [hcontrol]
      rfl
    · refine List.forall_mem_cons.mpr ⟨trivial, fun b hb => ?_⟩
      rw [hsum] at hb
      obtain ⟨p, -, hp⟩ := List.mem_filterMap.mp hb
      obtain ⟨a, -, rfl⟩ := Option.map_eq_some_iff.mp hp
      trivial
    · rw [hpoint p]

end Sys2Proof.Machine
end

section
/-! PROOFS. The deadline of the ending tick, after the supply changes that come first (R6, R8 to R10, R13, R19): the
modules as it leaves them, the set that closes, what was said, and the state before the first turn. -/

namespace Sys2Proof.Machine

/-! ### A module at the deadline (R6, R13) -/

/-- A module after the deadline: it took a frame or is not asked for, it has no frame to miss, or it has a miss. -/
def ModuleRecord.atDeadline (u : Setup) (m : Module) (x : ModuleRecord) : ModuleRecord :=
  if (u.enables m && !x.taken) = false ∨ x.state = .disabled then x
  else if x.state = .locked then if u.missLimit ≤ x.missCount + 1 then x.missed.lostNow else x.missed
  else { x with goodRun := 0 }

theorem missTurn_leaves (s : State) (m : Module) (x : ModuleRecord) :
    (missTurn s m x).leaves = x.atDeadline s.setup m := by
  unfold missTurn ModuleRecord.atDeadline
  repeat' split
  all_goals rfl

section
variable {u : Setup} {m : Module} {x : ModuleRecord}

theorem asked_iff : (u.enables m && !x.taken) = true ↔ u.enables m = true ∧ x.taken = false := by
  rw [Bool.and_eq_true, Bool.not_eq_true']

theorem ModuleRecord.atDeadline_kept (h : u.enables m = false ∨ x.taken = true) : x.atDeadline u m = x := by
  refine if_pos (.inl (Bool.eq_false_iff.mpr fun ha => ?_))
  obtain ⟨he, ht⟩ := asked_iff.mp ha
  rcases h with h | h
  · rw [he] at h
    cases h
  · rw [ht] at h
    cases h

theorem ModuleRecord.atDeadline_asked (he : u.enables m = true) (ht : x.taken = false) (hd : x.state ≠ .disabled) :
    x.atDeadline u m = if x.state = .locked then if u.missLimit ≤ x.missCount + 1 then x.missed.lostNow else x.missed
      else { x with goodRun := 0 } :=
  if_neg (not_or.mpr ⟨ne_false_of_eq_true (asked_iff.mpr ⟨he, ht⟩), hd⟩)

theorem ModuleRecord.atDeadline_idle (he : u.enables m = true) (ht : x.taken = false)
    (h : x.state = .seeking ∨ x.state = .lost) : x.atDeadline u m = { x with goodRun := 0 } := by
  have hd : x.state ≠ .disabled ∧ x.state ≠ .locked := by
    rcases h with h | h <;> rw [h] <;> exact ⟨ModuleState.noConfusion, ModuleState.noConfusion⟩
  rw [ModuleRecord.atDeadline_asked he ht hd.1, if_neg hd.2]

theorem ModuleRecord.atDeadline_missed (he : u.enables m = true) (ht : x.taken = false) (hl : x.state = .locked)
    (h : x.missCount + 1 < u.missLimit) : x.atDeadline u m = x.missed := by
  rw [ModuleRecord.atDeadline_asked he ht (by rw [hl]; exact ModuleState.noConfusion), if_pos hl,
    if_neg (Nat.not_le.mpr h)]

/-- The module becomes LOST at the deadline. -/
def ModuleRecord.Loses (u : Setup) (m : Module) (x : ModuleRecord) : Prop :=
  u.enables m = true ∧ x.taken = false ∧ x.state = .locked ∧ u.missLimit ≤ x.missCount + 1

theorem ModuleRecord.Loses.atDeadline (h : x.Loses u m) : x.atDeadline u m = x.missed.lostNow := by
  obtain ⟨he, ht, hl, hle⟩ := h
  rw [ModuleRecord.atDeadline_asked he ht (by rw [hl]; exact ModuleState.noConfusion), if_pos hl, if_pos hle]

theorem ModuleRecord.atDeadline_command (h : ¬x.Loses u m) : (x.atDeadline u m).command = x.command := by
  unfold ModuleRecord.atDeadline
  repeat' split
  · rfl
  · next ha hl hle =>
    obtain ⟨hn, -⟩ := not_or.mp ha
    obtain ⟨he, ht⟩ := asked_iff.mp (eq_true_of_ne_false hn)
    exact absurd ⟨he, ht, hl, hle⟩ h
  · rfl
  · rfl

/-- The deadline leaves what a module's last good frame fixed. -/
theorem ModuleRecord.atDeadline_same (u : Setup) (m : Module) (x : ModuleRecord) :
    (x.atDeadline u m).taken = x.taken ∧ (x.atDeadline u m).slots = x.slots ∧ (x.atDeadline u m).last = x.last ∧
    (x.atDeadline u m).clippedBefore = x.clippedBefore ∧ (x.atDeadline u m).checkFailures = x.checkFailures ∧
    (x.atDeadline u m).staleFrames = x.staleFrames ∧ (x.atDeadline u m).echo = x.echo := by
  unfold ModuleRecord.atDeadline
  repeat' split
  all_goals exact ⟨rfl, rfl, rfl, rfl, rfl, rfl, rfl⟩

theorem ModuleRecord.atDeadline_not_locked (h : x.state ≠ .locked) : (x.atDeadline u m).state = x.state := by
  unfold ModuleRecord.atDeadline
  rw [if_neg h]
  split <;> rfl

/-- The command that a module has outstanding plays no part at the deadline. -/
theorem ModuleRecord.atDeadline_withCommand (u : Setup) (m : Module) (x : ModuleRecord) (k : Option ModuleCommand) :
    ∃ k', { x with command := k }.atDeadline u m = { x.atDeadline u m with command := k' } := by
  unfold ModuleRecord.atDeadline
  repeat' split
  all_goals exact ⟨_, rfl⟩

end

/-! ### The module's slots of the set that closes (R8) -/

section
variable {r : ModuleRecord} {k : Slot}

theorem ModuleRecord.contribution_taken (h : r.taken = true) : r.contribution[k.val] = r.slots[k.val] := by
  rw [ModuleRecord.contribution, if_pos h]

theorem ModuleRecord.contribution_missing (ht : r.taken = false) (hs : r.state ≠ .locked) :
    r.contribution[k.val] = .missing := by
  rw [ModuleRecord.contribution, if_neg (Bool.eq_false_iff.mp ht), Vector.getElem_ofFn, missSlot, if_neg hs]

theorem ModuleRecord.contribution_held (ht : r.taken = false) (hs : r.state = .locked) : r.contribution[k.val] =
    { code := r.last[k.val], held := true, clipped := r.clippedBefore[k.val], unavailable := false } := by
  rw [ModuleRecord.contribution, if_neg (Bool.eq_false_iff.mp ht), Vector.getElem_ofFn, missSlot, if_pos hs]

end

theorem ModuleRecord.contribution_withCommand (x : ModuleRecord) (k : Option ModuleCommand) :
    { x with command := k }.contribution = x.contribution :=
  rfl

theorem State.closingSet_module (s : State) (m : Module) : s.closingSet[m.val] = (s.module m).contribution :=
  mapAll_get s.modules (fun _ r => r.contribution) m

/-- The set of modules that the deadline left is the one that the expiry is to close. -/
theorem ClosesWith.of_deadline {s t : State}
    (h : ∀ m, ∃ k, t.module m = { (s.module m).atDeadline s.setup m with command := k }) :
    ClosesWith s t.closingSet := by
  have hset (m : Module) : t.closingSet[m.val] = ((s.module m).atDeadline s.setup m).contribution := by
    obtain ⟨k, hk⟩ := h m
    rw [t.closingSet_module, hk, ModuleRecord.contribution_withCommand]
  refine ⟨fun m k ht => ?_, fun m k ht hs he hlt => ?_, fun m k ht hs he hle => ?_, fun m k ht hs => ?_⟩ <;>
    rw [hset m] <;>
    obtain ⟨htaken, hslots, hlast, hclipped, -⟩ := (s.module m).atDeadline_same s.setup m
  · rw [ModuleRecord.contribution_taken (htaken.trans ht), hslots]
  · have hstate : ((s.module m).atDeadline s.setup m).state = .locked := by
      rw [ModuleRecord.atDeadline_missed he ht hs hlt]
      exact hs
    rw [ModuleRecord.contribution_held (htaken.trans ht) hstate, hlast, hclipped]
  · have hstate : ((s.module m).atDeadline s.setup m).state ≠ .locked := by
      rw [ModuleRecord.Loses.atDeadline ⟨he, ht, hs, Nat.le_of_eq hle.symm⟩]
      exact ModuleState.noConfusion
    exact ModuleRecord.contribution_missing (htaken.trans ht) hstate
  · refine ModuleRecord.contribution_missing (htaken.trans ht) ?_
    rwa [ModuleRecord.atDeadline_not_locked hs]

end Sys2Proof.Machine
end

section
/-! PROOFS. From the supply changes to the first turn of an expiry: what is said, how each module stands, and the set and
the references that the points are to take (R8, R10, R13, R19, R27, R115). -/

namespace Sys2Proof.Machine

/-! ### Timeouts (R19) -/

/-- Among timeouts a module keeps all but its command, and a command that waits for its strobe stays. -/
structure Lapsed (x y : ModuleRecord) : Prop where
  same : y = { x with command := y.command }
  command : y.command = x.command ∨ (y.command = none ∧ x.waiting = false)

theorem Lapsed.refl (x : ModuleRecord) : Lapsed x x :=
  ⟨rfl, .inl rfl⟩

theorem Lapsed.trans {x y z : ModuleRecord} (h : Lapsed x y) (k : Lapsed y z) : Lapsed x z := by
  refine ⟨k.same.trans (by rw [h.same]), ?_⟩
  have hw : y.command = x.command → y.waiting = x.waiting := fun e => by
    unfold ModuleRecord.waiting
    rw [e]
  rcases h.command with hy | hy <;> rcases k.command with hz | ⟨hz, hn⟩
  · exact .inl (hz.trans hy)
  · exact .inr ⟨hz, (hw hy).symm.trans hn⟩
  · exact .inr ⟨hz.trans hy.1, hy.2⟩
  · exact .inr ⟨hz, hy.2⟩

theorem State.overdue_not_waiting {s : State} {m : Module} (h : (s.overdueReply m).isSome = true) :
    (s.module m).waiting = false := by
  refine Bool.eq_false_iff.mpr fun hw => ?_
  obtain ⟨k, hk, hs⟩ := (ModuleRecord.waiting_iff _).mp hw
  rw [State.overdueReply_isSome, State.commandOverdue_unsent hk hs] at h
  cases h

theorem State.timeoutAll_lapsed {order : List Module} (ho : order.Nodup) (s : State) (m : Module) :
    Lapsed (s.module m) ((s.timeoutAll order).module m) := by
  rw [(s.timeoutAll_spec order ho).2.2 m]
  split
  · next h => exact ⟨rfl, .inr ⟨rfl, State.overdue_not_waiting h.2⟩⟩
  · exact .refl _

/-! ### On the modules, records and classes alone -/

theorem OnModules.noted {s t : State} (h : Noted s t) : OnModules s t := by
  obtain ⟨b, a, ho, he⟩ := h
  exact ⟨b, a, s.modules, ho, he⟩

theorem OnModules.iteIf {s t : State} {c : Prop} [Decidable c] (h : OnModules s t) : OnModules s (if c then t else s) := by
  split
  · exact h
  · exact .refl s

theorem OnModules.timeoutAll (s : State) (order : List Module) : OnModules s (s.timeoutAll order) :=
  .foldl _ (fun s m => .iteIf (.endCommand s m _ _)) order s

theorem OnModules.expireLine (s : State) (l : LineId) : OnModules s (s.expireLine l) :=
  have hp : OnModules s (s.expirePulse l) := .iteIf (.noted (.attention s _))
  hp.trans (.iteIf (.noted (.attention _ _)))

theorem OnModules.countMisses (s : State) (order : List Module) : OnModules s (s.countMisses order) :=
  .foldl _ (fun s m => (moduleOp_missIf.acts s m).onModules) order s

theorem OnModules.advance {s t : State} (h : OnModules s t) (sfi : SupplyLevel) :
    OnModules (s.advance sfi) (t.advance sfi) := by
  obtain ⟨b, a, v, ho, rfl⟩ := h
  exact ⟨b, a, v, ho, rfl⟩

theorem State.expireLine_only (s : State) (l : LineId) : ∃ a, s.expireLine l = { s with attention := a } := by
  unfold State.expireLine State.expirePulse State.expireGap
  repeat' split
  all_goals exact ⟨_, rfl⟩

/-- A line that ends its pulse or gap says nothing. -/
theorem Ends.expireLine (epoch : Tick) (unset : Bool) (s : State) (l : LineId) :
    Ends epoch unset s (s.expireLine l) := by
  have hp := s.expireLine_isPending l
  obtain ⟨a, he⟩ := s.expireLine_only l
  rw [he] at hp ⊢
  exact .silent (fun _ => ⟨rfl, rfl⟩) (.silent rfl hp)

theorem Ends.lineIf (epoch : Tick) (unset : Bool) (s : State) (first : Bool) (l : LineId) :
    Ends epoch unset s (s.lineIf first l) := by
  unfold State.lineIf
  split
  · exact .expireLine _ _ s l
  · exact .refl _ _ s

theorem Ends.timeoutIfAt (epoch : Tick) (unset : Bool) (s : State) (o : Interleaving) (first : Bool) (k : Nat) :
    Ends epoch unset s (s.timeoutIfAt o first k) := by
  unfold State.timeoutIfAt
  split
  · exact .timeoutAll _ _ s _
  · exact .refl _ _ s

theorem State.expireLine_module (s : State) (l : LineId) (m : Module) : (s.expireLine l).module m = s.module m := by
  obtain ⟨a, he⟩ := s.expireLine_only l
  rw [he]
  rfl

/-! ### The stages up to the deadline -/

/-- The state once the supply changes that were still to be taken are taken, a return from STANDBY with them. -/
def State.changesTaken (s : State) : State :=
  s.supplyTaken.takeReturnStandby

/-- The state of the new tick in which the misses of the ending one are counted. -/
def State.atTick (s : State) (sfi : SupplyLevel) (o : Interleaving) : State :=
  (((s.changesTaken.timeoutAll allFour).expireLine .line0).expireLine .line1).beginTick sfi o |>.timeoutIfAt o true 5

/-- The state in which the misses of the ending tick are counted. -/
def State.judged (s : State) (sfi : SupplyLevel) (o : Interleaving) : State :=
  (s.atTick sfi o).countMisses (orderOf o.moduleOrder)

theorem StaysPowered.atDeadline_eq {s : State} (h : StaysPowered s) (sfi : SupplyLevel) (o : Interleaving) :
    s.atDeadline sfi o = (s.judged sfi o).voidSentChecks := by
  have ht : s.takeDue (orderOf o.moduleOrder) =
      ((s.changesTaken.timeoutAll allFour).expireLine .line0).expireLine .line1 := by
    rw [State.changesTaken, ← h.takeHoldupExpiry (orderOf o.moduleOrder)]
    rfl
  rw [State.atDeadline, ht]
  rfl

theorem OnModules.lineIf (s : State) (first : Bool) (l : LineId) : OnModules s (s.lineIf first l) :=
  .iteIf (.expireLine s l)

theorem OnModules.atTick (s : State) (sfi : SupplyLevel) (o : Interleaving) :
    OnModules (s.changesTaken.advance sfi) (s.atTick sfi o) := by
  have hdue : OnModules s.changesTaken (((s.changesTaken.timeoutAll allFour).expireLine .line0).expireLine .line1) :=
    ((OnModules.timeoutAll _ _).trans (.expireLine _ _)).trans (.expireLine _ _)
  exact (((hdue.advance sfi).trans (.lineIf _ _ _)).trans (.lineIf _ _ _)).trans (.iteIf (.timeoutAll _ _))

theorem OnModules.judged (s : State) (sfi : SupplyLevel) (o : Interleaving) :
    OnModules (s.changesTaken.advance sfi) (s.judged sfi o) :=
  (OnModules.atTick s sfi o).trans (.countMisses _ _)

theorem Stable.changesTaken (s : State) : Stable s s.changesTaken :=
  (Stable.supplyTaken s).trans (.takeReturnStandby _)

theorem State.changesTaken_only (s : State) : ∃ k c b a v, s.changesTaken = { s with
    control := k, capture := c, builder := b, attention := a, points := v } := by
  obtain ⟨k, c, b, a, hs⟩ := s.supplyTaken_only
  obtain ⟨k2, b2, a2, v, -, hr⟩ := (Returns.takeReturnStandby s.supplyTaken).only
  exact ⟨k2, c, b2, a2, v, by rw [State.changesTaken, hr, hs]⟩

theorem State.changesTaken_module (s : State) (m : Module) : s.changesTaken.module m = s.module m := by
  obtain ⟨k, c, b, a, v, he⟩ := s.changesTaken_only
  rw [he]
  rfl

theorem State.advance_module (s : State) (sfi : SupplyLevel) (m : Module) : (s.advance sfi).module m = s.module m :=
  rfl

theorem State.lineIf_module (s : State) (first : Bool) (l : LineId) (m : Module) :
    (s.lineIf first l).module m = s.module m := by
  unfold State.lineIf
  split
  · exact s.expireLine_module l m
  · rfl

theorem State.atTick_lapsed (s : State) (sfi : SupplyLevel) (o : Interleaving) (m : Module) :
    Lapsed (s.module m) ((s.atTick sfi o).module m) := by
  have hfirst := s.changesTaken.timeoutAll_lapsed nodup_allFour m
  rw [s.changesTaken_module] at hfirst
  refine hfirst.trans ?_
  unfold State.atTick State.timeoutIfAt
  generalize s.changesTaken.timeoutAll allFour = r
  have hr : (((r.expireLine .line0).expireLine .line1).beginTick sfi o).module m = r.module m := by
    unfold State.beginTick
    rw [State.lineIf_module, State.lineIf_module, State.advance_module, State.expireLine_module, State.expireLine_module]
  rw [← hr]
  split
  · exact State.timeoutAll_lapsed (eachOnce_orderOf _).nodup _ m
  · exact .refl _

theorem State.atTick_fixed (s : State) (sfi : SupplyLevel) (o : Interleaving) :
    (s.atTick sfi o).count = s.count + 1 ∧ (s.atTick sfi o).setup = s.setup ∧
    (s.atTick sfi o).epochNow = s.epochOf (s.count + 1) ∧
    (s.atTick sfi o).control.epochUnset = s.control.epochUnset := by
  have hon := Stable.onModules (OnModules.atTick s sfi o)
  have hw := Stable.changesTaken s
  obtain ⟨hoffset, hunset⟩ := s.changesTaken.control.sample_epoch s.changesTaken.setup.debounce sfi
  have hcount : (s.atTick sfi o).count = s.count + 1 := hon.count.trans (congrArg (· + 1) hw.count)
  have hoff : (s.atTick sfi o).control.offset = s.control.offset := (hon.offset.trans hoffset).trans hw.offset
  refine ⟨hcount, hon.setup.trans hw.setup, ?_, (hon.epochUnset.trans hunset).trans hw.epochUnset⟩
  unfold State.epochNow State.epochOf
  rw [hcount, hoff]

theorem Ends.judged (s : State) (sfi : SupplyLevel) (o : Interleaving) :
    Ends (s.epochOf (s.count + 1)) s.control.epochUnset s.changesTaken (s.judged sfi o) := by
  obtain ⟨-, -, hepoch, hunset⟩ := s.atTick_fixed sfi o
  have hdue := ((Ends.timeoutAll (s.epochOf (s.count + 1)) s.control.epochUnset s.changesTaken allFour).trans
    (.expireLine _ _ _ .line0)).trans (.expireLine _ _ _ .line1)
  have hadvance (r : State) : Ends (s.epochOf (s.count + 1)) s.control.epochUnset r (r.advance sfi) :=
    .silent (fun _ => ⟨rfl, rfl⟩) (.silent rfl fun _ => rfl)
  exact ((((hdue.trans (hadvance _)).trans (.lineIf _ _ _ _ _)).trans (.lineIf _ _ _ _ _)).trans
    (.timeoutIfAt _ _ _ o true 5)).trans (.countMisses hepoch hunset _)

/-- A module at the deadline, by what the timeouts left of it. -/
theorem State.judged_module (s : State) (sfi : SupplyLevel) (o : Interleaving) (m : Module) :
    (s.judged sfi o).module m = ((s.atTick sfi o).module m).atDeadline s.setup m := by
  obtain ⟨hn, hall⟩ : (orderOf o.moduleOrder).Nodup ∧ m ∈ orderOf o.moduleOrder :=
    ⟨(eachOnce_orderOf _).nodup, (eachOnce_orderOf _).all m⟩
  rw [State.judged, State.countMisses_eq, (moduleOp_missIf.foldl hn (s.atTick sfi o)).2.1 m hall, missTurn_leaves,
    (s.atTick_fixed sfi o).2.1]

end Sys2Proof.Machine
end

section
/-! PROOFS. The state before the first turn of an expiry (R8, R10, R27, R115; log entries 7 and 8). -/

namespace Sys2Proof.Machine

/-! ### What stands from the supply changes to the deadline -/

theorem PointRecord.voidSent_eq (x : PointRecord) :
    x.voidSent = { x with check := x.check.filter (fun k => !k.sent) } := by
  unfold PointRecord.voidSent
  cases hx : x.check with
  | none =>
    dsimp only
    rw [Option.filter_none, ← hx]
  | some k =>
    dsimp only
    cases hs : k.sent with
    | true =>
      rw [Option.filter_some, hs]
      rfl
    | false =>
      rw [Option.filter_some, hs, ← hx]
      rfl

/-- Two states are the same but for the modules, the points, the history, and what an expiry ticks and says. -/
structure SameStore (w v : State) : Prop where
  eventTag : v.eventTag = w.eventTag
  channels : v.channels = w.channels
  capture : v.capture = w.capture
  captureQueue : v.captureQueue = w.captureQueue
  shedding : v.shedding = w.shedding

theorem SameStore.trans {w v u : State} (h : SameStore w v) (k : SameStore v u) : SameStore w u :=
  ⟨k.eventTag.trans h.eventTag, k.channels.trans h.channels, k.capture.trans h.capture,
    k.captureQueue.trans h.captureQueue, k.shedding.trans h.shedding⟩

theorem SameStore.onModules {w v : State} (h : OnModules w v) : SameStore w v := by
  obtain ⟨b, a, r, -, rfl⟩ := h
  exact ⟨rfl, rfl, rfl, rfl, rfl⟩

theorem SameStore.advance (w : State) (sfi : SupplyLevel) : SameStore w (w.advance sfi) :=
  ⟨rfl, rfl, rfl, rfl, rfl⟩

theorem SameStore.mapPoints (w : State) (f : Point → PointRecord → PointRecord) : SameStore w (w.mapPoints f) :=
  ⟨rfl, rfl, rfl, rfl, rfl⟩

theorem SameStore.beforeTurns (s : State) (t : Tick) : SameStore s (s.beforeTurns t) := by
  obtain ⟨v, h, he⟩ := s.beforeTurns_only t
  rw [he]
  exact ⟨rfl, rfl, rfl, rfl, rfl⟩

theorem SameStore.judged (s : State) (sfi : SupplyLevel) (o : Interleaving) :
    SameStore s.changesTaken (s.judged sfi o) :=
  (SameStore.advance _ sfi).trans (.onModules (.judged s sfi o))

/-! ### From the deadline to the first turn -/

theorem State.chooseReference_congr {s t : State} (h : t.channels = s.channels) (p : Point) (set : SampleSet) :
    t.chooseReference p set = s.chooseReference p set := by
  have hc (c : Channel) : t.channel c = s.channel c := by
    unfold State.channel
    rw [h]
  have hv (phase : Nat) : t.voltageOf p phase = s.voltageOf p phase :=
    State.voltageOf_congr (fun c => congrArg ChannelRecord.entry (hc c)) p phase
  unfold State.chooseReference State.qualifies
  simp only [hv, hc]

theorem State.writeHistory_point (s : State) (t : Tick) (set : SampleSet) (p : Point) :
    (s.writeHistory t set).point p = s.point p := by
  unfold State.writeHistory
  split <;> rfl

theorem State.writeHistory_control (s : State) (t : Tick) (set : SampleSet) :
    (s.writeHistory t set).control = s.control := by
  unfold State.writeHistory
  split <;> rfl

theorem State.writeHistory_channels (s : State) (t : Tick) (set : SampleSet) :
    (s.writeHistory t set).channels = s.channels := by
  unfold State.writeHistory
  split <;> rfl

theorem State.chooseReferences_history (s : State) (set : SampleSet) : (s.chooseReferences set).history = s.history := by
  unfold State.chooseReferences
  split <;> rfl

theorem State.beforeTurns_history (s : State) (t : Tick) :
    (s.beforeTurns t).history = if s.measuring then s.history.write t s.closingSet else s.history := by
  unfold State.beforeTurns
  rw [State.chooseReferences_history, State.writeHistory]
  split
  · next h => rw [if_pos (show s.measuring = true from h)]; rfl
  · next h => rw [if_neg (show ¬s.measuring = true from h)]; rfl

/-- The reference of a point when a set closes: chosen again, in every state after INIT (R27). -/
theorem State.chooseReferences_point (s : State) (set : SampleSet) (p : Point) : (s.chooseReferences set).point p =
    { s.point p with
      reference := if s.control.device = .init then (s.point p).reference else s.chooseReference p set } := by
  unfold State.chooseReferences
  split
  · rfl
  · rw [State.mapPoints_point]

theorem State.beforeTurns_here (s : State) (t : Tick) (p : Point) : (s.beforeTurns t).point p = { s.point p with
    reference := if s.control.device = .init then (s.point p).reference else s.chooseReference p s.closingSet } := by
  have hn : ∀ r : State, r = s.nextSet s.closingSet → r.point p = s.point p ∧ r.control = s.control ∧
      r.channels = s.channels := by
    rintro _ rfl
    exact ⟨rfl, rfl, rfl⟩
  unfold State.beforeTurns
  generalize s.nextSet s.closingSet = r at hn
  obtain ⟨hpoint, hcontrol, hchannels⟩ := hn r rfl
  rw [State.chooseReferences_point, State.writeHistory_point, State.writeHistory_control,
    State.chooseReference_congr (State.writeHistory_channels r t s.closingSet), State.chooseReference_congr hchannels,
    hpoint, hcontrol]

theorem State.beforeTurns_module (s : State) (t : Tick) (m : Module) : ∃ c, (s.beforeTurns t).module m =
    { s.module m with taken := false, clippedBefore := c } := by
  obtain ⟨v, h, he⟩ := s.beforeTurns_only t
  have hn : (s.nextSet s.closingSet).module m = _ := s.mapModules_module m _
  rw [he]
  exact ⟨_, hn⟩

theorem State.beforeTurns_said (s : State) (t : Tick) : (s.beforeTurns t).builder = s.builder ∧
    (s.beforeTurns t).attention = s.attention ∧ (s.beforeTurns t).control = s.control := by
  obtain ⟨v, h, he⟩ := s.beforeTurns_only t
  rw [he]
  exact ⟨rfl, rfl, rfl⟩

theorem Ends.beforeTurns (epoch : Tick) (unset : Bool) (s : State) (t : Tick) :
    Ends epoch unset s (s.beforeTurns t) := by
  obtain ⟨hb, ha, -⟩ := s.beforeTurns_said t
  refine .silent (fun m => ?_) (.silent hb fun j => by rw [ha])
  obtain ⟨c, hm⟩ := s.beforeTurns_module t m
  rw [hm]
  exact ⟨rfl, rfl⟩

theorem Ends.voidSentChecks (epoch : Tick) (unset : Bool) (s : State) : Ends epoch unset s s.voidSentChecks :=
  .silent (fun _ => ⟨rfl, rfl⟩) (.silent rfl fun _ => rfl)

theorem State.referenceChanges_iff (s : State) (set : SampleSet) (p : Point) :
    (s.referenceChanges set)[p.val] = true ↔ s.chooseReference p set ≠ (s.point p).reference := by
  unfold State.referenceChanges
  rw [mapAll_get, bne_iff_ne]
  rfl

/-! ### The state before the first turn -/

/-- How an expiry stands before the first turn, in `v`; `w` is `s` after the supply changes that were still to be taken,
`set` the set that closes. -/
structure Begins (s w v : State) (set : SampleSet) : Prop where
  fixed : v.count = s.count + 1 ∧ v.setup = s.setup ∧ v.routing = s.routing ∧
    v.control.offset = s.control.offset ∧ v.control.epochUnset = s.control.epochUnset
  store : SameStore w v
  device : v.control.device = w.control.device ∧ v.measuring = w.measuring
  module : ∀ m, ∃ x c, Lapsed (s.module m) x ∧
    v.module m = { x.atDeadline s.setup m with taken := false, clippedBefore := c }
  point : ∀ p, v.point p = { w.point p with
    reference := if w.control.device = .init then (w.point p).reference else s.chooseReference p set
    check := (w.point p).check.filter (fun k => !k.sent) }
  history : v.history = if w.measuring then s.history.write s.count set else s.history
  ends : Ends (s.epochOf (s.count + 1)) s.control.epochUnset w v
  set : ClosesWith s set

theorem State.judged_control (s : State) (sfi : SupplyLevel) (o : Interleaving) :
    (s.judged sfi o).control = s.changesTaken.control.sample s.changesTaken.setup.debounce sfi := by
  obtain ⟨b, a, r, -, he⟩ := OnModules.judged s sfi o
  rw [he]
  rfl

theorem State.judged_history (s : State) (sfi : SupplyLevel) (o : Interleaving) :
    (s.judged sfi o).history = s.history := by
  obtain ⟨b, a, r, -, he⟩ := OnModules.judged s sfi o
  obtain ⟨k, c, b2, a2, v, hw⟩ := s.changesTaken_only
  rw [he]
  show s.changesTaken.history = s.history
  rw [hw]

theorem State.judged_point (s : State) (sfi : SupplyLevel) (o : Interleaving) (p : Point) :
    (s.judged sfi o).point p = s.changesTaken.point p :=
  (OnModules.judged s sfi o).point p

theorem State.voidSentChecks_point (s : State) (p : Point) : s.voidSentChecks.point p =
    { s.point p with check := (s.point p).check.filter (fun k => !k.sent) } := by
  rw [State.voidSentChecks, State.mapPoints_point, PointRecord.voidSent_eq]

theorem State.changesTaken_channels (s : State) : s.changesTaken.channels = s.channels := by
  obtain ⟨k, c, b, a, v, hw⟩ := s.changesTaken_only
  rw [hw]

/-- The judged modules and the judged state without its sent checks begin the turns. -/
theorem State.judged_begins (s : State) (sfi : SupplyLevel) (o : Interleaving) :
    Begins s s.changesTaken ((s.judged sfi o).voidSentChecks.beforeTurns s.count)
      (s.judged sfi o).voidSentChecks.closingSet := by
  have hstore := SameStore.judged s sfi o
  have hstable := (Stable.onModules (OnModules.judged s sfi o))
  have hends := Ends.judged s sfi o
  have hcontrol := s.judged_control sfi o
  have hhistory := s.judged_history sfi o
  have hpoint := s.judged_point sfi o
  have hmodule := s.judged_module sfi o
  have hlapsed := s.atTick_lapsed sfi o
  have hw := Stable.changesTaken s
  have hchannels := s.changesTaken_channels
  generalize s.judged sfi o = y at *
  generalize s.atTick sfi o = z at *
  generalize s.changesTaken = w at *
  have hsample := w.control.sample_kept w.setup.debounce sfi
  have hepoch := w.control.sample_epoch w.setup.debounce sfi
  rw [← hcontrol] at hsample hepoch
  have hmeasuring : y.voidSentChecks.measuring = w.measuring := by
    show (y.control.device == _ || (y.control.device == _ && y.control.prior == _)) = _
    rw [hsample.1, hsample.2.1]
    rfl
  have hstays := Stable.beforeTurns y.voidSentChecks s.count y.voidSentChecks.closingSet
  obtain ⟨hbuilder, hattention, hcontrols⟩ := y.voidSentChecks.beforeTurns_said s.count
  refine ⟨⟨?_, ?_, ?_, ?_, ?_⟩, (hstore.trans (.mapPoints y _)).trans (.beforeTurns _ _), ⟨?_, ?_⟩,
    fun m => ?_, fun p => ?_, ?_, (hends.trans (.voidSentChecks _ _ y)).trans (.beforeTurns _ _ _ _), ?_⟩
  · exact (hstays.count.trans hstable.count).trans (congrArg (· + 1) hw.count)
  · exact (hstays.setup.trans hstable.setup).trans hw.setup
  · exact (hstays.routing.trans hstable.routing).trans hw.routing
  · exact (hstays.offset.trans hepoch.1).trans hw.offset
  · exact (hstays.epochUnset.trans hepoch.2).trans hw.epochUnset
  · rw [hcontrols]
    exact hsample.1
  · unfold State.measuring at hmeasuring ⊢
    rw [hcontrols, hmeasuring]
  · obtain ⟨c, hc⟩ := y.voidSentChecks.beforeTurns_module s.count m
    exact ⟨z.module m, c, hlapsed m, hc.trans (by rw [← hmodule m]; rfl)⟩
  · have hchoose : y.voidSentChecks.chooseReference p y.voidSentChecks.closingSet =
        s.chooseReference p y.voidSentChecks.closingSet :=
      State.chooseReference_congr ((show y.voidSentChecks.channels = w.channels from hstore.channels).trans hchannels) p _
    rw [State.beforeTurns_here, hchoose, State.voidSentChecks_point, hpoint p]
    have hd : y.voidSentChecks.control.device = w.control.device := hsample.1
    rw [hd]
  · rw [State.beforeTurns_history, hmeasuring]
    have hh : y.voidSentChecks.history = s.history := hhistory
    rw [hh]
  · refine .of_deadline fun m => ?_
    obtain ⟨k, hk⟩ := (s.module m).atDeadline_withCommand s.setup m (z.module m).command
    refine ⟨k, ?_⟩
    rw [← hk, ← (hlapsed m).same]
    exact hmodule m

/-- An expiry of a device that stays powered begins its turns so. -/
theorem StaysPowered.begins {s : State} (h : StaysPowered s) (sfi : SupplyLevel) (o : Interleaving) :
    Begins s s.changesTaken ((s.atDeadline sfi o).beforeTurns s.count) (s.atDeadline sfi o).closingSet := by
  rw [h.atDeadline_eq sfi o]
  exact s.judged_begins sfi o

/-- The reference of a point changes when the set closes, as the expiry sees it (R28). -/
theorem StaysPowered.changes_iff {s : State} (h : StaysPowered s) (sfi : SupplyLevel) (o : Interleaving) (p : Point) :
    ((s.atDeadline sfi o).referenceChanges (s.atDeadline sfi o).closingSet)[p.val] = true ↔
      s.chooseReference p (s.atDeadline sfi o).closingSet ≠ (s.changesTaken.point p).reference := by
  have hc : (s.atDeadline sfi o).channels = s.channels := by
    rw [h.atDeadline_eq sfi o]
    exact (SameStore.judged s sfi o).channels.trans s.changesTaken_channels
  have hp : ((s.atDeadline sfi o).point p).reference = (s.changesTaken.point p).reference := by
    rw [h.atDeadline_eq sfi o, State.voidSentChecks_point, State.judged_point]
  rw [State.referenceChanges_iff, State.chooseReference_congr hc, hp]

end Sys2Proof.Machine
end

section
/-! PROOFS. What the turns of an expiry and what follows them leave of the modules, the records and the classes; the misses
of a tick (R6, R13, R15, R19: O8). -/

namespace Sys2Proof.Machine

/-! ### From the first turn on -/

/-- Later in an expiry: of a module at most the command and its echo counter changed, none of the records since is
outside `P`, and what was pending still is. -/
structure Later (P : RecordBody → Prop) (s t : State) : Prop where
  module : ∀ m, t.module m = { s.module m with command := (t.module m).command, echo := (t.module m).echo } ∧
    ((s.module m).command = none → (t.module m).command = none)
  builder : OffersOnly P s.builder t.builder
  pending : ∀ j, s.attention.isPending j = true → t.attention.isPending j = true

section
variable {P : RecordBody → Prop} {s t u : State}

theorem Later.trans (h : Later P s t) (k : Later P t u) : Later P s u := by
  refine ⟨fun m => ⟨?_, fun hn => (k.module m).2 ((h.module m).2 hn)⟩, h.builder.trans k.builder,
    fun j hj => k.pending j (h.pending j hj)⟩
  rw [(k.module m).1, (h.module m).1]

/-- A state with the modules of another, and what it said since. -/
theorem Later.same (hm : t.module = s.module) (hb : OffersOnly P s.builder t.builder)
    (ha : ∀ j, s.attention.isPending j = true → t.attention.isPending j = true) : Later P s t :=
  ⟨fun m => by rw [hm]; exact ⟨rfl, id⟩, hb, ha⟩

theorem Later.refl (P : RecordBody → Prop) (s : State) : Later P s s :=
  .same rfl (.refl _ _) fun _ => id

theorem Later.placed (h : Placed s t) : Later P s t := by
  have hsaid : t.builder = s.builder ∧ t.attention = s.attention := by
    rw [h.rest]
    exact ⟨rfl, rfl⟩
  refine ⟨fun m => ⟨(h.modules m).1, (h.modules m).2.mpr⟩, ?_, fun j hj => ?_⟩
  · rw [hsaid.1]
    exact .refl _ _
  · rw [hsaid.2]
    exact hj

theorem Later.within {b i g : Bool} {p : Point} (h : Within b i g p s t) : Later (fun _ => True) s t := by
  obtain ⟨bodies, hb⟩ := h.builder.exists_offers
  exact .same (funext fun m => congrArg (fun v : Vector ModuleRecord 4 => v[m.val]) h.modules)
    ⟨bodies, hb, fun _ _ => trivial⟩ h.classes

end

/-- The replies of commands that are overdue are replies. -/
theorem State.overdueReplies_are {P : RecordBody → Prop} (hP : ∀ x, x.Apart False → P x) (s : State) (l : List Module) :
    ∀ b ∈ l.filterMap s.overdueReply, P b := by
  intro b hb
  obtain ⟨m, -, hm⟩ := List.mem_filterMap.mp hb
  rw [State.overdueReply_eq] at hm
  split at hm
  · obtain ⟨k, -, rfl⟩ := Option.map_eq_some_iff.mp hm
    exact hP _ trivial
  · cases hm

/-- The records of what formed frames did to a capture are closures. -/
theorem closures_are {P : RecordBody → Prop} (hP : ∀ x, x.Apart False → P x) {s t : State} {closures : List RecordBody}
    (hgoes : s.capture = none ∨ t.capture.isSome = true → closures = [])
    (hends : ∀ c, s.capture = some c → t.capture = none → ∃ r, closures = [.closure r]) : ∀ b ∈ closures, P b := by
  cases hs : s.capture with
  | none =>
    rw [hgoes (.inl hs)]
    exact fun b hb => absurd hb List.not_mem_nil
  | some c =>
    cases ht : t.capture with
    | some d =>
      rw [hgoes (.inr (by rw [ht]; rfl))]
      exact fun b hb => absurd hb List.not_mem_nil
    | none =>
      obtain ⟨r, rfl⟩ := hends c hs ht
      exact List.forall_mem_singleton.mpr (hP _ trivial)

section
variable {P : RecordBody → Prop} (hP : ∀ x, x.Apart False → P x)
include hP

theorem Later.formAll (s : State) : Later P s s.formAll := by
  obtain ⟨x, hx, -, -⟩ := ActsAlike.formFrames _ s s (.refl s)
  obtain ⟨q, sh, c, b, a, -, -, -, -, he⟩ := Formed.formAll s
  refine .same (by rw [he]; rfl) (hx.tells.offersOnly ?_) fun j hj => hx.tells.keeps hj
  refine closures_are hP hx.goesOn fun c hc hn => ?_
  obtain ⟨r, hr, -⟩ := hx.record c hc hn
  exact ⟨r, hr⟩

/-- What an expiry does beside the points' turns. -/
theorem Later.aside {o : Interleaving} {k : Nat} {s t : State} (h : AsideAt o k s t) : Later P s t := by
  obtain ⟨formed, replies, closures, raised, -, -, -, -, -, hgoes, hends, hreplies, hbuilder, hattention, -⟩ := h.noted
  have hr : ∀ b ∈ replies, P b := by
    rw [hreplies]
    split
    · exact s.overdueReplies_are hP _
    · exact fun b hb => absurd hb List.not_mem_nil
  have hc : ∀ b ∈ closures, P b := closures_are hP hgoes fun c hc hn => by
    obtain ⟨r, hr, -⟩ := hends c hc hn
    exact ⟨r, hr⟩
  refine ⟨fun m => ⟨(h.modules m).1, fun hn => (h.modules m).2.mpr (.inl hn)⟩, ⟨_, hbuilder, ?_⟩, fun j hj => ?_⟩
  · split
    · exact fun b hb => (List.mem_append.mp hb).elim (hr b) (hc b)
    · exact fun b hb => (List.mem_append.mp hb).elim (hc b) (hr b)
  · rw [hattention, State.foldl_raise, Attention.raises_isPending, hj]
    rfl

theorem Later.takeFailure (s : State) : Later P s s.takeFailure := by
  unfold State.takeFailure
  split
  · obtain ⟨bodies, classes, htells, hapart⟩ := Tells.enterHoldup s
    obtain ⟨c, b, a, he⟩ := s.enterHoldup_only
    exact .same (by rw [he]; rfl) (htells.offersOnly fun x hx => hP x (hapart x hx)) fun j hj => htells.keeps hj
  · exact .refl P s

theorem Later.formLast (s : State) (o : Interleaving) : Later P s (s.formLast o) := by
  unfold State.formLast
  split
  · exact (Later.takeFailure hP s).trans (.formAll hP _)
  · exact .refl P s

/-- The turns bring what deliveries bring, if any. -/
theorem Later.deliverAll (t : Tick) (set : SampleSet) (changes : Vector Bool 4) (o : Interleaving)
    (hdeliver : ∀ s p, Later P s (s.deliverIf t set changes p)) (s : State) :
    Later P s (s.deliverAll t set changes o) := by
  have hturn (s : State) (q : Point × Fin 5) : Later P s (s.turn t set changes o q) :=
    (Later.aside hP (.between s o q.2)).trans (hdeliver _ _)
  have hfold (l : List (Point × Fin 5)) (s : State) :
      Later P s (l.foldl (fun s q => s.turn t set changes o q) s) := by
    induction l generalizing s with
    | nil => exact .refl P s
    | cons q qs ih => exact (hturn s q).trans (ih _)
  exact (hfold _ s).trans (.aside hP (.between _ o 4))

end

theorem Later.deliverIf (s : State) (t : Tick) (set : SampleSet) (changes : Vector Bool 4) (p : Point) :
    Later (fun _ => True) s (s.deliverIf t set changes p) := by
  unfold State.deliverIf
  split
  · exact .within (Within.deliver false s t set p changes[p.val] nofun).1
  · exact .refl _ s

/-- From the first turn to the end of an expiry. -/
theorem Later.turns (s : State) (t : Tick) (set : SampleSet) (changes : Vector Bool 4) (o : Interleaving) :
    Later (fun _ => True) s ((s.deliverAll t set changes o).formLast o) :=
  (Later.deliverAll (fun _ _ => trivial) t set changes o (fun s p => .deliverIf s t set changes p) s).trans
    (.formLast (fun _ _ => trivial) _ o)

/-! ### What begins the turns, by modules (R6, R13, R15, R19) -/

/-- Which fields of a module the turns and the timeouts leave. -/
theorem Begins.module_state {s w v t : State} {set : SampleSet} (h : Begins s w v set) {P : RecordBody → Prop}
    (k : Later P v t) (m : Module) :
    (t.module m).state = ((s.module m).atDeadline s.setup m).state ∧
    (t.module m).goodRun = ((s.module m).atDeadline s.setup m).goodRun ∧
    (t.module m).missCount = ((s.module m).atDeadline s.setup m).missCount ∧
    (t.module m).checkFailures = (s.module m).checkFailures ∧
    (t.module m).staleFrames = (s.module m).staleFrames ∧ (t.module m).last = (s.module m).last := by
  obtain ⟨x, c, hx, hv⟩ := h.module m
  obtain ⟨k', hk⟩ := (s.module m).atDeadline_withCommand s.setup m x.command
  rw [← hx.same] at hk
  obtain ⟨-, -, hlast, -, hfail, hstale, -⟩ := (s.module m).atDeadline_same s.setup m
  rw [(k.module m).1, hv, hk]
  exact ⟨rfl, rfl, rfl, hfail, hstale, hlast⟩

theorem Begins.module_lost {s w v : State} {set : SampleSet} (h : Begins s w v set) {m : Module}
    (hl : (s.module m).Loses s.setup m) : (v.module m).state = .lost ∧ (v.module m).command = none := by
  obtain ⟨x, c, hx, hv⟩ := h.module m
  have hlx : x.Loses s.setup m := by
    rw [hx.same]
    exact hl
  rw [hv, hlx.atDeadline]
  exact ⟨rfl, rfl⟩

/-- The records of a whole expiry hold those that came before its turns. -/
theorem Begins.records {s w v t : State} {set : SampleSet} (h : Begins s w v set) {P : RecordBody → Prop}
    (hw : Offered s.builder w.builder) (k : Later P v t) :
    ∃ bodies : List RecordBody, t.builder = s.builder.offers bodies ∧
      ∀ m b, ModuleEnds (s.epochOf (s.count + 1)) s.control.epochUnset m (w.module m) (v.module m) b → b ∈ bodies := by
  obtain ⟨first, hfirst⟩ := hw.exists_offers
  obtain ⟨middle, -, hmem, hsaid⟩ := h.ends.said
  obtain ⟨last, hlast, -⟩ := k.builder
  refine ⟨first ++ (middle ++ last), ?_, fun m b hb => ?_⟩
  · rw [hlast, hsaid.builder, hfirst, RecordBuilder.offers_append, RecordBuilder.offers_append]
  · exact List.mem_append_right _ (List.mem_append_left _ ((hmem b).mpr ⟨m, hb⟩))

theorem Offered.offers (b : RecordBuilder) (bodies : List RecordBody) : Offered b (b.offers bodies) := by
  induction bodies generalizing b with
  | nil => exact .none
  | cons x xs ih => exact (Offered.one b x).trans (ih _)

theorem State.changesTaken_offered (s : State) : Offered s.builder s.changesTaken.builder := by
  obtain ⟨k2, b2, a2, v, ho, hr⟩ := (Returns.takeReturnStandby s.supplyTaken).only
  obtain ⟨bodies, hb, -⟩ := s.supplyTaken_offers
  have hs : Offered s.builder s.supplyTaken.builder := by
    rw [hb]
    exact .offers _ _
  rw [State.changesTaken, hr]
  exact hs.trans ho

/-- Settles O8: the deadline by the state of the module, what stands before the turns, and what they leave. -/
theorem expiryCountsMiss : Obligations.ExpiryCountsMiss := by
  intro s sfi o m hpowered
  have h := hpowered.begins sfi o
  have hlater : Later (fun _ => True) _ (s.expire sfi o) := .turns ((s.atDeadline sfi o).beforeTurns s.count) s.count
    (s.atDeadline sfi o).closingSet ((s.atDeadline sfi o).referenceChanges (s.atDeadline sfi o).closingSet) o
  obtain ⟨bodies, hbuilder, hbodies⟩ := h.records s.changesTaken_offered hlater
  refine ⟨_, bodies, exec_expiry s sfi o, hbuilder, ?_⟩
  have hw := s.changesTaken_module m
  generalize s.expire sfi o = t at hlater ⊢
  generalize (s.atDeadline sfi o).beforeTurns s.count = v at h hlater hbodies
  obtain ⟨hstate, hgood, hmiss, hfail, hstale, hlast⟩ := h.module_state hlater m
  rw [hstate, hgood, hmiss]
  refine ⟨fun he ht => ⟨fun hs => ?_, fun hs hlt => ?_, fun hs hle => ?_⟩, fun hk => ?_, hfail, hstale, hlast⟩
  · rw [ModuleRecord.atDeadline_idle he ht hs]
    exact ⟨rfl, rfl, rfl⟩
  · rw [ModuleRecord.atDeadline_missed he ht hs hlt]
    exact ⟨hs, rfl, rfl⟩
  · have hloses : (s.module m).Loses s.setup m := ⟨he, ht, hs, Nat.le_of_eq hle.symm⟩
    obtain ⟨hvlost, hvnone⟩ := h.module_lost hloses
    obtain ⟨middle, -, -, hsaid⟩ := h.ends.said
    rw [hloses.atDeadline]
    refine ⟨rfl, rfl, rfl, (hlater.module m).2 hvnone, hbodies m _ (.inl ⟨hw ▸ hs, hvlost, rfl⟩),
      hlater.pending _ (hsaid.raises ⟨m, .inl ⟨rfl, hw ▸ hs, hvlost⟩⟩), fun k hk => ⟨?_, ?_⟩⟩
    · exact hbodies m _ (.inr ⟨k, hw ▸ hk, hvnone, rfl⟩)
    · refine hlater.pending _ (hsaid.raises ⟨m, .inr ⟨rfl, ?_, hvnone⟩⟩)
      rw [hw, hk]
      exact Option.some_ne_none k
  · rw [ModuleRecord.atDeadline_kept hk]
    exact ⟨rfl, rfl, rfl⟩

end Sys2Proof.Machine
end

section
/-! PROOFS. The turns of the points one after another: what a point finds at its turn and keeps after it (R23, log entries
3, 4). -/

namespace Sys2Proof.Machine

/-! ### Apart from a point -/

/-- `t` is `s` after what leaves point `p` and its channels, the check and the due marks apart. -/
structure ApartFrom (p : Point) (s t : State) : Prop where
  point : t.point p = { s.point p with check := (t.point p).check }
  entry : ∀ c, (t.channel c).entry = (s.channel c).entry
  channel : ∀ c, (s.channel c).entry.point = p.val → t.channel c = { s.channel c with due := (t.channel c).due }
  count : t.count = s.count
  setup : t.setup = s.setup
  history : t.history = s.history
  control : t.control = s.control

section
variable {p : Point} {s t u : State}

theorem ApartFrom.refl (p : Point) (s : State) : ApartFrom p s s :=
  ⟨rfl, fun _ => rfl, fun _ _ => rfl, rfl, rfl, rfl, rfl⟩

theorem ApartFrom.trans (h : ApartFrom p s t) (k : ApartFrom p t u) : ApartFrom p s u := by
  refine ⟨by rw [k.point, h.point], fun c => (k.entry c).trans (h.entry c), fun c hc => ?_, k.count.trans h.count,
    k.setup.trans h.setup, k.history.trans h.history, k.control.trans h.control⟩
  rw [k.channel c (by rw [h.entry c]; exact hc), h.channel c hc]

theorem ApartFrom.aside {o : Interleaving} {k : Nat} (p : Point) (h : AsideAt o k s t) : ApartFrom p s t := by
  have hr := h.rest
  refine ⟨h.points p, fun c => ?_, fun c _ => h.channels c, ?_, ?_, ?_, ?_⟩
  · rw [h.channels c]
  all_goals rw [hr]

theorem ApartFrom.measuring (h : ApartFrom p s t) : t.measuring = s.measuring := by
  unfold State.measuring
  rw [h.control]

theorem ApartFrom.deliverIf {q : Point} (hq : p ≠ q) (s : State) (t : Tick) (set : SampleSet)
    (changes : Vector Bool 4) : ApartFrom p s (s.deliverIf t set changes q) := by
  unfold State.deliverIf
  split
  · have hw := (Within.deliver false s t set q changes[q.val] nofun).1
    refine ⟨?_, hw.entry, fun c hc => ?_, hw.count, hw.setup, hw.history, hw.control⟩
    · rw [hw.others p hq]
    · rw [(State.deliver_channel (t := t) (set := set) (changed := changes[q.val]) c rfl).1
        fun h => hq (Fin.ext (hc.symm.trans h.2))]
  · exact .refl p s

end

/-! ### A point's turn among the others -/

/-- Among turns of different points, each finds its point as the turns began, and leaves it as the turns end. -/
theorem TakesInTurn.apart {o : Interleaving} {u d : Point → State} {t : Tick} {set : SampleSet}
    {changes : Vector Bool 4} (hd : ∀ q, d q = (u q).deliverIf t set changes q) {l : List Point} (hl : l.Nodup)
    {k : Nat} {s x : State} (h : TakesInTurn o u d k l s x) (p : Point) :
    (p ∈ l → ApartFrom p s (u p) ∧ ApartFrom p (d p) x) ∧ (p ∉ l → ApartFrom p s x) := by
  induction l generalizing k s with
  | nil => exact ⟨fun hp => absurd hp List.not_mem_nil, fun _ => .aside p h⟩
  | cons q later ih =>
    obtain ⟨hq, hlater⟩ := List.nodup_cons.mp hl
    obtain ⟨haside, htail⟩ := h
    obtain ⟨hin, hout⟩ := ih hlater htail
    have hfirst : ApartFrom p s (u q) := .aside p haside
    have hstep (hpq : p ≠ q) : ApartFrom p s (d q) := by
      rw [hd q]
      exact hfirst.trans (.deliverIf hpq _ t set changes)
    refine ⟨fun hp => ?_, fun hp => ?_⟩
    · by_cases hpq : p = q
      · obtain rfl := hpq
        exact ⟨hfirst, hout hq⟩
      · obtain ⟨hbefore, hafter⟩ := hin ((List.mem_cons.mp hp).resolve_left hpq)
        exact ⟨(hstep hpq).trans hbefore, hafter⟩
    · rw [List.mem_cons, not_or] at hp
      exact (hstep hp.1).trans (hout hp.2)

/-- The turns that begin with `v` and end with `x`: point `p` takes the set in `u p`, which its delivery makes `d p`. -/
structure TurnsTaken (o : Interleaving) (t : Tick) (set : SampleSet) (changes : Vector Bool 4) (u d : Point → State)
    (v x : State) : Prop where
  inTurn : TakesInTurn o u d 0 (Sys2Proof.orderOf o.pointOrder) v x
  turn : ∀ p, d p = (u p).deliverIf t set changes p
  before : ∀ p, ApartFrom p v (u p)
  after : ∀ p, ApartFrom p (d p) x

theorem State.deliverAll_turns (v : State) (t : Tick) (set : SampleSet) (changes : Vector Bool 4) (o : Interleaving) :
    ∃ u d : Point → State, TurnsTaken o t set changes u d v (v.deliverAll t set changes o) := by
  obtain ⟨u, d, h, hd⟩ := TakesInTurn.deliverAll v t set changes o
  have hl := eachOnce_orderOf o.pointOrder
  exact ⟨u, d, h, hd, fun p => ((TakesInTurn.apart hd hl.nodup h p).1 (hl.all p)).1,
    fun p => ((TakesInTurn.apart hd hl.nodup h p).1 (hl.all p)).2⟩

section
variable {o : Interleaving} {t : Tick} {set : SampleSet} {changes : Vector Bool 4} {u d : Point → State} {v x : State}

theorem State.deliverIf_measured {s : State} {p : Point} (hm : s.measuring = true) (hp : (s.point p).measured = true) :
    s.deliverIf t set changes p = s.deliver t set p changes[p.val] :=
  if_pos (by rw [hm, hp]; rfl)

theorem State.deliverIf_unmeasured {s : State} {p : Point} (h : s.measuring = false ∨ (s.point p).measured = false) :
    s.deliverIf t set changes p = s := by
  refine if_neg fun hc => ?_
  obtain ⟨hm, hp⟩ := Bool.and_eq_true_iff.mp hc
  rcases h with h | h
  · rw [hm] at h
    cases h
  · rw [hp] at h
    cases h

theorem TurnsTaken.measured (h : TurnsTaken o t set changes u d v x) (p : Point) :
    (u p).measuring = v.measuring ∧ ((u p).point p).measured = (v.point p).measured :=
  ⟨(h.before p).measuring, by rw [(h.before p).point]⟩

theorem TurnsTaken.delivers (h : TurnsTaken o t set changes u d v x) {p : Point} (hm : v.measuring = true)
    (hp : (v.point p).measured = true) : d p = (u p).deliver t set p changes[p.val] := by
  obtain ⟨hum, hup⟩ := h.measured p
  rw [h.turn p, State.deliverIf_measured (hum.trans hm) (hup.trans hp)]

theorem TurnsTaken.passes (h : TurnsTaken o t set changes u d v x) {p : Point}
    (hp : v.measuring = false ∨ (v.point p).measured = false) : d p = u p := by
  obtain ⟨hum, hup⟩ := h.measured p
  rw [h.turn p, State.deliverIf_unmeasured]
  rwa [hum, hup]

/-- A turn leaves the reference of every point. -/
theorem TurnsTaken.reference (h : TurnsTaken o t set changes u d v x) (p : Point) :
    (x.point p).reference = (v.point p).reference := by
  have hd : ((d p).point p).reference = ((u p).point p).reference := by
    rw [h.turn p]
    unfold State.deliverIf
    split
    · exact (Within.deliver false (u p) t set p changes[p.val] nofun).1.here.reference
    · rfl
  rw [(h.after p).point, (h.before p).point] at *
  exact hd

end

end Sys2Proof.Machine
end

section
/-! PROOFS. The crossing of a set, the arming marks and the reference, as an expiry takes them (R27, R28, R38, R39: O50). -/

namespace Sys2Proof.Machine

/-! ### The expiry as its stages -/

/-- An expiry of a device that stays powered: `w` after the supply changes still to be taken, `v` before the first turn,
`x` after the last; point `p` takes the set in `u p`, which its delivery makes `d p`. -/
structure Expires (s : State) (o : Interleaving) (t w v x : State) (set : SampleSet) (changes : Vector Bool 4)
    (u d : Point → State) : Prop where
  begins : Begins s w v set
  notices : ∀ p : Point, changes[p.val] = true ↔ s.chooseReference p set ≠ (w.point p).reference
  turns : TurnsTaken o s.count set changes u d v x
  ends : t = x.formLast o

theorem StaysPowered.expires {s : State} (h : StaysPowered s) (sfi : SupplyLevel) (o : Interleaving) :
    ∃ v x set changes, ∃ u d : Point → State,
      Expires s o (s.expire sfi o) s.changesTaken v x set changes u d := by
  obtain ⟨u, d, hturns⟩ := ((s.atDeadline sfi o).beforeTurns s.count).deliverAll_turns s.count
    (s.atDeadline sfi o).closingSet ((s.atDeadline sfi o).referenceChanges (s.atDeadline sfi o).closingSet) o
  exact ⟨_, _, _, _, u, d, h.begins sfi o, h.changes_iff sfi o, hturns, rfl⟩

theorem State.formLast_point (s : State) (o : Interleaving) (p : Point) : (s.formLast o).point p = s.point p := by
  obtain ⟨k, c, b, a, q, sh, he, -⟩ := s.formLast_only o
  rw [he]
  rfl

theorem State.formLast_channel (s : State) (o : Interleaving) (c : Channel) :
    (s.formLast o).channel c = s.channel c := by
  obtain ⟨k, cap, b, a, q, sh, he, -⟩ := s.formLast_only o
  rw [he]
  rfl

/-- Supply changes that are taken first change the spans of a point at most. -/
theorem State.changesTaken_point (s : State) (p : Point) : s.changesTaken.point p = (s.point p).spanning
    (s.changesTaken.point p).block (s.changesTaken.point p).interval (s.changesTaken.point p).assessment := by
  obtain ⟨k, c, b, a, hs⟩ := s.supplyTaken_only
  have hp : s.supplyTaken.point p = s.point p := by
    rw [hs]
    rfl
  rw [← hp]
  exact (Returns.takeReturnStandby s.supplyTaken).point p

theorem State.changesTaken_init (s : State) : s.changesTaken.control.device = .init ↔ s.control.device = .init :=
  (Returns.takeReturnStandby s.supplyTaken).init.trans s.supplyTaken_device.2.1

theorem State.measuring_not_standby {s : State} (h : s.measuring = true) : s.control.device ≠ .standby := by
  intro hd
  unfold State.measuring at h
  rw [hd] at h
  cases h

/-- Away from STANDBY nothing returns from it. -/
theorem State.changesTaken_of_ne_standby {s : State} (h : s.control.device ≠ .standby) :
    s.changesTaken = s.supplyTaken :=
  State.takeReturnStandby_idle (.inr (mt s.supplyTaken_device.2.2.mp h))

theorem State.changesTaken_measuring {s : State} (h : s.measuring = true) : s.changesTaken.measuring = true := by
  rw [State.changesTaken_of_ne_standby (State.measuring_not_standby h), s.supplyTaken_device.1]
  exact h

section
variable {s t w v x : State} {o : Interleaving} {set : SampleSet} {changes : Vector Bool 4} {u d : Point → State}

theorem Expires.reference (h : Expires s o t w v x set changes u d) (p : Point) : (t.point p).reference =
    if w.control.device = .init then (w.point p).reference else s.chooseReference p set := by
  rw [h.ends, State.formLast_point, h.turns.reference p, h.begins.point p]

/-- A measured point of a device that measures takes the set with a change notice as its reference changes. -/
theorem Expires.delivers (h : Expires s o t w v x set changes u d) (hm : w.measuring = true) {p : Point}
    (hp : (w.point p).measured = true) : d p = (u p).deliver s.count set p changes[p.val] :=
  h.turns.delivers (h.begins.device.2.trans hm) (by rw [h.begins.point p]; exact hp)

/-- The boundary and the period of a point after its turn are those after the expiry. -/
theorem Expires.after (h : Expires s o t w v x set changes u d) (p : Point) :
    t.point p = { (d p).point p with check := (t.point p).check } := by
  rw [h.ends, State.formLast_point]
  exact (h.turns.after p).point

/-- The Boundary Unit at the turn of a point is as before the expiry. -/
theorem Expires.boundary (h : Expires s o t w v x set changes u d) (p : Point) :
    ((u p).point p).boundary = (w.point p).boundary := by
  rw [(h.turns.before p).point, h.begins.point p]

end

/-! ### The obligation -/

theorem State.chooseReferences_spec (s : State) (set : SampleSet) :
    (s.control.device = .init → s.chooseReferences set = s) ∧
    (s.control.device ≠ .init →
      (∀ p, (s.chooseReferences set).point p = { s.point p with reference := s.chooseReference p set }) ∧
      s.chooseReferences set = { s with points := (s.chooseReferences set).points }) ∧
    ∀ p : Point, (s.referenceChanges set)[p.val] = true ↔ s.chooseReference p set ≠ (s.point p).reference := by
  refine ⟨fun h => if_pos h, fun h => ⟨fun p => ?_, ?_⟩, s.referenceChanges_iff set⟩
  · rw [State.chooseReferences_point, if_neg h]
  · rw [State.chooseReferences, if_neg h]
    rfl

/-- Settles O50: the crossing and the arming of one set, the choice of the reference, and the turn that delivers it. -/
theorem crossingsArmed : Obligations.CrossingsArmed := by
  refine ⟨fun b h y z hb => ?_, fun b h changed x hc => ?_, fun s p phase => s.voltageOf_spec p phase,
    fun s p set fits hf =>
      s.chooseReference_spec p set fun phase => (hf phase).trans (s.qualifies_iff p set phase).symm,
    fun s set => s.chooseReferences_spec set, fun s sfi o hpowered => ?_,
    fun s t set p changed => ⟨s.deliver_boundary t set p changed, ?_⟩⟩
  · exact ⟨b.crossingAt_positive hb z, b.crossingAt_negative hb z, (b.step_armed_iff hb h z).1,
      (b.step_armed_iff hb h z).2, (b.step_armed h false (some z)).2.2⟩
  · exact b.step_fresh hc h x
  · obtain ⟨v, x, set, changes, u, d, h⟩ := hpowered.expires sfi o
    refine ⟨_, set, exec_expiry s sfi o, h.begins.set, fun hi p => ?_, fun hi p => ?_, fun p hm hp hne => ?_⟩
    · rw [h.reference p, if_pos (s.changesTaken_init.mpr hi), s.changesTaken_point p]
      rfl
    · rw [h.reference p, if_neg (mt s.changesTaken_init.mp hi)]
    · have hw := s.changesTaken_point p
      have hdeliver := h.delivers (State.changesTaken_measuring hm) (p := p) (by rw [hw]; exact hp)
      rw [(h.notices p).mpr (by rw [hw]; exact hne)] at hdeliver
      obtain ⟨hboundary, q, hperiod, hvalid⟩ := (u p).deliver_changed s.count set p
      have hcount : ((u p).point p).boundary = (s.point p).boundary := by
        rw [h.boundary p, hw]
        rfl
      rw [hcount] at hboundary
      rw [h.after p, hdeliver]
      dsimp only
      rw [hboundary]
      exact ⟨rfl, rfl, rfl, rfl, q, hperiod, hvalid⟩
  · rintro rfl
    exact s.deliver_changed t set p

end Sys2Proof.Machine
end

section
/-! PROOFS. Where the set that closes goes: into the history and to the measured points, or nowhere (R8, R10, R23, R28, R115,
R159: O9). -/

namespace Sys2Proof.Machine

/-! ### Turns in which no point takes the set -/

/-- What happens beside the points' turns, however much of it. -/
structure Passes (s t : State) : Prop where
  later : Later (RecordBody.Apart False) s t
  points : ∀ p, t.point p = { s.point p with check := (t.point p).check }
  channels : ∀ c, t.channel c = { s.channel c with due := (t.channel c).due }
  eventTag : t.eventTag = s.eventTag
  history : t.history = s.history

section
variable {s t u : State}

theorem Passes.trans (h : Passes s t) (k : Passes t u) : Passes s u :=
  ⟨h.later.trans k.later, fun p => by rw [k.points, h.points], fun c => by rw [k.channels, h.channels],
    k.eventTag.trans h.eventTag, k.history.trans h.history⟩

theorem Passes.aside {o : Interleaving} {k : Nat} (h : AsideAt o k s t) : Passes s t := by
  refine ⟨.aside (fun _ => id) h, h.points, h.channels, ?_, ?_⟩ <;> rw [h.rest]

theorem Passes.formLast (s : State) (o : Interleaving) : Passes s (s.formLast o) := by
  obtain ⟨k, c, b, a, q, sh, he, -⟩ := s.formLast_only o
  refine ⟨.formLast (fun _ => id) s o, fun p => ?_, fun c => ?_, ?_, ?_⟩
  · rw [s.formLast_point o p]
  · rw [s.formLast_channel o c]
  all_goals rw [he]

end

theorem TakesInTurn.passes {o : Interleaving} {u d : Point → State} (hd : ∀ q, d q = u q) {l : List Point} {k : Nat}
    {s x : State} (h : TakesInTurn o u d k l s x) : Passes s x := by
  induction l generalizing k s with
  | nil => exact .aside h
  | cons q later ih =>
    obtain ⟨haside, htail⟩ := h
    refine (Passes.aside haside).trans ?_
    rw [← hd q]
    exact ih htail

/-! ### The device before the set closes -/

theorem StaysPowered.of_running {s : State} (hd : s.control.device = .running)
    (h : s.control.level = .good ∨ 1 ≤ s.setup.holdupLimit) : StaysPowered s :=
  ⟨fun hh => (nomatch hd.symm.trans hh), fun _ hl => h.resolve_left (by rw [hl]; exact SupplyLevel.noConfusion)⟩

theorem StaysPowered.of_stopped {s : State} (hd : s.control.device = .stopped)
    (h : s.control.level = .good ∨ 1 ≤ s.setup.holdupLimit) : StaysPowered s :=
  ⟨fun hh => (nomatch hd.symm.trans hh), fun _ hl => h.resolve_left (by rw [hl]; exact SupplyLevel.noConfusion)⟩

theorem StaysPowered.of_holdup {s : State} (hd : s.control.device = .holdup)
    (h : s.control.level = .good ∨ s.control.timerRunning = false ∨
      (s.count - s.control.holdupStart).toNat < s.setup.holdupLimit * 256) : StaysPowered s := by
  refine ⟨fun _ hl hr => ?_, fun hs => ?_⟩
  · rcases h with h | h | h
    · rw [hl] at h
      cases h
    · rw [hr] at h
      cases h
    · exact h
  · rw [hd] at hs
    rcases hs with hs | hs <;> cases hs

theorem StaysPowered.of_idle {s : State} (hd : s.control.device = .init ∨ s.control.device = .standby) :
    StaysPowered s := by
  refine ⟨fun hh => ?_, fun hh => ?_⟩
  · rw [hh] at hd
    rcases hd with hd | hd <;> cases hd
  · rcases hd with hd | hd <;> rw [hd] at hh <;> rcases hh with hh | hh <;> cases hh

theorem State.measuring_running {s : State} (hd : s.control.device = .running) : s.measuring = true := by
  unfold State.measuring
  rw [hd]
  rfl

theorem State.not_measuring {s : State} (hr : s.control.device ≠ .running) (hh : s.control.device ≠ .holdup) :
    s.measuring = false := by
  unfold State.measuring
  rw [beq_false_of_ne hr, beq_false_of_ne hh]
  rfl

/-- In STANDBY no failure and no return from HOLDUP waits. -/
theorem State.supplyTaken_standby {s : State} (hd : s.control.device = .standby) : s.supplyTaken = s := by
  rcases s.supplyTaken_cases with ⟨hf, -⟩ | ⟨-, hh, -⟩ | ⟨-, -, h⟩
  · rcases (s.supplyFailed_iff.mp hf).2 with h | h <;> rw [hd] at h <;> cases h
  · rw [hd] at hh
    cases hh
  · exact h

theorem State.supplyTaken_point (s : State) (p : Point) : s.supplyTaken.point p = s.point p := by
  obtain ⟨k, c, b, a, hs⟩ := s.supplyTaken_only
  rw [hs]
  rfl

/-! ### What brings the turns of a device that measures -/

theorem Begins.brings {s v : State} {set : SampleSet} (h : Begins s s.supplyTaken v set)
    (hd : s.control.device ≠ .init) : BringsTurns s s.supplyTaken v set := by
  obtain ⟨k, c, b, a, hs⟩ := s.supplyTaken_only
  have hmodule (m : Module) : s.supplyTaken.module m = s.module m := by
    rw [hs]
    rfl
  have hinit : s.supplyTaken.control.device ≠ .init := mt s.supplyTaken_device.2.1.mp hd
  obtain ⟨hcount, hsetup, hrouting, -⟩ := h.fixed
  obtain ⟨bodies, hnodup, hmem, hsaid⟩ := h.ends.said
  refine ⟨hcount, ⟨h.store.eventTag.trans (by rw [hs]), hsetup, hrouting, h.store.channels.trans (by rw [hs])⟩,
    fun p => ?_, ⟨h.store.capture, h.store.captureQueue, h.store.shedding⟩, ⟨bodies, hsaid.builder, hnodup, fun b => ?_⟩,
    fun j => ?_⟩
  · rw [h.point p, s.supplyTaken_point p, if_neg hinit]
  · rw [hmem b, ← exists_or]
    refine exists_congr fun m => ?_
    rw [hmodule m]
    exact Iff.rfl
  · rw [hsaid.pending j]
    have hraises : (∃ m, ModuleRaises (s.supplyTaken.module m) (v.module m) j) ↔
        (j = .moduleState ∧ ∃ m, (s.module m).state = .locked ∧ (v.module m).state = .lost) ∨
        (j = .replyReady ∧ ∃ m, (s.module m).command ≠ none ∧ (v.module m).command = none) := by
      rw [← exists_and_left, ← exists_and_left, ← exists_or]
      refine exists_congr fun m => ?_
      rw [hmodule m]
      exact Iff.rfl
    rw [hraises, or_assoc]

/-! ### The set as stored, and the turns that deliver it -/

/-- A set is stored without the marks of its unavailable slots (log entry 10). -/
theorem storeSet_slot (set : SampleSet) (m : Module) (k : Slot) :
    ((set[m.val])[k.val].unavailable = false → ((storeSet set)[m.val])[k.val] =
      { code := (set[m.val])[k.val].code, held := (set[m.val])[k.val].held, clipped := (set[m.val])[k.val].clipped }) ∧
    ((set[m.val])[k.val].unavailable = true →
      ((storeSet set)[m.val])[k.val] = { code := 0, held := false, clipped := false }) := by
  have hslot : ((storeSet set)[m.val])[k.val] = storeSlot (set[m.val])[k.val] := by
    unfold storeSet
    rw [mapAll_get, mapAll_get]
  rw [hslot]
  unfold storeSlot
  constructor <;> intro hu <;> rw [hu] <;> rfl

section
variable {s t w v x : State} {o : Interleaving} {set : SampleSet} {changes : Vector Bool 4} {u d : Point → State}

theorem TurnsTaken.history {n : Tick} (h : TurnsTaken o n set changes u d v x) (p : Point) :
    (u p).history = v.history ∧ x.history = v.history := by
  refine ⟨(h.before p).history, (h.after p).history.trans (Eq.trans ?_ (h.before p).history)⟩
  rw [h.turn p]
  unfold State.deliverIf
  split
  · exact (Within.deliver false (u p) n set p changes[p.val] nofun).1.history
  · rfl

theorem TurnsTaken.entry {n : Tick} (h : TurnsTaken o n set changes u d v x) (p : Point) (c : Channel) :
    ((d p).channel c).entry = ((u p).channel c).entry := by
  rw [h.turn p]
  unfold State.deliverIf
  split
  · exact (Within.deliver false (u p) n set p changes[p.val] nofun).1.entry c
  · rfl

theorem State.formLast_history (s : State) (o : Interleaving) : (s.formLast o).history = s.history :=
  (Passes.formLast s o).history

/-- The expiry leaves the history as the closing of the set wrote it, or as it was. -/
theorem Expires.history (h : Expires s o t w v x set changes u d) : t.history = v.history ∧
    ∀ p, (u p).history = v.history := by
  refine ⟨?_, fun p => (h.turns.history p).1⟩
  rw [h.ends, State.formLast_history, (h.turns.history 0).2]

/-- A point and its channels at its turn. -/
theorem Expires.found (h : Expires s o t w v x set changes u d) (p : Point) :
    ((u p).point p = { w.point p with
      reference := if w.control.device = .init then (w.point p).reference else s.chooseReference p set
      check := ((u p).point p).check }) ∧
    ∀ c, (w.channel c).entry.point = p.val → (u p).channel c = { w.channel c with due := ((u p).channel c).due } := by
  have hc (c : Channel) : v.channel c = w.channel c :=
    congrArg (fun r : Vector ChannelRecord 24 => r[c.val]) h.begins.store.channels
  refine ⟨?_, fun c hp => ?_⟩
  · rw [(h.turns.before p).point, h.begins.point p]
  · rw [(h.turns.before p).channel c (by rw [hc c]; exact hp), hc c]

/-- The channels of a point after the expiry. -/
theorem Expires.afterChannel (h : Expires s o t w v x set changes u d) (p : Point) {c : Channel}
    (hp : ((u p).channel c).entry.point = p.val) :
    t.channel c = { (d p).channel c with due := (t.channel c).due } := by
  rw [h.ends, State.formLast_channel]
  exact (h.turns.after p).channel c (by rw [h.turns.entry p c]; exact hp)

end

/-! ### A device that does not measure -/

/-- Where the supply changes leave a device that drops the set: it does not measure, and no record of a measurement and
no change of a point but the end of a kept assessment comes of them. -/
structure Drops (s w : State) : Prop where
  measuring : w.measuring = false
  offers : OffersOnly (RecordBody.Apart (s.control.device = .standby)) s.builder w.builder
  point : ∀ p, w.point p = { s.point p with assessment := (w.point p).assessment } ∧
    (s.control.device ≠ .standby → (w.point p).assessment = (s.point p).assessment)

theorem Drops.of_ne_standby {s : State} (hd : s.control.device ≠ .standby) (hm : s.measuring = false) :
    Drops s s.changesTaken := by
  rw [State.changesTaken_of_ne_standby hd]
  refine ⟨s.supplyTaken_device.1.trans hm, s.supplyTaken_offers.mono fun _ => RecordBody.Apart.weaken, fun p => ?_⟩
  rw [s.supplyTaken_point p]
  exact ⟨rfl, fun _ => rfl⟩

theorem Drops.of_standby {s : State} (hd : s.control.device = .standby)
    (h : s.control.level = .failing ∨ s.control.prior ≠ some .running ∨ s.setup.restart = .stayStopped) :
    Drops s s.changesTaken := by
  obtain ⟨hm, hoffers, hpoint⟩ := State.takeReturnStandby_stays hd h
  rw [State.changesTaken, State.supplyTaken_standby hd]
  refine ⟨hm, hoffers.mono fun x hx => ?_, fun p => ⟨hpoint p, fun hn => absurd hd hn⟩⟩
  cases x with
  | summary r => exact hd
  | _ => exact hx

/-- The devices that drop the set, as the obligation lists them. -/
theorem Drops.of_cases {s : State} (hcase : s.control.device = .init ∨
      (s.control.device = .stopped ∧ (s.control.level = .good ∨ 1 ≤ s.setup.holdupLimit)) ∨
      (s.control.device = .standby ∧ (s.control.level = .failing ∨ s.control.prior ≠ some .running ∨
        s.setup.restart = .stayStopped)) ∨
      (s.control.device = .holdup ∧ s.control.prior ≠ some .running ∧
        (s.control.level = .good ∨ s.control.timerRunning = false ∨
          (s.count - s.control.holdupStart).toNat < s.setup.holdupLimit * 256))) :
    StaysPowered s ∧ Drops s s.changesTaken := by
  rcases hcase with hd | ⟨hd, h⟩ | ⟨hd, h⟩ | ⟨hd, hp, h⟩
  · refine ⟨.of_idle (.inl hd), .of_ne_standby (by rw [hd]; exact DeviceState.noConfusion) (State.not_measuring ?_ ?_)⟩
    all_goals rw [hd]; exact DeviceState.noConfusion
  · refine ⟨.of_stopped hd h, .of_ne_standby (by rw [hd]; exact DeviceState.noConfusion) (State.not_measuring ?_ ?_)⟩
    all_goals rw [hd]; exact DeviceState.noConfusion
  · exact ⟨.of_idle (.inr hd), .of_standby hd h⟩
  · refine ⟨.of_holdup hd h, .of_ne_standby (by rw [hd]; exact DeviceState.noConfusion) ?_⟩
    rw [s.measuring_holdup hd]
    exact beq_false_of_ne hp

/-- No record that a measurement brings: as the obligation lists the kinds. -/
theorem RecordBody.Apart.kinds {q : Prop} {b : RecordBody} (h : b.Apart q) :
    (∀ r, b ≠ .event r) ∧ (∀ r, b ≠ .interval r) ∧ (∀ r, b ≠ .block r) ∧ (¬q → ∀ r, b ≠ .summary r) := by
  refine ⟨?_, ?_, ?_, fun hq => ?_⟩ <;> rintro r rfl
  · exact h
  · exact h
  · exact h
  · exact hq h

theorem ModuleEnds.apart {q : Prop} {epoch : Tick} {unset : Bool} {m : Module} {x y : ModuleRecord} {b : RecordBody}
    (h : ModuleEnds epoch unset m x y b) : b.Apart q := by
  rcases h with ⟨-, -, rfl⟩ | ⟨k, -, -, rfl⟩ <;> exact trivial

theorem Begins.offers {s w v : State} {set : SampleSet} (h : Begins s w v set) (q : Prop) :
    OffersOnly (RecordBody.Apart q) w.builder v.builder := by
  obtain ⟨bodies, -, hmem, hsaid⟩ := h.ends.said
  refine ⟨bodies, hsaid.builder, fun b hb => ?_⟩
  obtain ⟨m, hm⟩ := (hmem b).mp hb
  exact hm.apart

section
variable {s t w v x : State} {o : Interleaving} {set : SampleSet} {changes : Vector Bool 4} {u d : Point → State}

/-- No point takes the set of a device that does not measure. -/
theorem Expires.passes (h : Expires s o t w v x set changes u d) (hm : w.measuring = false) : Passes v t := by
  have hd (p : Point) : d p = u p := h.turns.passes (.inl (h.begins.device.2.trans hm))
  rw [h.ends]
  exact h.turns.inTurn.passes hd |>.trans (.formLast x o)

/-- The turns and what follows them leave whether the device measures. -/
theorem Expires.measuring (h : Expires s o t w v x set changes u d) : t.measuring = w.measuring := by
  obtain ⟨-, -, -, -, -, -, -, -, hlast⟩ := x.formLast_only o
  have hd : (d 0).measuring = (u 0).measuring := by
    rw [h.turns.turn 0]
    unfold State.deliverIf
    split
    · unfold State.measuring
      rw [(Within.deliver false (u 0) s.count set 0 changes[(0 : Point).val] nofun).1.control]
    · rfl
  rw [h.ends, hlast, (h.turns.after 0).measuring, hd, (h.turns.before 0).measuring, h.begins.device.2]

end

/-- No channel falls due when the device does not measure. -/
theorem State.expire_due {s : State} (sfi : SupplyLevel) (o : Interleaving) (hm : (s.expire sfi o).measuring = false)
    (c : Channel) : ((s.expire sfi o).channel c).due = (s.channel c).due := by
  have hn := (s.expire_newTick sfi o).dues c
  rw [hm] at hn
  refine Bool.eq_iff_iff.mpr (hn.trans (or_iff_left ?_))
  rintro (⟨h, -⟩ | ⟨h, -⟩) <;> cases h

/-- The channels of a point at its turn and after the expiry of a device away from STANDBY. -/
theorem Expires.channels {s t v x : State} {o : Interleaving} {set : SampleSet} {changes : Vector Bool 4}
    {u d : Point → State} (h : Expires s o t s.supplyTaken v x set changes u d) (p : Point) :
    (∀ c, ((u p).channel c).entry = (s.channel c).entry) ∧
    (∀ c, (s.channel c).entry.point = p.val → (u p).channel c = { s.channel c with due := ((u p).channel c).due }) ∧
    ∀ c, (s.channel c).entry.point = p.val → t.channel c = { (d p).channel c with due := (t.channel c).due } := by
  have hw (c : Channel) : s.supplyTaken.channel c = s.channel c := by
    obtain ⟨k, cap, b, a, hs⟩ := s.supplyTaken_only
    rw [hs]
    rfl
  have hentry (c : Channel) : ((u p).channel c).entry = (s.channel c).entry := by
    rw [(h.turns.before p).entry c, ← hw c]
    exact congrArg (fun r : Vector ChannelRecord 24 => r[c.val].entry) h.begins.store.channels
  refine ⟨hentry, fun c hc => ?_, fun c hc => h.afterChannel p (by rw [hentry c]; exact hc)⟩
  rw [← hw c] at hc ⊢
  exact (h.found p).2 c hc

/-- Settles O9: a device that measures by the turns of its points, the others by what passes beside them. -/
theorem expiryWritesHistory : Obligations.ExpiryWritesHistory := by
  refine ⟨fun s sfi o hcase => ?stored, fun s sfi o hcase => ?dropped⟩
  case stored =>
    have hpowered : StaysPowered s := hcase.elim (fun ⟨hd, h⟩ => .of_running hd h) fun ⟨hd, _, h⟩ => .of_holdup hd h
    have hm : s.measuring = true := by
      rcases hcase with ⟨hd, -⟩ | ⟨hd, hp, -⟩
      · exact State.measuring_running hd
      · rw [s.measuring_holdup hd, hp]
        rfl
    have hinit : s.control.device ≠ .init := by
      rcases hcase with ⟨hd, -⟩ | ⟨hd, -⟩ <;> rw [hd] <;> exact DeviceState.noConfusion
    obtain ⟨v, x, set, changes, u, d, h⟩ := hpowered.expires sfi o
    rw [State.changesTaken_of_ne_standby (State.measuring_not_standby hm)] at h
    obtain ⟨hhistory, huhistory⟩ := h.history
    have hwm : s.supplyTaken.measuring = true := s.supplyTaken_device.1.trans hm
    have hwi : s.supplyTaken.control.device ≠ .init := mt s.supplyTaken_device.2.1.mp hinit
    have hv : v.history = s.history.write s.count set := h.begins.history.trans (if_pos hwm)
    refine ⟨_, s.supplyTaken, s.takeFailure, v, x, set, storeSet set, u, d, exec_expiry s sfi o, h.begins.set,
      ?_, ?_, storeSet_slot set, rfl, rfl, h.begins.brings hinit, h.turns.inTurn, fun hf => ?_,
      fun hf => ⟨x.takeFailure, rfl, ?_⟩, fun p => ?_⟩
    · rw [hhistory, hv]
      rfl
    · rw [hhistory, hv]
      rfl
    · exact h.ends.trans (if_neg hf)
    · exact h.ends.trans (if_pos hf)
    · have hfound := (h.found p).1
      rw [s.supplyTaken_point p, if_neg hwi] at hfound
      obtain ⟨hentry, hbefore, hafter⟩ := h.channels p
      obtain ⟨hcount, hsetup, -, hoffset, hunset⟩ := h.begins.fixed
      have hturn := h.turns.before p
      refine ⟨fun hp => ⟨changes[p.val], ?_, ?_, hfound, hentry, hbefore, hturn.count.trans hcount,
        hturn.setup.trans hsetup, (huhistory p).trans hhistory.symm, ?_, ?_, ?_, h.after p, hafter⟩, fun hp => ?_⟩
      · exact h.delivers hwm (by rw [s.supplyTaken_point p]; exact hp)
      · rw [h.notices p, s.supplyTaken_point p]
      · exact hturn.measuring.trans (h.begins.device.2.trans hwm)
      · rw [hturn.control]
        exact hoffset
      · rw [hturn.control]
        exact hunset
      · have hsame : d p = u p := h.turns.passes (.inr (by rw [h.begins.point p, s.supplyTaken_point p]; exact hp))
        have hpoint := h.after p
        rw [hsame, hfound] at hpoint
        refine ⟨hsame, hpoint, fun c hc => ?_⟩
        have hchannel := hafter c hc
        rw [hsame, hbefore c hc] at hchannel
        exact hchannel
  case dropped =>
    obtain ⟨hpowered, hdrops⟩ := Drops.of_cases hcase
    obtain ⟨v, x, set, changes, u, d, h⟩ := hpowered.expires sfi o
    have hpass := h.passes hdrops.measuring
    have hdue := State.expire_due sfi o (h.measuring.trans hdrops.measuring)
    have hstore : s.changesTaken.eventTag = s.eventTag ∧ s.changesTaken.channels = s.channels := by
      obtain ⟨k, c, b, a, r, hs⟩ := s.changesTaken_only
      rw [hs]
      exact ⟨rfl, rfl⟩
    have hv (c : Channel) : v.channel c = s.channel c :=
      congrArg (fun r : Vector ChannelRecord 24 => r[c.val]) (h.begins.store.channels.trans hstore.2)
    obtain ⟨bodies, hbuilder, hbodies⟩ := (hdrops.offers.trans (h.begins.offers _)).trans
      (hpass.later.builder.mono fun _ => RecordBody.Apart.weaken)
    refine ⟨_, set, exec_expiry s sfi o, h.begins.set, ?_, ?_, ?_, ⟨bodies, hbuilder, fun b hb => (hbodies b hb).kinds⟩,
      fun p => ?_⟩
    · rw [hpass.history, h.begins.history, hdrops.measuring]
      rfl
    · refine Vector.ext fun c hc => ?_
      have hchannel := hpass.channels ⟨c, hc⟩
      rw [hv, hdue] at hchannel
      exact hchannel
    · exact hpass.eventTag.trans (h.begins.store.eventTag.trans hstore.1)
    · obtain ⟨hpoint, hassessment⟩ := hdrops.point p
      have hlast := hpass.points p
      rw [h.begins.point p, hpoint] at hlast
      have hreference : (if s.changesTaken.control.device = .init then (s.point p).reference
          else s.chooseReference p set) =
          if s.control.device = .init then (s.point p).reference else s.chooseReference p set := by
        simp only [s.changesTaken_init]
      rw [hreference] at hlast
      rw [hlast]
      exact ⟨rfl, hassessment⟩

end Sys2Proof.Machine
end

section
/-! PROOFS. What happens before and after the issue of the strobe among the points' turns: timeouts, checks (R2, R19, R31,
R32, log entry 3). -/

namespace Sys2Proof.Machine

/-! ### Without the strobe -/

/-- At tick `n` a module keeps all but its command, which ends if it is overdue (R19). -/
structure Timed (n : Tick) (x y : ModuleRecord) : Prop where
  same : y = { x with command := y.command }
  command : y.command = x.command ∨
    (y.command = none ∧ ∃ k e, x.command = some k ∧ k.sent = some e ∧ 64 < (n - e.tick).toNat)

theorem Timed.refl (n : Tick) (x : ModuleRecord) : Timed n x x :=
  ⟨rfl, .inl rfl⟩

theorem Timed.trans {n : Tick} {x y z : ModuleRecord} (h : Timed n x y) (k : Timed n y z) : Timed n x z := by
  refine ⟨k.same.trans (by rw [h.same]), ?_⟩
  rcases h.command with hy | hy <;> rcases k.command with hz | ⟨hz, hn⟩
  · exact .inl (hz.trans hy)
  · rw [hy] at hn
    exact .inr ⟨hz, hn⟩
  · exact .inr ⟨hz.trans hy.1, hy.2⟩
  · exact .inr ⟨hz, hy.2⟩

theorem Timed.lapsed {n : Tick} {x y : ModuleRecord} (h : Timed n x y) : Lapsed x y := by
  refine ⟨h.same, h.command.imp_right fun ⟨hy, k, e, hk, he, _⟩ => ⟨hy, ?_⟩⟩
  refine Bool.eq_false_iff.mpr fun hw => ?_
  obtain ⟨k', hk', hn⟩ := (ModuleRecord.waiting_iff x).mp hw
  obtain rfl := Option.some.inj (hk.symm.trans hk')
  rw [he] at hn
  cases hn

/-- From `s` to `t` no strobe is issued, and the points of `l` take the set of tick `n`. -/
structure Passing (n : Tick) (l : List Point) (s t : State) : Prop where
  count : t.count = s.count
  standby : t.control.device = .standby ↔ s.control.device = .standby
  strobe : t.strobe = s.strobe
  entry : ∀ c, (t.channel c).entry = (s.channel c).entry
  module : ∀ m, Timed s.count (s.module m) (t.module m)
  others : ∀ p, p ∉ l → t.point p = s.point p
  taken : ∀ p ∈ l, CheckMoves n (fun c => (s.channel c).entry) (s.point p) (t.point p)

section
variable {n : Tick} {l l' : List Point} {s t u : State}

theorem Passing.trans (hl : ∀ p ∈ l, p ∉ l') (h : Passing n l s t) (k : Passing n l' t u) : Passing n (l ++ l') s u := by
  refine ⟨k.count.trans h.count, k.standby.trans h.standby, k.strobe.trans h.strobe,
    fun c => (k.entry c).trans (h.entry c), fun m => ?_, fun p hp => ?_, fun p hp => ?_⟩
  · have hk := k.module m
    rw [h.count] at hk
    exact (h.module m).trans hk
  · rw [List.mem_append, not_or] at hp
    rw [k.others p hp.2, h.others p hp.1]
  · by_cases hin : p ∈ l
    · rw [k.others p (hl p hin)]
      exact h.taken p hin
    · have hk := k.taken p ((List.mem_append.mp hp).resolve_left hin)
      rw [funext h.entry, h.others p hin] at hk
      exact hk

/-- What leaves the points takes the set at none. -/
theorem Passing.pass (hcount : t.count = s.count) (hstandby : t.control.device = .standby ↔ s.control.device = .standby)
    (hstrobe : t.strobe = s.strobe) (hentry : ∀ c, (t.channel c).entry = (s.channel c).entry)
    (hmodule : ∀ m, Timed s.count (s.module m) (t.module m)) (hpoint : ∀ p, t.point p = s.point p) :
    Passing n [] s t :=
  ⟨hcount, hstandby, hstrobe, hentry, hmodule, fun p _ => hpoint p, fun _ hp => absurd hp List.not_mem_nil⟩

theorem Passing.refl (n : Tick) (s : State) : Passing n [] s s :=
  .pass rfl Iff.rfl rfl (fun _ => rfl) (fun _ => .refl _ _) fun _ => rfl

theorem Passing.after (h : Passing n l s t) (k : Passing n [] t u) : Passing n l s u := by
  have hk := h.trans (fun _ _ => List.not_mem_nil) k
  rwa [List.append_nil] at hk

theorem Passing.formed (h : Formed s t) : Passing n [] s t := by
  obtain ⟨q, sh, c, b, a, -, -, -, -, rfl⟩ := h
  exact .pass rfl Iff.rfl rfl (fun _ => rfl) (fun _ => .refl _ _) fun _ => rfl

theorem Passing.marks (h : MarkKept s t) : Passing n [] s t := by
  have hs := Stable.placed h.placed
  refine .pass hs.count (by rw [h.control]) h.strobe hs.entry (fun m => ?_) fun p => by rw [h.points]
  rw [h.modules]
  exact .refl _ _

end

theorem State.timeoutAll_timed {order : List Module} (ho : order.Nodup) (s : State) (m : Module) :
    Timed s.count (s.module m) ((s.timeoutAll order).module m) := by
  rw [(s.timeoutAll_spec order ho).2.2 m]
  split
  · next h =>
    refine ⟨rfl, .inr ⟨rfl, ?_⟩⟩
    have hover := h.2
    rw [State.overdueReply_isSome] at hover
    cases hk : (s.module m).command with
    | none =>
      rw [State.commandOverdue_none hk] at hover
      cases hover
    | some k =>
      cases he : k.sent with
      | none =>
        rw [State.commandOverdue_unsent hk he] at hover
        cases hover
      | some e =>
        rw [State.commandOverdue_sent hk he] at hover
        exact ⟨k, e, rfl, he, of_decide_eq_true hover⟩
  · exact .refl _ _

section
variable (n : Tick)

theorem Passing.timeoutIfAt (s : State) (o : Interleaving) (first : Bool) (k : Nat) :
    Passing n [] s (s.timeoutIfAt o first k) := by
  have ho := (eachOnce_orderOf o.moduleOrder).nodup
  unfold State.timeoutIfAt
  split
  · have hmodule := s.timeoutAll_timed ho
    obtain ⟨r, b, a, he⟩ := (s.timeoutAll_spec _ ho).2.1
    rw [he] at hmodule ⊢
    exact .pass rfl Iff.rfl rfl (fun _ => rfl) hmodule fun _ => rfl
  · exact .refl n s

theorem Passing.formIfAt (s : State) (o : Interleaving) (k : Fin 5) : Passing n [] s (s.formIfAt o k) :=
  .formed (.formIfAt s o k)

theorem State.markDue_kept (s : State) (period second : Bool) :
    ∃ v, s.markDue period second = { s with channels := v } := by
  unfold State.markDue
  split
  · exact ⟨_, rfl⟩
  · exact ⟨_, rfl⟩

theorem MarkKept.takePeriodDue (s : State) : MarkKept s s.takePeriodDue := by
  obtain ⟨v, hv⟩ := s.markDue_kept true false
  have hp := Placed.takePeriodDue s
  cases hw : s.dueNow.period with
  | false =>
    rw [State.takePeriodDue_taken hw] at hp ⊢
    exact .of hp rfl
  | true =>
    refine .of hp (v := v) (d := { s.dueNow with period := false }) ?_
    rw [State.takePeriodDue, if_pos hw, hv]

theorem MarkKept.takeSecondDue (s : State) : MarkKept s s.takeSecondDue := by
  obtain ⟨v, hv⟩ := s.markDue_kept false true
  have hp := Placed.takeSecondDue s
  cases hw : s.dueNow.second with
  | false =>
    rw [State.takeSecondDue_taken hw] at hp ⊢
    exact .of hp rfl
  | true =>
    refine .of hp (v := v) (d := { s.dueNow with second := false }) ?_
    rw [State.takeSecondDue, if_pos hw, hv]

theorem Passing.periodIfAt (s : State) (o : Interleaving) (k : Fin 5) : Passing n [] s (s.periodIfAt o k) := by
  unfold State.periodIfAt
  split
  · exact .marks (.takePeriodDue s)
  · exact .refl n s

theorem Passing.secondIfAt (s : State) (o : Interleaving) (k : Fin 5) : Passing n [] s (s.secondIfAt o k) := by
  unfold State.secondIfAt
  split
  · exact .marks (.takeSecondDue s)
  · exact .refl n s

/-- A place of the order, up to the strobe if that is issued there. -/
def State.beforeField (s : State) (o : Interleaving) (k : Fin 5) : State :=
  ((((s.timeoutIfAt o true k.val).formIfAt o k).timeoutIfAt o false k.val).periodIfAt o k).secondIfAt o k

theorem Passing.beforeField (s : State) (o : Interleaving) (k : Fin 5) : Passing n [] s (s.beforeField o k) :=
  ((((Passing.timeoutIfAt n s o true k.val).after (.formIfAt n _ o k)).after (.timeoutIfAt n _ o false k.val)).after
    (.periodIfAt n _ o k)).after (.secondIfAt n _ o k)

theorem State.between_at {o : Interleaving} {k : Fin 5} (h : o.fieldAt = k) (s : State) :
    s.between o k = (s.beforeField o k).issueStrobe :=
  if_pos h

theorem Passing.between {o : Interleaving} {k : Fin 5} (h : o.fieldAt ≠ k) (s : State) :
    Passing n [] s (s.between o k) := by
  rw [show s.between o k = s.beforeField o k from if_neg h]
  exact .beforeField n s o k

theorem Passing.formLast (s : State) (o : Interleaving) : Passing n [] s (s.formLast o) := by
  obtain ⟨k, c, b, a, q, sh, he, hd, -⟩ := s.formLast_only o
  rw [he]
  exact .pass rfl hd rfl (fun _ => rfl) (fun _ => .refl _ _) fun _ => rfl

theorem Passing.deliverIf (s : State) (set : SampleSet) (changes : Vector Bool 4) (p : Point) :
    Passing n [p] s (s.deliverIf n set changes p) := by
  unfold State.deliverIf
  split
  · have hw := (Within.deliver false s n set p changes[p.val] nofun).1
    refine ⟨hw.count, by rw [hw.control], hw.strobe, hw.entry, fun m => ?_,
      fun q hq => hw.others q (mt List.mem_singleton.mpr hq), fun q hq => ?_⟩
    · rw [show (s.deliver n set p changes[p.val]).module m = s.module m from
        congrArg (fun v : Vector ModuleRecord 4 => v[m.val]) hw.modules]
      exact .refl _ _
    · rw [List.mem_singleton.mp hq]
      exact s.deliver_moves n set p changes[p.val]
  · exact ⟨rfl, Iff.rfl, rfl, fun _ => rfl, fun _ => .refl _ _, fun _ _ => rfl, fun _ _ => .same rfl⟩

/-! ### The turns before the strobe, and those after it -/

theorem Passing.turns {o : Interleaving} (set : SampleSet) (changes : Vector Bool 4) {l : List (Point × Fin 5)}
    (hl : (l.map Prod.fst).Nodup) (hf : ∀ q ∈ l, o.fieldAt ≠ q.2) (s : State) :
    Passing n (l.map Prod.fst) s (l.foldl (fun s q => s.turn n set changes o q) s) := by
  induction l generalizing s with
  | nil => exact .refl n s
  | cons q later ih =>
    rw [List.map_cons, List.nodup_cons] at hl
    rw [List.forall_mem_cons] at hf
    have hturn : Passing n [q.1] s (s.turn n set changes o q) :=
      Passing.trans (fun _ hp => absurd hp List.not_mem_nil) (.between n hf.1 s) (.deliverIf n _ set changes q.1)
    exact hturn.trans (List.forall_mem_singleton.mpr hl.1) (ih hl.2 hf.2 _)

/-- The turns with the strobe among them: it is issued in `u`, after the points of `earlier` took the set and before those
of `later` do. -/
structure IssuedAmong (n : Tick) (earlier later : List Point) (s u t : State) : Prop where
  before : Passing n earlier s u
  after : Passing n later u.issueStrobe t

/-- The place of the strobe in the order. -/
theorem fieldAt_splits (a b c d : Point) {f : Fin 5} (hf : f ≠ 4) : ∃ pre q post,
    [(a, 0), (b, 1), (c, 2), (d, 3)] = pre ++ (q, f) :: post ∧ pre.map Prod.fst = [a, b, c, d].take f.val ∧
    q :: post.map Prod.fst = [a, b, c, d].drop f.val ∧ (∀ x ∈ pre, f ≠ x.2) ∧ ∀ x ∈ post, f ≠ x.2 := by
  match f with
  | 0 => exact ⟨[], a, [(b, 1), (c, 2), (d, 3)], rfl, rfl, rfl, by simp, by simp⟩
  | 1 => exact ⟨[(a, 0)], b, [(c, 2), (d, 3)], rfl, rfl, rfl, by simp, by simp⟩
  | 2 => exact ⟨[(a, 0), (b, 1)], c, [(d, 3)], rfl, rfl, rfl, by simp, by simp⟩
  | 3 => exact ⟨[(a, 0), (b, 1), (c, 2)], d, [], rfl, rfl, rfl, by simp, by simp⟩
  | 4 => exact absurd rfl hf

theorem State.deliverAll_issues (s : State) (set : SampleSet) (changes : Vector Bool 4) (o : Interleaving) :
    ∃ u, IssuedAmong n ((orderOf o.pointOrder).take o.fieldAt.val) ((orderOf o.pointOrder).drop o.fieldAt.val) s u
      (s.deliverAll n set changes o) := by
  have hnodup := (eachOnce_orderOf o.pointOrder).nodup
  obtain ⟨a, b, c, d, he⟩ := orderOf_four o.pointOrder
  unfold State.deliverAll
  rw [he] at hnodup ⊢
  by_cases hf : o.fieldAt = 4
  · have hturns := Passing.turns (o := o) n set changes (l := [(a, 0), (b, 1), (c, 2), (d, 3)]) hnodup
      (by rw [hf]; simp) s
    rw [State.between_at hf, hf]
    exact ⟨_, hturns.after (.beforeField n _ o 4), .refl n _⟩
  · obtain ⟨pre, q, post, hzip, hpre, hpost, hbefore, hafter⟩ := fieldAt_splits a b c d hf
    have hlist : [a, b, c, d].zip [0, 1, 2, 3] = pre ++ (q, o.fieldAt) :: post := hzip
    have hsplit : [a, b, c, d] = pre.map Prod.fst ++ q :: post.map Prod.fst := by
      rw [hpre, hpost, List.take_append_drop]
    rw [hsplit] at hnodup
    obtain ⟨hnpre, hnpost, -⟩ := List.nodup_append.mp hnodup
    obtain ⟨hq, hnpost⟩ := List.nodup_cons.mp hnpost
    rw [← hpre, ← hpost, hlist, List.foldl_append, List.foldl_cons]
    have hfirst := Passing.turns (o := o) n set changes hnpre hbefore s
    generalize pre.foldl _ s = r at hfirst ⊢
    refine ⟨_, hfirst.after (.beforeField n r o o.fieldAt), ?_⟩
    have hturn : r.turn n set changes o (q, o.fieldAt) =
        (r.beforeField o o.fieldAt).issueStrobe.deliverIf n set changes q := by
      rw [State.turn, State.between_at rfl]
    rw [hturn]
    have htail := (Passing.deliverIf n (r.beforeField o o.fieldAt).issueStrobe set changes q).trans
      (List.forall_mem_singleton.mpr hq) (Passing.turns (o := o) n set changes hnpost hafter _)
    exact htail.after (.between n hf _)

end

end Sys2Proof.Machine
end

section
/-! PROOFS. The strobe of an expiry: its frame, what its command field does, and what stood before and comes after it (R2 to
R4, R19, R31, R32, section 12.2: O10). -/

namespace Sys2Proof.Machine

/-! ### The checks and the commands when the strobe is issued -/

/-- A point before the first turn, by the check that the deadline left. -/
theorem Begins.check {s v : State} {set : SampleSet} (h : Begins s s.changesTaken v set) (p : Point) :
    (v.point p).check = (s.point p).check.filter (fun k => !k.sent) ∧ (v.point p).low = (s.point p).low := by
  rw [h.point p, s.changesTaken_point p]
  exact ⟨rfl, rfl⟩

theorem Begins.entry {s v : State} {set : SampleSet} (h : Begins s s.changesTaken v set) (c : Channel) :
    (v.channel c).entry = (s.channel c).entry := by
  rw [← (Stable.changesTaken s).entry c]
  exact congrArg (fun r : Vector ChannelRecord 24 => r[c.val].entry) h.store.channels

/-- The command of a module before the first turn. -/
theorem Begins.command {s w v : State} {set : SampleSet} (h : Begins s w v set) (m : Module) :
    (v.module m).echo = (s.module m).echo ∧
    ((s.module m).Loses s.setup m → (v.module m).command = none) ∧
    (¬(s.module m).Loses s.setup m → (s.module m).waiting = true → (v.module m).command = (s.module m).command) ∧
    ((v.module m).command ≠ none → (v.module m).command = (s.module m).command) := by
  obtain ⟨x, c, hx, hv⟩ := h.module m
  have hloses : x.Loses s.setup m ↔ (s.module m).Loses s.setup m := by
    rw [hx.same]
    exact Iff.rfl
  have hkept (hn : ¬(s.module m).Loses s.setup m) : (v.module m).command = x.command := by
    rw [hv]
    exact ModuleRecord.atDeadline_command (mt hloses.mp hn)
  have hlost := fun hl => (h.module_lost (m := m) hl).2
  refine ⟨?_, hlost, fun hn hw => ?_, fun hsome => ?_⟩
  · obtain ⟨-, -, -, -, -, -, hecho⟩ := x.atDeadline_same s.setup m
    rw [hv]
    refine hecho.trans ?_
    rw [hx.same]
  · rcases hx.command with hc | ⟨-, hc⟩
    · exact (hkept hn).trans hc
    · rw [hw] at hc
      cases hc
  · have hn : ¬(s.module m).Loses s.setup m := fun hl => hsome (hlost hl)
    rcases hx.command with hc | ⟨hc, -⟩
    · exact (hkept hn).trans hc
    · exact absurd ((hkept hn).trans hc) hsome

theorem ModuleRecord.waiting_ne_none {x : ModuleRecord} (h : x.waiting = true) : x.command ≠ none := by
  obtain ⟨k, hk, -⟩ := x.waiting_iff.mp h
  rw [hk]
  exact Option.some_ne_none k

theorem ModuleRecord.waiting_congr {x y : ModuleRecord} (h : y.command = x.command) : y.waiting = x.waiting := by
  unfold ModuleRecord.waiting
  rw [h]

/-- A command that waits stands through timeouts. -/
theorem Timed.waiting {n : Tick} {x y : ModuleRecord} (h : Timed n x y) (hw : x.waiting = true) :
    y.command = x.command := by
  rcases h.lapsed.command with hy | ⟨-, hn⟩
  · exact hy
  · rw [hw] at hn
    cases hn

theorem Timed.of_some {n : Tick} {x y : ModuleRecord} (h : Timed n x y) (hy : y.command ≠ none) :
    y.command = x.command :=
  h.command.resolve_right fun hn => hy hn.1

/-- The moves of a check are the turns that the obligation describes. -/
theorem CheckMoves.turns {s : State} {p : Point} {x y : PointRecord}
    (h : CheckMoves s.count (fun c => (s.channel c).entry) x y) (hl : x.low = (s.point p).low) :
    CheckTurns s p x.check y :=
  ⟨fun k hk => by
    rw [← hl]
    exact h.kept k hk, h.scheduled⟩

/-! ### After the strobe -/

/-- A command that ends after the strobe was issued was overdue when it was. -/
theorem Timed.after_strobe {u t : State} {m : Module} (h : Timed u.count (u.issueStrobe.module m) (t.module m)) :
    (t.module m).command = (u.issueStrobe.module m).command ∨
      ((t.module m).command = none ∧ ∃ k e, (u.module m).command = some k ∧ k.sent = some e ∧
        64 < (u.count - e.tick).toNat) := by
  refine h.command.imp_right fun ⟨hn, k, e, hk, he, hlate⟩ => ⟨hn, ?_⟩
  rcases u.issueStrobe_issued.command m with hsame | ⟨k', echo, -, -, hsent⟩
  · exact ⟨k, e, hsame.symm.trans hk, he, hlate⟩
  · rw [hsent] at hk
    obtain rfl := Option.some.inj hk
    obtain rfl := Option.some.inj he
    have hz : (u.count - u.count).toNat = 0 := by rw [BitVec.sub_self]; rfl
    dsimp only at hlate
    omega

/-! ### The obligation -/

/-- The strobe as it is issued, by what stands in line for its field (R3, R4). -/
theorem State.issueStrobe_spec (s : State) :
    (s.control.device = .standby →
      s.issueStrobe = { s with
        strobe := { tag := s.count.setWidth 8, field := .none, transmitted := false } }) ∧
    (s.control.device ≠ .standby → ∀ (p : Point) (k : CheckInFlight),
      (s.point p).check = some k → k.sent = false → k.target = s.count →
      (∀ q, q < p → (s.point q).aims s.count = false) →
      (s.issueStrobe.point p) = { s.point p with check := some { k with sent := true } } ∧
      (∀ q, q ≠ p → (s.point q).aims s.count = true →
        s.issueStrobe.point q =
          { s.point q with check := (s.point q).check.map (fun x => { x with target := s.count + 1 }) }) ∧
      (∀ q, q ≠ p → (s.point q).aims s.count = false → s.issueStrobe.point q = s.point q) ∧
      s.issueStrobe = { s with
        points := s.issueStrobe.points
        strobe := { tag := s.count.setWidth 8, field := .check k.module k.slot, transmitted := true } }) ∧
    (s.control.device ≠ .standby → (∀ p, (s.point p).aims s.count = false) → ∀ (m : Module) (k : ModuleCommand),
      (s.module m).command = some k → k.sent = none → (∀ n, n < m → (s.module n).waiting = false) →
      s.issueStrobe.module m =
        { s.module m with
          echo := (s.module m).echo + 1
          command := some { k with sent := some { echo := (s.module m).echo, tick := s.count } } } ∧
      (∀ n, n ≠ m → s.issueStrobe.module n = s.module n) ∧
      s.issueStrobe = { s with
        modules := s.issueStrobe.modules
        strobe := { tag := s.count.setWidth 8, field := .forward m (s.module m).echo k.word, transmitted := true } }) ∧
    (s.control.device ≠ .standby → (∀ p, (s.point p).aims s.count = false) → (∀ m, (s.module m).waiting = false) →
      s.issueStrobe = { s with
        strobe := { tag := s.count.setWidth 8, field := .none, transmitted := true } }) := by
  refine ⟨fun hd => ?standby, fun hd p k hk hs ht hlow => ?check, fun hd ha m k hk hs hlow => ?forward,
    fun hd ha hw => ?idle⟩
  case standby =>
    rw [State.issueStrobe_standby hd, State.formStrobe, hd]
    rfl
  case check =>
    have hfind := allFour_find? (q := fun q => (s.point q).aims s.count)
      ((PointRecord.aims_iff _ _).mpr ⟨k, hk, hs, ht⟩) hlow
    have hfield : (s.point p).checkField = .check k.module k.slot := by rw [PointRecord.checkField, hk]
    rw [State.issueStrobe_check hd hfind, State.formStrobe_transmitted hd, hfield]
    have hpoint := s.arbitrateChecks_point p
    refine ⟨?_, fun q hq ha => ?_, fun q hq ha => ?_, rfl⟩
    · refine (hpoint p s.count).trans ?_
      rw [if_pos rfl, PointRecord.sendCheck_check hk]
    · refine (hpoint q s.count).trans ?_
      rw [if_neg hq, if_pos ha]
      obtain ⟨x, hx, -, hxt⟩ := (PointRecord.aims_iff _ _).mp ha
      rw [PointRecord.retarget, hx, Option.map_some]
      rw [Option.map_some, hxt]
    · refine (hpoint q s.count).trans ?_
      rw [if_neg hq, if_neg (Bool.eq_false_iff.mp ha)]
  case forward =>
    have hfind := allFour_find? (q := fun n => (s.module n).waiting) ((ModuleRecord.waiting_iff _).mpr ⟨k, hk, hs⟩) hlow
    have hfield : (s.module m).forwardField m = .forward m (s.module m).echo k.word := by
      rw [ModuleRecord.forwardField, hk]
    rw [State.issueStrobe_forward hd (allFour_find?_none ha) hfind, State.formStrobe_transmitted hd, hfield]
    refine ⟨?_, fun n hn => ?_, rfl⟩
    · refine (State.modModule_module s m m _).trans ?_
      rw [if_pos rfl, ModuleRecord.forward_command hk]
    · exact (State.modModule_module s m n _).trans (if_neg hn)
  case idle =>
    rw [State.issueStrobe_idle hd (allFour_find?_none ha) (allFour_find?_none hw), State.formStrobe_transmitted hd]

/-- The bytes of the strobe frame, by its command field (section 12.2). -/
theorem StrobeFrame.bytes_spec (tag : Byte) (transmitted : Bool) :
    StrobeFrame.bytes { tag := tag, field := .none, transmitted := transmitted } =
      sealFrame [tag, 0, 0, 0, 0, 0, 0, 0] ∧
    (∀ m slot : Nat, StrobeFrame.bytes { tag := tag, field := .check m slot, transmitted := transmitted } =
      sealFrame [tag, 1, BitVec.ofNat 8 m, BitVec.ofNat 8 slot, 0, 0, 0, 0]) ∧
    ∀ (m : Module) (echo : Byte) (word : BitVec 32),
      StrobeFrame.bytes { tag := tag, field := .forward m echo word, transmitted := transmitted } =
        sealFrame ([tag, 2, BitVec.ofNat 8 m.val, echo] ++ beBytes 4 word.toNat) := by
  unfold StrobeFrame.bytes
  refine ⟨rfl, fun m slot => ?_, fun m echo word => ?_⟩
  · dsimp only
    rw [beBytes_one, beBytes_one]
    rfl
  · dsimp only
    rw [beBytes_one]
    rfl

/-- Settles O10: the ways of issuing the strobe, its bytes, and the turns before and after it. -/
theorem strobeFieldArbitrated : Obligations.StrobeFieldArbitrated := by
  refine ⟨State.issueStrobe_spec, fun s p m t => ⟨(s.point p).aims_iff t, (s.module m).waiting_iff⟩,
    StrobeFrame.bytes_spec, fun s sfi o hpowered => ?_⟩
  have h := hpowered.begins sfi o
  obtain ⟨u, hissued⟩ := ((s.atDeadline sfi o).beforeTurns s.count).deliverAll_issues s.count
    (s.atDeadline sfi o).closingSet ((s.atDeadline sfi o).referenceChanges (s.atDeadline sfi o).closingSet) o
  have hbefore := hissued.before
  have hafter : Passing s.count _ u.issueStrobe (s.expire sfi o) :=
    hissued.after.after (.formLast s.count _ o)
  have hnodup := (eachOnce_orderOf o.pointOrder).nodup
  refine ⟨s.expire sfi o, u, _, _, fun m => (s.module m).Loses s.setup m, exec_expiry s sfi o, rfl, rfl, ?_⟩
  generalize s.expire sfi o = t at hafter ⊢
  generalize (s.atDeadline sfi o).beforeTurns s.count = v at h hbefore
  have hstrobe := u.issueStrobe_issued
  have hkeeps : u.issueStrobe.count = u.count ∧ u.issueStrobe.control = u.control ∧
      ∀ c, u.issueStrobe.channel c = u.channel c := by
    rw [hstrobe.rest]
    exact ⟨rfl, rfl, fun _ => rfl⟩
  have hentry (c : Channel) : (u.issueStrobe.channel c).entry = (s.channel c).entry := by
    rw [hkeeps.2.2 c, hbefore.entry c, h.entry c]
  have hlater (m : Module) : Timed u.count (u.issueStrobe.module m) (t.module m) := by
    rw [← hkeeps.1]
    exact hafter.module m
  have hcommand := h.command
  have hnow : v.count = s.count + 1 := h.fixed.1
  refine ⟨hbefore.count.trans hnow, ?_, hafter.strobe, fun m => ⟨?_, ?_⟩, fun m => Iff.rfl,
    fun m => ⟨fun hl => ?_, fun hl hw => ?_, fun hw => ?_⟩, fun m => (hlater m).after_strobe, fun p hp => ⟨?_, ?_⟩, fun p hp => ⟨?_, ?_⟩⟩
  · rw [hafter.standby, hkeeps.2.1]
  · rw [(hbefore.module m).same]
    exact (hcommand m).1
  · rw [(hlater m).same]
  · rcases (hbefore.module m).command with hc | ⟨hc, -⟩
    · exact hc.trans ((hcommand m).2.1 hl)
    · exact hc
  · have hv := (hcommand m).2.2.1 hl hw
    exact ((hbefore.module m).waiting ((ModuleRecord.waiting_congr hv).trans hw)).trans hv
  · have hu := ModuleRecord.waiting_ne_none hw
    have hv := (hbefore.module m).of_some hu
    exact hv.trans ((hcommand m).2.2.2 (hv ▸ hu))
  · have hmoves := hbefore.taken p hp
    rw [funext h.entry] at hmoves
    obtain ⟨hcheck, hlow⟩ := h.check p
    rw [← hcheck]
    exact hmoves.turns hlow
  · rw [hafter.others p (not_mem_drop hnodup hp)]
  · have hout : p ∉ (orderOf o.pointOrder).take o.fieldAt.val := fun hp' =>
      not_mem_drop hnodup hp' hp
    rw [hbefore.others p hout]
    exact (h.check p).1
  · have hmoves := hafter.taken p hp
    rw [funext hentry] at hmoves
    refine hmoves.turns ?_
    have hout : p ∉ (orderOf o.pointOrder).take o.fieldAt.val := fun hp' =>
      not_mem_drop hnodup hp' hp
    rw [hstrobe.point p, hbefore.others p hout]
    exact (h.check p).2

end Sys2Proof.Machine
end
